-- ==== Sys2Proof/Word.lean ====
section
/-! DEFINITION. The words of FBD: register words, an element of the scalar type `T`, a complex pair (R14–R17). -/

namespace Sys2Proof

/-- A 32-bit register or command word (R33, R110). -/
abbrev Word32 := BitVec 32

/-- A 64-bit register: a count, an element address or a stride (R33–R38). -/
abbrev Word64 := BitVec 64

/-- A value of the scalar type `T` (R140), held as its code.
For `f32` and `f64` the code is the IEEE 754 encoding (R35, R141).
For the OPEN types it is a number that names a member of the build's carrier set (R142). -/
structure Elem where
  code : Nat
deriving DecidableEq, Repr, Inhabited

/-- A complex value: a pair `(re, im)` of `T` (R16). -/
structure Cx where
  re : Elem
  im : Elem
deriving DecidableEq, Repr, Inhabited

end Sys2Proof
end

