-- ==== Sys2Proof/Syntax.lean ====
section
/-! DEFINITION. The commands of FBD-CMD v1 as syntax (R110–R114): one constructor per row of the opcode table. -/

namespace Sys2Proof

/-- `DIR`: the direction of a transform (R113, R20). -/
inductive Dir where
  | forward
  | inverse
deriving DecidableEq, Repr, Inhabited

/-- The six vector widths of a feature mask, in the order of its bits 0 to 5 (R260). -/
inductive Width where
  | f4
  | f8
  | f16
  | d2
  | d4
  | d8
deriving DecidableEq, Repr, Inhabited

/-- `VSEL` and `VW`: a command's SIMD policy (R112). -/
inductive Policy where
  | auto
  | scalar
  | force (w : Width)
deriving DecidableEq, Repr, Inhabited

/-- The commands (R114). Operands `A` and `B` are unsigned numbers (R111), under the names each command gives them. -/
inductive Instr where
  | xfs (dir : Dir) (pol : Policy)
  | xfi (dir : Dir) (pol : Policy)
  | xft (dir : Dir) (pol : Policy)
  | blu (dir : Dir) (pol : Policy)
  | brv (log2n : Nat)
  | dil
  | ilv
  | pass (dir : Dir) (d log2n : Nat)
  | r8 (dir : Dir) (log2n : Nat)
  | mps (dir : Dir) (pol : Policy) (log2n depth : Nat)
  | bfy (dir : Dir) (pol : Policy) (log2n : Nat)
  | scl
  | twg (dir : Dir) (bigN l : Nat)
  | twf (dir : Dir)
  | cxm (k : Nat)
  | cxf
  | prb
  | sel (pol : Policy) (log2n depth : Nat)
  | omp (dir : Dir) (pol : Policy) (log2n depth : Nat)
deriving DecidableEq, Repr, Inhabited

end Sys2Proof
end

