-- ==== Sys2Proof/WellFormed.lean ====
section
/-! DEFINITION. Which commands have a word: the operands `A` and `B` are five bits wide (R110, R111). -/

namespace Sys2Proof

/-- An operand fits a five-bit field (R111). -/
def fitsField (x : Nat) : Bool := decide (x < 32)

/-- A command is well formed when each of its operands fits its field (R111).
The ranges a command's own rule states are checked when it runs, and give `-1` (R111). -/
def Instr.wellFormed : Instr → Bool
  | .xfs _ _ => true
  | .xfi _ _ => true
  | .xft _ _ => true
  | .blu _ _ => true
  | .brv log2n => fitsField log2n
  | .dil => true
  | .ilv => true
  | .pass _ d log2n => fitsField d && fitsField log2n
  | .r8 _ log2n => fitsField log2n
  | .mps _ _ log2n depth => fitsField log2n && fitsField depth
  | .bfy _ _ log2n => fitsField log2n
  | .scl => true
  | .twg _ bigN l => fitsField bigN && fitsField l
  | .twf _ => true
  | .cxm k => fitsField k
  | .cxf => true
  | .prb => true
  | .sel _ log2n depth => fitsField log2n && fitsField depth
  | .omp _ _ log2n depth => fitsField log2n && fitsField depth

end Sys2Proof
end

