-- ==== Sys2Proof/Decode.lean ====
section
/-! DEFINITION. Decoding a command word and encoding a command (R110–R118). -/

namespace Sys2Proof

/-- Why a word is illegal (R116). -/
inductive DecodeError where
  /-- The all-zero word. -/
  | allZeroWord
  /-- An opcode of the range set aside for implementations, `0xE0`–`0xFF` (R117). -/
  | reservedOpcode
  /-- Any other opcode that R114 does not list. -/
  | unknownOpcode
  /-- A must-be-zero bit of the opcode is set. -/
  | mustBeZero
  /-- An illegal `VSEL`/`VW` pair (R112). -/
  | illegalPolicy
deriving DecidableEq, Repr

/-- The fields of `CW32` (R110). -/
structure Fields where
  op : Nat
  dir : Nat
  bit9 : Nat
  vsel : Nat
  vw : Nat
  a : Nat
  b : Nat
  top : Nat
deriving DecidableEq, Repr

/-- Cut a word into its fields (R110). -/
def fieldsOf (w : Word32) : Fields :=
  let v := w.toNat
  { op := v % 256, dir := v / 256 % 2, bit9 := v / 512 % 2, vsel := v / 1024 % 4, vw := v / 4096 % 16
    a := v / 65536 % 32, b := v / 2097152 % 32, top := v / 67108864 }

/-- Put the fields together again (R110). -/
def Fields.word (f : Fields) : Word32 :=
  BitVec.ofNat 32 (f.op + 256 * f.dir + 512 * f.bit9 + 1024 * f.vsel + 4096 * f.vw + 65536 * f.a
    + 2097152 * f.b + 67108864 * f.top)

/-- One row of the opcode map (R114): the opcode and the fields it uses; a field not used must be zero. -/
structure Row where
  op : Nat
  dir : Bool
  vec : Bool
  a : Bool
  b : Bool
deriving DecidableEq, Repr

/-- The opcode map (R114), in its order. -/
def rows : List Row :=
  [ ⟨0x01, true, true, false, false⟩, ⟨0x02, true, true, false, false⟩, ⟨0x03, true, true, false, false⟩,
    ⟨0x04, true, true, false, false⟩, ⟨0x10, false, false, true, false⟩, ⟨0x11, false, false, false, false⟩,
    ⟨0x12, false, false, false, false⟩, ⟨0x20, true, false, true, true⟩, ⟨0x21, true, false, true, false⟩,
    ⟨0x22, true, true, true, true⟩, ⟨0x23, true, true, true, false⟩, ⟨0x24, false, false, false, false⟩,
    ⟨0x30, true, false, true, true⟩, ⟨0x31, true, false, false, false⟩, ⟨0x32, false, false, true, false⟩,
    ⟨0x33, false, false, false, false⟩, ⟨0x40, false, false, false, false⟩, ⟨0x41, false, true, true, true⟩,
    ⟨0x42, true, true, true, true⟩ ]

/-- The row of an opcode, if R114 lists it. -/
def rowOf (op : Nat) : Option Row := rows.find? (fun r => r.op == op)

/-- Every must-be-zero bit of the row is zero (R114, R116). -/
def Row.zerosHold (r : Row) (f : Fields) : Bool :=
  f.bit9 == 0 && f.top == 0 && (r.dir || f.dir == 0) && (r.vec || (f.vsel == 0 && f.vw == 0))
    && (r.a || f.a == 0) && (r.b || f.b == 0)

/-- `DIR` (R113). -/
def dirOf (v : Nat) : Dir := if v = 0 then .forward else .inverse

/-- The width a forced `VW` names: `1` is the mask's bit 0 and so on (R112). -/
def widthOf : Nat → Option Width
  | 1 => some .f4
  | 2 => some .f8
  | 3 => some .f16
  | 4 => some .d2
  | 5 => some .d4
  | 6 => some .d8
  | _ => none

/-- The SIMD policy of a `VSEL`/`VW` pair, or none where the pair is illegal (R112). -/
def policyOf (vsel vw : Nat) : Option Policy :=
  match vsel with
  | 0 => if vw = 0 then some .auto else none
  | 1 => if vw = 0 then some .scalar else none
  | 2 => (widthOf vw).map Policy.force
  | _ => none

/-- The command an opcode of R114 names, with its fields taken apart. -/
def build (op : Nat) (dir : Dir) (pol : Policy) (a b : Nat) : Option Instr :=
  match op with
  | 0x01 => some (.xfs dir pol)
  | 0x02 => some (.xfi dir pol)
  | 0x03 => some (.xft dir pol)
  | 0x04 => some (.blu dir pol)
  | 0x10 => some (.brv a)
  | 0x11 => some .dil
  | 0x12 => some .ilv
  | 0x20 => some (.pass dir a b)
  | 0x21 => some (.r8 dir a)
  | 0x22 => some (.mps dir pol a b)
  | 0x23 => some (.bfy dir pol a)
  | 0x24 => some .scl
  | 0x30 => some (.twg dir a b)
  | 0x31 => some (.twf dir)
  | 0x32 => some (.cxm a)
  | 0x33 => some .cxf
  | 0x40 => some .prb
  | 0x41 => some (.sel pol a b)
  | 0x42 => some (.omp dir pol a b)
  | _ => none

/-- Decode the fields of a word (R114, R116). -/
def decodeFields (f : Fields) : Except DecodeError Instr :=
  match rowOf f.op with
  | none => .error (if 0xE0 ≤ f.op then .reservedOpcode else .unknownOpcode)
  | some r =>
    if r.zerosHold f then
      match policyOf f.vsel f.vw with
      | none => .error .illegalPolicy
      | some pol =>
        match build f.op (dirOf f.dir) pol f.a f.b with
        | some i => .ok i
        | none => .error .unknownOpcode
    else .error .mustBeZero

/-- Decode a command word (R114, R116–R118): total, every illegal word rejected by name. -/
def decode (w : Word32) : Except DecodeError Instr :=
  if w = 0 then .error .allZeroWord else decodeFields (fieldsOf w)

/-- `DIR` as a field (R113). -/
def Dir.field : Dir → Nat
  | .forward => 0
  | .inverse => 1

/-- `VW` of a forced width (R112). -/
def Width.field : Width → Nat
  | .f4 => 1
  | .f8 => 2
  | .f16 => 3
  | .d2 => 4
  | .d4 => 5
  | .d8 => 6

/-- `VSEL` of a policy (R112). -/
def Policy.vsel : Policy → Nat
  | .auto => 0
  | .scalar => 1
  | .force _ => 2

/-- `VW` of a policy (R112). -/
def Policy.vw : Policy → Nat
  | .auto => 0
  | .scalar => 0
  | .force w => w.field

/-- The fields of a word with the given opcode, direction, policy and operands, every other bit zero. -/
def fieldsWith (op dir vsel vw a b : Nat) : Fields :=
  { op := op, dir := dir, bit9 := 0, vsel := vsel, vw := vw, a := a, b := b, top := 0 }

/-- The fields of a command's word (R114). -/
def Instr.fields : Instr → Fields
  | .xfs dir pol => fieldsWith 0x01 dir.field pol.vsel pol.vw 0 0
  | .xfi dir pol => fieldsWith 0x02 dir.field pol.vsel pol.vw 0 0
  | .xft dir pol => fieldsWith 0x03 dir.field pol.vsel pol.vw 0 0
  | .blu dir pol => fieldsWith 0x04 dir.field pol.vsel pol.vw 0 0
  | .brv log2n => fieldsWith 0x10 0 0 0 log2n 0
  | .dil => fieldsWith 0x11 0 0 0 0 0
  | .ilv => fieldsWith 0x12 0 0 0 0 0
  | .pass dir d log2n => fieldsWith 0x20 dir.field 0 0 d log2n
  | .r8 dir log2n => fieldsWith 0x21 dir.field 0 0 log2n 0
  | .mps dir pol log2n depth => fieldsWith 0x22 dir.field pol.vsel pol.vw log2n depth
  | .bfy dir pol log2n => fieldsWith 0x23 dir.field pol.vsel pol.vw log2n 0
  | .scl => fieldsWith 0x24 0 0 0 0 0
  | .twg dir bigN l => fieldsWith 0x30 dir.field 0 0 bigN l
  | .twf dir => fieldsWith 0x31 dir.field 0 0 0 0
  | .cxm k => fieldsWith 0x32 0 0 0 k 0
  | .cxf => fieldsWith 0x33 0 0 0 0 0
  | .prb => fieldsWith 0x40 0 0 0 0 0
  | .sel pol log2n depth => fieldsWith 0x41 0 pol.vsel pol.vw log2n depth
  | .omp dir pol log2n depth => fieldsWith 0x42 dir.field pol.vsel pol.vw log2n depth

/-- The word of a command (R110, R114). -/
def encode (i : Instr) : Word32 := i.fields.word

/-- A row's `match` (R114): the word with every field zero. -/
def Row.pattern (r : Row) : Word32 := BitVec.ofNat 32 r.op

/-- A row's `mask` (R114): the opcode and every must-be-zero bit. -/
def Row.mask (r : Row) : Word32 :=
  BitVec.ofNat 32 (0xFC0002FF + (if r.dir then 0 else 0x100) + (if r.vec then 0 else 0xFC00)
    + (if r.a then 0 else 0x1F0000) + (if r.b then 0 else 0x3E00000))

/-- The command the decoder reads from the word whose bits are `w`, numbered as the opcode table numbers them.
A command is one 32-bit word written to `CMD` whole (R110, R118), so there is no byte order to lay out. -/
def decodeTableWord (nbits w : Nat) : Option Instr :=
  match decode (BitVec.ofNat 32 (w % 2 ^ nbits)) with
  | .ok i => some i
  | .error _ => none

end Sys2Proof
end

