-- ==== Sys2Proof/Config.lean ====
section
/-! DEFINITION. What a build fixes (R7–R13) and the free values the spec leaves open.
A build's parameters are plain data, carried in the state (register `CFG`, R43), so that every statement over all
states is a statement over all builds. The OPEN functions are opaque constants: nothing can be proved of them beyond
what the definitions that use them add. -/

namespace Sys2Proof

/-- The scalar type `TY` (R7). -/
inductive Ty where
  | f32
  | f64
  | fext
  | mp
  | fix
deriving DecidableEq, Repr, Inhabited

/-- `ARCH`: where the raw feature mask comes from (R12, R262). -/
inductive Arch where
  | noSimd
  | x86
  | neon
deriving DecidableEq, Repr, Inhabited

/-- `SIMD_VALUES` (R267, D31): vector kernels write the scalar rule's values, or a draw within the tolerance. -/
inductive SimdValues where
  | exact
  | tolerant
deriving DecidableEq, Repr, Inhabited

/-- Which function a build installs for a complex-exponential primitive (R13, R148–R152). -/
inductive Primitive where
  /-- A default that conforms to R151 and R152: free within their bounds; for an OPEN type without one (logs 9, 10). -/
  | conforming
  /-- The conforming default that rounds the nominal value to nearest (the choice of 95_test_vectors §0); for an OPEN type,
  whose rounding the spec does not define, the same as `conforming` (logs 9, 10). -/
  | nearest
  /-- A caller's own function: free without a bound (R148, R149). -/
  | custom
deriving DecidableEq, Repr, Inhabited

/-- What one `CPUID` leaf returns (R263). -/
structure CpuidRegs where
  eax : Word32 := 0
  ebx : Word32 := 0
  ecx : Word32 := 0
  edx : Word32 := 0
deriving DecidableEq, Repr, Inhabited

/-- The host CPU's identification functions at the arguments the probe uses, constant during a run (R263). -/
structure HostCpu where
  /-- `CPUID(0, 0)` -/
  leaf0 : CpuidRegs := {}
  /-- `CPUID(1, 0)` -/
  leaf1 : CpuidRegs := {}
  /-- `CPUID(7, 0)` -/
  leaf7 : CpuidRegs := {}
  /-- `XGETBV(0)` -/
  xcr0 : Word64 := 0
deriving DecidableEq, Repr, Inhabited

/-- The default of `Q` at an `LBUF` (R9, R12): `min(⌊LBUF/2⌋, 6)`. -/
def defaultQ (lbuf : Nat) : Nat := min (lbuf / 2) 6

/-- The build parameters, with the defaults the spec gives them (R8, R9, R11, R12, D31). -/
structure Config where
  ty : Ty
  lbuf : Nat := 9
  q : Nat := defaultQ lbuf
  potSimdEn : Bool := true
  avxEn : Bool := true
  avx512En : Bool := true
  bluesteinEn : Bool := true
  brevTableEn : Bool := true
  featCacheEn : Bool := true
  arch : Arch
  /-- The 6-bit mask an installed `PROBE_HOOK` returns at every call, or none where no hook is installed (R262). -/
  probeHook : Option (BitVec 6) := none
  cpu : HostCpu := {}
  /-- `ES` of an OPEN type (R12); `f32` and `f64` have 4 and 8. -/
  esOpen : Nat
  nctx : Nat
  simdValues : SimdValues := .exact
  cexpm1 : Primitive
  cexpm1Frac : Primitive
  /-- The build supplies every function of R13 for an OPEN type (R373). -/
  openRecord : Bool
deriving DecidableEq, Repr, Inhabited

/-- `AW` (R12). -/
abbrev addrWidth : Nat := 64
/-- `SIMD_ALIGN` (R12), in bytes. -/
abbrev simdAlign : Nat := 64
/-- `LOG2N_MAX` (R12). -/
abbrev log2nMax : Nat := 31
/-- `SPLIT_LOG` (R10). -/
abbrev splitLog : Nat := 12
/-- `R8_MIN` (R10). -/
abbrev r8Min : Nat := 3
/-- `TINY_LOG` (R10). -/
abbrev tinyLog : Nat := 8
/-- `MED_LOG` (R10). -/
abbrev medLog : Nat := 16
/-- `DIL_MIN_N` (R10). -/
abbrev dilMinN : Nat := 16
/-- `CXTAB_LEN` (R10). -/
abbrev cxtabLen : Nat := 17
/-- `BREV_LEN` (R10). -/
abbrev brevLen : Nat := 256

/-- The three arithmetic operations whose result may be a NaN (R141). -/
inductive ArithOp where
  | add
  | sub
  | mul
deriving DecidableEq, Repr, Inhabited

/-- FREE VALUE: sign and payload of the quiet NaN an operation gives (R141), a function of the operation and its operands (R140). -/
opaque Config.nanDraw : Ty → ArithOp → Elem → Elem → Nat

/-- OPEN: `ZERO` of an OPEN type (R142). -/
opaque Config.openZero : Ty → Elem
/-- OPEN: `ONE` of an OPEN type (R142). -/
opaque Config.openOne : Ty → Elem
/-- OPEN: `add` of an OPEN type (R142). -/
opaque Config.openAdd : Ty → Elem → Elem → Elem
/-- OPEN: `sub` of an OPEN type (R142). -/
opaque Config.openSub : Ty → Elem → Elem → Elem
/-- OPEN: `mul` of an OPEN type (R142). -/
opaque Config.openMul : Ty → Elem → Elem → Elem
/-- OPEN: `neg` of an OPEN type (R142). -/
opaque Config.openNeg : Ty → Elem → Elem
/-- OPEN: which values of an OPEN type equal `ONE` under its equality (R143). -/
opaque Config.openIsOne : Ty → Elem → Bool
/-- OPEN: `inv_pow2` of an OPEN type (R153). -/
opaque Config.openInvPow2 : Ty → Nat → Elem
/-- OPEN: `C_SQRT1_2` of an OPEN type (R153). -/
opaque Config.openSqrtHalf : Ty → Elem
/-- OPEN: `CXTAB[k]` of an OPEN type for `3 ≤ k ≤ 16` (R150). -/
opaque Config.openCxtab : Ty → Nat → Cx
/-- OPEN: `CEXPM1_TAYLOR(k)` for `k ≥ 17` (R151). -/
opaque Config.cexpm1Taylor : Ty → Nat → Cx
/-- OPEN: `CEXPM1_FRAC_DEFAULT(p, q)` (R152). -/
opaque Config.cexpm1FracDefault : Ty → Nat → Nat → Cx
/-- OPEN: a caller's own `cexpm1` (R148). -/
opaque Config.customCexpm1 : Ty → Nat → Cx
/-- OPEN: a caller's own `cexpm1_frac` (R149). -/
opaque Config.customCexpm1Frac : Ty → Nat → Nat → Cx
/-- FREE VALUE: what an address of its destination holds after a command that did not complete (R344, R345), by draw
number and address. -/
opaque Config.lostDraw : Nat → Nat → Elem
/-- FREE VALUE: what a vector kernel writes under `SIMD_VALUES = TOLERANT` (D31), one draw per number. -/
opaque Config.simdDraw : Nat → Elem
/-- FREE VALUE: an allocation's outcome where the launch lists no draw for it (R90): null, or a base address. -/
opaque Config.allocDraw : Nat → Option Nat
/-- FREE VALUE: the initial contents of an allocated region (R90), by draw number and position. -/
opaque Config.scratchDraw : Nat → Nat → Elem

end Sys2Proof
end

