-- ==== Sys2Proof/Machine/State.lean ====
section
/-! DEFINITION. The state of the machine (R30–R54), the host's side of it (R334, R387), and reset (R53, R370).
State is plain data. An argument register is an Option because UNWRITTEN is the spec's own state of it (R31). -/

namespace Sys2Proof

/-- The build of 95_test_vectors §0, with one context.
DESIGN CHOICE (log 4): the spec gives defaults for `LBUF`, `Q` and the toggles only (R8, R9, R11). Unsafe for claims
about a run from `State.reset` alone; statements over all states hold for every build. -/
def Config.standard : Config :=
  { ty := .f64, arch := .noSimd, esOpen := 16, nctx := 1, cexpm1 := .conforming, cexpm1Frac := .conforming
    openRecord := true }

end Sys2Proof

namespace Sys2Proof.Machine

/-- Element memory (R80): the addresses the host has placed an element at or the allocator has granted, rising, each
with its element. An address that is not listed is not admitted and holds nothing (R82). -/
abbrev Mem := List (Nat × Elem)

/-- The states of a context's command sequencer (R50). -/
inductive Fsm where
  | idle
  | validate
  | dispatch
  | potPermute
  | potSimdPrep
  | potButterfly
  | potSimdPost
  | potScale
  | bsAlloc
  | bsPremul
  | bsFftA
  | bsFftB
  | bsPointwise
  | bsIfft
  | bsPostmul
  | bsFree
  | return
  | errorReturn
deriving DecidableEq, Repr, Inhabited

/-- Transient state of a command (R47, R48, R51). Between commands it is dropped, as R52 allows: nothing is held. -/
structure Transient where
  /-- `TWB_RE` (R47) -/
  twbRe : List Elem
  /-- `TWB_IM` (R47) -/
  twbIm : List Elem
  /-- `VREG`: the vector registers in use, each a list of lanes (R48) -/
  vreg : List (List Elem)
  /-- `(C, S)`: the multiplier pair (R51) -/
  mul : Option Cx
  /-- `(X, Y)`: the step factor (R51) -/
  stp : Option Cx
deriving DecidableEq, Repr, Inhabited

/-- No transient state held (R52). -/
def Transient.dropped : Transient := { twbRe := [], twbIm := [], vreg := [], mul := none, stp := none }

/-- One step of the outside world on one context (R334, R386), or of the host's own synchronisation (R387). -/
inductive HostAct where
  /-- `mov REG, v`: a host register write (R33). -/
  | mov (reg : Nat) (v : Nat)
  /-- `cmd W`: a write of a command word to `CMD` (R334). -/
  | cmd (w : Word32)
  /-- `rd REG`: a host register read (R33). -/
  | rd (reg : Nat)
  /-- The host places an element in memory between commands (R82, R380). -/
  | place (addr : Nat) (v : Nat)
  /-- The host publishes a synchronisation token: what this context has done so far happens before whoever awaits it (R387). -/
  | post (token : Nat)
  /-- The host waits for a token (R387). -/
  | await (token : Nat)
  /-- A reset of FBD, which lands between commands (R370, R372). -/
  | reset
deriving DecidableEq, Repr, Inhabited

/-- A host program for one context (R334): a finite tree of acts. A branch tests the last value this context's host
read from a register. -/
inductive HostProg where
  | done
  | act (a : HostAct) (rest : HostProg)
  | ifRead (reg : Nat) (v : Nat) (yes no : HostProg)
deriving DecidableEq, Repr, Inhabited

/-- The host's side of one context (R334, R387). -/
structure HostThread where
  /-- What the host still has to do. -/
  prog : HostProg
  /-- The values read so far, newest first: register number and value. -/
  seen : List (Nat × Nat)
  /-- For each context by number, how many of its commands happen before this context's next step. -/
  clock : List Nat
  /-- How many commands this context has been issued. -/
  issued : Nat
deriving DecidableEq, Repr, Inhabited

/-- How a command can fail to complete: the spec's three model faults (R344), and being stuck (R345). `exec` answers with
it, and `step` records it and goes on with the other contexts (R348): the context of that command takes no further step,
and the run has no end state (R387). Each is safe: nothing is claimed of what the command did. -/
inductive Fault where
  /-- `UB(Overlap)` (R303, R200): raised by a command whose footprints meet without being identical. Safe. -/
  | overlap
  /-- `UB(CrossContextOverlap)` (R95): recorded by `step` when two concurrent commands' footprints meet. Safe. -/
  | crossContextOverlap
  /-- `UnwrittenRegister` (R31): raised by a command that reads an UNWRITTEN argument register. Safe. -/
  | unwrittenRegister
  /-- Stuck (R82, R345, R386): raised by an access at an address the launch memory does not admit, and by a draw of the
  allocator that R90 forbids. Safe. -/
  | stuck
deriving DecidableEq, Repr, Inhabited

/-- The fault is one the run keeps recorded (R344): a stuck command is none (R345). -/
def Fault.recorded : Fault → Bool
  | .overlap => true
  | .crossContextOverlap => true
  | .unwrittenRegister => true
  | .stuck => false

/-- One context (R30): its registers (R33), its sequencer and its transient state, and the host's side of it. -/
structure Context where
  /-- 0x00 -/
  cmd : Word32
  /-- 0x01 -/
  status : Word32
  /-- 0x02 -/
  result : Word64
  /-- 0x04 -/
  argN : Option Word64
  /-- 0x05 -/
  argScale : Option Elem
  /-- 0x06 -/
  argSrcRe : Option Word64
  /-- 0x07 -/
  argSrcIm : Option Word64
  /-- 0x08 -/
  argDstRe : Option Word64
  /-- 0x09 -/
  argDstIm : Option Word64
  /-- 0x0A -/
  argSsRe : Option Word64
  /-- 0x0B -/
  argSsIm : Option Word64
  /-- 0x0C -/
  argDsRe : Option Word64
  /-- 0x0D -/
  argDsIm : Option Word64
  /-- 0x0E -/
  argP : Option Word64
  /-- 0x0F -/
  argQ : Option Word64
  /-- 0x10 -/
  resRe : Elem
  /-- 0x11 -/
  resIm : Elem
  /-- R50 -/
  fsm : Fsm
  /-- R49: the element address of the Bluestein scratch, 0 for null -/
  bsBase : Nat
  trans : Transient
  /-- Why the context's command did not complete, if it did not: the context takes no further step (R344, R345). -/
  halted : Option Fault
  thread : HostThread
deriving DecidableEq, Repr, Inhabited

/-- An element view (R22). The base is an integer because half views are computed in mathematical integers (R14). -/
structure View where
  base : Int
  stride : Int
  count : Nat
deriving DecidableEq, Repr, Inhabited

/-- The views of a command, whose footprints are the command's, and those it writes, its scratch left out (R85, R86). -/
structure Footprint where
  views : List View
  writes : List View
deriving DecidableEq, Repr, Inhabited

/-- A model fault that has been recorded, and the context it was raised by (R344). -/
structure FaultRecord where
  ctx : Nat
  fault : Fault
deriving DecidableEq, Repr, Inhabited

/-- A command that has been issued, for the cross-context rule (R95, R387). -/
structure CmdRecord where
  ctx : Nat
  /-- The command's number among its context's commands, from 1. -/
  seq : Nat
  fp : Footprint
deriving DecidableEq, Repr, Inhabited

/-- The whole machine: the contexts in number order with the one that moves taken out (`before`, `me`, `after`), what
they share, and what the launch gives (R30, R387). -/
structure State where
  cfg : Config
  before : List Context
  me : Context
  after : List Context
  /-- `FEAT_CACHE` (R44) -/
  featCache : Word32
  mem : Mem
  /-- The allocation draws of the launch, next one first: null, or a base address (R90, R387). -/
  allocs : List (Option Nat)
  /-- The MODEL's counter of free draws. -/
  tick : Nat
  /-- Which context moves next; where the list is empty, the first that can (R387). -/
  sched : List Nat
  /-- The tokens posted, each with the clock of the context that posted it (R387). -/
  tokens : List (Nat × List Nat)
  /-- The commands that have been issued (R95), newest first. -/
  log : List CmdRecord
  /-- The model faults recorded so far (R344), newest first: no step takes one out. -/
  faults : List FaultRecord
deriving DecidableEq, Repr, Inhabited

/-- Why there is no meaning. -/
inductive Refusal where
  /-- An instruction without a meaning yet: raised by `exec`. Safe. -/
  | notModelled (mnemonic : String)
  /-- A configuration that has no instance (R373): raised by `step`. Safe. -/
  | invalidConfiguration
deriving DecidableEq, Repr, Inhabited

/-- Nothing left to do, nothing read, nothing issued. -/
def HostThread.start : HostThread := { prog := .done, seen := [], clock := [], issued := 0 }

/-- A context after reset (R53), with the host's side given: `zero` is the build's `ZERO`. -/
def Context.reset (zero : Elem) (thread : HostThread) : Context :=
  { cmd := 0, status := 0, result := 0
    argN := none, argScale := none, argSrcRe := none, argSrcIm := none, argDstRe := none, argDstIm := none
    argSsRe := none, argSsIm := none, argDsRe := none, argDsIm := none, argP := none, argQ := none
    resRe := zero, resIm := zero, fsm := .idle, bsBase := 0, trans := Transient.dropped, halted := none
    thread := thread }

/-- The machine right after reset (R53, R370), in the build `Config.standard`: `ZERO` of `f64` is `+0.0`, code 0 (R141).
Nothing is placed in memory, and the host has no step left: it supplies both (R374). -/
def State.reset : State :=
  { cfg := Config.standard, before := [], me := Context.reset ⟨0⟩ HostThread.start, after := [], featCache := 0
    mem := [], allocs := [], tick := 0, sched := [], tokens := [], log := [], faults := [] }

end Sys2Proof.Machine
end

