-- ==== Sys2Proof/Machine/Num.lean ====
section
/-! DEFINITION. Integer helpers (R14, R17, R21) and what the build parameters determine (R8–R12, R43, R373). -/

namespace Sys2Proof.Machine

/-- The bit `i` of a number (R17). -/
def bitOf (v i : Nat) : Bool := v / 2 ^ i % 2 == 1

/-- The least `L` with `2^L ≥ x` (R14). -/
def clog2 (x : Nat) : Nat := if x ≤ 1 then 0 else Nat.log2 (x - 1) + 1

/-- `n` is a power of two (R306). -/
def isPow2 (n : Nat) : Bool := n != 0 && 2 ^ Nat.log2 n == n

/-- `rev(i, L)`: the number whose bit `L-1-b` is bit `b` of `i`, for `b < L` (R21). -/
def rev : Nat → Nat → Nat
  | _, 0 => 0
  | i, l + 1 => i % 2 * 2 ^ l + rev (i / 2) l

end Sys2Proof.Machine

namespace Sys2Proof

/-- `ES`: bytes per element (R12). -/
def Config.es (c : Config) : Nat :=
  match c.ty with
  | .f32 => 4
  | .f64 => 8
  | _ => c.esOpen

/-- `TY` is one of the OPEN types (R142). -/
def Ty.isOpen : Ty → Bool
  | .f32 => false
  | .f64 => false
  | .fext => true
  | .mp => true
  | .fix => true

/-- The configurations that have an instance (R8, R9, R373); `ES` of an OPEN type is a positive number of bytes (D5). -/
def Config.valid (c : Config) : Bool :=
  decide (2 ≤ c.lbuf) && decide (c.lbuf ≤ 30) && decide (1 ≤ c.q) && decide (2 * c.q ≤ c.lbuf)
    && (!c.ty.isOpen || (c.openRecord && decide (0 < c.esOpen))) && decide (1 ≤ c.nctx)

/-- A flag as a number. -/
def Machine.flagNat (b : Bool) : Nat := if b then 1 else 0

/-- The `TY` field of `CFG` (R43). -/
def Ty.field : Ty → Nat
  | .f32 => 0
  | .f64 => 1
  | .fext => 2
  | .mp => 3
  | .fix => 4

/-- The `ARCH` field of `CFG` (R43). -/
def Arch.field : Arch → Nat
  | .noSimd => 0
  | .x86 => 1
  | .neon => 2

/-- The register `CFG` (R43). -/
def Config.cfgWord (c : Config) : Word32 :=
  BitVec.ofNat 32 (c.lbuf % 2 ^ 5 + 2 ^ 5 * (c.q % 2 ^ 5) + 2 ^ 10 * Machine.flagNat c.potSimdEn + 2 ^ 11 * Machine.flagNat c.avxEn
    + 2 ^ 12 * Machine.flagNat c.avx512En + 2 ^ 13 * Machine.flagNat c.bluesteinEn + 2 ^ 14 * Machine.flagNat c.brevTableEn
    + 2 ^ 15 * Machine.flagNat c.featCacheEn + 2 ^ 16 * c.ty.field + 2 ^ 19 * c.arch.field
    + 2 ^ 21 * Machine.flagNat c.probeHook.isSome)

end Sys2Proof
end

