-- ==== Sys2Proof/Machine/Float.lean ====
section
/-! DEFINITION. IEEE 754 binary interchange formats with round-to-nearest-even, no fused multiply-add and subnormals
kept (R141). A finite value is an integer multiple of the format's least positive value, so an operation computes
exactly on integers and rounds once at the end. -/

namespace Sys2Proof.Machine

/-- A binary format: the widths of its exponent and fraction fields. -/
structure Fmt where
  expBits : Nat
  fracBits : Nat
deriving DecidableEq, Repr

/-- binary32 (R141). -/
def binary32 : Fmt := ⟨8, 23⟩

/-- binary64 (R141). -/
def binary64 : Fmt := ⟨11, 52⟩

/-- The encoding of a set sign bit. -/
def Fmt.signBit (f : Fmt) : Nat := 2 ^ (f.expBits + f.fracBits)

/-- The encoding of `+∞`, which is also the least magnitude that is not finite. -/
def Fmt.infCode (f : Fmt) : Nat := (2 ^ f.expBits - 1) * 2 ^ f.fracBits

/-- The encoding of `1.0`. -/
def Fmt.oneCode (f : Fmt) : Nat := (2 ^ (f.expBits - 1) - 1) * 2 ^ f.fracBits

/-- The exponent of the least positive value, negated: that value is `2^-unitLog`. -/
def Fmt.unitLog (f : Fmt) : Nat := 2 ^ (f.expBits - 1) - 2 + f.fracBits

/-- An encoding without its sign bit. -/
def Fmt.mag (f : Fmt) (c : Nat) : Nat := c % f.signBit

/-- The sign bit of an encoding. -/
def Fmt.neg? (f : Fmt) (c : Nat) : Bool := c / f.signBit % 2 == 1

/-- An encoding with the given sign and magnitude. -/
def Fmt.pack (f : Fmt) (s : Bool) (m : Nat) : Nat := if s then f.signBit + m else m

/-- A NaN: its magnitude lies above `+∞`. -/
def Fmt.isNaN (f : Fmt) (c : Nat) : Bool := decide (f.infCode < f.mag c)

/-- An infinity. -/
def Fmt.isInf (f : Fmt) (c : Nat) : Bool := f.mag c == f.infCode

/-- A zero. -/
def Fmt.isZero (f : Fmt) (c : Nat) : Bool := f.mag c == 0

/-- The magnitude of a finite value in multiples of the least positive value. -/
def Fmt.scaled (f : Fmt) (c : Nat) : Nat :=
  let e := f.mag c / 2 ^ f.fracBits
  let m := f.mag c % 2 ^ f.fracBits
  if e = 0 then m else (2 ^ f.fracBits + m) * 2 ^ (e - 1)

/-- A finite value in multiples of the least positive value. -/
def Fmt.toInt (f : Fmt) (c : Nat) : Int := if f.neg? c then -(f.scaled c : Int) else f.scaled c

/-- `v / 2^p` rounded to nearest, ties to even. -/
def roundShift (v p : Nat) : Nat :=
  let q := v / 2 ^ p
  let r := v % 2 ^ p
  if 2 * r > 2 ^ p then q + 1 else if 2 * r = 2 ^ p then q + q % 2 else q

/-- The magnitude encoding nearest to `v · 2^-(unitLog + sh)`, ties to even, infinity on overflow.
`p` is the place of the last kept bit: `fracBits + 1` bits are kept, fewer in the subnormal range. -/
def Fmt.roundMag (f : Fmt) (v sh : Nat) : Nat :=
  let bits := if v = 0 then 0 else Nat.log2 v + 1
  let p := max (bits - (f.fracBits + 1)) sh
  min ((p - sh) * 2 ^ f.fracBits + roundShift v p) f.infCode

/-- A quiet NaN whose sign and payload the draw gives (R141, log 7). -/
def Fmt.quietNaN (f : Fmt) (draw : Nat) : Nat :=
  f.pack (draw % 2 == 1) (f.infCode + 2 ^ (f.fracBits - 1) + draw / 2 % 2 ^ (f.fracBits - 1))

/-- IEEE addition; `draw` gives the NaN of an invalid operation or of a NaN operand (R141). -/
def Fmt.add (f : Fmt) (draw a b : Nat) : Nat :=
  if f.isNaN a || f.isNaN b then f.quietNaN draw
  else if f.isInf a then
    (if f.isInf b && f.neg? a != f.neg? b then f.quietNaN draw else f.pack (f.neg? a) f.infCode)
  else if f.isInf b then f.pack (f.neg? b) f.infCode
  else
    let s := f.toInt a + f.toInt b
    if s = 0 then f.pack (f.neg? a && f.neg? b) 0
    else f.pack (decide (s < 0)) (f.roundMag s.natAbs 0)

/-- The sign flipped, nothing else (R141). -/
def Fmt.negate (f : Fmt) (a : Nat) : Nat := f.pack (!f.neg? a) (f.mag a)

/-- IEEE subtraction: addition of the operand with its sign flipped. -/
def Fmt.sub (f : Fmt) (draw a b : Nat) : Nat := f.add draw a (f.negate b)

/-- IEEE multiplication (R141). -/
def Fmt.mul (f : Fmt) (draw a b : Nat) : Nat :=
  let s := f.neg? a != f.neg? b
  if f.isNaN a || f.isNaN b then f.quietNaN draw
  else if f.isInf a || f.isInf b then
    (if f.isZero a || f.isZero b then f.quietNaN draw else f.pack s f.infCode)
  else f.pack s (f.roundMag (f.scaled a * f.scaled b) f.unitLog)

/-- The value nearest to `v · 2^-k`, zero as `+0.0`. -/
def Fmt.ofFixed (f : Fmt) (v : Int) (k : Nat) : Nat :=
  f.pack (decide (v < 0))
    (if k ≤ f.unitLog then f.roundMag (v.natAbs * 2 ^ (f.unitLog - k)) 0 else f.roundMag v.natAbs (k - f.unitLog))

/-- One ULP (R23) at a number of magnitude `m · 2^-k`, in units of `2^-(unitLog + k)`: the unit in the last place of a value
in the binade of the number, the least positive value in the subnormal range. -/
def Fmt.ulpAt (f : Fmt) (m k : Nat) : Nat :=
  max (2 ^ (Nat.log2 m + f.unitLog - f.fracBits)) (2 ^ k)

/-- `c` is no NaN and lies within one ULP of a number that `v · 2^-k` stands for with an error of up to `e · 2^-k` (R151, R152;
property 7 of R267, where `e` is 0). The ULP is taken at the largest magnitude of such a number and the error is added to
it, so no value within one ULP of the number itself is left out. An infinity counts as the value that would follow the
greatest finite one. -/
def Fmt.withinUlp (f : Fmt) (c : Nat) (v : Int) (e k : Nat) : Bool :=
  !f.isNaN c && decide ((f.toInt c * 2 ^ k - v * 2 ^ f.unitLog).natAbs ≤ f.ulpAt (v.natAbs + e) k + e * 2 ^ f.unitLog)

/-- The sum of the squares of the values of a list, in squared multiples of the least positive value; none where a value
is not finite. -/
def Fmt.squares (f : Fmt) : List Nat → Option Nat
  | [] => some 0
  | c :: cs => if f.infCode ≤ f.mag c then none else (f.squares cs).map (f.scaled c ^ 2 + ·)

/-- `c` lies within `4·ε·RMS` of the value `r`, `RMS² = sum / n` and `ε` one ULP of 1 (property 9 of R267). Where the sum is
not finite there is no bound. -/
def Fmt.withinRms (f : Fmt) (c r : Nat) (sum : Option Nat) (n : Nat) : Bool :=
  match sum with
  | none => true
  | some q => decide (((f.toInt c - f.toInt r).natAbs * 2 ^ f.fracBits) ^ 2 * n ≤ 16 * q)

/-- `2^-k` (R153), for `k` in the range where it is a normal value. -/
def Fmt.invPow2 (f : Fmt) (k : Nat) : Nat := f.ofFixed 1 k

end Sys2Proof.Machine
end

