-- ==== Sys2Proof/Machine/Nominal.lean ====
section
/-! DEFINITION. The nominal values `exp(2πi·p/q) − 1` of the complex-exponential primitives (R148, R149, R151, R152),
in fixed point with `nominalBits` fraction bits: the numbers from which a conforming default may differ by one ULP. -/

namespace Sys2Proof.Machine

/-- Fraction bits of the fixed-point values: far below an ULP of every nominal value a command can ask for, whose
parts are at least `2^-125` in magnitude where they are not zero (`q < 2^64`). -/
def nominalBits : Nat := 288

/-- More than the distance of a fixed-point value below from the number it stands for, in units of its last place: some
hundred units, as each of the 40 terms of a sum is rounded down a few times (log 9). -/
def nominalError : Nat := 2 ^ 32

/-- `π/2` in fixed point, rounded down. -/
def halfPi : Nat := 0x1921fb54442d18469898cc51701b839a252049c1114cf98e804177d4c76273644a29410f3

/-- The Taylor sum of `cos` or `sin` in fixed point, one term after the other: `t` is the running term, `k` its index,
`x2` the square of the angle. -/
def taylorSum : Nat → Nat → Int → Int → Int
  | 0, _, _, _ => 0
  | n + 1, k, x2, t => t + taylorSum n (k + 2) x2 (-(t * x2 / 2 ^ nominalBits) / ((k + 1) * (k + 2)))

/-- `cos x` for `0 ≤ x < π/2`, in fixed point. -/
def fixedCos (x : Nat) : Int := taylorSum 40 0 (x * x / 2 ^ nominalBits : Nat) (2 ^ nominalBits : Nat)

/-- `sin x` for `0 ≤ x < π/2`, in fixed point. -/
def fixedSin (x : Nat) : Int := taylorSum 40 1 (x * x / 2 ^ nominalBits : Nat) x

/-- `(cos, sin)` of the angle `2π·p/q` in fixed point: the quarter turn is `4r div q`, the rest an angle below `π/2`. -/
def fixedCis (p q : Nat) : Int × Int :=
  let r := p % q
  let x := halfPi * (4 * r % q) / q
  let c := fixedCos x
  let s := fixedSin x
  match 4 * r / q with
  | 0 => (c, s)
  | 1 => (-s, c)
  | 2 => (-c, -s)
  | _ => (s, -c)

/-- The two parts of the nominal value `exp(2πi·p/q) − 1` (R149) in fixed point. -/
def nominalExpm1 (p q : Nat) : Int × Int :=
  let z := fixedCis p q
  (z.1 - 2 ^ nominalBits, z.2)

end Sys2Proof.Machine
end

