-- ==== Sys2Proof/Machine/Scalar.lean ====
section
/-! DEFINITION. The arithmetic element: the operations of `T` (R140–R145), complex helpers (R146, R147), and the
complex-exponential primitives (R148–R153). -/

namespace Sys2Proof

open Sys2Proof.Machine

/-- The binary format of an IEEE type (R141); none for the OPEN types (R142). -/
def Ty.fmt : Ty → Option Fmt
  | .f32 => some binary32
  | .f64 => some binary64
  | .fext => none
  | .mp => none
  | .fix => none

/-- `ZERO` (R140, R141). -/
def Ty.zero (t : Ty) : Elem :=
  match t.fmt with
  | some _ => ⟨0⟩
  | none => Config.openZero t

/-- `ONE` (R140, R141). -/
def Ty.one (t : Ty) : Elem :=
  match t.fmt with
  | some f => ⟨f.oneCode⟩
  | none => Config.openOne t

/-- `a ⊕ b` (R15, R141). -/
def Ty.add (t : Ty) (a b : Elem) : Elem :=
  match t.fmt with
  | some f => ⟨f.add (Config.nanDraw t .add a b) a.code b.code⟩
  | none => Config.openAdd t a b

/-- `a ⊖ b` (R15, R141). -/
def Ty.sub (t : Ty) (a b : Elem) : Elem :=
  match t.fmt with
  | some f => ⟨f.sub (Config.nanDraw t .sub a b) a.code b.code⟩
  | none => Config.openSub t a b

/-- `a ⊗ b` (R15, R141). -/
def Ty.mul (t : Ty) (a b : Elem) : Elem :=
  match t.fmt with
  | some f => ⟨f.mul (Config.nanDraw t .mul a b) a.code b.code⟩
  | none => Config.openMul t a b

/-- `neg(a)` (R15, R141). -/
def Ty.neg (t : Ty) (a : Elem) : Elem :=
  match t.fmt with
  | some f => ⟨f.negate a.code⟩
  | none => Config.openNeg t a

/-- `isOne(a)` (R143): `a` equals `ONE` under `T`'s equality, which holds of `ONE` itself. -/
def Ty.isOne (t : Ty) (a : Elem) : Bool :=
  match t.fmt with
  | some f => f.mag a.code == f.oneCode && !f.neg? a.code
  | none => a == t.one || Config.openIsOne t a

/-- The value a host's representation stands for: the low 32 or 64 bits for the IEEE types (R35), the code itself for
the OPEN types. -/
def Ty.ofHost (t : Ty) (v : Nat) : Elem :=
  match t.fmt with
  | some f => ⟨v % (2 * f.signBit)⟩
  | none => ⟨v⟩

/-- A complex value with both parts read as `T`'s representation. -/
def Ty.ofHostCx (t : Ty) (z : Cx) : Cx := ⟨t.ofHost z.re.code, t.ofHost z.im.code⟩

/-- `inv_pow2(L)` (R153). -/
def Ty.invPow2 (t : Ty) (l : Nat) : Elem :=
  match t.fmt with
  | some f => ⟨f.invPow2 l⟩
  | none => Config.openInvPow2 t l

/-- `C_SQRT1_2` (R153). -/
def Ty.sqrtHalf (t : Ty) : Elem :=
  match t with
  | .f32 => ⟨0x3F3504F3⟩
  | .f64 => ⟨0x3FE6A09E667F3BCD⟩
  | t => Config.openSqrtHalf t

end Sys2Proof

namespace Sys2Proof.Machine

/-- Complex `z ⊕ w` (R16). -/
def cadd (t : Ty) (z w : Cx) : Cx := ⟨t.add z.re w.re, t.add z.im w.im⟩

/-- Complex `z ⊖ w` (R16). -/
def csub (t : Ty) (z w : Cx) : Cx := ⟨t.sub z.re w.re, t.sub z.im w.im⟩

/-- `cmul(x, w)` (R146): `x` the data operand, `w` the twiddle. -/
def cmul (t : Ty) (x w : Cx) : Cx :=
  ⟨t.sub (t.mul w.re x.re) (t.mul w.im x.im), t.add (t.mul w.re x.im) (t.mul w.im x.re)⟩

/-- `dirz(z, σ)` (R147): forward negates the imaginary part (C5). -/
def dirz (t : Ty) (z : Cx) : Dir → Cx
  | .forward => ⟨z.re, t.neg z.im⟩
  | .inverse => z

/-- The value `−2` (R150). -/
def minusTwo (t : Ty) : Elem := t.sub (t.neg t.one) t.one

/-- `CXTAB[3..16]` for `f64` (R150), as encodings. -/
def cxtab64 : List (Nat × Nat) :=
  [ (0xBFD2BEC333018867, 0x3FE6A09E667F3BCD),
    (0xBFB37CA1866B95CF, 0x3FD87DE2A6AEA963),
    (0xBF93AD06011469FB, 0x3FC8F8B83C69A60B),
    (0xBF73B92E176D6D31, 0x3FB917A6BC29B42C),
    (0xBF53BC390D250439, 0x3FA91F65F10DD814),
    (0xBF33BCFBD9979A27, 0x3F992155F7A3667E),
    (0xBF13BD2C8DA49511, 0x3F8921D1FCDEC784),
    (0xBEF3BD38BAB6D94C, 0x3F7921F0FE670071),
    (0xBED3BD3BC5FC5AB4, 0x3F6921F8BECCA4BA),
    (0xBEB3BD3C88CDCA13, 0x3F5921FAAEE6472E),
    (0xBE93BD3CB98226DC, 0x3F4921FB2AECB360),
    (0xBE73BD3CC5AF3E1D, 0x3F3921FB49EE4EA6),
    (0xBE53BD3CC8BA83EE, 0x3F2921FB51AEB57C),
    (0xBE33BD3CC97D5562, 0x3F1921FB539ECF31) ]

/-- `CXTAB[3..16]` for `f32` (R150), as encodings. -/
def cxtab32 : List (Nat × Nat) :=
  [ (0xBE95F61A, 0x3F3504F3),
    (0xBD9BE50C, 0x3EC3EF15),
    (0xBC9D6830, 0x3E47C5C2),
    (0xBB9DC971, 0x3DC8BD36),
    (0xBA9DE1C8, 0x3D48FB30),
    (0xB99DE7DF, 0x3CC90AB0),
    (0xB89DE964, 0x3C490E90),
    (0xB79DE9C6, 0x3BC90F88),
    (0xB69DE9DE, 0x3B490FC6),
    (0xB59DE9E4, 0x3AC90FD5),
    (0xB49DE9E6, 0x3A490FD9),
    (0xB39DE9E6, 0x39C90FDA),
    (0xB29DE9E6, 0x39490FDB),
    (0xB19DE9E6, 0x38C90FDB) ]

/-- The entry of a list of encodings, as a complex value. -/
def entryAt (l : List (Nat × Nat)) (i : Nat) : Cx :=
  let e := l.getD i (0, 0)
  ⟨⟨e.1⟩, ⟨e.2⟩⟩

/-- The ROM `CXTAB` (R46, R150): entries 0, 1 and 2 are exact in every type. -/
def cxtab (t : Ty) : Nat → Cx
  | 0 => ⟨t.zero, t.zero⟩
  | 1 => ⟨minusTwo t, t.zero⟩
  | 2 => ⟨t.neg t.one, t.one⟩
  | k + 3 =>
    match t with
    | .f64 => entryAt cxtab64 k
    | .f32 => entryAt cxtab32 k
    | t => Config.openCxtab t (k + 3)

/-- A part of a conforming default whose nominal value `v` stands for in fixed point (R151, R152): `v` rounded to nearest,
or a free value within one ULP of the nominal value. -/
def conformPart (f : Fmt) (prim : Primitive) (draw : Elem) (v : Int) : Elem :=
  let d := draw.code % (2 * f.signBit)
  match prim with
  | .nearest => ⟨f.ofFixed v nominalBits⟩
  | _ => if f.withinUlp d v nominalError nominalBits then ⟨d⟩ else ⟨f.ofFixed v nominalBits⟩

/-- A conforming default at the nominal angle `2π·p/q` (R151, R152). -/
def conformAt (f : Fmt) (prim : Primitive) (draw : Cx) (p q : Nat) : Cx :=
  let z := nominalExpm1 p q
  ⟨conformPart f prim draw.re z.1, conformPart f prim draw.im z.2⟩

/-- The default `cexpm1(k)` (R150, R151). DESIGN CHOICE (log 9): the spec does not say what one ULP is in an OPEN type, and
from `k = 17` on the value of such a type is free without a bound, whichever default the build installs. -/
def cexpm1Default (t : Ty) (prim : Primitive) (k : Nat) : Cx :=
  if k < cxtabLen then cxtab t k
  else
    match t.fmt with
    | some f => conformAt f prim (Config.cexpm1Taylor t k) 1 (2 ^ k)
    | none => Config.cexpm1Taylor t k

/-- `cexpm1(k)` of the build (R148). -/
def cexpm1 (c : Config) (k : Nat) : Cx :=
  match c.cexpm1 with
  | .custom => c.ty.ofHostCx (Config.customCexpm1 c.ty k)
  | prim => cexpm1Default c.ty prim k

/-- The exact values of the default `cexpm1_frac` at `j` quarter turns (R152). -/
def quarterTurn (t : Ty) (j : Nat) : Cx :=
  match j % 4 with
  | 0 => ⟨t.zero, t.zero⟩
  | 1 => ⟨t.neg t.one, t.one⟩
  | 2 => ⟨minusTwo t, t.zero⟩
  | _ => ⟨t.neg t.one, t.neg t.one⟩

/-- The default `cexpm1_frac(p, q)` (R152). DESIGN CHOICE (log 10): the spec does not say what one ULP is in an OPEN type,
and off the quarter turns the value of such a type is free without a bound, whichever default the build installs. -/
def cexpm1FracStd (t : Ty) (prim : Primitive) (p q : Nat) : Cx :=
  if 4 * p % q = 0 then quarterTurn t (4 * p / q)
  else
    match t.fmt with
    | some f => conformAt f prim (Config.cexpm1FracDefault t p q) p q
    | none => Config.cexpm1FracDefault t p q

/-- `cexpm1_frac(p, q)` of the build (R149). -/
def cexpm1Frac (c : Config) (p q : Nat) : Cx :=
  match c.cexpm1Frac with
  | .custom => c.ty.ofHostCx (Config.customCexpm1Frac c.ty p q)
  | prim => cexpm1FracStd c.ty prim p q

/-- `mulσi(v)`: multiplication by `σ·i` (R226). -/
def mulSigmaI (t : Ty) (v : Cx) : Dir → Cx
  | .forward => ⟨v.im, t.neg v.re⟩
  | .inverse => ⟨t.neg v.im, v.re⟩

end Sys2Proof.Machine
end

