-- ==== Sys2Proof/Machine/Ops.lean ====
section
/-! DEFINITION. The shared operations: element memory (R80–R86), the allocator (R90), views (R22, R83–R85), the
overlap check (R303), the work a command does (R19, R50) and its completion (R19, R350). -/

namespace Sys2Proof.Machine

/-! ### Element memory -/

/-- The element at an address, if the address is admitted (R80, R82). -/
def Mem.read : Mem → Nat → Option Elem
  | [], _ => none
  | (k, x) :: m, a => if k = a then some x else Mem.read m a

/-- Store an element at an admitted address (R80); no step where it is not admitted (R82). -/
def Mem.write : Mem → Nat → Elem → Option Mem
  | [], _, _ => none
  | (k, x) :: m, a, v => if k = a then some ((k, v) :: m) else (Mem.write m a v).map ((k, x) :: ·)

/-- The host places an element at an address (R82), admitting it. -/
def Mem.place : Mem → Nat → Elem → Mem
  | [], a, v => [(a, v)]
  | (k, x) :: m, a, v =>
    if k = a then (k, v) :: m
    else if a < k then (a, v) :: (k, x) :: m
    else (k, x) :: Mem.place m a v

/-- The addresses of a memory rise from above `lo`, and each is an element address (R80). -/
def Mem.risesFrom : Nat → Mem → Bool
  | _, [] => true
  | lo, (k, _) :: m => decide (lo < k) && decide (k < 2 ^ addrWidth) && Mem.risesFrom k m

/-- The canonical form of a memory: element addresses of `[1, 2^AW)`, strictly rising (R80). -/
def Mem.wf (m : Mem) : Bool := Mem.risesFrom 0 m

/-- The cells of a granted region `[b, b + len)`, with contents `f` (R90). -/
def regionCells (b : Nat) (f : Nat → Elem) : Nat → Nat → Mem
  | _, 0 => []
  | i, len + 1 => (b + i, f i) :: regionCells b f (i + 1) len

/-- Admit the region `[b, b + len)`, none of whose addresses is listed (R90). -/
def Mem.grant (m : Mem) (b len : Nat) (f : Nat → Elem) : Mem :=
  m.filter (fun c => decide (c.1 < b)) ++ regionCells b f 0 len ++ m.filter (fun c => decide (b ≤ c.1))

/-- Give the region `[b, b + len)` back (R325). -/
def Mem.release (m : Mem) (b len : Nat) : Mem :=
  m.filter (fun c => !(decide (b ≤ c.1) && decide (c.1 < b + len)))

/-- No address of `[b, b + len)` is listed: the region is disjoint from every buffer and live allocation (R90). -/
def Mem.free (m : Mem) (b len : Nat) : Bool :=
  m.all (fun c => !(decide (b ≤ c.1) && decide (c.1 < b + len)))

/-- An integer is an element address (R80). -/
def isAddr (a : Int) : Bool := decide (0 < a) && decide (a < 2 ^ addrWidth)

/-- The element at an integer address (R80): none outside the address space, none where nothing is admitted (R82). -/
def Mem.atAddr (m : Mem) (a : Int) : Option Elem := if isAddr a then m.read a.toNat else none

/-- Store an element at an integer address (R80): no step where the address is not admitted (R82). -/
def Mem.setAddr (m : Mem) (a : Int) (v : Elem) : Option Mem := if isAddr a then m.write a.toNat v else none

/-! ### Views -/

/-- The address of element `i` of a view, in mathematical integers (R22). -/
def View.addr (v : View) (i : Nat) : Int := v.base + (i : Int) * v.stride

/-- The view is null (R22). -/
def View.isNull (v : View) : Bool := v.base == 0

/-- `a` is the address of some element of the view, the view not being taken as null. -/
def View.hits (v : View) (a : Int) : Bool :=
  if v.stride = 0 then a == v.base && decide (0 < v.count)
  else decide ((a - v.base) % v.stride = 0) && decide (0 ≤ (a - v.base) / v.stride)
    && decide ((a - v.base) / v.stride < v.count)

/-- `a` lies in the footprint of the view (R85). -/
def View.covers (v : View) (a : Int) : Bool := !v.isNull && v.hits a

/-- A test holds of some number below `n`. -/
def anyBelow : Nat → (Nat → Bool) → Bool
  | 0, _ => false
  | n + 1, p => p n || anyBelow n p

/-- The footprints of two views meet (R85). -/
def View.meets (v w : View) : Bool := !v.isNull && anyBelow v.count (fun i => w.covers (v.addr i))

/-- The lower half of a view (R194). -/
def View.lo (v : View) : View := { v with count := v.count / 2 }

/-- The upper half of a view (R194). -/
def View.hi (v : View) : View :=
  { v with base := v.base + ((v.count / 2 : Nat) : Int) * v.stride, count := v.count / 2 }

/-- The elements of a view at even positions (R194). -/
def View.even (v : View) : View := { v with stride := 2 * v.stride, count := v.count / 2 }

/-- The elements of a view at odd positions (R194). -/
def View.odd (v : View) : View :=
  { base := v.base + v.stride, stride := 2 * v.stride, count := v.count / 2 }

/-! ### The work of a command -/

/-- What a command may change while it runs: memory, the feature cache, the draws, its sequencer, its scratch and its
transient state (R47–R51, R86). `em` is its effective mask once evaluated (R265). -/
structure Work where
  mem : Mem
  featCache : Word32
  em : Option (BitVec 6)
  allocs : List (Option Nat)
  tick : Nat
  fsm : Fsm
  bsBase : Nat
  trans : Transient
deriving DecidableEq, Repr, Inhabited

/-- `MemRead(a, 1)` (R18): stuck where the address is not admitted (R82). -/
def memRead (a : Int) (w : Work) : Except Fault Elem :=
  match w.mem.atAddr a with
  | some x => .ok x
  | none => .error .stuck

/-- `MemWrite(a, 1, v)` (R18): stuck where the address is not admitted (R82). -/
def memWrite (a : Int) (v : Elem) (w : Work) : Except Fault Work :=
  match w.mem.setAddr a v with
  | some m => .ok { w with mem := m }
  | none => .error .stuck

/-- `srcRead(view, i)` (R83): a null source reads `ZERO`. -/
def srcRead (t : Ty) (v : View) (i : Nat) (w : Work) : Except Fault Elem :=
  if v.isNull then .ok t.zero else memRead (v.addr i) w

/-- `dstRead(view, i)` (R84). -/
def dstRead (v : View) (i : Nat) (w : Work) : Except Fault Elem := memRead (v.addr i) w

/-- `dstWrite(view, i, x)` (R84). -/
def dstWrite (v : View) (i : Nat) (x : Elem) (w : Work) : Except Fault Work := memWrite (v.addr i) x w

/-- Both parts of position `i` of a pair of streams. -/
def cxRead (vr vi : View) (i : Nat) (w : Work) : Except Fault Cx :=
  (dstRead vr i w).bind fun x => (dstRead vi i w).bind fun y => .ok ⟨x, y⟩

/-- Write both parts of position `i` of a pair of streams, the real part first. -/
def cxWrite (vr vi : View) (i : Nat) (z : Cx) (w : Work) : Except Fault Work :=
  (dstWrite vr i z.re w).bind fun w => dstWrite vi i z.im w

/-- `f 0`, then `f 1`, up to `f (n-1)`. -/
def forUp : Nat → (Nat → Work → Except Fault Work) → Work → Except Fault Work
  | 0, _, w => .ok w
  | n + 1, f, w => (forUp n f w).bind (f n)

/-- The elements `i, i+1, …` of a source view, `len` of them. -/
def readFrom (t : Ty) (v : View) (w : Work) : Nat → Nat → Except Fault (List Elem)
  | _, 0 => .ok []
  | i, len + 1 => (srcRead t v i w).bind fun x => (readFrom t v w (i + 1) len).bind fun xs => .ok (x :: xs)

/-- Write a list of elements to a destination view, the one with index `i` at position `p i`. -/
def storeAt (v : View) (p : Nat → Nat) : List Elem → Nat → Work → Except Fault Work
  | [], _, w => .ok w
  | x :: xs, i, w => (dstWrite v (p i) x w).bind (storeAt v p xs (i + 1))

/-- Enter a state of the sequencer (R50, R290). -/
def Work.goto (w : Work) (f : Fsm) : Work := { w with fsm := f }

/-- The sequencer stands in a Bluestein sub-transform (R320, R321, R323). -/
def Fsm.inSubTransform : Fsm → Bool
  | .bsFftA | .bsFftB | .bsIfft => true
  | _ => false

/-- Enter a state of the power-of-two pipeline (R290): a sub-transform runs the whole pipeline in its own state. -/
def Work.gotoPot (w : Work) (f : Fsm) : Work := { w with fsm := if w.fsm.inSubTransform then w.fsm else f }

/-- Fill the twiddle buffer (R47). -/
def Work.setTwb (w : Work) (l : List Cx) : Work :=
  { w with trans := { w.trans with twbRe := l.map Cx.re, twbIm := l.map Cx.im } }

/-- `(TWB_RE[k], TWB_IM[k])` (R47). -/
def Work.twbAt (w : Work) (k : Nat) : Cx := ⟨w.trans.twbRe.getD k default, w.trans.twbIm.getD k default⟩

/-- Set the multiplier pair `(C, S)` (R51). -/
def Work.setMul (w : Work) (z : Cx) : Work := { w with trans := { w.trans with mul := some z } }

/-- Set the step factor `(X, Y)` (R51). -/
def Work.setStp (w : Work) (z : Cx) : Work := { w with trans := { w.trans with stp := some z } }

/-- The multiplier pair `(C, S)`. -/
def Work.mulAt (w : Work) : Cx := w.trans.mul.getD default

/-- The step factor `(X, Y)`. -/
def Work.stpAt (w : Work) : Cx := w.trans.stp.getD default

/-! ### The allocator -/

/-- No view of the list reaches into `[b, b + len)` (R90). -/
def clearOf (vs : List View) (b len : Nat) : Bool :=
  vs.all (fun v => !v.meets { base := b, stride := 1, count := len })

/-- A draw meets the allocator's contract (R90): aligned, inside the address space, disjoint from all that is listed and
from the caller buffers `vs` of the request, placed or not. -/
def allocLawful (c : Config) (vs : List View) (m : Mem) (b len : Nat) : Bool :=
  decide (0 < b) && decide (b + len ≤ 2 ^ addrWidth) && decide (b * c.es % simdAlign = 0) && m.free b len
    && clearOf vs b len

/-- The free contents of position `i` of the region that draw number `k` grants (R90), as an element of `T`. -/
def scratchElem (t : Ty) (k i : Nat) : Elem := t.ofHost (Config.scratchDraw k i).code

/-- A success of `alloc` with base `b` (R90): the region is admitted with free contents, `BS_BASE` holds its base. -/
def allocGrant (c : Config) (len b : Nat) (w : Work) : Work :=
  { w with
    mem := w.mem.grant b len (scratchElem c.ty w.tick), allocs := w.allocs.tail, tick := w.tick + 1, bsBase := b }

/-- A null result of `alloc` (R90): nothing is admitted, the draw is used up. -/
def allocNull (w : Work) : Work := { w with allocs := w.allocs.tail, tick := w.tick + 1 }

/-- `alloc` of `len` elements for a request with the views `vs` (R90). The launch's next draw decides: null, or a region,
and a region that breaks the contract has no move (R386). Where the launch lists no draw, a free one decides, which is a
region only where it meets the contract. -/
def alloc (c : Config) (vs : List View) (len : Nat) (w : Work) : Except Fault (Option Nat × Work) :=
  match w.allocs with
  | none :: _ => .ok (none, allocNull w)
  | some b :: _ =>
    if allocLawful c vs w.mem b len then .ok (some b, allocGrant c len b w) else .error .stuck
  | [] =>
    match Config.allocDraw w.tick with
    | none => .ok (none, allocNull w)
    | some b =>
      if allocLawful c vs w.mem b len then .ok (some b, allocGrant c len b w) else .ok (none, allocNull w)

/-- `free` of the region at `BS_BASE` (R325). -/
def release (len : Nat) (w : Work) : Work :=
  { w with mem := w.mem.release w.bsBase len, bsBase := 0 }

/-! ### Checks -/

/-- Why a command ends before its work (R19): `raise InvalidArgument()`, or a fault. -/
inductive Stop where
  | invalid
  | fault (f : Fault)
deriving DecidableEq, Repr

/-- Read an argument register. R31: "A command that reads an UNWRITTEN argument register makes the model fault
`UnwrittenRegister` and has no defined result" (R344's table of faults; R347: before any check on a value). -/
def arg {α : Type} : Option α → Except Stop α
  | some v => .ok v
  | none => .error (.fault .unwrittenRegister)

/-- `if b then raise InvalidArgument()` (R19). -/
def invalidIf (b : Bool) : Except Stop Unit := if b then .error .invalid else .ok ()

/-- The conditions 1 to 3 of R302 on the destinations. -/
def dstBad (dr di : View) : Bool :=
  dr.isNull || di.isNull || dr.stride == 0 || di.stride == 0 || dr.base == di.base

/-- `CheckDst(dr, di)` (R302). -/
def checkDst (dr di : View) : Except Stop Unit := invalidIf (dstBad dr di)

/-- A source and a destination meet without being identical (R303). -/
def clash (s d : View) : Bool := !s.isNull && s != d && s.meets d

/-- Two destinations meet, or a source meets a destination it is not identical to (R303). -/
def overlapBad (srcs : List View) (dr di : View) : Bool :=
  srcs.any (fun s => clash s dr || clash s di) || dr.meets di

/-- `CheckOverlap(S, {dr, di})` (R303). -/
def checkOverlap (srcs : List View) (dr di : View) : Except Stop Unit :=
  if overlapBad srcs dr di then .error (.fault .overlap) else .ok ()

/-! ### Completion -/

/-- The completion codes (R39, R341). -/
inductive Code where
  | ok
  | invalidArgument
  | outOfMemory
deriving DecidableEq, Repr

/-- What a command hands to `finish`: its code, its work, and the values for `RESULT` and `RES_*` where it writes them
(R40, R41). -/
structure Done where
  code : Code
  work : Work
  result : Option Word64
  res : Option Cx
deriving DecidableEq, Repr

/-- The work a command of the current context starts with. -/
def State.work (s : State) : Work :=
  { mem := s.mem, featCache := s.featCache, em := none, allocs := s.allocs, tick := s.tick
    fsm := s.me.fsm, bsBase := s.me.bsBase, trans := s.me.trans }

/-- Run the arithmetic of a command, which cannot fail but by being stuck (R233, R345). -/
def liftWork (r : Except Fault Work) : Except Stop Work :=
  match r with
  | .ok w => .ok w
  | .error f => .error (.fault f)

/-- A command that succeeds and writes no result register. -/
def doneOk (w : Work) : Except Stop Done := .ok { code := .ok, work := w, result := none, res := none }

end Sys2Proof.Machine
end

