-- ==== Sys2Proof/Machine/Flags.lean ====
section
/-! DEFINITION. FBD has no condition flags (R32). What a command leaves for the host to test is `STATUS` (R39, R341),
`RESULT` (R40) and `RES_*` (R41), all written by `finish` (R19, R350). -/

namespace Sys2Proof.Machine

/-- The `STATUS` word of a completion code (R341). -/
def Code.word : Code → Word32
  | .ok => 0
  | .invalidArgument => 0xFFFFFFFF
  | .outOfMemory => 0xFFFFFFFE

/-- `finish(code)` (R19, R350): the command's memory and shared effects, `STATUS`, the result registers where the
command writes them; the sequencer back in `IDLE`, no scratch, no transient state (R52). -/
def State.finish (s : State) (d : Done) : State :=
  { s with
    mem := d.work.mem, featCache := d.work.featCache, allocs := d.work.allocs, tick := d.work.tick
    me := { s.me with
      status := d.code.word
      result := d.result.getD s.me.result
      resRe := (d.res.map Cx.re).getD s.me.resRe
      resIm := (d.res.map Cx.im).getD s.me.resIm
      fsm := .idle, bsBase := 0, trans := Transient.dropped } }

/-- `raise InvalidArgument()` (R19, R116): `finish(-1)` from `ERROR_RETURN` (R290), with nothing written (R343). -/
def State.turnAway (s : State) : State :=
  s.finish { code := .invalidArgument, work := s.work.goto .errorReturn, result := none, res := none }

/-- The outcome of a command (R340). -/
def State.complete (s : State) (r : Except Stop Done) : Host.Outcome State Fault Refusal :=
  match r with
  | .ok d => .next (s.finish d)
  | .error .invalid => .next s.turnAway
  | .error (.fault f) => .fault f

end Sys2Proof.Machine
end

