-- ==== Sys2Proof/Machine/Operands.lean ====
section
/-! DEFINITION. Operand forms: the views a command forms from its argument registers (R34–R38, R115, R291), and the
direction sign. -/

namespace Sys2Proof.Machine

/-- An address register as an integer (R36, R111). -/
def addrOf (a : Word64) : Int := (a.toNat : Int)

/-- A stride register as an integer: 64-bit two's complement (R37, R111). -/
def strideOf (s : Word64) : Int := s.toInt

/-- The view of an address register and a stride register. -/
def viewOf (base stride : Word64) (count : Nat) : View :=
  { base := addrOf base, stride := strideOf stride, count := count }

/-- A source view of a request: a null base always gets stride 0 (R291). -/
def srcView (base : Int) (stride : Int) (count : Nat) : View :=
  { base := base, stride := if base = 0 then 0 else stride, count := count }

/-- The four views of a request (R291). -/
structure Views where
  sr : View
  si : View
  dr : View
  di : View
deriving DecidableEq, Repr

/-- The caller buffers of a request (R86). -/
def Views.list (v : Views) : List View := [v.sr, v.si, v.dr, v.di]

/-- The split shape: unit strides (R291). -/
def splitViews (sre sim dre dim : Word64) (n : Nat) : Views :=
  { sr := srcView (addrOf sre) 1 n, si := srcView (addrOf sim) 1 n
    dr := { base := addrOf dre, stride := 1, count := n }, di := { base := addrOf dim, stride := 1, count := n } }

/-- The base of the imaginary part of an interleaved array: one above, null for a null array (R291). -/
def imBase (base : Int) : Int := if base = 0 then 0 else base + 1

/-- The interleaved shape: stride 2, `im = re + 1` (R291). -/
def interleavedViews (src dst : Word64) (n : Nat) : Views :=
  { sr := srcView (addrOf src) 2 n, si := srcView (imBase (addrOf src)) 2 n
    dr := { base := addrOf dst, stride := 2, count := n }
    di := { base := imBase (addrOf dst), stride := 2, count := n } }

/-- The destination pair of the in-place commands (R240–R244, R176–R177, R278), read from the argument registers. -/
def dstPair (c : Context) : Except Stop (Nat → View × View) :=
  (arg c.argDstRe).bind fun dre => (arg c.argDstIm).bind fun dim =>
  (arg c.argDsRe).bind fun sre => (arg c.argDsIm).bind fun sim =>
  .ok fun n => (viewOf dre sre n, viewOf dim sim n)

/-- The transform request of the strided commands, read from the argument registers (R115, R291). -/
def stridedArgs (c : Context) : Except Stop (Nat → Views) :=
  (arg c.argSrcRe).bind fun sre => (arg c.argSrcIm).bind fun sim =>
  (arg c.argDstRe).bind fun dre => (arg c.argDstIm).bind fun dim =>
  (arg c.argSsRe).bind fun ssre => (arg c.argSsIm).bind fun ssim =>
  (arg c.argDsRe).bind fun dsre => (arg c.argDsIm).bind fun dsim =>
  .ok fun n =>
    { sr := srcView (addrOf sre) (strideOf ssre) n, si := srcView (addrOf sim) (strideOf ssim) n
      dr := viewOf dre dsre n, di := viewOf dim dsim n }

/-- The transform request of `XFS`, read from the argument registers (R115, R291). -/
def splitArgs (c : Context) : Except Stop (Nat → Views) :=
  (arg c.argSrcRe).bind fun sre => (arg c.argSrcIm).bind fun sim =>
  (arg c.argDstRe).bind fun dre => (arg c.argDstIm).bind fun dim =>
  .ok (splitViews sre sim dre dim)

/-- The transform request of `XFI`, read from the argument registers (R115, R291). -/
def interleavedArgs (c : Context) : Except Stop (Nat → Views) :=
  (arg c.argSrcRe).bind fun src => (arg c.argDstRe).bind fun dst => .ok (interleavedViews src dst)

end Sys2Proof.Machine
end

