-- ==== Sys2Proof/Machine/Primitive.lean ====
section
/-! DEFINITION. The commands of the scalar family: `CXM` (R154) and `CXF` (R155). -/

namespace Sys2Proof.Machine

/-- The body of `CXM` (R154). -/
def runCxm (c : Config) (w : Work) (k : Nat) : Except Stop Done :=
  .ok { code := .ok, work := w, result := none, res := some (cexpm1 c k) }

/-- `CXM` (R154). -/
def execCxm (k : Nat) (s : State) : Host.Outcome State Fault Refusal :=
  s.complete (runCxm s.cfg s.work k)

/-- The body of `CXF` (R155). -/
def runCxf (c : Config) (me : Context) (w : Work) : Except Stop Done :=
  (arg me.argP).bind fun p => (arg me.argQ).bind fun q =>
  (invalidIf (q == 0)).bind fun _ =>
  .ok { code := .ok, work := w, result := none, res := some (cexpm1Frac c p.toNat q.toNat) }

/-- `CXF` (R155). -/
def execCxf (s : State) : Host.Outcome State Fault Refusal :=
  s.complete (runCxf s.cfg s.me s.work)

end Sys2Proof.Machine
end

