-- ==== Sys2Proof/Machine/BitRev.lean ====
section
/-! DEFINITION. The bit-reversal engine: its result (R190, R191), and the commands `BRV` (R200), `DIL` (R201) and
`ILV` (R202). The regimes of R192–R197, an access procedure no host can observe (R198), are in Regimes.lean. -/

namespace Sys2Proof.Machine

/-- The ROM `BREV8` (R45). -/
def brev8 : List Nat := (List.range brevLen).map (fun i => rev i 8)

/-- `BitRev(src, dst, L)` (R190): every source element is read, as it was at the start, before any is written.
DESIGN CHOICE (log 35): in place R193 makes no access at a fixed point `i = rev(i, L)`, where R190 reads every position;
the access is made here, so a fixed point at an address that is not admitted is stuck. -/
def bitRev (t : Ty) (src dst : View) (l : Nat) (w : Work) : Except Fault Work :=
  (readFrom t src w 0 (2 ^ l)).bind fun xs => storeAt dst (fun i => rev i l) xs 0 w

/-- A unit-stride view `[b, b + n)`. -/
def unitView (b : Int) (n : Nat) : View := { base := b, stride := 1, count := n }

/-- `BitRev` of a view in place (R190). -/
def bitRevIn (t : Ty) (v : View) (l : Nat) (w : Work) : Except Fault Work := bitRev t v v l w

/-- The three `BitRev` calls of `DIL` on `(base, 2^L)` (R201, R311). -/
def deinterleave (t : Ty) (base : Int) (l : Nat) (w : Work) : Except Fault Work :=
  (bitRevIn t (unitView base (2 * 2 ^ l)) (l + 1) w).bind fun w =>
  (bitRevIn t (unitView base (2 ^ l)) l w).bind fun w =>
  bitRevIn t (unitView (base + (2 ^ l : Nat)) (2 ^ l)) l w

/-- The three `BitRev` calls of `ILV` on `(base, 2^L)` (R202, R313). -/
def interleave (t : Ty) (base : Int) (l : Nat) (w : Work) : Except Fault Work :=
  (bitRevIn t (unitView base (2 ^ l)) l w).bind fun w =>
  (bitRevIn t (unitView (base + (2 ^ l : Nat)) (2 ^ l)) l w).bind fun w =>
  bitRevIn t (unitView base (2 * 2 ^ l)) (l + 1) w

/-- The source and destination views of `BRV` (R200), read from the argument registers (R115). -/
def brvArgs (c : Context) : Except Stop (Nat → View × View) :=
  (arg c.argSrcRe).bind fun sb => (arg c.argSsRe).bind fun ss =>
  (arg c.argDstRe).bind fun db => (arg c.argDsRe).bind fun ds =>
  .ok fun n => (viewOf sb ss n, viewOf db ds n)

/-- The invalid arguments of `BRV` (R200). -/
def brvBad (l : Nat) (src dst : View) : Bool :=
  decide (log2nMax < l) || dst.isNull || dst.stride == 0
    || (!src.isNull && src.base == dst.base && src.stride != dst.stride)

/-- The body of `BRV` (R200). -/
def runBrv (c : Config) (me : Context) (w : Work) (l : Nat) : Except Stop Done :=
  (brvArgs me).bind fun views =>
  let v := views (2 ^ l)
  (invalidIf (brvBad l v.1 v.2)).bind fun _ =>
  if v.1 = v.2 then (liftWork (bitRevIn c.ty v.2 l w)).bind doneOk
  else if v.1.meets v.2 then .error (.fault .overlap)
  else (liftWork (bitRev c.ty v.1 v.2 l w)).bind doneOk

/-- `BRV` (R200). -/
def execBrv (log2n : Nat) (s : State) : Host.Outcome State Fault Refusal :=
  s.complete (runBrv s.cfg s.me s.work log2n)

/-- The invalid arguments of `DIL` and `ILV` (R201, R202). -/
def dilBad (n : Nat) (base : Int) : Bool :=
  !isPow2 n || decide (2 ^ (log2nMax - 1) < n) || base == 0

/-- The common body of `DIL` and `ILV` (R201, R202) around their shuffle. -/
def runShuffle (shuffle : Int → Nat → Work → Except Fault Work) (me : Context) (w : Work) : Except Stop Done :=
  (arg me.argN).bind fun n => (arg me.argDstRe).bind fun base =>
  let n := n.toNat
  let b := addrOf base
  if n = 0 then doneOk w
  else
    (invalidIf (dilBad n b)).bind fun _ =>
    (liftWork (shuffle b (Nat.log2 n) w)).bind doneOk

/-- `DIL` (R201). -/
def execDil (s : State) : Host.Outcome State Fault Refusal :=
  s.complete (runShuffle (deinterleave s.cfg.ty) s.me s.work)

/-- `ILV` (R202). -/
def execIlv (s : State) : Host.Outcome State Fault Refusal :=
  s.complete (runShuffle (interleave s.cfg.ty) s.me s.work)

end Sys2Proof.Machine
end

