-- ==== Sys2Proof/Machine/Twiddle.lean ====
section
/-! DEFINITION. The twiddle-factor generators (R170–R179) and the commands `TWG` (R176) and `TWF` (R177). -/

namespace Sys2Proof.Machine

/-- One product of the doubling recurrence in the `−1` form (R171, R175): the entry `z` advanced by `W`. -/
def twStep (t : Ty) (w z : Cx) : Cx :=
  ⟨t.add (t.sub (t.mul w.re z.re) (t.mul w.im z.im)) (t.add w.re z.re),
   t.add (t.add (t.mul w.im z.re) (t.mul w.re z.im)) (t.add w.im z.im)⟩

/-- The `−1` form of the entries `[0, 2^i)` of `TwiddleGen(N, L, σ)`, which step `i-1` completes (R171, R172). -/
def twiddleRaw (c : Config) (bigN : Nat) (σ : Dir) : Nat → List Cx
  | 0 => [⟨c.ty.zero, c.ty.zero⟩]
  | i + 1 =>
    let l := twiddleRaw c bigN σ i
    l ++ l.map (twStep c.ty (dirz c.ty (cexpm1 c (bigN - i)) σ))

/-- Leaving the `−1` form: `ONE` added to the real part (R171, R179). -/
def addOne (t : Ty) (z : Cx) : Cx := ⟨t.add z.re t.one, z.im⟩

/-- `TwiddleGen(N, L, σ)` (R170, R171). -/
def twiddleGen (c : Config) (bigN l : Nat) (σ : Dir) : List Cx := (twiddleRaw c bigN σ l).map (addOne c.ty)

/-- The `−1` form of the entries `0 .. K` of `FracTwiddles` after `k` doublings, `i = 2^k` at the next (R175). -/
def fracRaw (c : Config) (n : Nat) (σ : Dir) : Nat → List Cx
  | 0 => [⟨c.ty.zero, c.ty.zero⟩]
  | k + 1 =>
    let l := fracRaw c n σ k
    (l ++ l.map (twStep c.ty (dirz c.ty (cexpm1Frac c (2 ^ k) (2 * n)) σ))).take (n / 2 + 1)

/-- How many doublings `i = 1, 2, 4, …` with `i ≤ K` there are (R175). -/
def doublings (k : Nat) : Nat := if k = 0 then 0 else Nat.log2 k + 1

/-- `(neg re, im)`: the fill of the second quadrant (R175). -/
def negRe (t : Ty) (z : Cx) : Cx := ⟨t.neg z.re, z.im⟩

/-- `(neg re, neg im)`: the fill of the second half (R175). -/
def negBoth (t : Ty) (z : Cx) : Cx := ⟨t.neg z.re, t.neg z.im⟩

/-- The entries `0 .. K` of `FracTwiddles(n, σ)` (R175). -/
def fracFirst (c : Config) (n : Nat) (σ : Dir) : List Cx :=
  (fracRaw c n σ (doublings (n / 2))).map (addOne c.ty)

/-- The entries `0 .. n-1` of `FracTwiddles(n, σ)`: those from `K+1` mirror those below (R175). -/
def fracHalf (c : Config) (n : Nat) (σ : Dir) : List Cx :=
  let l := fracFirst c n σ
  l ++ (List.range (n - 1 - n / 2)).map (fun i => negRe c.ty (l.getD (n - (n / 2 + 1 + i)) default))

/-- `FracTwiddles(n, σ)` (R175): `2n` entries. -/
def fracTwiddles (c : Config) (n : Nat) (σ : Dir) : List Cx :=
  let l := fracHalf c n σ
  l ++ l.map (negBoth c.ty)

/-- Write a list of complex values to a pair of destination streams, entry `k` at position `k` (R176, R177). -/
def storeCx (vr vi : View) : List Cx → Nat → Work → Except Fault Work
  | [], _, w => .ok w
  | z :: zs, k, w => (cxWrite vr vi k z w).bind (storeCx vr vi zs (k + 1))

/-- The body of `TWG` (R176). -/
def runTwg (c : Config) (me : Context) (w : Work) (σ : Dir) (bigN l : Nat) : Except Stop Done :=
  (dstPair me).bind fun views =>
  let v := views (2 ^ l)
  (invalidIf (decide (bigN < l) || decide (c.lbuf < l))).bind fun _ =>
  (checkDst v.1 v.2).bind fun _ => (checkOverlap [] v.1 v.2).bind fun _ =>
  (liftWork (storeCx v.1 v.2 (twiddleGen c bigN l σ) 0 w)).bind doneOk

/-- `TWG` (R176). -/
def execTwg (dir : Dir) (bigN l : Nat) (s : State) : Host.Outcome State Fault Refusal :=
  s.complete (runTwg s.cfg s.me s.work dir bigN l)

/-- The body of `TWF` (R177). -/
def runTwf (c : Config) (me : Context) (w : Work) (σ : Dir) : Except Stop Done :=
  (arg me.argN).bind fun n => (dstPair me).bind fun views =>
  let n := n.toNat
  if n = 0 then doneOk w
  else
    let v := views (2 * n)
    (invalidIf (decide (2 ^ (log2nMax - 1) < n))).bind fun _ =>
    (checkDst v.1 v.2).bind fun _ => (checkOverlap [] v.1 v.2).bind fun _ =>
    (liftWork (storeCx v.1 v.2 (fracTwiddles c n σ) 0 w)).bind doneOk

/-- `TWF` (R177). -/
def execTwf (dir : Dir) (s : State) : Host.Outcome State Fault Refusal :=
  s.complete (runTwf s.cfg s.me s.work dir)

end Sys2Proof.Machine
end

