-- ==== Sys2Proof/Machine/Engine.lean ====
section
/-! DEFINITION. The butterfly (R220), the radix-2 pass in its two modes (R222–R225) and the radix-8 kernel
(R226–R228), on two destination views in place (R221). -/

namespace Sys2Proof.Machine

/-- `BF(vr, vi, lo, hi, W)` (R220): both positions are read before either is written. -/
def bf (t : Ty) (vr vi : View) (lo hi : Nat) (tw : Cx) (w : Work) : Except Fault Work :=
  (cxRead vr vi lo w).bind fun l => (cxRead vr vi hi w).bind fun h =>
  let x := cmul t h tw
  (cxWrite vr vi lo (cadd t l x) w).bind (cxWrite vr vi hi (csub t l x))

/-- A pass in flat mode (R223). -/
def passFlat (c : Config) (vr vi : View) (lt d : Nat) (σ : Dir) (w : Work) : Except Fault Work :=
  let h := 2 ^ (d - 1)
  forUp (2 ^ (lt - d)) (fun b => forUp h (fun k w =>
      bf c.ty vr vi (b * 2 ^ d + k) (b * 2 ^ d + k + h) (w.twbAt k) w))
    (w.setTwb (twiddleGen c d (d - 1) σ))

/-- The step factor of recursive-block mode (R224). -/
def stepFactor (c : Config) (d : Nat) (σ : Dir) : Cx :=
  addOne c.ty (dirz c.ty (cexpm1 c (d - c.lbuf + 1)) σ)

/-- The twiddle of a pair in recursive-block mode: the stored twiddle times the multiplier pair (R225). -/
def blockTwiddle (t : Ty) (tw m : Cx) : Cx :=
  ⟨t.sub (t.mul tw.re m.re) (t.mul tw.im m.im), t.add (t.mul tw.re m.im) (t.mul tw.im m.re)⟩

/-- The multiplier pair after a chunk (R225). -/
def advanceMul (t : Ty) (m x : Cx) : Cx :=
  ⟨t.sub (t.mul m.re x.re) (t.mul m.im x.im), t.add (t.mul m.im x.re) (t.mul m.re x.im)⟩

/-- A pass in recursive-block mode (R225). -/
def passBlock (c : Config) (vr vi : View) (lt d : Nat) (σ : Dir) (w : Work) : Except Fault Work :=
  let h := 2 ^ (d - 1)
  let chunk := 2 ^ (c.lbuf - 1)
  forUp (2 ^ (lt - d)) (fun b w =>
      forUp (h / chunk) (fun q w =>
          (forUp chunk (fun r w =>
              bf c.ty vr vi (b * 2 ^ d + q * chunk + r) (b * 2 ^ d + q * chunk + r + h)
                (blockTwiddle c.ty (w.twbAt r) w.mulAt) w) w).bind
            fun w => .ok (w.setMul (advanceMul c.ty w.mulAt w.stpAt)))
        (w.setMul ⟨c.ty.one, c.ty.zero⟩))
    ((w.setTwb (twiddleGen c d (c.lbuf - 1) σ)).setStp (stepFactor c d σ))

/-- `Pass(vr, vi, Ltot, d, σ)` (R222). -/
def pass (c : Config) (vr vi : View) (lt d : Nat) (σ : Dir) (w : Work) : Except Fault Work :=
  if d ≤ c.lbuf then passFlat c vr vi lt d σ w else passBlock c vr vi lt d σ w

/-- Stage 1 of the radix-8 kernel on one pair: its sum and difference (R226). -/
def r8Pair (t : Ty) (x y : Cx) : Cx × Cx := (cadd t x y, csub t x y)

/-- Stages 1 and 2 of the radix-8 kernel on four positions, passes 1 and 2 (R226). -/
def r8Four (t : Ty) (σ : Dir) (a0 a1 a2 a3 : Cx) : Cx × Cx × Cx × Cx :=
  let u0 := r8Pair t a0 a1
  let u2 := r8Pair t a2 a3
  let i3 := mulSigmaI t u2.2 σ
  (cadd t u0.1 u2.1, cadd t u0.2 i3, csub t u0.1 u2.1, csub t u0.2 i3)

/-- `t1` of stage 3: `v[5]` turned by an eighth (R227). -/
def r8T1 (t : Ty) (σ : Dir) (v : Cx) : Cx :=
  match σ with
  | .forward => ⟨t.mul t.sqrtHalf (t.add v.re v.im), t.mul t.sqrtHalf (t.sub v.im v.re)⟩
  | .inverse => ⟨t.mul t.sqrtHalf (t.sub v.re v.im), t.mul t.sqrtHalf (t.add v.im v.re)⟩

/-- `t3` of stage 3: `v[7]` turned by three eighths (R227). -/
def r8T3 (t : Ty) (σ : Dir) (v : Cx) : Cx :=
  match σ with
  | .forward => ⟨t.mul t.sqrtHalf (t.sub v.im v.re), t.neg (t.mul t.sqrtHalf (t.add v.re v.im))⟩
  | .inverse => ⟨t.neg (t.mul t.sqrtHalf (t.add v.re v.im)), t.mul t.sqrtHalf (t.sub v.re v.im)⟩

/-- The radix-8 kernel on eight values (R226, R227): `y[0..7]` in order. -/
def r8Values (t : Ty) (σ : Dir) (a0 a1 a2 a3 a4 a5 a6 a7 : Cx) : List Cx :=
  match r8Four t σ a0 a1 a2 a3, r8Four t σ a4 a5 a6 a7 with
  | (v0, v1, v2, v3), (v4, v5, v6, v7) =>
    let t1 := r8T1 t σ v5
    let t2 := mulSigmaI t v6 σ
    let t3 := r8T3 t σ v7
    [ cadd t v0 v4, cadd t v1 t1, cadd t v2 t2, cadd t v3 t3, csub t v0 v4, csub t v1 t1, csub t v2 t2, csub t v3 t3 ]

/-- The radix-8 kernel on group `g` (R226, R227). -/
def r8Group (t : Ty) (σ : Dir) (vr vi : View) (g : Nat) (w : Work) : Except Fault Work :=
  (cxRead vr vi (8 * g) w).bind fun a0 => (cxRead vr vi (8 * g + 1) w).bind fun a1 =>
  (cxRead vr vi (8 * g + 2) w).bind fun a2 => (cxRead vr vi (8 * g + 3) w).bind fun a3 =>
  (cxRead vr vi (8 * g + 4) w).bind fun a4 => (cxRead vr vi (8 * g + 5) w).bind fun a5 =>
  (cxRead vr vi (8 * g + 6) w).bind fun a6 => (cxRead vr vi (8 * g + 7) w).bind fun a7 =>
  storeCx vr vi (r8Values t σ a0 a1 a2 a3 a4 a5 a6 a7) (8 * g) w

/-- `R8Kernel(vr, vi, Ltot, σ)` (R228). -/
def r8Kernel (t : Ty) (vr vi : View) (lt : Nat) (σ : Dir) (w : Work) : Except Fault Work :=
  forUp (2 ^ lt / 8) (r8Group t σ vr vi) w

end Sys2Proof.Machine
end

