-- ==== Sys2Proof/Machine/Simd.lean ====
section
/-! DEFINITION. The SIMD multiplexer: the feature probe and its cache (R260–R264), the effective mask (R265), width
selection (R266), the vector kernels' values (R267) and the optimized multipass (R271–R274); the commands `PRB` (R276),
`SEL` (R277) and `OMP` (R278). -/

namespace Sys2Proof.Machine

/-- A feature mask (R260): bit 0 `4f`, 1 `8f`, 2 `16f`, 3 `2d`, 4 `4d`, 5 `8d`. -/
abbrev Mask := BitVec 6

/-- A width's bit of the mask (R260). -/
def Width.bit : Width → Nat
  | .f4 => 0
  | .f8 => 1
  | .f16 => 2
  | .d2 => 3
  | .d4 => 4
  | .d8 => 5

/-- A width's lanes (R260). -/
def Width.lanes : Width → Nat
  | .f4 => 4
  | .f8 => 8
  | .f16 => 16
  | .d2 => 2
  | .d4 => 4
  | .d8 => 8

/-- The six widths in the order of their bits (R260). -/
def allWidths : List Width := [.f4, .f8, .f16, .d2, .d4, .d8]

/-- `CPUID(leaf, 0)` at the leaves the probe reads (R263). -/
def HostCpu.cpuid (h : HostCpu) (leaf : Nat) : CpuidRegs :=
  match leaf with
  | 0 => h.leaf0
  | 1 => h.leaf1
  | _ => h.leaf7

/-- `ProbeX86()` (R263). -/
def probeX86 (h : HostCpu) : Mask :=
  let max := (HostCpu.cpuid h 0).eax.toNat
  if 1 ≤ max then
    let r := HostCpu.cpuid h 1
    let sse : Mask := if r.edx.getLsbD 26 then 0x09#6 else 0#6
    if r.ecx.getLsbD 27 && r.ecx.getLsbD 28 then
      if h.xcr0 &&& 0x6#64 = 0x6#64 then
        let avx : Mask := sse ||| 0x12#6
        if 7 ≤ max ∧ (HostCpu.cpuid h 7).ebx.getLsbD 16 = true ∧ h.xcr0 &&& 0xE6#64 = 0xE6#64 then
          avx ||| 0x24#6
        else avx
      else sse
    else sse
  else 0#6

/-- `ArchMask()` (R262). -/
def archMask (c : Config) : Mask :=
  match c.arch with
  | .x86 => probeX86 c.cpu
  | .neon => 0x09#6
  | .noSimd => 0#6

/-- The mask a probe computes from the build: the hook or `ArchMask()`, then the toggles (R264). -/
def freshMask (c : Config) : Mask :=
  let m := match c.probeHook with
    | some h => h
    | none => archMask c
  let m := if c.avxEn then m else m &&& 0x09#6
  let m := if c.avx512En then m else m &&& 0x1B#6
  if c.potSimdEn then m else 0#6

/-- `Probe()` (R264): the mask, and `FEAT_CACHE` afterwards. -/
def probe (c : Config) (cache : Word32) : Mask × Word32 :=
  if c.featCacheEn && cache != 0 then (cache.setWidth 6, cache)
  else
    let m := freshMask c
    (m, if c.featCacheEn && m != 0 && cache == 0 then m.setWidth 32 else cache)

/-- The widths of the element type (R265, R274). -/
def tyMask (t : Ty) : Mask :=
  match t with
  | .f32 => 0x07#6
  | .f64 => 0x38#6
  | _ => 0#6

/-- The widths a policy admits once probed (R265, R112). -/
def polMask (p : Policy) (m : Mask) : Mask :=
  match p with
  | .auto => m
  | .scalar => 0#6
  | .force w => m &&& (1#6 <<< Width.bit w)

/-- `EffMask(pol)` (R265), evaluated once a command: a later evaluation gives the first one's value. -/
def effMask (c : Config) (p : Policy) (w : Work) : Mask × Work :=
  match w.em with
  | some m => (m, w)
  | none =>
    match p with
    | .scalar => (0#6, { w with em := some 0#6 })
    | p =>
      let r := probe c w.featCache
      let m := polMask p (r.1 &&& tyMask c.ty)
      (m, { w with em := some m, featCache := r.2 })

/-- Some width of the mask takes pass `d`: `vw ≤ 2^(d-2)` and the pass's twiddle buffer holds `vw` entries (R266). -/
def widthFits (lbuf : Nat) (m : Mask) (d : Nat) : Bool :=
  decide (2 ≤ d) && allWidths.any (fun w =>
    m.getLsbD (Width.bit w) && decide (Width.lanes w ≤ 2 ^ (d - 2))
      && decide (Width.lanes w ≤ 2 ^ min (d - 1) (lbuf - 1)))

/-- The passes from `d` on that some width takes, one after the other, `n` at most (R266). -/
def fitRun (lbuf : Nat) (m : Mask) : Nat → Nat → Nat
  | _, 0 => 0
  | d, n + 1 => if widthFits lbuf m d then fitRun lbuf m (d + 1) n + 1 else 0

/-- The radix-8 step opens a multipass (R266, R271). -/
def r8First (l depth : Nat) : Bool := depth == l && decide (r8Min ≤ depth)

/-- `Sel(L, depth, m)` (R266). -/
def selCount (lbuf : Nat) (l depth : Nat) (m : Mask) : Nat :=
  if m = 0 then 0
  else if r8First l depth then 3 + fitRun lbuf m 4 (depth - 3)
  else fitRun lbuf m (l - depth + 1) depth

/-- The values a vector kernel may leave where the scalar rule gives `r`, under `TOLERANT` (R267, D31): those within one
ULP (property 7) and within `4·ε·RMS` of it (property 9), `RMS² = sum / n` of the scalar rule's output; a NaN for a NaN. -/
def Fmt.tolerates (f : Fmt) (c r : Nat) (sum : Option Nat) (n : Nat) : Bool :=
  if f.isNaN r then f.isNaN c else f.withinUlp c (f.toInt r) 0 f.unitLog && f.withinRms c r sum n

/-- What a vector kernel leaves where the scalar rule gives `r` (R267, D31): the same under `EXACT`, under `TOLERANT`
a free value within the tolerances. -/
def simdValue (c : Config) (sum : Option Nat) (n : Nat) (draw r : Elem) : Elem :=
  match c.simdValues, c.ty.fmt with
  | .tolerant, some f =>
    let d := draw.code % (2 * f.signBit)
    if f.tolerates d r.code sum n then ⟨d⟩ else r
  | _, _ => r

/-- The sum of the squares of the elements an IEEE type gives, for the `RMS` of an output (R267, property 9). -/
def sumSquares (t : Ty) (xs : List Elem) : Option Nat := t.fmt.bind (fun f => f.squares (xs.map Elem.code))

/-- Redraw position `i` of a stream after a vector kernel (R267). -/
def simdRedraw (c : Config) (sum : Option Nat) (n : Nat) (v : View) (i : Nat) (w : Work) : Except Fault Work :=
  (dstRead v i w).bind fun x =>
  dstWrite v i (simdValue c sum n (Config.simdDraw w.tick) x) { w with tick := w.tick + 1 }

/-- The positions a vector kernel wrote, as the build's `SIMD_VALUES` leaves them (R267): under `TOLERANT` each is redrawn
against the scalar rule's output, which stands there. -/
def simdSettle (c : Config) (vr vi : View) (lt : Nat) (w : Work) : Except Fault Work :=
  match c.simdValues with
  | .exact => .ok w
  | .tolerant =>
    (readFrom c.ty vr w 0 (2 ^ lt)).bind fun xs => (readFrom c.ty vi w 0 (2 ^ lt)).bind fun ys =>
    let sum := sumSquares c.ty (xs ++ ys)
    forUp (2 ^ lt) (fun i w => (simdRedraw c sum (2 ^ lt) vr i w).bind (simdRedraw c sum (2 ^ lt) vi i)) w

/-- `VecR8`: the vector radix-8 terminal, with the values of R228 (R267, R270). -/
def vecR8 (c : Config) (vr vi : View) (lt : Nat) (σ : Dir) (w : Work) : Except Fault Work :=
  (r8Kernel c.ty vr vi lt σ w).bind (simdSettle c vr vi lt)

/-- `VecPass`: a vector pass, with the values of R222–R225 (R267, R269). -/
def vecPass (c : Config) (vr vi : View) (lt d : Nat) (σ : Dir) (w : Work) : Except Fault Work :=
  (pass c vr vi lt d σ w).bind (simdSettle c vr vi lt)

/-- How many passes the SIMD layer takes of a multipass (R271, R273). -/
def ompCount (c : Config) (vr vi : View) (l depth : Nat) (p : Policy) (w : Work) : Nat :=
  if vr.stride != 1 || vi.stride != 1 then 0 else selCount c.lbuf l depth (effMask c p w).1

/-- `OmpRun(vr, vi, L, depth, σ, pol)` (R271): the passes taken, and how many. -/
def ompRun (c : Config) (vr vi : View) (l depth : Nat) (σ : Dir) (p : Policy) (w : Work) : Except Fault (Nat × Work) :=
  if vr.stride != 1 || vi.stride != 1 then .ok (0, w)
  else
    let r := effMask c p w
    let k := selCount c.lbuf l depth r.1
    if k = 0 then .ok (0, r.2)
    else if r8First l depth then
      ((vecR8 c vr vi l σ r.2).bind (forUp (k - 3) (fun i => vecPass c vr vi l (4 + i) σ))).bind fun w => .ok (k, w)
    else
      (forUp k (fun i => vecPass c vr vi l (l - depth + 1 + i) σ) r.2).bind fun w => .ok (k, w)

/-- The body of `PRB` (R276). -/
def runPrb (c : Config) (w : Work) : Except Stop Done :=
  let r := probe c w.featCache
  .ok { code := .ok, work := { w with featCache := r.2 }, result := some (r.1.setWidth 64), res := none }

/-- `PRB` (R276). -/
def execPrb (s : State) : Host.Outcome State Fault Refusal :=
  s.complete (runPrb s.cfg s.work)

/-- A multipass's operands are out of range (R242, R277, R278). -/
def multipassBad (l depth : Nat) : Bool := decide (l < depth) || decide (log2nMax < l)

/-- The body of `SEL` (R277). -/
def runSel (c : Config) (me : Context) (w : Work) (p : Policy) (l depth : Nat) : Except Stop Done :=
  (arg me.argDsRe).bind fun sre => (arg me.argDsIm).bind fun sim =>
  (invalidIf (multipassBad l depth)).bind fun _ =>
  if sre != 1 || sim != 1 then
    .ok { code := .ok, work := w, result := some 0, res := none }
  else
    let r := effMask c p w
    .ok { code := .ok, work := r.2, result := some (BitVec.ofNat 64 (selCount c.lbuf l depth r.1)), res := none }

/-- `SEL` (R277). -/
def execSel (pol : Policy) (log2n depth : Nat) (s : State) : Host.Outcome State Fault Refusal :=
  s.complete (runSel s.cfg s.me s.work pol log2n depth)

/-- Run an engine step and keep its count. -/
def liftCount (r : Except Fault (Nat × Work)) : Except Stop (Nat × Work) :=
  match r with
  | .ok x => .ok x
  | .error f => .error (.fault f)

/-- The body of `OMP` (R278). -/
def runOmp (c : Config) (me : Context) (w : Work) (σ : Dir) (p : Policy) (l depth : Nat) : Except Stop Done :=
  (dstPair me).bind fun views =>
  let v := views (2 ^ l)
  (invalidIf (multipassBad l depth)).bind fun _ =>
  (checkDst v.1 v.2).bind fun _ => (checkOverlap [] v.1 v.2).bind fun _ =>
  (liftCount (ompRun c v.1 v.2 l depth σ p w)).bind fun r =>
  .ok { code := .ok, work := r.2, result := some (BitVec.ofNat 64 r.1), res := none }

/-- `OMP` (R278). -/
def execOmp (dir : Dir) (pol : Policy) (log2n depth : Nat) (s : State) : Host.Outcome State Fault Refusal :=
  s.complete (runOmp s.cfg s.me s.work dir pol log2n depth)

end Sys2Proof.Machine
end

