-- ==== Sys2Proof/Machine/Butterfly.lean ====
section
/-! DEFINITION. Multipass (R229), the top-level schedule (R230, R231), the final scaling (R232), and the commands
`PASS` (R240), `R8` (R241), `MPS` (R242), `BFY` (R243) and `SCL` (R244). -/

namespace Sys2Proof.Machine

/-- The scalar passes from level `d0` up to `lt` (R229, R231). -/
def passesFrom (c : Config) (vr vi : View) (lt d0 : Nat) (σ : Dir) (w : Work) : Except Fault Work :=
  forUp (lt + 1 - d0) (fun i => pass c vr vi lt (d0 + i) σ) w

/-- `Multipass(vr, vi, Ltot, depth, σ, pol)` (R229). -/
def multipass (c : Config) (vr vi : View) (lt depth : Nat) (σ : Dir) (p : Policy) (w : Work) : Except Fault Work :=
  if depth = 0 then .ok w
  else
    (ompRun c vr vi lt depth σ p w).bind fun r =>
    let d0 := lt - depth + 1 + r.1
    if r.1 = 0 ∧ d0 = 1 ∧ r8Min ≤ depth then
      (r8Kernel c.ty vr vi lt σ r.2).bind (passesFrom c vr vi lt 4 σ)
    else passesFrom c vr vi lt d0 σ r.2

/-- `dbcF(vr, vi, L, σ, pol)` (R230): the lower half, the upper half, then the joining pass. -/
def dbcF (c : Config) (σ : Dir) (p : Policy) : Nat → View → View → Work → Except Fault Work
  | 0, vr, vi, w => multipass c vr vi 0 0 σ p w
  | l + 1, vr, vi, w =>
    if splitLog < l + 1 then
      ((dbcF c σ p l vr.lo vi.lo w).bind (dbcF c σ p l vr.hi vi.hi)).bind (multipass c vr vi (l + 1) 1 σ p)
    else multipass c vr vi (l + 1) (l + 1) σ p w

/-- Scale one element of a stream (R232): the element on the left, the scale on the right. -/
def scaleOne (t : Ty) (v : View) (k : Nat) (scale : Elem) (w : Work) : Except Fault Work :=
  (dstRead v k w).bind fun x => dstWrite v k (t.mul x scale) w

/-- `Scale(vr, vi, n, scale)` (R232): no access at all for `ONE`. -/
def scaleViews (t : Ty) (vr vi : View) (n : Nat) (scale : Elem) (w : Work) : Except Fault Work :=
  if t.isOne scale then .ok w
  else forUp n (fun k w => (scaleOne t vr k scale w).bind (scaleOne t vi k scale)) w

/-- The common body of the in-place commands on `2^log2n` elements (R240–R243): the operands' range, the destination
checks, then the engine. -/
def runInPlace (me : Context) (w : Work) (log2n : Nat) (bad : Bool)
    (engine : View → View → Work → Except Fault Work) : Except Stop Done :=
  (dstPair me).bind fun views =>
  let v := views (2 ^ log2n)
  (invalidIf bad).bind fun _ =>
  (checkDst v.1 v.2).bind fun _ => (checkOverlap [] v.1 v.2).bind fun _ =>
  (liftWork (engine v.1 v.2 w)).bind doneOk

/-- The operands of `PASS` are out of range (R240). -/
def passBad (d log2n : Nat) : Bool := decide (d < 1) || decide (log2n < d) || decide (log2nMax < log2n)

/-- `PASS` (R240). -/
def execPass (dir : Dir) (d log2n : Nat) (s : State) : Host.Outcome State Fault Refusal :=
  s.complete (runInPlace s.me s.work log2n (passBad d log2n)
    (fun vr vi => pass s.cfg vr vi log2n d dir))

/-- `R8` (R241). -/
def execR8 (dir : Dir) (log2n : Nat) (s : State) : Host.Outcome State Fault Refusal :=
  s.complete (runInPlace s.me s.work log2n (decide (log2n < r8Min) || decide (log2nMax < log2n))
    (fun vr vi => r8Kernel s.cfg.ty vr vi log2n dir))

/-- `MPS` (R242). -/
def execMps (dir : Dir) (pol : Policy) (log2n depth : Nat) (s : State) : Host.Outcome State Fault Refusal :=
  s.complete (runInPlace s.me s.work log2n (multipassBad log2n depth)
    (fun vr vi => multipass s.cfg vr vi log2n depth dir pol))

/-- `BFY` (R243). -/
def execBfy (dir : Dir) (pol : Policy) (log2n : Nat) (s : State) : Host.Outcome State Fault Refusal :=
  s.complete (runInPlace s.me s.work log2n (decide (log2nMax < log2n))
    (fun vr vi => dbcF s.cfg dir pol log2n vr vi))

/-- The body of `SCL` (R244). -/
def runScl (c : Config) (me : Context) (w : Work) : Except Stop Done :=
  (arg me.argN).bind fun n => (arg me.argScale).bind fun scale => (dstPair me).bind fun views =>
  let n := n.toNat
  let v := views n
  if n = 0 then doneOk w
  else
    (invalidIf (decide (2 ^ log2nMax < n))).bind fun _ =>
    (checkDst v.1 v.2).bind fun _ => (checkOverlap [] v.1 v.2).bind fun _ =>
    (liftWork (scaleViews c.ty v.1 v.2 n scale w)).bind doneOk

/-- `SCL` (R244). -/
def execScl (s : State) : Host.Outcome State Fault Refusal :=
  s.complete (runScl s.cfg s.me s.work)

end Sys2Proof.Machine
end

