-- ==== Sys2Proof/Machine/Transform.lean ====
section
/-! DEFINITION. The top-level transform: validation (R300–R305), the power-of-two pipeline (R310–R315), the Bluestein
pipeline (R316–R325), and the commands `XFS` (R330), `XFI` (R331), `XFT` (R332) and `BLU` (R333). -/

namespace Sys2Proof.Machine

/-- A source and its own destination share a base with unequal strides (R302 item 4). -/
def strideClash (s d : View) : Bool := !s.isNull && s.base == d.base && s.stride != d.stride

/-- A source is the other part's destination (R302 item 5). -/
def crossAlias (s d : View) : Bool := !s.isNull && s.base == d.base

/-- The request takes the Bluestein pipeline (R306). -/
def takesBluestein (n : Nat) (forceBS : Bool) : Bool := forceBS || !isPow2 n

/-- `Validate(sr, si, dr, di, n, forceBS)` (R302): some item holds. Every item gives `-1`, so their order is not seen. -/
def requestBad (c : Config) (v : Views) (n : Nat) (forceBS : Bool) : Bool :=
  dstBad v.dr v.di || strideClash v.sr v.dr || strideClash v.si v.di
    || crossAlias v.sr v.di || crossAlias v.si v.dr
    || (!takesBluestein n forceBS && decide (log2nMax < Nat.log2 n))
    || (takesBluestein n forceBS && !c.bluesteinEn)
    || (takesBluestein n forceBS && decide (2 ^ log2nMax < 2 * n - 1))

/-- `POT_PERMUTE` (R310): the real stream first (R199). -/
def potPermute (t : Ty) (v : Views) (l : Nat) (w : Work) : Except Fault Work :=
  (bitRev t v.sr v.dr l (w.gotoPot .potPermute)).bind (bitRev t v.si v.di l)

/-- The pipeline deinterleaves (R311). -/
def deinterleaves (dr di : View) (l : Nat) (em : Mask) : Bool :=
  di.base == dr.base + 1 && dr.stride == 2 && di.stride == 2 && decide (dilMinN < 2 ^ l) && em != 0

/-- The butterfly phases on the destination: `POT_SIMD_PREP`, `POT_BUTTERFLY`, `POT_SIMD_POST` (R311–R313). -/
def potButterfly (c : Config) (dr di : View) (l : Nat) (σ : Dir) (p : Policy) (w : Work) : Except Fault Work :=
  let r := effMask c p (w.gotoPot .potSimdPrep)
  if deinterleaves dr di l r.1 then
    ((deinterleave c.ty dr.base l r.2).bind fun w =>
      dbcF c σ p l (unitView dr.base (2 ^ l)) (unitView (dr.base + (2 ^ l : Nat)) (2 ^ l)) (w.gotoPot .potButterfly)).bind
    fun w => interleave c.ty dr.base l (w.gotoPot .potSimdPost)
  else
    (dbcF c σ p l dr di (r.2.gotoPot .potButterfly)).bind fun w => .ok (w.gotoPot .potSimdPost)

/-- The power-of-two pipeline (R310–R314). -/
def potPipeline (c : Config) (v : Views) (l : Nat) (σ : Dir) (scale : Elem) (p : Policy) (w : Work) :
    Except Fault Work :=
  (potPermute c.ty v l w).bind fun w =>
  (potButterfly c v.dr v.di l σ p w).bind fun w =>
  scaleViews c.ty v.dr v.di (2 ^ l) scale (w.gotoPot .potScale)

/-- The scratch arrays of the Bluestein pipeline (R316). -/
structure Scratch where
  ar : View
  ai : View
  br : View
  bi : View
  tr : View
  ti : View
deriving DecidableEq, Repr

/-- The scratch layout at base `b` (R316). -/
def scratchAt (b m n : Nat) : Scratch :=
  { ar := unitView b m, ai := unitView (b + m : Nat) m, br := unitView (b + 2 * m : Nat) m
    bi := unitView (b + 3 * m : Nat) m, tr := unitView (b + 4 * m : Nat) (2 * n)
    ti := unitView (b + 4 * m + 2 * n : Nat) (2 * n) }

/-- The chirp index `k² mod 2n` (R318). -/
def chirpIndex (n k : Nat) : Nat := k * k % (2 * n)

/-- `cmul(x, w)` with both parts then multiplied by `s` (R319). -/
def scaledProduct (t : Ty) (x w : Cx) (s : Elem) : Cx :=
  let p := cmul t x w
  ⟨t.mul p.re s, t.mul p.im s⟩

/-- Premultiply one input position and place its two chirp entries (R319). -/
def premulOne (t : Ty) (sr si : View) (z : Scratch) (m n : Nat) (invM : Elem) (k : Nat) (w : Work) :
    Except Fault Work :=
  (srcRead t sr k w).bind fun xr => (srcRead t si k w).bind fun xi =>
  (cxRead z.tr z.ti (chirpIndex n k) w).bind fun tw =>
  (cxWrite z.ar z.ai k (scaledProduct t ⟨xr, xi⟩ tw invM) w).bind fun w =>
  (cxWrite z.br z.bi k ⟨tw.re, t.neg tw.im⟩ w).bind fun w =>
  if 1 ≤ k then cxWrite z.br z.bi (m - k) ⟨tw.re, t.neg tw.im⟩ w else .ok w

/-- Zero the positions `[i, i + len)` of a pair of streams (R319). -/
def zeroFill (t : Ty) (vr vi : View) (i len : Nat) (w : Work) : Except Fault Work :=
  forUp len (fun k => cxWrite vr vi (i + k) ⟨t.zero, t.zero⟩) w

/-- `BS_PREMUL` (R319). -/
def bsPremul (c : Config) (v : Views) (z : Scratch) (lm n : Nat) (σ : Dir) (w : Work) : Except Fault Work :=
  let m := 2 ^ lm
  (storeCx z.tr z.ti (fracTwiddles c n σ) 0 (w.goto .bsPremul)).bind fun w =>
  (forUp n (premulOne c.ty v.sr v.si z m n (c.ty.invPow2 lm)) w).bind fun w =>
  (zeroFill c.ty z.ar z.ai n (m - n) w).bind fun w =>
  zeroFill c.ty z.br z.bi n (m + 1 - 2 * n) w

/-- A pair of scratch arrays as a request in place (R320, R321, R323). -/
def inPlace (vr vi : View) : Views := { sr := vr, si := vi, dr := vr, di := vi }

/-- `BS_POINTWISE` (R322). -/
def bsPointwise (t : Ty) (z : Scratch) (m : Nat) (w : Work) : Except Fault Work :=
  forUp m (fun k w =>
    (cxRead z.ar z.ai k w).bind fun a => (cxRead z.br z.bi k w).bind fun b =>
    cxWrite z.ar z.ai k (cmul t a b) w) (w.goto .bsPointwise)

/-- `BS_POSTMUL` (R324). -/
def bsPostmul (t : Ty) (z : Scratch) (dr di : View) (n : Nat) (w : Work) : Except Fault Work :=
  forUp n (fun k w =>
    (cxRead z.ar z.ai k w).bind fun a => (cxRead z.tr z.ti (chirpIndex n k) w).bind fun tw =>
    cxWrite dr di k (cmul t a tw) w) (w.goto .bsPostmul)

/-- The Bluestein pipeline from `BS_PREMUL` to `BS_POSTMUL`, in scratch at `z` (R319–R324). -/
def bsCore (c : Config) (v : Views) (z : Scratch) (lm n : Nat) (σ : Dir) (scale : Elem) (p : Policy) (w : Work) :
    Except Fault Work :=
  (bsPremul c v z lm n σ w).bind fun w =>
  (potPipeline c (inPlace z.ar z.ai) lm .forward c.ty.one p (w.goto .bsFftA)).bind fun w =>
  (potPipeline c (inPlace z.br z.bi) lm .forward c.ty.one p (w.goto .bsFftB)).bind fun w =>
  (bsPointwise c.ty z (2 ^ lm) w).bind fun w =>
  (potPipeline c (inPlace z.ar z.ai) lm .inverse scale p (w.goto .bsIfft)).bind fun w =>
  bsPostmul c.ty z v.dr v.di n w

/-- The scratch size `4·m + 4·n` (R49, R316). -/
def scratchLen (lm n : Nat) : Nat := 4 * 2 ^ lm + 4 * n

/-- `BS_ALLOC` (R316): the scratch of a request of `n` elements. -/
def bsAlloc (c : Config) (v : Views) (n : Nat) (w : Work) : Except Fault (Option Nat × Work) :=
  alloc c v.list (scratchLen (clog2 (2 * n - 1)) n) (w.goto .bsAlloc)

/-- The Bluestein pipeline (R316–R325): a failed allocation ends the command with `-2`, nothing written. -/
def bluestein (c : Config) (v : Views) (n : Nat) (σ : Dir) (scale : Elem) (p : Policy) (w : Work) :
    Except Fault (Code × Work) :=
  let lm := clog2 (2 * n - 1)
  (bsAlloc c v n w).bind fun r =>
  match r with
  | (none, w) => .ok (.outOfMemory, w.goto .errorReturn)
  | (some b, w) =>
    (bsCore c v (scratchAt b (2 ^ lm) n) lm n σ scale p w).bind fun w =>
    .ok (.ok, (release (scratchLen lm n) (w.goto .bsFree)).goto .return)

/-- `DISPATCH` and the pipeline it picks (R306). -/
def transform (c : Config) (v : Views) (n : Nat) (σ : Dir) (scale : Elem) (p : Policy) (forceBS : Bool) (w : Work) :
    Except Fault (Code × Work) :=
  let w := w.goto .dispatch
  if takesBluestein n forceBS then bluestein c v n σ scale p w
  else (potPipeline c v (Nat.log2 n) σ scale p w).bind fun w => .ok (.ok, w.goto .return)

/-- Run a pipeline and keep its completion code. -/
def liftCode (r : Except Fault (Code × Work)) : Except Stop Done :=
  match r with
  | .ok x => .ok { code := x.1, work := x.2, result := none, res := none }
  | .error f => .error (.fault f)

/-- `Xform(shape, σ, pol, forceBS)` (R329), the shape given as the reading of its registers, through the states of R290:
`VALIDATE` (R300–R303), `DISPATCH` and a pipeline, `RETURN`. A check that fails leaves `VALIDATE` for `ERROR_RETURN`
(`State.turnAway`). -/
def runXform (c : Config) (me : Context) (w : Work) (shape : Context → Except Stop (Nat → Views)) (σ : Dir)
    (p : Policy) (forceBS : Bool) : Except Stop Done :=
  (arg me.argN).bind fun n => (arg me.argScale).bind fun scale => (shape me).bind fun views =>
  let n := n.toNat
  let v := views n
  let w := w.goto .validate
  if n = 0 then doneOk (w.goto .return)
  else
    (invalidIf (requestBad c v n forceBS)).bind fun _ =>
    (checkOverlap [v.sr, v.si] v.dr v.di).bind fun _ =>
    liftCode (transform c v n σ scale p forceBS w)

/-- `XFS` (R330). -/
def execXfs (dir : Dir) (pol : Policy) (s : State) : Host.Outcome State Fault Refusal :=
  s.complete (runXform s.cfg s.me s.work splitArgs dir pol false)

/-- `XFI` (R331). -/
def execXfi (dir : Dir) (pol : Policy) (s : State) : Host.Outcome State Fault Refusal :=
  s.complete (runXform s.cfg s.me s.work interleavedArgs dir pol false)

/-- `XFT` (R332). -/
def execXft (dir : Dir) (pol : Policy) (s : State) : Host.Outcome State Fault Refusal :=
  s.complete (runXform s.cfg s.me s.work stridedArgs dir pol false)

/-- `BLU` (R333). -/
def execBlu (dir : Dir) (pol : Policy) (s : State) : Host.Outcome State Fault Refusal :=
  s.complete (runXform s.cfg s.me s.work stridedArgs dir pol true)

end Sys2Proof.Machine
end

