-- ==== Sys2Proof/Machine/Dispatch.lean ====
section
/-! DEFINITION. One command's meaning on the current context: one arm per row of the opcode map (R114). -/

namespace Sys2Proof.Machine

def exec (i : Instr) (s : State) : Host.Outcome State Fault Refusal :=
  match i with
  | .xfs dir pol => Sys2Proof.Machine.execXfs dir pol s
  | .xfi dir pol => Sys2Proof.Machine.execXfi dir pol s
  | .xft dir pol => Sys2Proof.Machine.execXft dir pol s
  | .blu dir pol => Sys2Proof.Machine.execBlu dir pol s
  | .brv log2n => Sys2Proof.Machine.execBrv log2n s
  | .dil => Sys2Proof.Machine.execDil s
  | .ilv => Sys2Proof.Machine.execIlv s
  | .pass dir d log2n => Sys2Proof.Machine.execPass dir d log2n s
  | .r8 dir log2n => Sys2Proof.Machine.execR8 dir log2n s
  | .mps dir pol log2n depth => Sys2Proof.Machine.execMps dir pol log2n depth s
  | .bfy dir pol log2n => Sys2Proof.Machine.execBfy dir pol log2n s
  | .scl => Sys2Proof.Machine.execScl s
  | .twg dir bigN l => Sys2Proof.Machine.execTwg dir bigN l s
  | .twf dir => Sys2Proof.Machine.execTwf dir s
  | .cxm k => Sys2Proof.Machine.execCxm k s
  | .cxf => Sys2Proof.Machine.execCxf s
  | .prb => Sys2Proof.Machine.execPrb s
  | .sel pol log2n depth => Sys2Proof.Machine.execSel pol log2n depth s
  | .omp dir pol log2n depth => Sys2Proof.Machine.execOmp dir pol log2n depth s

end Sys2Proof.Machine
end

