-- ==== Sys2Proof/Machine/Footprint.lean ====
section
/-! DEFINITION. The views of each command and which it writes, from its operands and argument registers (R85, R86,
R115), and the request a transform command makes (R291). -/

namespace Sys2Proof.Machine

/-- No element of memory. -/
def Footprint.none : Footprint := { views := [], writes := [] }

/-- A transform request as its registers give it (R291): count, scale, views, and whether Bluestein is forced. -/
structure Request where
  n : Nat
  scale : Elem
  views : Views
  forceBS : Bool
deriving DecidableEq, Repr

/-- The request the registers of a context give, once all that the shape reads are written. -/
def requestFrom (shape : Context → Except Stop (Nat → Views)) (forceBS : Bool) (c : Context) : Option Request :=
  match c.argN, c.argScale, shape c with
  | some n, some scale, .ok views => some { n := n.toNat, scale := scale, views := views n.toNat, forceBS := forceBS }
  | _, _, _ => none

/-- The request of a transform command on a context (R330–R333); none for another command, or while a register it reads
is UNWRITTEN. -/
def requestOf (i : Instr) (c : Context) : Option Request :=
  match i with
  | .xfs _ _ => requestFrom splitArgs false c
  | .xfi _ _ => requestFrom interleavedArgs false c
  | .xft _ _ => requestFrom stridedArgs false c
  | .blu _ _ => requestFrom stridedArgs true c
  | _ => none

/-- The footprint of a transform request (R86, R291). -/
def requestFootprint (shape : Context → Except Stop (Nat → Views)) (c : Context) : Footprint :=
  match shape c with
  | .ok views =>
    let v := views (c.argN.getD 0).toNat
    { views := v.list, writes := [v.dr, v.di] }
  | .error _ => Footprint.none

/-- The footprint of a command that works in place on its destination pair. -/
def pairFootprint (c : Context) (n : Nat) : Footprint :=
  match dstPair c with
  | .ok views => { views := [(views n).1, (views n).2], writes := [(views n).1, (views n).2] }
  | .error _ => Footprint.none

/-- The footprint of `DIL` and `ILV`: the region `[base, base + 2n)` (R201, R202). -/
def shuffleFootprint (c : Context) : Footprint :=
  let v := unitView (addrOf (c.argDstRe.getD 0)) (2 * (c.argN.getD 0).toNat)
  { views := [v], writes := [v] }

/-- The footprint of `BRV` (R200). -/
def brvFootprint (c : Context) (l : Nat) : Footprint :=
  match brvArgs c with
  | .ok views => { views := [(views (2 ^ l)).1, (views (2 ^ l)).2], writes := [(views (2 ^ l)).2] }
  | .error _ => Footprint.none

/-- The footprint of a command on a context (R85, R86): its source and destination views, and its destinations. -/
def footprint (i : Instr) (c : Context) : Footprint :=
  match i with
  | .xfs _ _ => requestFootprint splitArgs c
  | .xfi _ _ => requestFootprint interleavedArgs c
  | .xft _ _ => requestFootprint stridedArgs c
  | .blu _ _ => requestFootprint stridedArgs c
  | .brv log2n => brvFootprint c log2n
  | .dil => shuffleFootprint c
  | .ilv => shuffleFootprint c
  | .pass _ _ log2n => pairFootprint c (2 ^ log2n)
  | .r8 _ log2n => pairFootprint c (2 ^ log2n)
  | .mps _ _ log2n _ => pairFootprint c (2 ^ log2n)
  | .bfy _ _ log2n => pairFootprint c (2 ^ log2n)
  | .scl => pairFootprint c (c.argN.getD 0).toNat
  | .twg _ _ l => pairFootprint c (2 ^ l)
  | .twf _ => pairFootprint c (2 * (c.argN.getD 0).toNat)
  | .cxm _ => Footprint.none
  | .cxf => Footprint.none
  | .prb => Footprint.none
  | .sel _ _ _ => Footprint.none
  | .omp _ _ log2n _ => pairFootprint c (2 ^ log2n)

/-- A command that passes its checks makes no access: `MPS` of depth 0 (R242), `BFY` of one element (R230), `SCL` by `ONE`
(R232), and `OMP` where no pass is taken (R278). -/
def idleOn (i : Instr) (s : State) : Bool :=
  match i with
  | .mps _ _ _ depth => depth == 0
  | .bfy _ _ log2n => log2n == 0
  | .scl => (s.me.argScale.map s.cfg.ty.isOne).getD false
  | .omp _ pol log2n depth =>
    match dstPair s.me with
    | .ok views => ompCount s.cfg (views (2 ^ log2n)).1 (views (2 ^ log2n)).2 log2n depth pol s.work == 0
    | .error _ => true
  | .xfs _ _ | .xfi _ _ | .xft _ _ | .blu _ _ | .brv _ | .dil | .ilv | .pass _ _ _ | .r8 _ _ | .twg _ _ _ | .twf _
  | .cxm _ | .cxf | .prb | .sel _ _ _ => false

/-- Some view of one list meets some view of another (R95). -/
def anyMeet (vs ws : List View) : Bool := vs.any (fun v => ws.any (fun w => v.meets w))

/-- One of two commands writes an address in a footprint of the other (R95, R379). -/
def Footprint.conflicts (f g : Footprint) : Bool := anyMeet f.writes g.views || anyMeet g.writes f.views

/-- The work of a command that is stuck (R345): a Bluestein request has drawn its scratch, which stays allocated. -/
def heldWork (i : Instr) (s : State) : Work :=
  match requestOf i s.me with
  | some r =>
    if takesBluestein r.n r.forceBS then
      match bsAlloc s.cfg r.views r.n s.work with
      | .ok x => x.2
      | .error _ => allocNull s.work
    else s.work
  | none => s.work

/-- The elements in the footprints of the views `vs`, replaced by free values (R344, R345): draw `k`. -/
def Mem.lose (t : Ty) (k : Nat) (vs : List View) (m : Mem) : Mem :=
  m.map fun c => if vs.any (fun v => v.covers c.1) then (c.1, t.ofHost (Config.lostDraw k c.1).code) else c

end Sys2Proof.Machine
end

