-- ==== Sys2Proof/Machine/HostSide.lean ====
section
/-! DEFINITION. What the outside does to the machine (R33, R334, R386, R387): register accesses, issuing a command,
placing elements, reset, the order between contexts with its one fault (R95), and the record of commands that did not
complete (R344, R345). -/

namespace Sys2Proof.Machine

/-- The number of the current context (R357). -/
def State.number (s : State) : Nat := s.before.length

/-- All contexts, in number order (R357). -/
def State.contexts (s : State) : List Context := s.before ++ s.me :: s.after

/-- Make context `c` the current one. -/
def State.focus (s : State) (c : Nat) : State :=
  match s.contexts.drop c with
  | x :: rest => { s with before := s.contexts.take c, me := x, after := rest }
  | [] => s

/-- The current context with its program replaced. -/
def State.setProg (s : State) (p : HostProg) : State :=
  { s with me := { s.me with thread := { s.me.thread with prog := p } } }

/-- A host register write by number (R33): a write to a read-only or unknown number is ignored. `CMD` is not here:
writing it issues a command. -/
def writeReg (t : Ty) (c : Context) (reg v : Nat) : Context :=
  match reg with
  | 0x04 => { c with argN := some (BitVec.ofNat 64 v) }
  | 0x05 => { c with argScale := some (t.ofHost v) }
  | 0x06 => { c with argSrcRe := some (BitVec.ofNat 64 v) }
  | 0x07 => { c with argSrcIm := some (BitVec.ofNat 64 v) }
  | 0x08 => { c with argDstRe := some (BitVec.ofNat 64 v) }
  | 0x09 => { c with argDstIm := some (BitVec.ofNat 64 v) }
  | 0x0A => { c with argSsRe := some (BitVec.ofNat 64 v) }
  | 0x0B => { c with argSsIm := some (BitVec.ofNat 64 v) }
  | 0x0C => { c with argDsRe := some (BitVec.ofNat 64 v) }
  | 0x0D => { c with argDsIm := some (BitVec.ofNat 64 v) }
  | 0x0E => { c with argP := some (BitVec.ofNat 64 v) }
  | 0x0F => { c with argQ := some (BitVec.ofNat 64 v) }
  | _ => c

/-- A host register read by number (R33): none for an UNWRITTEN register, 0 for an unknown number. -/
def readReg (cfg : Config) (c : Context) (reg : Nat) : Option Nat :=
  match reg with
  | 0x00 => some c.cmd.toNat
  | 0x01 => some c.status.toNat
  | 0x02 => some c.result.toNat
  | 0x03 => some cfg.cfgWord.toNat
  | 0x04 => c.argN.map BitVec.toNat
  | 0x05 => c.argScale.map Elem.code
  | 0x06 => c.argSrcRe.map BitVec.toNat
  | 0x07 => c.argSrcIm.map BitVec.toNat
  | 0x08 => c.argDstRe.map BitVec.toNat
  | 0x09 => c.argDstIm.map BitVec.toNat
  | 0x0A => c.argSsRe.map BitVec.toNat
  | 0x0B => c.argSsIm.map BitVec.toNat
  | 0x0C => c.argDsRe.map BitVec.toNat
  | 0x0D => c.argDsIm.map BitVec.toNat
  | 0x0E => c.argP.map BitVec.toNat
  | 0x0F => c.argQ.map BitVec.toNat
  | 0x10 => some c.resRe.code
  | 0x11 => some c.resIm.code
  | _ => some 0

/-- A recorded command happens before the next step of a context with this number and clock (R387): it is the
context's own, or the host's synchronisation has ordered it. -/
def orderedBefore (me : Nat) (clock : List Nat) (r : CmdRecord) : Bool :=
  r.ctx == me || decide (r.seq ≤ clock.getD r.ctx 0)

/-- The commands a command that now runs on context `me` with footprint `f` races with (R95, R387). -/
def racesWith (me : Nat) (clock : List Nat) (f : Footprint) (log : List CmdRecord) : List CmdRecord :=
  log.filter (fun r => !orderedBefore me clock r && f.conflicts r.fp)

/-- The footprint a command counts for (log 18): its views, and its destinations where it may have written them. A command
that was turned away, or that makes no access, writes nothing. -/
def countedFootprint (i : Instr) (s : State) (r : Host.Outcome State Fault Refusal) : Footprint :=
  let f := footprint i s.me
  match r with
  | .next t => if t.me.status = 0 ∧ idleOn i s = false then f else { f with writes := [] }
  | .fault _ => f
  | .refused _ => Footprint.none

/-- The current context's command did not complete (R344, R345): the context takes no further step, a model fault is
recorded, no register is written, and what the views `lost` hold is a free value. `w` is what the command had drawn. -/
def State.halt (s : State) (f : Fault) (w : Work) (lost : List View) : State :=
  { s with
    mem := w.mem.lose s.cfg.ty w.tick lost, featCache := w.featCache, allocs := w.allocs, tick := w.tick + 1
    faults := if f.recorded then { ctx := s.number, fault := f } :: s.faults else s.faults
    me := { s.me with halted := some f, bsBase := w.bsBase } }

/-- The current context's command with footprint `f` is entered in the log (R387). -/
def State.enter (s : State) (f : Footprint) : State :=
  { s with
    log := { ctx := s.number, seq := s.me.thread.issued + 1, fp := f } :: s.log
    me := { s.me with thread := { s.me.thread with issued := s.me.thread.issued + 1 } } }

/-- `UB(CrossContextOverlap)` (R95): the command that ran from `s` to `t` with footprint `f` races with those of `l`.
DESIGN CHOICE (log 15): the context of this command, the later of the two, is halted with no register but `CMD` written;
the earlier command keeps the `STATUS`, `RESULT` and `RES_*` it completed with, and its host may still read them. -/
def raceHalt (s t : State) (f : Footprint) (l : List CmdRecord) : State :=
  State.halt { t with me := { s.me with bsBase := t.me.bsBase } } .crossContextOverlap t.work
    (f.writes ++ l.flatMap (fun r => r.fp.writes))

/-- What a command's outcome leaves: its next state, or the halt of its context (R344, R345), or its race (R95); and the
command is entered in the log. DESIGN CHOICE (log 36): R347 gives the race no place in its order, and it is looked at after
the command's own outcome: a fault of the command stays recorded beside the race, and the context is halted by the race;
and a command that would end with -1 or -2, with a view that a concurrent command writes, is such a race and has no code. -/
def recordCommand (i : Instr) (s : State) (r : Host.Outcome State Fault Refusal) : Host.Outcome State Fault Refusal :=
  let f := countedFootprint i s r
  let l := racesWith s.number s.me.thread.clock f s.log
  match r with
  | .next t => .next ((if l = [] then t else raceHalt s t f l).enter f)
  | .fault x =>
    let t := s.halt x (if x = .stuck then heldWork i s else s.work) f.writes
    .next ((if l = [] then t else raceHalt s t f l).enter f)
  | .refused x => .refused x

/-- The current context with a word in `CMD` (R33). -/
def State.setCmd (s : State) (w : Word32) : State := { s with me := { s.me with cmd := w } }

/-- A write of a command word to `CMD`: decode, then the command, as one step (R6, R110, R116). -/
def issue (w : Word32) (s : State) : Host.Outcome State Fault Refusal :=
  match decode w with
  | .ok i => recordCommand i (s.setCmd w) (exec i (s.setCmd w))
  | .error _ => .next (s.setCmd w).turnAway

/-- Reset (R370, R372): every context and every shared register; memory, the host and the launch stay. Every command
that has run happens before what follows. -/
def State.resetAll (s : State) : State :=
  { s with
    before := s.before.map (fun c => Context.reset s.cfg.ty.zero c.thread)
    me := Context.reset s.cfg.ty.zero s.me.thread
    after := s.after.map (fun c => Context.reset s.cfg.ty.zero c.thread)
    featCache := 0, log := [] }

/-- The pointwise maximum of two clocks (R387). -/
def joinClock : List Nat → List Nat → List Nat
  | [], l => l
  | l, [] => l
  | a :: as, b :: bs => max a b :: joinClock as bs

/-- The clock a context posts: its own, with its own commands counted (R387). -/
def postedClock (me : Nat) (th : HostThread) : List Nat :=
  joinClock th.clock (List.replicate me 0 ++ [th.issued])

/-- The last value this context's host has read from a register. -/
def lastRead (seen : List (Nat × Nat)) (reg : Nat) : Option Nat := (seen.find? (fun x => x.1 == reg)).map Prod.snd

/-- The clock posted with a token, if it has been posted. -/
def tokenClock (tokens : List (Nat × List Nat)) (t : Nat) : Option (List Nat) :=
  (tokens.find? (fun x => x.1 == t)).map Prod.snd

/-- One host act on the current context (R334, R386, R387), which has a step where `State.admits` says so.
An element the host places takes effect in the order of the schedule. DESIGN CHOICE (log 33): R95 and R387 speak of
commands only, so placing an element through one context is never a race with a command of another. -/
def hostAct (a : HostAct) (s : State) : Host.Outcome State Fault Refusal :=
  match a with
  | .mov reg v =>
    if reg = 0 then issue (BitVec.ofNat 32 v) s
    else .next { s with me := writeReg s.cfg.ty s.me reg v }
  | .cmd w => issue w s
  | .rd reg =>
    match readReg s.cfg s.me reg with
    | some v => .next { s with me := { s.me with thread := { s.me.thread with seen := (reg, v) :: s.me.thread.seen } } }
    | none => .next s
  | .place addr v =>
    .next (if isAddr addr then { s with mem := s.mem.place addr (s.cfg.ty.ofHost v) } else s)
  | .post t => .next { s with tokens := (t, postedClock s.number s.me.thread) :: s.tokens }
  | .await t =>
    .next { s with me := { s.me with thread := { s.me.thread with
      clock := joinClock s.me.thread.clock ((tokenClock s.tokens t).getD []) } } }
  | .reset => .next s.resetAll

/-- A host act of a context has a step: a read of an UNWRITTEN register has none (R33), awaiting a token has none until
it is posted (R387), and a reset has none while a command has not completed (R372, log 26). -/
def State.admits (s : State) (c : Context) (a : HostAct) : Bool :=
  match a with
  | .rd reg => (readReg s.cfg c reg).isSome
  | .await t => (tokenClock s.tokens t).isSome
  | .reset => s.contexts.all (fun d => d.halted.isNone)
  | .mov _ _ | .cmd _ | .place _ _ | .post _ => true

/-- The current context's next host step (R334). -/
def hostStep (s : State) : Host.Outcome State Fault Refusal :=
  match s.me.thread.prog with
  | .done => .next s
  | .ifRead reg v yes no => .next (s.setProg (if lastRead s.me.thread.seen reg = some v then yes else no))
  | .act a rest => hostAct a (s.setProg rest)

/-- A context can take a step: its last command completed (R344, R345), and its host's next step has one. -/
def State.canMove (s : State) (c : Context) : Bool :=
  c.halted.isNone && match c.thread.prog with
    | .done => false
    | .act a _ => s.admits c a
    | .ifRead _ _ _ _ => true

/-- Context `c` exists and can take a step. -/
def State.ready (s : State) (c : Nat) : Bool :=
  match s.contexts.drop c with
  | x :: _ => s.canMove x
  | [] => false

/-- The first context that can move, among those numbered from `c`, `len` of them. -/
def State.firstReady (s : State) : Nat → Nat → Option Nat
  | _, 0 => none
  | c, len + 1 => if s.ready c then some c else State.firstReady s (c + 1) len

/-- One step of the machine: the context the schedule names takes its host's next step; where it cannot move, only the
schedule advances; where the schedule is empty, the first context that can move takes it (R387, log 17). Where none
can, the contexts wait (R371). -/
def machineStep (s : State) : Host.Outcome State Fault Refusal :=
  match s.sched with
  | c :: rest =>
    if s.ready c then hostStep (State.focus { s with sched := rest } c) else .next { s with sched := rest }
  | [] =>
    match s.firstReady 0 s.contexts.length with
    | some c => hostStep (s.focus c)
    | none => .next s

end Sys2Proof.Machine
end

