-- ==== Sys2Proof/Machine/Step.lean ====
section
/-! DEFINITION. One step of the machine (R6, R387), and where it takes its next command from. -/

namespace Sys2Proof.Machine

/-- One step: nothing runs in a configuration that has no instance (R373). -/
def step (s : State) : Host.Outcome State Fault Refusal :=
  if s.cfg.valid then machineStep s else .refused .invalidConfiguration

/-- `s` with a command word as the very next host step of the current context, which the schedule names next (R334); a
context whose last command did not complete is set going again, since it would take no step. -/
def State.withFetchWord (s : State) (nbits w : Nat) : State :=
  { s with
    me := { s.me with halted := none, thread := { s.me.thread with
      prog := .act (.cmd (BitVec.ofNat 32 (w % 2 ^ nbits))) s.me.thread.prog } }
    sched := s.before.length :: s.sched }

end Sys2Proof.Machine
end

