-- ==== Sys2Proof/Machine/Lanes.lean ====
section
/-! DEFINITION. The vector operations lane by lane (R268), the vector butterfly block (R269), the vectorized twiddle
expansion and the vector radix-8 terminal (R270), over the registers `VREG` (R48). They write the scalar rule's values (R267), so the vector kernels of
Simd.lean are written with that rule; what is stated of the operations here is that they agree with it. -/

namespace Sys2Proof.Machine

/-- `vload(view, i)` of `vw` lanes (R268). -/
def vload (v : View) (w : Work) : Nat → Nat → Except Fault (List Elem)
  | _, 0 => .ok []
  | i, vw + 1 => (dstRead v i w).bind fun x => (vload v w (i + 1) vw).bind fun xs => .ok (x :: xs)

/-- `vstore(view, i, V)` (R268). -/
def vstore (v : View) : List Elem → Nat → Work → Except Fault Work
  | [], _, w => .ok w
  | x :: xs, i, w => (dstWrite v i x w).bind (vstore v xs (i + 1))

/-- `vfill(x)` (R268). -/
def vfill (vw : Nat) (x : Elem) : List Elem := List.replicate vw x

/-- `vadd` (R268). -/
def vadd (t : Ty) (a b : List Elem) : List Elem := List.zipWith t.add a b

/-- `vsub` (R268). -/
def vsub (t : Ty) (a b : List Elem) : List Elem := List.zipWith t.sub a b

/-- `vmul` (R268). -/
def vmul (t : Ty) (a b : List Elem) : List Elem := List.zipWith t.mul a b

/-- The four results of a butterfly on vectors: `L + x` and `L - x`, real and imaginary (R220, R146, lane by lane). -/
def vbutterfly (t : Ty) (lr li hr hi wr wi : List Elem) : List (List Elem) :=
  let xr := vsub t (vmul t wr hr) (vmul t wi hi)
  let xi := vadd t (vmul t wr hi) (vmul t wi hr)
  [vadd t lr xr, vadd t li xi, vsub t lr xr, vsub t li xi]

/-- One group of `vw` consecutive pairs of a vector pass, from position `lo`, its twiddles given (R269). -/
def vecGroup (t : Ty) (vr vi : View) (vw lo h : Nat) (tw : List Cx) (w : Work) : Except Fault Work :=
  (vload vr w lo vw).bind fun lr => (vload vi w lo vw).bind fun li =>
  (vload vr w (lo + h) vw).bind fun hr => (vload vi w (lo + h) vw).bind fun hi =>
  let regs := vbutterfly t lr li hr hi (tw.map Cx.re) (tw.map Cx.im)
  let w := { w with trans := { w.trans with vreg := regs } }
  (vstore vr (w.trans.vreg.getD 0 []) lo w).bind fun w =>
  (vstore vi (w.trans.vreg.getD 1 []) lo w).bind fun w =>
  (vstore vr (w.trans.vreg.getD 2 []) (lo + h) w).bind fun w =>
  vstore vi (w.trans.vreg.getD 3 []) (lo + h) w

/-- A vector pass in flat mode with `vw` lanes (R223, R269). -/
def vecPassFlat (c : Config) (vr vi : View) (vw lt d : Nat) (σ : Dir) (w : Work) : Except Fault Work :=
  let h := 2 ^ (d - 1)
  let tw := twiddleGen c d (d - 1) σ
  forUp (2 ^ (lt - d)) (fun b => forUp (h / vw) (fun g =>
      vecGroup c.ty vr vi vw (b * 2 ^ d + g * vw) h ((tw.drop (g * vw)).take vw)))
    (w.setTwb tw)

/-! ### The vectorized twiddle expansion -/

/-- A complex vector: a register of real parts and one of imaginary parts (R48). -/
structure VCx where
  re : List Elem
  im : List Elem
deriving DecidableEq, Repr

/-- One register of a step of the expansion: its lanes advanced by `w` (R171, R270). -/
def vecAdvance (t : Ty) (w : Cx) (z : VCx) : VCx :=
  let wr := vfill z.re.length w.re
  let wi := vfill z.re.length w.im
  { re := vadd t (vsub t (vmul t wr z.re) (vmul t wi z.im)) (vadd t wr z.re)
    im := vadd t (vadd t (vmul t wi z.re) (vmul t wr z.im)) (vadd t wi z.im) }

/-- The lanes `g·vw .. g·vw + vw - 1` of a table: register number `g`. -/
def VCx.chunk (z : VCx) (vw g : Nat) : VCx :=
  { re := (z.re.drop (g * vw)).take vw, im := (z.im.drop (g * vw)).take vw }

/-- A step of the expansion with `vw` lanes: the entries `[0, 2^i)` advanced, register after register (R171, R270). -/
def vecExpandStep (t : Ty) (w : Cx) (vw : Nat) (z : VCx) : VCx :=
  let rs := (List.range ((z.re.length + vw - 1) / vw)).map (fun g => vecAdvance t w (z.chunk vw g))
  { re := rs.flatMap VCx.re, im := rs.flatMap VCx.im }

/-- The `−1` form of the entries `[0, 2^i)`, expanded with `vw` lanes (R171, R270). -/
def vecTwiddleRaw (c : Config) (vw bigN : Nat) (σ : Dir) : Nat → VCx
  | 0 => { re := vfill 1 c.ty.zero, im := vfill 1 c.ty.zero }
  | i + 1 =>
    let z := vecTwiddleRaw c vw bigN σ i
    let n := vecExpandStep c.ty (dirz c.ty (cexpm1 c (bigN - i)) σ) vw z
    { re := z.re ++ n.re, im := z.im ++ n.im }

/-- `TwiddleGen(N, L, σ)` expanded with `vw` lanes, `ONE` added to the real parts at the end (R171, R270). -/
def vecTwiddleGen (c : Config) (vw bigN l : Nat) (σ : Dir) : VCx :=
  let z := vecTwiddleRaw c vw bigN σ l
  { re := vadd c.ty z.re (vfill z.re.length c.ty.one), im := z.im }

/-! ### The vector radix-8 terminal: one lane for each group of eight (log 34) -/

/-- `neg` lane by lane. -/
def vneg (t : Ty) (a : List Elem) : List Elem := a.map t.neg

/-- Complex `⊕` lane by lane (R16). -/
def vcadd (t : Ty) (z w : VCx) : VCx := { re := vadd t z.re w.re, im := vadd t z.im w.im }

/-- Complex `⊖` lane by lane (R16). -/
def vcsub (t : Ty) (z w : VCx) : VCx := { re := vsub t z.re w.re, im := vsub t z.im w.im }

/-- `mulσi` lane by lane (R226). -/
def vmulSigmaI (t : Ty) (v : VCx) : Dir → VCx
  | .forward => { re := v.im, im := vneg t v.re }
  | .inverse => { re := vneg t v.im, im := v.re }

/-- Stages 1 and 2 of the radix-8 kernel on four positions, lane by lane (R226). -/
def vr8Four (t : Ty) (σ : Dir) (a0 a1 a2 a3 : VCx) : VCx × VCx × VCx × VCx :=
  let u0 := vcadd t a0 a1
  let u1 := vcsub t a0 a1
  let u2 := vcadd t a2 a3
  let x := vmulSigmaI t (vcsub t a2 a3) σ
  (vcadd t u0 u2, vcadd t u1 x, vcsub t u0 u2, vcsub t u1 x)

/-- `t1` and `t3` of stage 3, lane by lane (R227). -/
def vr8Turn (t : Ty) (σ : Dir) (x5 x7 : VCx) : VCx × VCx :=
  let c := vfill x5.re.length t.sqrtHalf
  match σ with
  | .forward =>
    ({ re := vmul t c (vadd t x5.re x5.im), im := vmul t c (vsub t x5.im x5.re) },
     { re := vmul t c (vsub t x7.im x7.re), im := vneg t (vmul t c (vadd t x7.re x7.im)) })
  | .inverse =>
    ({ re := vmul t c (vsub t x5.re x5.im), im := vmul t c (vadd t x5.im x5.re) },
     { re := vneg t (vmul t c (vadd t x7.re x7.im)), im := vmul t c (vsub t x7.re x7.im) })

/-- The radix-8 kernel on eight vectors, lane by lane: `y[0..7]` in order (R226, R227). -/
def vr8Values (t : Ty) (σ : Dir) (a0 a1 a2 a3 a4 a5 a6 a7 : VCx) : List VCx :=
  match vr8Four t σ a0 a1 a2 a3, vr8Four t σ a4 a5 a6 a7 with
  | (v0, v1, v2, v3), (v4, v5, v6, v7) =>
    let t2 := vmulSigmaI t v6 σ
    match vr8Turn t σ v5 v7 with
    | (t1, t3) =>
      [ vcadd t v0 v4, vcadd t v1 t1, vcadd t v2 t2, vcadd t v3 t3,
        vcsub t v0 v4, vcsub t v1 t1, vcsub t v2 t2, vcsub t v3 t3 ]

/-- Read the elements `i, i + 8, i + 16, …` of a view, one a lane. -/
def vgather (v : View) (w : Work) : Nat → Nat → Except Fault (List Elem)
  | _, 0 => .ok []
  | i, vw + 1 => (dstRead v i w).bind fun x => (vgather v w (i + 8) vw).bind fun xs => .ok (x :: xs)

/-- Write a register to the elements `i, i + 8, i + 16, …` of a view. -/
def vscatter (v : View) : List Elem → Nat → Work → Except Fault Work
  | [], _, w => .ok w
  | x :: xs, i, w => (dstWrite v i x w).bind (vscatter v xs (i + 8))

/-- Read position `p` of each of the groups `g .. g + vw - 1`, one a lane. -/
def vgroupRead (vr vi : View) (vw g p : Nat) (w : Work) : Except Fault VCx :=
  (vgather vr w (8 * g + p) vw).bind fun re => (vgather vi w (8 * g + p) vw).bind fun im => .ok { re := re, im := im }

/-- Write a list of complex vectors to the positions `i, i + 1, …` of the groups of their lanes. -/
def vgroupStore (vr vi : View) : List VCx → Nat → Work → Except Fault Work
  | [], _, w => .ok w
  | z :: zs, i, w => ((vscatter vr z.re i w).bind (vscatter vi z.im i)).bind (vgroupStore vr vi zs (i + 1))

/-- The vector radix-8 terminal on the groups `g .. g + vw - 1` (R228, R270). -/
def vecR8Groups (t : Ty) (σ : Dir) (vr vi : View) (vw g : Nat) (w : Work) : Except Fault Work :=
  (vgroupRead vr vi vw g 0 w).bind fun a0 => (vgroupRead vr vi vw g 1 w).bind fun a1 =>
  (vgroupRead vr vi vw g 2 w).bind fun a2 => (vgroupRead vr vi vw g 3 w).bind fun a3 =>
  (vgroupRead vr vi vw g 4 w).bind fun a4 => (vgroupRead vr vi vw g 5 w).bind fun a5 =>
  (vgroupRead vr vi vw g 6 w).bind fun a6 => (vgroupRead vr vi vw g 7 w).bind fun a7 =>
  let ys := vr8Values t σ a0 a1 a2 a3 a4 a5 a6 a7
  let w := { w with trans := { w.trans with vreg := ys.flatMap (fun z => [z.re, z.im]) } }
  vgroupStore vr vi ys (8 * g) w

/-- The vector radix-8 terminal with `vw` lanes on a whole stream of `2^lt` elements (R228, R270): the groups in turns of
`vw`, the last turn with the groups that are left. -/
def vecR8Lanes (t : Ty) (σ : Dir) (vr vi : View) (vw lt : Nat) (w : Work) : Except Fault Work :=
  let groups := 2 ^ lt / 8
  forUp ((groups + vw - 1) / vw) (fun q => vecR8Groups t σ vr vi (min vw (groups - q * vw)) (q * vw)) w

end Sys2Proof.Machine
end

