-- ==== Sys2Proof/Machine/Regimes.lean ====
section
/-! DEFINITION. The access regimes of the bit reversal (R192–R197): the procedure by which the engine reaches the
result of R190. No host can observe it (R198), so `exec` uses R190 itself; what is stated of the regimes is that they
reach that result. A source here is an Option: `none` is a null source, whose halves are null too (R194). -/

namespace Sys2Proof.Machine

/-- The reversed index of the tiny regime: the byte table with its shift-tail adjustment, or bit manipulation (R193). -/
def revTiny (c : Config) (i l : Nat) : Nat :=
  if c.brevTableEn then brev8.getD i 0 / 2 ^ (8 - l) else rev i l

/-- Read element `i` of a source that may be null (R83, R194). -/
def srcGet (t : Ty) (src : Option View) (i : Nat) (w : Work) : Except Fault Elem :=
  match src with
  | some v => dstRead v i w
  | none => .ok t.zero

/-- `TinyOOP(src, dst, L)` (R193). -/
def tinyOOP (c : Config) (src : Option View) (dst : View) (l : Nat) (w : Work) : Except Fault Work :=
  forUp (2 ^ l) (fun i w => (srcGet c.ty src i w).bind fun x => dstWrite dst (revTiny c i l) x w) w

/-- Exchange two positions of a view (R193, R195). -/
def swapAt (v : View) (p r : Nat) (w : Work) : Except Fault Work :=
  (dstRead v p w).bind fun x => (dstRead v r w).bind fun y =>
  (dstWrite v p y w).bind (dstWrite v r x)

/-- `TinyIP(v, L)` (R193). -/
def tinyIP (c : Config) (v : View) (l : Nat) (w : Work) : Except Fault Work :=
  forUp (2 ^ l) (fun i w => if i < revTiny c i l then swapAt v i (revTiny c i l) w else .ok w) w

/-- `MedOOP(src, dst, L)` (R194), down to `tiny` bits. -/
def medOOP (c : Config) (tiny : Nat) : Nat → Option View → View → Work → Except Fault Work
  | 0, src, dst, w => tinyOOP c src dst 0 w
  | l + 1, src, dst, w =>
    if l + 1 ≤ tiny then tinyOOP c src dst (l + 1) w
    else (medOOP c tiny l (src.map View.even) dst.lo w).bind (medOOP c tiny l (src.map View.odd) dst.hi)

/-- A pure quarter of a view, from position `p`, every second element (R195). -/
def quarter (v : View) (p l : Nat) : View :=
  { base := v.base + (p : Int) * v.stride, stride := 2 * v.stride, count := 2 ^ l }

/-- `MedIP(v, L)` (R195), down to `tiny` bits. -/
def medIP (c : Config) (tiny : Nat) : Nat → View → Work → Except Fault Work
  | 0, v, w => tinyIP c v 0 w
  | 1, v, w => tinyIP c v 1 w
  | l + 2, v, w =>
    if l + 2 ≤ tiny then tinyIP c v (l + 2) w
    else
      ((forUp (2 ^ l) (fun x => swapAt v (2 * x + 1) (2 ^ (l + 1) + 2 * rev x l)) w).bind
        (medIP c tiny l (quarter v 0 l))).bind
      (medIP c tiny l (quarter v (2 ^ (l + 1) + 1) l))

/-- The position of index `(a, b, c)` in the large regime (R196). -/
def tilePos (q m a b c : Nat) : Nat := a * 2 ^ (m + q) + b * 2 ^ q + c

/-- Save tile `b` into `TMP`, exchanged (R196); `TMP` is `TWB_RE` (R47). -/
def saveTile (t : Ty) (v : View) (q m b : Nat) (w : Work) : Nat → Except Fault (List Elem)
  | 0 => .ok []
  | k + 1 => (saveTile t v q m b w k).bind fun l =>
      (dstRead v (tilePos q m (rev (k % 2 ^ q) q) b (rev (k / 2 ^ q) q)) w).bind fun x => .ok (l ++ [x])

/-- Exchange tile `b` with its reflection, or reflect it within its own block (R196, C8). -/
def largeBlock (t : Ty) (v : View) (q m b : Nat) (w : Work) : Except Fault Work :=
  let b' := rev b m
  if b ≤ b' then
    (saveTile t v q m b w (2 ^ (2 * q))).bind fun tmp =>
    let w := { w with trans := { w.trans with twbRe := tmp } }
    (if b = b' then .ok w
      else forUp (2 ^ (2 * q)) (fun k w =>
        (dstRead v (tilePos q m (k / 2 ^ q) b' (k % 2 ^ q)) w).bind fun x =>
        dstWrite v (tilePos q m (rev (k % 2 ^ q) q) b (rev (k / 2 ^ q) q)) x w) w).bind fun w =>
    forUp (2 ^ (2 * q)) (fun k w =>
      dstWrite v (tilePos q m (k / 2 ^ q) b' (k % 2 ^ q)) (w.trans.twbRe.getD k default) w) w
  else .ok w

/-- `LargeIP(v, L)` (R196). -/
def largeIP (c : Config) (v : View) (l : Nat) (w : Work) : Except Fault Work :=
  forUp (2 ^ (l - 2 * c.q)) (largeBlock c.ty v c.q (l - 2 * c.q)) w

/-- The regime of an in-place bit reversal (R192). -/
def regimeIP (c : Config) (tiny med : Nat) (v : View) (l : Nat) (w : Work) : Except Fault Work :=
  if l ≤ tiny then tinyIP c v l w
  else if l ≤ med then medIP c tiny l v w
  else if 2 * c.q ≤ l then largeIP c v l w
  else medIP c tiny l v w

/-- The deinterleaving pass of `LargeOOP` (R197). -/
def largeSplit (t : Ty) (src : Option View) (dst : View) (l : Nat) (w : Work) : Except Fault Work :=
  forUp (2 ^ l) (fun i w => (srcGet t src i w).bind fun x => dstWrite dst (i % 2 * 2 ^ (l - 1) + i / 2) x w) w

/-- The regime of a bit reversal out of place (R192, R197). -/
def regimeOOP (c : Config) (tiny med : Nat) (src : Option View) (dst : View) (l : Nat) (w : Work) :
    Except Fault Work :=
  if l ≤ tiny then tinyOOP c src dst l w
  else if l ≤ med then medOOP c tiny l src dst w
  else
    ((largeSplit c.ty src dst l w).bind (regimeIP c tiny med dst.lo (l - 1))).bind
      (regimeIP c tiny med dst.hi (l - 1))

/-- `BitRev` by its regimes (R192). -/
def bitRevByRegime (c : Config) (src dst : View) (l : Nat) (w : Work) : Except Fault Work :=
  if src = dst then regimeIP c tinyLog medLog dst l w
  else regimeOOP c tinyLog medLog (if src.isNull then none else some src) dst l w

end Sys2Proof.Machine
end

