-- ==== Sys2Proof/Machine/Launch.lean ====
section
/-! DEFINITION. A launch, a run from it, and the end of a run (R387). -/

namespace Sys2Proof.Machine

/-- A launch (R387): a configuration, a launch memory, a host program for each context, with the happens-before order of
its `post` and `await` steps, and a draw for each allocation. The reset state is R53's. `sched` is the interleaving. -/
structure Launch where
  cfg : Config
  /-- The elements the host places before the first step: address and representation (R82). -/
  memory : List (Nat × Nat)
  /-- The host program of each context by number; a context without one has no step. -/
  hosts : List HostProg
  draws : List (Option Nat)
  sched : List Nat
deriving DecidableEq, Repr

/-- A context at the start of a launch: reset (R53), with its host program before it. -/
def Launch.context (l : Launch) (c : Nat) : Context :=
  Context.reset l.cfg.ty.zero { HostThread.start with prog := l.hosts.getD c .done }

/-- The launch memory (R82, R387): placed one after the other; a number that is no element address holds nothing. -/
def placeAll (t : Ty) : List (Nat × Nat) → Mem → Mem
  | [], m => m
  | (a, v) :: cells, m => placeAll t cells (if isAddr a then m.place a (t.ofHost v) else m)

/-- The state a run of a launch starts from (R387): `NCTX` contexts (R30) after reset (R370). -/
def Launch.start (l : Launch) : State :=
  { cfg := l.cfg, before := [], me := l.context 0
    after := (List.range (l.cfg.nctx - 1)).map (fun c => l.context (c + 1))
    featCache := 0, mem := placeAll l.cfg.ty l.memory [], allocs := l.draws, tick := 0, sched := l.sched, tokens := []
    log := [], faults := [] }

/-- Some steps of a run. -/
def runFor : Nat → State → Host.Outcome State Fault Refusal
  | 0, s => .next s
  | n + 1, s =>
    match step s with
    | .next t => runFor n t
    | .fault f => .fault f
    | .refused r => .refused r

/-- A run has ended (R387): every context has taken its last host step and is `IDLE`, none is stuck, and no fault is
recorded. -/
def State.ended (s : State) : Bool :=
  s.contexts.all (fun c => c.thread.prog == .done && c.fsm == .idle && c.halted.isNone) && s.faults.isEmpty

/-- What a context shows at the end of a run (R387). -/
structure EndContext where
  status : Word32
  result : Word64
  resRe : Elem
  resIm : Elem
deriving DecidableEq, Repr

/-- The end state of a run (R387): element memory, each context's `STATUS`, `RESULT` and `RES_*`, and `FEAT_CACHE`. -/
structure EndState where
  mem : Mem
  contexts : List EndContext
  featCache : Word32
deriving DecidableEq, Repr

/-- The end state, where the run has ended; a run that waits, is stuck or has a fault recorded has none (R387). -/
def State.endState (s : State) : Option EndState :=
  if s.ended then
    some { mem := s.mem, featCache := s.featCache
           contexts := s.contexts.map fun c =>
             { status := c.status, result := c.result, resRe := c.resRe, resIm := c.resIm } }
  else none

end Sys2Proof.Machine
end

