-- ==== Sys2Proof/Machine/Values.lean ====
section
/-! DEFINITION. What the engine computes, as functions of the position in a stream and of the values the stream held
(R190, R222, R228–R232, R310–R324): no memory, no order of accesses. The statements about the transforms and the
butterfly commands say that memory holds these values. -/

namespace Sys2Proof.Machine

/-- The values of a pair of streams, by position. -/
abbrev Stream := Nat → Cx

/-- The multiplier pair `(C, S)` of chunk `q` (R225). -/
def mulAfter (c : Config) (d : Nat) (σ : Dir) : Nat → Cx
  | 0 => ⟨c.ty.one, c.ty.zero⟩
  | q + 1 => advanceMul c.ty (mulAfter c d σ q) (stepFactor c d σ)

/-- The twiddle of pair `k` of pass `d` (R222): stored in flat mode (R223), composed in recursive-block mode (R225). -/
def passTwiddle (c : Config) (d : Nat) (σ : Dir) (k : Nat) : Cx :=
  if d ≤ c.lbuf then (twiddleGen c d (d - 1) σ).getD k default
  else
    blockTwiddle c.ty ((twiddleGen c d (c.lbuf - 1) σ).getD (k % 2 ^ (c.lbuf - 1)) default)
      (mulAfter c d σ (k / 2 ^ (c.lbuf - 1)))

/-- A stream after pass `d` (R220, R222): positions `s + k` and `s + k + h` of every block take sum and difference. -/
def passV (c : Config) (d : Nat) (σ : Dir) (f : Stream) : Stream := fun i =>
  let h := 2 ^ (d - 1)
  let k := i % 2 ^ d
  if k < h then cadd c.ty (f i) (cmul c.ty (f (i + h)) (passTwiddle c d σ k))
  else csub c.ty (f (i - h)) (cmul c.ty (f i) (passTwiddle c d σ (k - h)))

/-- A stream after the radix-8 kernel (R226–R228). -/
def r8V (t : Ty) (σ : Dir) (f : Stream) : Stream := fun i =>
  let g := 8 * (i / 8)
  (r8Values t σ (f g) (f (g + 1)) (f (g + 2)) (f (g + 3)) (f (g + 4)) (f (g + 5)) (f (g + 6)) (f (g + 7))).getD
    (i % 8) default

/-- A stream after `n` passes from level `d0` upwards (R231). -/
def passesV (c : Config) (d0 : Nat) (σ : Dir) : Nat → Stream → Stream
  | 0, f => f
  | n + 1, f => passV c (d0 + n) σ (passesV c d0 σ n f)

/-- A stream after a multipass (R229). -/
def multipassV (c : Config) (lt depth : Nat) (σ : Dir) (f : Stream) : Stream :=
  if depth = lt ∧ r8Min ≤ depth then passesV c 4 σ (lt - 3) (r8V c.ty σ f)
  else passesV c (lt - depth + 1) σ depth f

/-- A stream after the passes the SIMD layer takes (R271): the first `k` passes of the multipass. -/
def ompV (c : Config) (lt depth k : Nat) (σ : Dir) (f : Stream) : Stream :=
  if k = 0 then f
  else if r8First lt depth then passesV c 4 σ (k - 3) (r8V c.ty σ f)
  else passesV c (lt - depth + 1) σ k f

/-- A stream after the top-level schedule (R230): the split does not change a value. -/
def dbcV (c : Config) (l : Nat) (σ : Dir) (f : Stream) : Stream := multipassV c l l σ f

/-- A stream after the bit reversal of both its parts (R190): position `rev(i, L)` takes what was read at `i`. -/
def revV (l : Nat) (f : Stream) : Stream := fun i => f (rev i l)

/-- A stream after the final scaling (R232). -/
def scaleV (t : Ty) (s : Elem) (f : Stream) : Stream := fun i =>
  if t.isOne s then f i else ⟨t.mul (f i).re s, t.mul (f i).im s⟩

/-- The output of the power-of-two pipeline on the input `f` (R310–R314). -/
def potV (c : Config) (l : Nat) (σ : Dir) (scale : Elem) (f : Stream) : Stream :=
  scaleV c.ty scale (dbcV c l σ (revV l f))

/-- The chirp entry of position `k` (R318). -/
def chirpV (c : Config) (n : Nat) (σ : Dir) (k : Nat) : Cx := (fracTwiddles c n σ).getD (chirpIndex n k) default

/-- The array `a` after `BS_PREMUL` (R319). -/
def premulA (c : Config) (lm n : Nat) (σ : Dir) (x : Stream) : Stream := fun k =>
  if k < n then scaledProduct c.ty (x k) (chirpV c n σ k) (c.ty.invPow2 lm) else ⟨c.ty.zero, c.ty.zero⟩

/-- The array `b` after `BS_PREMUL` (R319): the chirp kernel, its reflection, and zeros between. -/
def premulB (c : Config) (lm n : Nat) (σ : Dir) : Stream := fun k =>
  if k < n then ⟨(chirpV c n σ k).re, c.ty.neg (chirpV c n σ k).im⟩
  else if 2 ^ lm - k < n then ⟨(chirpV c n σ (2 ^ lm - k)).re, c.ty.neg (chirpV c n σ (2 ^ lm - k)).im⟩
  else ⟨c.ty.zero, c.ty.zero⟩

/-- The output of the Bluestein pipeline on the input `x` (R316–R324). -/
def bluesteinV (c : Config) (n : Nat) (σ : Dir) (scale : Elem) (x : Stream) : Stream := fun k =>
  let lm := clog2 (2 * n - 1)
  let fa := potV c lm .forward c.ty.one (premulA c lm n σ x)
  let fb := potV c lm .forward c.ty.one (premulB c lm n σ)
  let y := potV c lm .inverse scale (fun j => cmul c.ty (fa j) (fb j))
  cmul c.ty (y k) (chirpV c n σ k)

/-- The values a request's destination takes (R306): the power-of-two pipeline's, or Bluestein's. -/
def requestV (c : Config) (n : Nat) (σ : Dir) (scale : Elem) (forceBS : Bool) (x : Stream) : Stream :=
  if takesBluestein n forceBS then bluesteinV c n σ scale x else potV c (Nat.log2 n) σ scale x

/-- The value a source view gives at position `i` in a memory (R83). -/
def srcValue (t : Ty) (m : Mem) (v : View) (i : Nat) : Elem :=
  if v.isNull then t.zero else (m.atAddr (v.addr i)).getD default

/-- The input of a request (R83, R291). -/
def inputOf (t : Ty) (m : Mem) (sr si : View) : Stream := fun i => ⟨srcValue t m sr i, srcValue t m si i⟩

/-- The values two views hold in a memory. -/
def streamOf (m : Mem) (vr vi : View) : Stream := fun i =>
  ⟨(m.atAddr (vr.addr i)).getD default, (m.atAddr (vi.addr i)).getD default⟩

end Sys2Proof.Machine
end

