-- ==== Sys2Proof/Safety.lean ====
section
/-! DEFINITION. The terms claims are stated in: the machine's invariant, what memory holds at a pair of views, when the
views of a command are ready for it, and what a command leaves alone. -/

namespace Sys2Proof

/-- An element is a value of `T`: for the IEEE types its code is an encoding of the format's width (R35, R141). -/
def Ty.legal (t : Ty) (x : Elem) : Bool :=
  match t.fmt with
  | some f => decide (x.code < 2 * f.signBit)
  | none => true

end Sys2Proof

namespace Sys2Proof.Machine

/-! ### The invariant -/

/-- Every element of a memory is a value of `T` (R80). -/
def Mem.legal (t : Ty) (m : Mem) : Bool := m.all (fun c => t.legal c.2)

/-- A context between commands (R39, R50, R52): sequencer idle, no transient state, one of the three completion codes,
element registers that hold values of `T`, and no scratch but that of a command that did not complete. -/
def Context.quiet (t : Ty) (c : Context) : Bool :=
  c.fsm == .idle && (c.bsBase == 0 || c.halted.isSome) && c.trans == Transient.dropped
    && (c.status == 0 || c.status == 0xFFFFFFFF || c.status == 0xFFFFFFFE)
    && t.legal c.resRe && t.legal c.resIm && (c.argScale.map t.legal).getD true

/-- `FEAT_CACHE` is 0, or holds the mask every probe computes, and then caching is enabled (R44, R264). -/
def cacheCoherent (c : Config) (w : Word32) : Bool :=
  w == 0 || (c.featCacheEn && w == (freshMask c).setWidth 32)

/-- What holds of the machine between steps. -/
structure State.Inv (s : State) : Prop where
  /-- The build has an instance (R373). -/
  config : s.cfg.valid = true
  /-- Memory is in its canonical form (R80). -/
  memory : s.mem.wf = true
  /-- Memory holds values of `T` only (R80). -/
  elements : s.mem.legal s.cfg.ty = true
  /-- There are `NCTX` contexts (R30, R357). -/
  count : s.contexts.length = s.cfg.nctx
  /-- Every context is between commands (R50). -/
  quiet : ∀ c ∈ s.contexts, c.quiet s.cfg.ty = true
  /-- The feature cache holds 0 or the one mask (R44). -/
  cache : cacheCoherent s.cfg s.featCache = true

/-! ### What memory holds -/

/-- Memory holds the values `f` at the positions `0 .. n-1` of a view. -/
def HoldsAt (m : Mem) (v : View) (n : Nat) (f : Nat → Elem) : Prop := ∀ i, i < n → m.atAddr (v.addr i) = some (f i)

/-- Memory holds the complex values `f` at the positions `0 .. n-1` of a pair of views. -/
def Holds (m : Mem) (vr vi : View) (n : Nat) (f : Stream) : Prop :=
  HoldsAt m vr n (fun i => (f i).re) ∧ HoldsAt m vi n (fun i => (f i).im)

/-- Every address of the view is admitted (R82). -/
def View.Admitted (m : Mem) (v : View) : Prop := ∀ i, i < v.count → (m.atAddr (v.addr i)).isSome = true

/-- No address of the one view is an address of the other (R85). -/
def View.Apart (v w : View) : Prop := ∀ i j, i < v.count → j < w.count → v.addr i ≠ w.addr j

/-- The address is an element of the view. -/
def View.Reaches (v : View) (a : Int) : Prop := ∃ i, i < v.count ∧ v.addr i = a

/-- Two memories agree at every address none of the views reaches. -/
def SameOutside (vs : List View) (m m' : Mem) : Prop := ∀ a, (∀ v ∈ vs, ¬ v.Reaches a) → m'.atAddr a = m.atAddr a

/-- Two memories admit the same addresses (R82). -/
def SameAdmitted (m m' : Mem) : Prop := ∀ a, (m'.atAddr a).isSome = (m.atAddr a).isSome

/-! ### Readiness of a command's views -/

/-- A destination pair is ready for a command in place: it passes `CheckDst` and `CheckOverlap` (R302, R303), and every
address of it is admitted (R82). -/
structure PairReady (m : Mem) (vr vi : View) : Prop where
  baseRe : vr.base ≠ 0
  baseIm : vi.base ≠ 0
  strideRe : vr.stride ≠ 0
  strideIm : vi.stride ≠ 0
  bases : vr.base ≠ vi.base
  apart : vr.Apart vi
  hereRe : vr.Admitted m
  hereIm : vi.Admitted m

/-- The destination registers of a context hold these addresses and strides (R36, R37). -/
def Context.hasPair (c : Context) (dre dim sre sim : Word64) : Prop :=
  c.argDstRe = some dre ∧ c.argDstIm = some dim ∧ c.argDsRe = some sre ∧ c.argDsIm = some sim

/-- A source view is ready: null, or every address of it is admitted (R82, R83). -/
def View.Readable (m : Mem) (v : View) : Prop := v.isNull = true ∨ v.Admitted m

/-- A transform request is ready: it passes the checks of R302 and R303, and its views are admitted (R82). -/
structure RequestReady (c : Config) (m : Mem) (v : Views) (n : Nat) (forceBS : Bool) : Prop where
  counts : v.sr.count = n ∧ v.si.count = n ∧ v.dr.count = n ∧ v.di.count = n
  valid : requestBad c v n forceBS = false
  overlap : overlapBad [v.sr, v.si] v.dr v.di = false
  srcRe : v.sr.Readable m
  srcIm : v.si.Readable m
  dstRe : v.dr.Admitted m
  dstIm : v.di.Admitted m

/-! ### What a command leaves alone -/

/-- A context but for its completion: everything except `STATUS`, the result registers and the command's transient
state. -/
def Context.sameArgs (c d : Context) : Prop :=
  d.cmd = c.cmd ∧ d.argN = c.argN ∧ d.argScale = c.argScale ∧ d.argSrcRe = c.argSrcRe ∧ d.argSrcIm = c.argSrcIm
    ∧ d.argDstRe = c.argDstRe ∧ d.argDstIm = c.argDstIm ∧ d.argSsRe = c.argSsRe ∧ d.argSsIm = c.argSsIm
    ∧ d.argDsRe = c.argDsRe ∧ d.argDsIm = c.argDsIm ∧ d.argP = c.argP ∧ d.argQ = c.argQ ∧ d.halted = c.halted
    ∧ d.thread = c.thread

/-- The machine but for the current context, memory, the feature cache and the launch's draws. -/
def State.sameOthers (s t : State) : Prop :=
  t.cfg = s.cfg ∧ t.before = s.before ∧ t.after = s.after ∧ t.sched = s.sched ∧ t.tokens = s.tokens ∧ t.log = s.log
    ∧ t.faults = s.faults

/-- `FEAT_CACHE` is as it was, or as a probe leaves it (R264). -/
def cacheStep (c : Config) (w w' : Word32) : Prop := w' = w ∨ w' = (probe c w).2

/-- A command that succeeded and has no result register: `STATUS` is 0, the sequencer idle, every other register, the
other contexts and the launch's schedule as they were; memory, `FEAT_CACHE` and the launch's draws are `t`'s. -/
def State.wroteMemory (s t : State) : Prop :=
  t = { s with
    mem := t.mem, featCache := t.featCache, allocs := t.allocs, tick := t.tick
    me := { s.me with status := 0, fsm := .idle, bsBase := 0, trans := Transient.dropped } }

/-- A command that succeeded and wrote no element outside the views `vs` (R86), admitting no new address and giving none
up (R82). -/
structure State.Wrote (s t : State) (vs : List View) : Prop where
  rest : State.wroteMemory s t
  outside : SameOutside vs s.mem t.mem
  admitted : SameAdmitted s.mem t.mem

/-- A command that neither probed nor drew anything: `FEAT_CACHE` and the launch's draws are as they were. -/
def State.sameDraws (s t : State) : Prop := t.featCache = s.featCache ∧ t.allocs = s.allocs ∧ t.tick = s.tick

/-- A command that succeeded and changed nothing but `STATUS`, which is 0, and the sequencer, which is idle. -/
def State.noWork (s : State) : State :=
  { s with me := { s.me with status := 0, fsm := .idle, bsBase := 0, trans := Transient.dropped } }

/-- What a transform request leaves (R304, R306): its destination holds the values Values.lean names (exactly, where
the vector kernels are: R267), a Bluestein request has used one allocation draw (R90), and the rest is as it was. -/
structure State.Transformed (s t : State) (v : Views) (n : Nat) (σ : Dir) (scale : Elem) (forceBS : Bool) : Prop where
  wrote : State.Wrote s t [v.dr, v.di]
  values : s.cfg.simdValues = .exact →
    Holds t.mem v.dr v.di n (requestV s.cfg n σ scale forceBS (inputOf s.cfg.ty s.mem v.sr v.si))
  cache : cacheStep s.cfg s.featCache t.featCache
  draws : t.allocs = if takesBluestein n forceBS then s.allocs.tail else s.allocs

/-- The launch grants the scratch a request needs (R90, R316): a power-of-two request needs none. -/
def State.grants (s : State) (v : Views) (n : Nat) (forceBS : Bool) : Prop :=
  takesBluestein n forceBS = true → ∃ b rest, s.allocs = some b :: rest
    ∧ allocLawful s.cfg v.list s.mem b (scratchLen (clog2 (2 * n - 1)) n) = true

/-- The register values after reset (R53, R370), `zero` being the build's `ZERO`. -/
structure Context.AtReset (c : Context) (zero : Elem) : Prop where
  cmd : c.cmd = 0
  status : c.status = 0
  result : c.result = 0
  argN : c.argN = none
  argScale : c.argScale = none
  argSrcRe : c.argSrcRe = none
  argSrcIm : c.argSrcIm = none
  argDstRe : c.argDstRe = none
  argDstIm : c.argDstIm = none
  argSsRe : c.argSsRe = none
  argSsIm : c.argSsIm = none
  argDsRe : c.argDsRe = none
  argDsIm : c.argDsIm = none
  argP : c.argP = none
  argQ : c.argQ = none
  resRe : c.resRe = zero
  resIm : c.resIm = zero
  fsm : c.fsm = .idle
  bsBase : c.bsBase = 0
  halted : c.halted = none

/-! ### Argument registers -/

/-- The argument registers (R34–R38). -/
inductive ArgReg where
  | n
  | scale
  | srcRe
  | srcIm
  | dstRe
  | dstIm
  | ssRe
  | ssIm
  | dsRe
  | dsIm
  | p
  | q
deriving DecidableEq, Repr

/-- What an argument register holds, as a number; none while it is UNWRITTEN (R31). -/
def Context.argument (c : Context) : ArgReg → Option Nat
  | .n => c.argN.map BitVec.toNat
  | .scale => c.argScale.map Elem.code
  | .srcRe => c.argSrcRe.map BitVec.toNat
  | .srcIm => c.argSrcIm.map BitVec.toNat
  | .dstRe => c.argDstRe.map BitVec.toNat
  | .dstIm => c.argDstIm.map BitVec.toNat
  | .ssRe => c.argSsRe.map BitVec.toNat
  | .ssIm => c.argSsIm.map BitVec.toNat
  | .dsRe => c.argDsRe.map BitVec.toNat
  | .dsIm => c.argDsIm.map BitVec.toNat
  | .p => c.argP.map BitVec.toNat
  | .q => c.argQ.map BitVec.toNat

/-- The argument registers each command reads: the table of R115. -/
def argsRead : Instr → List ArgReg
  | .xfs _ _ => [.n, .scale, .srcRe, .srcIm, .dstRe, .dstIm]
  | .xfi _ _ => [.n, .scale, .srcRe, .dstRe]
  | .xft _ _ => [.n, .scale, .srcRe, .srcIm, .dstRe, .dstIm, .ssRe, .ssIm, .dsRe, .dsIm]
  | .blu _ _ => [.n, .scale, .srcRe, .srcIm, .dstRe, .dstIm, .ssRe, .ssIm, .dsRe, .dsIm]
  | .brv _ => [.srcRe, .ssRe, .dstRe, .dsRe]
  | .dil => [.n, .dstRe]
  | .ilv => [.n, .dstRe]
  | .pass _ _ _ => [.dstRe, .dstIm, .dsRe, .dsIm]
  | .r8 _ _ => [.dstRe, .dstIm, .dsRe, .dsIm]
  | .mps _ _ _ _ => [.dstRe, .dstIm, .dsRe, .dsIm]
  | .bfy _ _ _ => [.dstRe, .dstIm, .dsRe, .dsIm]
  | .scl => [.n, .scale, .dstRe, .dstIm, .dsRe, .dsIm]
  | .twg _ _ _ => [.dstRe, .dstIm, .dsRe, .dsIm]
  | .twf _ => [.n, .dstRe, .dstIm, .dsRe, .dsIm]
  | .cxm _ => []
  | .cxf => [.p, .q]
  | .prb => []
  | .sel _ _ _ => [.dsRe, .dsIm]
  | .omp _ _ _ _ => [.dstRe, .dstIm, .dsRe, .dsIm]

/-- The commands that write `RESULT` (R40). -/
def writesResult : Instr → Bool
  | .prb | .sel _ _ _ | .omp _ _ _ _ => true
  | _ => false

/-- The commands that write `RES_RE` and `RES_IM` (R41). -/
def writesRes : Instr → Bool
  | .cxm _ | .cxf => true
  | _ => false

/-- The command with another SIMD policy, where it has one (R112). -/
def withPolicy (pol : Policy) : Instr → Instr
  | .xfs dir _ => .xfs dir pol
  | .xfi dir _ => .xfi dir pol
  | .xft dir _ => .xft dir pol
  | .blu dir _ => .blu dir pol
  | .mps dir _ log2n depth => .mps dir pol log2n depth
  | .bfy dir _ log2n => .bfy dir pol log2n
  | .sel _ log2n depth => .sel pol log2n depth
  | .omp dir _ log2n depth => .omp dir pol log2n depth
  | i => i

/-- The host has written every argument register the command reads (R31, R374). -/
def argsWritten (i : Instr) (c : Context) : Prop := ∀ r ∈ argsRead i, (c.argument r).isSome = true

/-! ### Requests and destination pairs -/

/-- The argument registers of a context give these strided views, each with `n` elements (R291). -/
def Context.hasStrided (c : Context) (v : Views) (n : Nat) : Prop :=
  ∃ sre sim dre dim ssre ssim dsre dsim : Word64, c.argSrcRe = some sre ∧ c.argSrcIm = some sim ∧ c.argDstRe = some dre
    ∧ c.argDstIm = some dim ∧ c.argSsRe = some ssre ∧ c.argSsIm = some ssim ∧ c.argDsRe = some dsre
    ∧ c.argDsIm = some dsim
    ∧ v = { sr := srcView (addrOf sre) (strideOf ssre) n, si := srcView (addrOf sim) (strideOf ssim) n
            dr := viewOf dre dsre n, di := viewOf dim dsim n }

/-- A command on a destination pair: how many elements each destination has, and whether its operands are out of the
range its rule states (R176, R177, R240–R244, R278); none for another command. -/
def pairWork (i : Instr) (lbuf : Nat) (c : Context) : Option (Nat × Prop) :=
  match i with
  | .pass _ d l => some (2 ^ l, d < 1 ∨ l < d ∨ 31 < l)
  | .r8 _ l => some (2 ^ l, l < 3 ∨ 31 < l)
  | .mps _ _ l depth => some (2 ^ l, l < depth ∨ 31 < l)
  | .bfy _ _ l => some (2 ^ l, 31 < l)
  | .scl => c.argN.map fun n => (n.toNat, 2 ^ 31 < n.toNat)
  | .twg _ bigN l => some (2 ^ l, bigN < l ∨ lbuf < l)
  | .twf _ => c.argN.map fun n => (2 * n.toNat, 2 ^ 30 < n.toNat)
  | .omp _ _ l depth => some (2 ^ l, l < depth ∨ 31 < l)
  | _ => none

/-- The items of R302 on the two destinations alone: `CheckDst` fails. -/
def DstRejected (vr vi : View) : Prop :=
  (vr.base = 0 ∨ vi.base = 0) ∨ (vr.stride = 0 ∨ vi.stride = 0) ∨ vr.base = vi.base

/-- An item of R302 holds of a request. -/
def RequestRejected (c : Config) (r : Request) : Prop :=
  DstRejected r.views.dr r.views.di
    ∨ (r.views.sr.base ≠ 0 ∧ r.views.sr.base = r.views.dr.base ∧ r.views.sr.stride ≠ r.views.dr.stride)
    ∨ (r.views.si.base ≠ 0 ∧ r.views.si.base = r.views.di.base ∧ r.views.si.stride ≠ r.views.di.stride)
    ∨ (r.views.sr.base ≠ 0 ∧ r.views.sr.base = r.views.di.base)
    ∨ (r.views.si.base ≠ 0 ∧ r.views.si.base = r.views.dr.base)
    ∨ (isPow2 r.n = true ∧ r.forceBS = false ∧ 31 < Nat.log2 r.n)
    ∨ ((isPow2 r.n = false ∨ r.forceBS = true) ∧ (c.bluesteinEn = false ∨ 2 ^ 31 < 2 * r.n - 1))

/-- `a` is in the footprint of a view (R85). -/
def View.InFootprint (v : View) (a : Int) : Prop := v.base ≠ 0 ∧ v.Reaches a

/-- The footprints of two views meet (R85). -/
def View.Share (v w : View) : Prop := ∃ a, v.InFootprint a ∧ w.InFootprint a

/-- A request's views overlap where R303 forbids it. -/
def RequestOverlaps (r : Request) : Prop :=
  (∃ s ∈ [r.views.sr, r.views.si], ∃ d ∈ [r.views.dr, r.views.di], s.base ≠ 0 ∧ s ≠ d ∧ s.Share d)
    ∨ r.views.dr.Share r.views.di

/-- `a` is in the footprint of some view of the list. -/
def InSome (vs : List View) (a : Int) : Prop := ∃ v ∈ vs, v.InFootprint a

end Sys2Proof.Machine
end

