-- ==== Sys2Proof/Certificates/Slice0/Obligations.lean ====
section
/-! DEFINITION. The statements for the provers. OBLIGATIONS.json lists them with the rules they formalise. -/

open Sys2Proof Sys2Proof.Machine

/-! ### Encoding (30_encoding.md) -/

/-- Words the spec spells out, each with its command (R119, and the examples of the command rules): the examples of
R119, then one word for each further row of R114. -/
def Obligations.DecodesWordsTheSpecSpells : Prop :=
  decode 0x00000503 = .ok (.xft .inverse .scalar) ∧ decode 0x014A0022 = .ok (.mps .forward .auto 10 10)
    ∧ decode 0x00005803 = .ok (.xft .forward (.force .d4)) ∧ decode 0x00030010 = .ok (.brv 3)
    ∧ decode 0x00430030 = .ok (.twg .forward 3 2) ∧ decode 0x00000001 = .ok (.xfs .forward .auto)
    ∧ decode 0x00000002 = .ok (.xfi .forward .auto) ∧ decode 0x00000004 = .ok (.blu .forward .auto)
    ∧ decode 0x00000011 = .ok .dil ∧ decode 0x00000012 = .ok .ilv ∧ decode 0x00000031 = .ok (.twf .forward)
    ∧ decode 0x00020032 = .ok (.cxm 2) ∧ decode 0x00000033 = .ok .cxf ∧ decode 0x00000040 = .ok .prb
    ∧ decode 0x014A0041 = .ok (.sel .auto 10 10) ∧ decode 0x00630442 = .ok (.omp .forward .scalar 3 3)
    ∧ decode 0x00420120 = .ok (.pass .inverse 2 2) ∧ decode 0x00030021 = .ok (.r8 .forward 3)
    ∧ decode 0x00020023 = .ok (.bfy .forward .auto 2) ∧ decode 0x00000024 = .ok .scl

/-- Decoding the word of a well-formed command gives the command back (R110–R114): no field of any encoding is dropped. -/
def Obligations.DecodeOfEncodeIsTheCommand : Prop := ∀ i : Instr, i.wellFormed = true → decode (encode i) = .ok i

/-- A legal word is the word of the command it decodes to, and that command is well formed (R114, R116): every
must-be-zero bit of a legal word is zero. -/
def Obligations.EncodeOfDecodeIsTheWord : Prop :=
  ∀ (w : Word32) (i : Instr), decode w = .ok i → i.wellFormed = true ∧ encode i = w

/-- A word is legal exactly when it meets the mask and match of a row of R114 and its `VSEL`/`VW` pair is legal, and no
word meets two rows. -/
def Obligations.LegalWordsMatchOneRow : Prop :=
  ∀ w : Word32,
    ((∃ i, decode w = .ok i) ↔
      ∃ r ∈ rows, w &&& r.mask = r.pattern ∧ (policyOf (fieldsOf w).vsel (fieldsOf w).vw).isSome = true)
    ∧ ∀ r ∈ rows, ∀ r' ∈ rows, w &&& r.mask = r.pattern → w &&& r'.mask = r'.pattern → r = r'

/-- The four kinds of illegal word (R116): the all-zero word, an opcode that R114 does not list, a must-be-zero bit set,
an illegal `VSEL`/`VW` pair. Such a word ends with `STATUS` -1 and changes nothing else but `CMD`, which holds it (R33),
the sequencer being idle with no scratch and no transient state, as between any commands; no argument register is read. -/
def Obligations.IllegalWordChangesStatusAlone : Prop :=
  ∀ w : Word32,
    ((∃ e, decode w = .error e) ↔
      w = 0 ∨ (∀ r ∈ rows, r.op ≠ (fieldsOf w).op)
        ∨ (∃ r ∈ rows, r.op = (fieldsOf w).op ∧ w &&& r.mask ≠ r.pattern)
        ∨ policyOf (fieldsOf w).vsel (fieldsOf w).vw = none)
    ∧ ∀ (e : DecodeError) (s : State), decode w = .error e →
      issue w s = .next { s with
        me := { s.me with cmd := w, status := 0xFFFFFFFF, fsm := .idle, bsBase := 0, trans := Transient.dropped } }

/-! ### Reset and invariant (10_state.md, 70_reset_and_hazards.md) -/

/-- The state right after reset holds the values of R53, every context's registers and `FEAT_CACHE`; and a reset leaves
every context and `FEAT_CACHE` with them, element memory as it was (R370), and every recorded fault recorded (R344). -/
def Obligations.ResetSetsEveryRegister : Prop :=
  (State.reset.featCache = 0 ∧ ∀ c ∈ State.reset.contexts, c.AtReset State.reset.cfg.ty.zero)
  ∧ ∀ s : State, ∃ t, hostAct .reset s = .next t ∧ t.featCache = 0 ∧ t.mem = s.mem ∧ t.cfg = s.cfg ∧ t.faults = s.faults
    ∧ t.contexts.length = s.contexts.length ∧ ∀ c ∈ t.contexts, c.AtReset t.cfg.ty.zero

/-- The invariant holds at reset, whose build is the model's choice (log 4), and at the start of every launch of a valid
configuration (R387), which has `NCTX` contexts with the register values of R53 and no fault recorded. -/
def Obligations.InvariantHoldsAtReset : Prop :=
  State.reset.Inv ∧ ∀ l : Launch, l.cfg.valid = true →
    l.start.Inv ∧ l.start.faults = [] ∧ l.start.contexts.length = l.cfg.nctx
      ∧ ∀ c ∈ l.start.contexts, c.AtReset l.cfg.ty.zero

/-- Every step keeps the invariant: the memory's canonical form (R80), values of `T` only (R80, R141), `NCTX` contexts
(R30), each between commands (R50, R52) with one of the three codes in `STATUS` (R39), and a coherent `FEAT_CACHE`
(R44). -/
def Obligations.StepKeepsTheInvariant : Prop := ∀ s t : State, s.Inv → step s = .next t → t.Inv

/-! ### The step (00_scope.md R6, 70_reset_and_hazards.md R387) -/

/-- Where the context that moves next has a command write as its host's next step and the word decodes, the step is the
decoded command on that context, with the host's step taken off and `CMD` written; its outcome is recorded for the rule on
concurrent contexts, and as a halt of the context where the command did not complete (`recordCommand`; R344, R345, R387).
The schedule and the halt are the model's choices (log 17, log 15). -/
def Obligations.StepRunsTheDecodedCommand : Prop :=
  ∀ (s u : State) (w : Word32) (k : HostProg) (i : Instr), s.cfg.valid = true →
    (∃ c, (∃ rest, s.sched = c :: rest ∧ s.ready c = true ∧ u = State.focus { s with sched := rest } c)
      ∨ (s.sched = [] ∧ s.firstReady 0 s.contexts.length = some c ∧ u = s.focus c)) →
    u.me.thread.prog = .act (.cmd w) k → decode w = .ok i →
    step s = recordCommand i ((u.setProg k).setCmd w) (exec i ((u.setProg k).setCmd w))

/-- A word placed as the next host step of the current context is what the next step issues. -/
def Obligations.StepIssuesThePlacedWord : Prop :=
  ∀ (s : State) (nbits w : Nat), s.cfg.valid = true →
    step (s.withFetchWord nbits w) = issue (BitVec.ofNat 32 (w % 2 ^ nbits)) { s with me := { s.me with halted := none } }

/-- A configuration is refused exactly on the conditions of R373 (`esOpen` is the model's, log 28); a machine with a valid
one always has a next state in the model; and the default `Q` of an `LBUF` (R9) meets the bounds. That every step of a valid
one has a next state is the model's choice: a fault or a stuck access halts its context and the others go on (log 15), and
where no context can move the step gives the same state (log 17). -/
def Obligations.InvalidConfigurationsAreRefused : Prop :=
  ∀ s : State,
    (s.cfg.valid = false ↔ s.cfg.lbuf < 2 ∨ 30 < s.cfg.lbuf ∨ s.cfg.q < 1 ∨ s.cfg.lbuf < 2 * s.cfg.q ∨ s.cfg.nctx < 1
      ∨ ((s.cfg.ty = .fext ∨ s.cfg.ty = .mp ∨ s.cfg.ty = .fix) ∧ (s.cfg.openRecord = false ∨ s.cfg.esOpen = 0)))
    ∧ (s.cfg.valid = false → step s = .refused .invalidConfiguration)
    ∧ (s.cfg.valid = true → ∃ t, step s = .next t)
    ∧ (2 ≤ s.cfg.lbuf → 1 ≤ defaultQ s.cfg.lbuf ∧ 2 * defaultQ s.cfg.lbuf ≤ s.cfg.lbuf)

/-! ### The host's side (10_state.md R33, R43) -/

/-- The context register map (R33): a host write of a read/write register is read back, at its register's width, leaves
every other register's value, and a write to a read-only or unknown number is ignored; an unknown number reads 0. A host
read records the register's value on the host's side and changes nothing else; only an argument register can be UNWRITTEN,
and a read of one that is has no step: its context cannot move. -/
def Obligations.HostRegisterMapIsKept : Prop :=
  ∀ (s : State) (reg v : Nat),
    (reg ≠ 0 → hostAct (.mov reg v) s = .next { s with me := writeReg s.cfg.ty s.me reg v })
    ∧ (reg = 0 → hostAct (.mov reg v) s = issue (BitVec.ofNat 32 v) s)
    ∧ (4 ≤ reg → reg ≤ 0x0F → reg ≠ 5 → readReg s.cfg (writeReg s.cfg.ty s.me reg v) reg = some (v % 2 ^ 64))
    ∧ readReg s.cfg (writeReg s.cfg.ty s.me 5 v) 5 = some (s.cfg.ty.ofHost v).code
    ∧ (∀ reg', reg' ≠ reg → readReg s.cfg (writeReg s.cfg.ty s.me reg v) reg' = readReg s.cfg s.me reg')
    ∧ ((reg < 4 ∨ 0x0F < reg) → writeReg s.cfg.ty s.me reg v = s.me)
    ∧ (0x11 < reg → readReg s.cfg s.me reg = some 0)
    ∧ readReg s.cfg s.me 0 = some s.me.cmd.toNat ∧ readReg s.cfg s.me 1 = some s.me.status.toNat
    ∧ readReg s.cfg s.me 2 = some s.me.result.toNat ∧ readReg s.cfg s.me 3 = some s.cfg.cfgWord.toNat
    ∧ readReg s.cfg s.me 0x10 = some s.me.resRe.code ∧ readReg s.cfg s.me 0x11 = some s.me.resIm.code
    ∧ (∀ x, readReg s.cfg s.me reg = some x → hostAct (.rd reg) s = .next { s with
        me := { s.me with thread := { s.me.thread with seen := (reg, x) :: s.me.thread.seen } } })
    ∧ (readReg s.cfg s.me reg = none → 4 ≤ reg ∧ reg ≤ 0x0F
        ∧ ∀ k, s.me.thread.prog = .act (.rd reg) k → s.ready s.number = false)

/-- `CFG` reports the build parameters in the fields of R43, and its bits 31:22 are zero; it is what a host reads at
register 0x03, a host write of it is ignored, and no step changes it. -/
def Obligations.CfgReportsTheBuild : Prop :=
  (∀ s : State, readReg s.cfg s.me 3 = some s.cfg.cfgWord.toNat ∧ (∀ v, hostAct (.mov 3 v) s = .next s)
    ∧ ∀ t, step s = .next t → t.cfg = s.cfg)
  ∧ ∀ c : Config, c.valid = true →
    (c.cfgWord.extractLsb' 0 5).toNat = c.lbuf ∧ (c.cfgWord.extractLsb' 5 5).toNat = c.q
    ∧ c.cfgWord.getLsbD 10 = c.potSimdEn ∧ c.cfgWord.getLsbD 11 = c.avxEn ∧ c.cfgWord.getLsbD 12 = c.avx512En
    ∧ c.cfgWord.getLsbD 13 = c.bluesteinEn ∧ c.cfgWord.getLsbD 14 = c.brevTableEn
    ∧ c.cfgWord.getLsbD 15 = c.featCacheEn
    ∧ (c.cfgWord.extractLsb' 16 3).toNat = (match c.ty with | .f32 => 0 | .f64 => 1 | .fext => 2 | .mp => 3 | .fix => 4)
    ∧ (c.cfgWord.extractLsb' 19 2).toNat = (match c.arch with | .noSimd => 0 | .x86 => 1 | .neon => 2)
    ∧ c.cfgWord.getLsbD 21 = c.probeHook.isSome ∧ c.cfgWord.toNat < 2 ^ 22

/-- An element the host places is what the machine holds at that address from then on; every other address keeps what it
held (R82, R380). That a number stands for the element of its low 32 or 64 bits (`Ty.ofHost`), and that placing is never a
race, are the model's choices (log 25, log 33). -/
def Obligations.PlacedElementIsHeld : Prop :=
  ∀ (s : State) (a v : Nat), 0 < a → a < 2 ^ 64 →
    ∃ t, hostAct (.place a v) s = .next t ∧ t = { s with mem := t.mem }
      ∧ t.mem.atAddr a = some (s.cfg.ty.ofHost v) ∧ ∀ b : Int, b ≠ a → t.mem.atAddr b = s.mem.atAddr b

/-- What one context's host does changes no register of another context, reset apart (R30, R357), and keeps none from
moving, whatever its command came to (R348): a context that can move still can, but for a host that would reset FBD. That
a faulting command stops its own context is the model's choice (log 15). -/
def Obligations.OtherContextsAreUntouched : Prop :=
  ∀ (a : HostAct) (s t : State), a ≠ .reset → hostAct a s = .next t →
    t.before = s.before ∧ t.after = s.after
    ∧ ∀ d, d ≠ s.number → s.ready d = true →
      (∀ x k, s.contexts[d]? = some x → x.thread.prog ≠ .act .reset k) → t.ready d = true

/-- `FEAT_CACHE` is written only by a probe, only with caching enabled, only while it is 0, and then with the mask the
probe computes: no host act but a reset changes it otherwise, and its bits 31:6 stay zero (R44). -/
def Obligations.FeatCacheIsWrittenOnce : Prop :=
  ∀ (a : HostAct) (s t : State), a ≠ .reset → hostAct a s = .next t →
    (t.featCache = s.featCache ∨ (s.cfg.featCacheEn = true ∧ s.featCache = 0
      ∧ t.featCache = (freshMask s.cfg).setWidth 32))
    ∧ (s.featCache.toNat < 64 → t.featCache.toNat < 64)

/-- Two commands of different contexts that the host has not ordered race exactly when one writes an address in a
footprint of the other: then `UB(CrossContextOverlap)` is recorded, and the command has no completion (R95, R379). A
command that ended with -1 or -2, or that makes no access (`idleOn`), writes no address. And the host's order (R387): a
token carries what its poster knew to have happened and all its own commands so far; whoever awaits it learns that, and
keeps what it knew; a token that is not posted cannot be awaited. When a command counts, and tokens, are the model's
(log 18); so is that a race halts the context of the later command and writes none of its registers but `CMD`, where R344
says only that no defined `STATUS` is written (log 15), and that a command which would end with -1 or -2 races like any
other, where R347 does not say which comes first (log 36). -/
def Obligations.UnorderedOverlapIsARace : Prop :=
  (∀ (i : Instr) (s t : State), exec i s = .next t → ∃ u, recordCommand i s (.next t) = .next u ∧
    let raced := ∃ r ∈ s.log, r.ctx ≠ s.number ∧ s.me.thread.clock.getD r.ctx 0 < r.seq
      ∧ ∃ a, (t.me.status = 0 ∧ idleOn i s = false ∧ InSome (footprint i s.me).writes a ∧ InSome r.fp.views a)
        ∨ (InSome r.fp.writes a ∧ InSome (footprint i s.me).views a)
    (raced → u.faults = { ctx := s.number, fault := .crossContextOverlap } :: s.faults
      ∧ u.me.halted = some .crossContextOverlap ∧ u.me.status = s.me.status)
    ∧ (¬ raced → u = t.enter (countedFootprint i s (.next t))))
  ∧ (∀ (k : Nat) (s t : State), hostAct (.post k) s = .next t → ∃ c, tokenClock t.tokens k = some c ∧
      ∀ d, c.getD d 0 = if d = s.number then max (s.me.thread.clock.getD d 0) s.me.thread.issued
        else s.me.thread.clock.getD d 0)
  ∧ (∀ (k : Nat) (s t : State) (c : List Nat), tokenClock s.tokens k = some c → hostAct (.await k) s = .next t →
      ∀ d, t.me.thread.clock.getD d 0 = max (s.me.thread.clock.getD d 0) (c.getD d 0))
  ∧ ∀ (k : Nat) (s : State) (rest : HostProg), tokenClock s.tokens k = none → s.me.thread.prog = .act (.await k) rest →
      s.ready s.number = false

/-! ### Every command (60_exceptions.md) -/

/-- Every command word issued ends in one of the outcomes of R340: `STATUS` 0; `STATUS` -1 or -2 and nothing else
changed but `CMD`; a model fault of R344, which is recorded and which no step takes out of the record; or stuck (R345). In
the last two no register of the context is written but `CMD`, the context cannot move, and the run has no end state. That a
command that faults stops its context is the model's choice (log 15). -/
def Obligations.CommandEndsInOneOfFiveOutcomes : Prop :=
  (∀ (w : Word32) (s : State), ∃ t, issue w s = .next t ∧ t.before = s.before ∧ t.after = s.after ∧ t.cfg = s.cfg
    ∧ (∀ r, t.me.argument r = s.me.argument r)
    ∧ ((t.me.status = 0 ∧ t.me.halted = s.me.halted ∧ t.faults = s.faults)
      ∨ ((t.me.status = 0xFFFFFFFF ∨ t.me.status = 0xFFFFFFFE) ∧ t.me.result = s.me.result ∧ t.me.resRe = s.me.resRe
        ∧ t.me.resIm = s.me.resIm ∧ t.mem = s.mem ∧ t.featCache = s.featCache ∧ t.me.halted = s.me.halted
        ∧ t.faults = s.faults)
      ∨ (t.me.status = s.me.status ∧ t.me.result = s.me.result ∧ t.me.resRe = s.me.resRe ∧ t.me.resIm = s.me.resIm
        ∧ t.ready t.number = false ∧ t.endState = none
        ∧ ((∃ f, f ≠ .stuck ∧ t.me.halted = some f ∧ { ctx := s.number, fault := f } ∈ t.faults)
          ∨ (t.me.halted = some .stuck ∧ t.faults = s.faults)))))
  ∧ ∀ s t : State, step s = .next t → s.faults <:+ t.faults

/-- A command that ends with -1 or -2 leaves every register but `STATUS`, every element of memory and `FEAT_CACHE` as
they were (R343). -/
def Obligations.FailedCommandChangesStatusAlone : Prop :=
  ∀ (i : Instr) (s t : State), exec i s = .next t → t.me.status ≠ 0 →
    s.me.sameArgs t.me ∧ t.me.result = s.me.result ∧ t.me.resRe = s.me.resRe ∧ t.me.resIm = s.me.resIm
    ∧ s.sameOthers t ∧ t.mem = s.mem ∧ t.featCache = s.featCache

/-- The frame of every command: argument registers, `CMD`, the other contexts and the launch's schedule are unchanged
(R31, R42); `RESULT` only by `PRB`, `SEL`, `OMP` (R40); `RES_*` only by `CXM`, `CXF` (R41); no element outside the
destination views changes (R86), no address is admitted or given up (R82); `FEAT_CACHE` changes by a probe only (R44). For a
Bluestein request the two claims about memory rest on the model's choice that freed scratch is admitted no more (log 14). -/
def Obligations.CommandKeepsItsFrame : Prop :=
  ∀ (i : Instr) (s t : State), exec i s = .next t →
    s.me.sameArgs t.me ∧ s.sameOthers t
    ∧ (writesResult i = false → t.me.result = s.me.result)
    ∧ (writesRes i = false → t.me.resRe = s.me.resRe ∧ t.me.resIm = s.me.resIm)
    ∧ SameOutside (footprint i s.me).writes s.mem t.mem ∧ SameAdmitted s.mem t.mem
    ∧ cacheStep s.cfg s.featCache t.featCache

/-- A command faults with `UnwrittenRegister` exactly when an argument register that R115 lists for it is UNWRITTEN (R31). -/
def Obligations.UnwrittenRegisterFaults : Prop :=
  ∀ (i : Instr) (s : State),
    exec i s = .fault .unwrittenRegister ↔ ∃ r ∈ argsRead i, s.me.argument r = none

/-- A command reads no argument register that R115 does not list for it: two contexts between commands that agree on the
listed ones get the same outcome, the same memory and the same completion. -/
def Obligations.UnlistedRegistersDoNotMatter : Prop :=
  ∀ (i : Instr) (s : State) (d : Context),
    d.fsm = s.me.fsm → d.bsBase = s.me.bsBase → d.trans = s.me.trans →
    (∀ r ∈ argsRead i, d.argument r = s.me.argument r) →
    (∀ f, exec i s = .fault f → exec i { s with me := d } = .fault f)
    ∧ ∀ t, exec i s = .next t → ∃ u, exec i { s with me := d } = .next u
      ∧ u.mem = t.mem ∧ u.featCache = t.featCache ∧ u.me.status = t.me.status
      ∧ (writesResult i = true → t.me.status = 0 → u.me.result = t.me.result)
      ∧ (writesRes i = true → t.me.status = 0 → u.me.resRe = t.me.resRe ∧ u.me.resIm = t.me.resIm)

/-- A count of 0 completes with success and does no work: no memory access, no probe, no allocation (R300, R201, R202,
R177, R244). The commands are those that read `ARG_N`: `XFS`, `XFI`, `XFT`, `BLU`, `DIL`, `ILV`, `SCL`, `TWF`. -/
def Obligations.ZeroCountDoesNoWork : Prop :=
  ∀ (i : Instr) (s : State), .n ∈ argsRead i → argsWritten i s.me → s.me.argN = some 0 → exec i s = .next s.noWork

/-- An access at an address the launch memory does not admit is stuck (R82, R345): a command whose checks pass, with an
address of a destination, or of a source that is not null, that is not admitted. `BRV`; `DIL` and `ILV`; the commands on a
destination pair where they make an access (`PASS`, `R8`, `TWG`, `TWF`; `MPS` of a depth, `BFY` of a size and `OMP` of a
count that are not 0; `SCL` by a scale that is not `ONE`); and the four transforms, which for a Bluestein request need a
draw that is not null. That a bit reversal in place makes an access at its fixed points too is the model's (log 35). -/
def Obligations.UnadmittedAccessIsStuck : Prop :=
  (∀ (l : Nat) (s : State) (sb ss db ds : Word64), s.me.argSrcRe = some sb → s.me.argSsRe = some ss →
      s.me.argDstRe = some db → s.me.argDsRe = some ds → l ≤ 31 → db ≠ 0 → ds ≠ 0 →
      (sb = 0 ∨ viewOf sb ss (2 ^ l) = viewOf db ds (2 ^ l) ∨ (viewOf sb ss (2 ^ l)).Apart (viewOf db ds (2 ^ l))) →
      (sb = 0 ∨ sb ≠ db ∨ ss = ds) →
      (∃ i < 2 ^ l, s.mem.atAddr ((viewOf db ds (2 ^ l)).addr i) = none
        ∨ sb ≠ 0 ∧ s.mem.atAddr ((viewOf sb ss (2 ^ l)).addr i) = none) →
      exec (.brv l) s = .fault .stuck)
  ∧ (∀ (s : State) (n b : Word64), s.me.argN = some n → s.me.argDstRe = some b → b ≠ 0 → isPow2 n.toNat = true →
      n.toNat ≤ 2 ^ 30 → (∃ i < 2 * n.toNat, s.mem.atAddr (addrOf b + i) = none) →
      exec .dil s = .fault .stuck ∧ exec .ilv s = .fault .stuck)
  ∧ (∀ (i : Instr) (s : State) (n : Nat) (bad : Prop) (dre dim sre sim : Word64),
      pairWork i s.cfg.lbuf s.me = some (n, bad) → argsWritten i s.me → s.me.hasPair dre dim sre sim → ¬ bad →
      ¬ DstRejected (viewOf dre sre n) (viewOf dim sim n) → (viewOf dre sre n).Apart (viewOf dim sim n) →
      idleOn i s = false →
      (∃ k < n, s.mem.atAddr ((viewOf dre sre n).addr k) = none ∨ s.mem.atAddr ((viewOf dim sim n).addr k) = none) →
      exec i s = .fault .stuck)
  ∧ (∀ (i : Instr) (s : State) (r : Request), requestOf i s.me = some r → ¬ RequestRejected s.cfg r →
      ¬ RequestOverlaps r → (takesBluestein r.n r.forceBS = true → ∃ b rest, s.allocs = some b :: rest) →
      (∃ v ∈ r.views.list, v.base ≠ 0 ∧ ∃ k < r.n, s.mem.atAddr (v.addr k) = none) →
      exec i s = .fault .stuck)

/-- `PASS`, `R8`, `MPS`, `BFY`, `SCL`, `TWG`, `TWF` and `OMP`: an operand out of range or a failing `CheckDst` gives -1
(R302 items 1–3), and past these checks destinations that share an address give `UB(Overlap)` (R303). -/
def Obligations.PairCommandsCheckDestinations : Prop :=
  ∀ (i : Instr) (s : State) (n : Nat) (bad : Prop) (dre dim sre sim : Word64),
    pairWork i s.cfg.lbuf s.me = some (n, bad) → n ≠ 0 → argsWritten i s.me → s.me.hasPair dre dim sre sim →
    (bad ∨ DstRejected (viewOf dre sre n) (viewOf dim sim n) → exec i s = .next s.turnAway)
    ∧ (¬ bad → ¬ DstRejected (viewOf dre sre n) (viewOf dim sim n) → (viewOf dre sre n).Share (viewOf dim sim n) →
      exec i s = .fault .overlap)

/-! ### Scalar arithmetic and primitives (40_scalar.md) -/

/-- `CXM` leaves `cexpm1(k)` in `RES_RE`, `RES_IM` and 0 in `STATUS`, and changes nothing else a host sees (R154). -/
def Obligations.CxmLeavesThePrimitive : Prop :=
  ∀ (k : Nat) (s : State), exec (.cxm k) s = .next { s with
    me := { s.me with status := 0, resRe := (cexpm1 s.cfg k).re, resIm := (cexpm1 s.cfg k).im, fsm := .idle, bsBase := 0,
                      trans := Transient.dropped } }

/-- With the default primitive installed, `CXM` with `k` from 0 to 16 leaves the entry of the table of R150, for `f64`
and `f32`: entries 0, 1, 2 are `0`, `−2`, `−1 + i`, the others the listed values, here as encodings. -/
def Obligations.CxmReadsTheTable : Prop :=
  ∀ (k : Nat) (s : State), s.cfg.cexpm1 ≠ .custom →
    (s.cfg.ty = .f64 → ∀ e : Nat × Nat,
      ([(0, 0), (0xC000000000000000, 0), (0xBFF0000000000000, 0x3FF0000000000000),
        (0xBFD2BEC333018867, 0x3FE6A09E667F3BCD), (0xBFB37CA1866B95CF, 0x3FD87DE2A6AEA963),
        (0xBF93AD06011469FB, 0x3FC8F8B83C69A60B), (0xBF73B92E176D6D31, 0x3FB917A6BC29B42C),
        (0xBF53BC390D250439, 0x3FA91F65F10DD814), (0xBF33BCFBD9979A27, 0x3F992155F7A3667E)] ++
       [(0xBF13BD2C8DA49511, 0x3F8921D1FCDEC784), (0xBEF3BD38BAB6D94C, 0x3F7921F0FE670071),
        (0xBED3BD3BC5FC5AB4, 0x3F6921F8BECCA4BA), (0xBEB3BD3C88CDCA13, 0x3F5921FAAEE6472E),
        (0xBE93BD3CB98226DC, 0x3F4921FB2AECB360), (0xBE73BD3CC5AF3E1D, 0x3F3921FB49EE4EA6),
        (0xBE53BD3CC8BA83EE, 0x3F2921FB51AEB57C), (0xBE33BD3CC97D5562, 0x3F1921FB539ECF31)])[k]? = some e →
      ∃ t, exec (.cxm k) s = .next t ∧ t.me.status = 0 ∧ t.me.resRe = ⟨e.1⟩ ∧ t.me.resIm = ⟨e.2⟩)
    ∧ (s.cfg.ty = .f32 → ∀ e : Nat × Nat,
      ([(0, 0), (0xC0000000, 0), (0xBF800000, 0x3F800000), (0xBE95F61A, 0x3F3504F3), (0xBD9BE50C, 0x3EC3EF15),
        (0xBC9D6830, 0x3E47C5C2), (0xBB9DC971, 0x3DC8BD36), (0xBA9DE1C8, 0x3D48FB30), (0xB99DE7DF, 0x3CC90AB0)] ++
       [(0xB89DE964, 0x3C490E90), (0xB79DE9C6, 0x3BC90F88), (0xB69DE9DE, 0x3B490FC6), (0xB59DE9E4, 0x3AC90FD5),
        (0xB49DE9E6, 0x3A490FD9), (0xB39DE9E6, 0x39C90FDA), (0xB29DE9E6, 0x39490FDB), (0xB19DE9E6, 0x38C90FDB)])[k]?
        = some e →
      ∃ t, exec (.cxm k) s = .next t ∧ t.me.status = 0 ∧ t.me.resRe = ⟨e.1⟩ ∧ t.me.resIm = ⟨e.2⟩)

/-- `CXF` leaves `cexpm1_frac(p, q)` in `RES_RE`, `RES_IM` and changes nothing else a host sees but `STATUS`; `q = 0`
gives -1 with `RES_*` unchanged (R155). -/
def Obligations.CxfLeavesTheFraction : Prop :=
  ∀ (s : State) (p q : Word64), s.me.argP = some p → s.me.argQ = some q →
    (q ≠ 0 → exec .cxf s = .next { s with
      me := { s.me with status := 0, resRe := (cexpm1Frac s.cfg p.toNat q.toNat).re,
                        resIm := (cexpm1Frac s.cfg p.toNat q.toNat).im, fsm := .idle, bsBase := 0,
                        trans := Transient.dropped } })
    ∧ (q = 0 → exec .cxf s = .next { s with
      me := { s.me with status := 0xFFFFFFFF, fsm := .idle, bsBase := 0, trans := Transient.dropped } })

/-- With a default primitive installed, `CXF` is exact at multiples of a quarter turn (R152): `p/q = j/4` leaves `0`,
`−1 + i`, `−2`, `−1 − i` for `j mod 4 = 0, 1, 2, 3`. -/
def Obligations.QuarterTurnsAreExact : Prop :=
  ∀ (s : State) (p q : Word64) (j : Nat), s.cfg.cexpm1Frac ≠ .custom → s.me.argP = some p → s.me.argQ = some q → q ≠ 0 →
    4 * p.toNat = j * q.toNat →
    ∃ t, exec .cxf s = .next t ∧
      (j % 4 = 0 → t.me.resRe = s.cfg.ty.zero ∧ t.me.resIm = s.cfg.ty.zero)
      ∧ (j % 4 = 1 → t.me.resRe = s.cfg.ty.neg s.cfg.ty.one ∧ t.me.resIm = s.cfg.ty.one)
      ∧ (j % 4 = 2 → t.me.resRe = s.cfg.ty.sub (s.cfg.ty.neg s.cfg.ty.one) s.cfg.ty.one ∧ t.me.resIm = s.cfg.ty.zero)
      ∧ (j % 4 = 3 → t.me.resRe = s.cfg.ty.neg s.cfg.ty.one ∧ t.me.resIm = s.cfg.ty.neg s.cfg.ty.one)

/-! ### Twiddle factors (41_twiddle.md) -/

/-- The doubling recurrence of `TwiddleGen` (R171): entry 0 of the `−1` form is zero, step `i` fills `[2^i, 2^(i+1))`
from the entries below with the operand order of the rule, and a final pass adds `ONE` to the real part only. -/
def Obligations.TwiddleGenDoubles : Prop :=
  ∀ (c : Config) (bigN l : Nat) (σ : Dir), l ≤ bigN →
    let r := fun k => (twiddleRaw c bigN σ l).getD k default
    (twiddleGen c bigN l σ).length = 2 ^ l ∧ r 0 = ⟨c.ty.zero, c.ty.zero⟩
    ∧ (∀ i j, i < l → j < 2 ^ i →
        let w := dirz c.ty (cexpm1 c (bigN - i)) σ
        (r (2 ^ i + j)).re = c.ty.add (c.ty.sub (c.ty.mul w.re (r j).re) (c.ty.mul w.im (r j).im)) (c.ty.add w.re (r j).re)
        ∧ (r (2 ^ i + j)).im
          = c.ty.add (c.ty.add (c.ty.mul w.im (r j).re) (c.ty.mul w.re (r j).im)) (c.ty.add w.im (r j).im))
    ∧ ∀ k, k < 2 ^ l → (twiddleGen c bigN l σ).getD k default = ⟨c.ty.add (r k).re c.ty.one, (r k).im⟩

/-- `FracTwiddles` (R175): the doubling recurrence up to `n div 2`, then the second quadrant by `neg` of the real part
of its mirror, then the second half by `neg` of both parts. -/
def Obligations.FracTwiddlesFillQuadrants : Prop :=
  ∀ (c : Config) (n : Nat) (σ : Dir), 1 ≤ n →
    let r := fun k => (fracRaw c n σ (doublings (n / 2))).getD k default
    let t := fun k => (fracTwiddles c n σ).getD k default
    (fracTwiddles c n σ).length = 2 * n ∧ r 0 = ⟨c.ty.zero, c.ty.zero⟩
    ∧ (∀ k j, 2 ^ k ≤ n / 2 → j < 2 ^ k → 2 ^ k + j ≤ n / 2 →
        let e := dirz c.ty (cexpm1Frac c (2 ^ k) (2 * n)) σ
        (r (2 ^ k + j)).re = c.ty.add (c.ty.sub (c.ty.mul e.re (r j).re) (c.ty.mul e.im (r j).im)) (c.ty.add e.re (r j).re)
        ∧ (r (2 ^ k + j)).im
          = c.ty.add (c.ty.add (c.ty.mul e.im (r j).re) (c.ty.mul e.re (r j).im)) (c.ty.add e.im (r j).im))
    ∧ (∀ j, j ≤ n / 2 → t j = ⟨c.ty.add (r j).re c.ty.one, (r j).im⟩)
    ∧ (∀ j, n / 2 < j → j < n → t j = ⟨c.ty.neg (t (n - j)).re, (t (n - j)).im⟩)
    ∧ ∀ j, n ≤ j → j < 2 * n → t j = ⟨c.ty.neg (t (j - n)).re, c.ty.neg (t (j - n)).im⟩

/-- `TWG` stores `TwiddleGen(N, L, σ)` at its destination pair and writes nothing else (R176). -/
def Obligations.TwgStoresTheTwiddles : Prop :=
  ∀ (dir : Dir) (bigN l : Nat) (s : State) (dre dim sre sim : Word64), s.me.hasPair dre dim sre sim → l ≤ bigN →
    l ≤ s.cfg.lbuf → PairReady s.mem (viewOf dre sre (2 ^ l)) (viewOf dim sim (2 ^ l)) →
    ∃ t, exec (.twg dir bigN l) s = .next t
      ∧ State.Wrote s t [viewOf dre sre (2 ^ l), viewOf dim sim (2 ^ l)] ∧ s.sameDraws t
      ∧ Holds t.mem (viewOf dre sre (2 ^ l)) (viewOf dim sim (2 ^ l)) (2 ^ l)
        (fun k => (twiddleGen s.cfg bigN l dir).getD k default)

/-- `TWF` stores `FracTwiddles(n, σ)` at its destination pair and writes nothing else (R177). -/
def Obligations.TwfStoresTheTwiddles : Prop :=
  ∀ (dir : Dir) (s : State) (n dre dim sre sim : Word64), s.me.argN = some n → s.me.hasPair dre dim sre sim →
    n ≠ 0 → n.toNat ≤ 2 ^ 30 → PairReady s.mem (viewOf dre sre (2 * n.toNat)) (viewOf dim sim (2 * n.toNat)) →
    ∃ t, exec (.twf dir) s = .next t
      ∧ State.Wrote s t [viewOf dre sre (2 * n.toNat), viewOf dim sim (2 * n.toNat)] ∧ s.sameDraws t
      ∧ Holds t.mem (viewOf dre sre (2 * n.toNat)) (viewOf dim sim (2 * n.toNat)) (2 * n.toNat)
        (fun k => (fracTwiddles s.cfg n.toNat dir).getD k default)

/-! ### Bit reversal (42_bitreverse.md) -/

/-- `rev(i, L)` is the number whose bit `L-1-b` is bit `b` of `i`, for every `b < L`; `rev(i, 0) = 0` (R21). -/
def Obligations.RevReversesTheBits : Prop :=
  ∀ i l : Nat, i < 2 ^ l →
    rev i l < 2 ^ l ∧ (∀ b, b < l → (rev i l).testBit (l - 1 - b) = i.testBit b) ∧ rev i 0 = 0

/-- `BRV` (R200, R190): position `rev(i, L)` of the destination takes what position `i` of the source held, in place and
out of place, a null source giving `ZERO` and a stride-0 source its one element; nothing else is written. -/
def Obligations.BrvPermutesByReversal : Prop :=
  ∀ (l : Nat) (s : State) (sb ss db ds : Word64), s.me.argSrcRe = some sb → s.me.argSsRe = some ss →
    s.me.argDstRe = some db → s.me.argDsRe = some ds → l ≤ 31 → db ≠ 0 → ds ≠ 0 → (sb = 0 ∨ sb ≠ db ∨ ss = ds) →
    (sb = 0 ∨ viewOf sb ss (2 ^ l) = viewOf db ds (2 ^ l) ∨ (viewOf sb ss (2 ^ l)).Apart (viewOf db ds (2 ^ l))) →
    (viewOf sb ss (2 ^ l)).Readable s.mem → (viewOf db ds (2 ^ l)).Admitted s.mem →
    ∃ t, exec (.brv l) s = .next t ∧ State.Wrote s t [viewOf db ds (2 ^ l)] ∧ s.sameDraws t
      ∧ ∀ i, i < 2 ^ l → t.mem.atAddr ((viewOf db ds (2 ^ l)).addr (rev i l))
        = if sb = 0 then some s.cfg.ty.zero else s.mem.atAddr ((viewOf sb ss (2 ^ l)).addr i)

/-- `BRV` gives -1 for `L` above 31, a null or stride-0 destination, or a shared base with unequal strides, and past
these `UB(Overlap)` for a source and a destination that share an address and are not identical (R200); `DIL` and `ILV`
give -1 for a count that is no power of two or above `2^30`, or a null base (R201, R202). -/
def Obligations.PermutationsCheckTheirViews : Prop :=
  (∀ (l : Nat) (s : State) (sb ss db ds : Word64), s.me.argSrcRe = some sb → s.me.argSsRe = some ss →
    s.me.argDstRe = some db → s.me.argDsRe = some ds →
    (31 < l ∨ db = 0 ∨ ds = 0 ∨ (sb ≠ 0 ∧ sb = db ∧ ss ≠ ds) → exec (.brv l) s = .next s.turnAway)
    ∧ (l ≤ 31 → db ≠ 0 → ds ≠ 0 → sb ≠ db → (viewOf sb ss (2 ^ l)).Share (viewOf db ds (2 ^ l)) →
      exec (.brv l) s = .fault .overlap))
  ∧ ∀ (s : State) (n b : Word64), s.me.argN = some n → s.me.argDstRe = some b → n ≠ 0 →
    (isPow2 n.toNat = false ∨ 2 ^ 30 < n.toNat ∨ b = 0) →
    exec .dil s = .next s.turnAway ∧ exec .ilv s = .next s.turnAway

/-- `DIL` (R201): for `k < n`, element `base + k` takes what `base + 2k` held and `base + n + k` what `base + 2k + 1`
held; nothing else is written. -/
def Obligations.DilDeinterleaves : Prop :=
  ∀ (s : State) (n b : Word64), s.me.argN = some n → s.me.argDstRe = some b → isPow2 n.toNat = true → n.toNat ≤ 2 ^ 30 →
    b ≠ 0 → (unitView (addrOf b) (2 * n.toNat)).Admitted s.mem →
    ∃ t, exec .dil s = .next t ∧ State.Wrote s t [unitView (addrOf b) (2 * n.toNat)] ∧ s.sameDraws t
      ∧ ∀ k : Nat, k < n.toNat → t.mem.atAddr (addrOf b + k) = s.mem.atAddr (addrOf b + 2 * k)
        ∧ t.mem.atAddr (addrOf b + n.toNat + k) = s.mem.atAddr (addrOf b + 2 * k + 1)

/-- `ILV` (R202): for `k < n`, element `base + 2k` takes what `base + k` held and `base + 2k + 1` what `base + n + k`
held; nothing else is written. -/
def Obligations.IlvReinterleaves : Prop :=
  ∀ (s : State) (n b : Word64), s.me.argN = some n → s.me.argDstRe = some b → isPow2 n.toNat = true → n.toNat ≤ 2 ^ 30 →
    b ≠ 0 → (unitView (addrOf b) (2 * n.toNat)).Admitted s.mem →
    ∃ t, exec .ilv s = .next t ∧ State.Wrote s t [unitView (addrOf b) (2 * n.toNat)] ∧ s.sameDraws t
      ∧ ∀ k : Nat, k < n.toNat → t.mem.atAddr (addrOf b + 2 * k) = s.mem.atAddr (addrOf b + k)
        ∧ t.mem.atAddr (addrOf b + 2 * k + 1) = s.mem.atAddr (addrOf b + n.toNat + k)

/-- `ILV` after `DIL` on the same region restores every element (R202). -/
def Obligations.IlvUndoesDil : Prop :=
  ∀ s t u : State, s.mem.wf = true → exec .dil s = .next t → exec .ilv t = .next u → u.mem = s.mem

/-- The access regimes R193–R195, up to 16 bits, reach the result of R190 (R198): tiny and medium, in place and out. -/
def Obligations.SmallRegimesReachTheReversal : Prop :=
  ∀ (c : Config) (src dst : View) (l : Nat) (w : Work), l ≤ 16 → src.count = 2 ^ l → dst.count = 2 ^ l → dst.stride ≠ 0 →
    (src = dst ∨ src.isNull = true ∨ src.Apart dst) → src.Readable w.mem → dst.Admitted w.mem → w.mem.wf = true →
    ∃ w1 w2, bitRevByRegime c src dst l w = .ok w1 ∧ bitRev c.ty src dst l w = .ok w2 ∧ w1.mem = w2.mem

/-- The access regimes R195–R197 above 16 bits reach the result of R190 (R198): cache-blocked tiles, the medium
recursion where the tiles do not fit, and the deinterleaving pass out of place. -/
def Obligations.LargeRegimesReachTheReversal : Prop :=
  ∀ (c : Config) (src dst : View) (l : Nat) (w : Work), c.valid = true → 16 < l → src.count = 2 ^ l → dst.count = 2 ^ l →
    dst.stride ≠ 0 → (src = dst ∨ src.isNull = true ∨ src.Apart dst) → src.Readable w.mem → dst.Admitted w.mem →
    w.mem.wf = true →
    ∃ w1 w2, bitRevByRegime c src dst l w = .ok w1 ∧ bitRev c.ty src dst l w = .ok w2 ∧ w1.mem = w2.mem

/-! ### Butterflies (43_butterfly.md) -/

/-- `PASS` applies one butterfly to every pair of level `d` on its destination pair, with the twiddles of R223 or R225,
and writes nothing else (R240, R220, R222). -/
def Obligations.PassAppliesItsButterflies : Prop :=
  ∀ (dir : Dir) (d l : Nat) (s : State) (dre dim sre sim : Word64), s.me.hasPair dre dim sre sim → s.cfg.valid = true →
    1 ≤ d → d ≤ l → l ≤ 31 → PairReady s.mem (viewOf dre sre (2 ^ l)) (viewOf dim sim (2 ^ l)) →
    ∃ t, exec (.pass dir d l) s = .next t
      ∧ State.Wrote s t [viewOf dre sre (2 ^ l), viewOf dim sim (2 ^ l)] ∧ s.sameDraws t
      ∧ ∀ f, Holds s.mem (viewOf dre sre (2 ^ l)) (viewOf dim sim (2 ^ l)) (2 ^ l) f →
        ∀ b k, b < 2 ^ (l - d) → k < 2 ^ (d - 1) →
          let lo := b * 2 ^ d + k
          let hi := lo + 2 ^ (d - 1)
          let x := cmul s.cfg.ty (f hi) (passTwiddle s.cfg d dir k)
          t.mem.atAddr ((viewOf dre sre (2 ^ l)).addr lo) = some (s.cfg.ty.add (f lo).re x.re)
          ∧ t.mem.atAddr ((viewOf dim sim (2 ^ l)).addr lo) = some (s.cfg.ty.add (f lo).im x.im)
          ∧ t.mem.atAddr ((viewOf dre sre (2 ^ l)).addr hi) = some (s.cfg.ty.sub (f lo).re x.re)
          ∧ t.mem.atAddr ((viewOf dim sim (2 ^ l)).addr hi) = some (s.cfg.ty.sub (f lo).im x.im)

/-- `R8` applies the radix-8 kernel to every group of eight positions of its destination pair and writes nothing else
(R241, R228). The kernel is spelled out as R226 and R227 give it: passes 1 and 2 (`u`, `v`), the turned values `t1`, `t2`,
`t3` with `c = C_SQRT1_2`, and the results `y`; these are the values `r8V` names in the statements that follow. -/
def Obligations.R8AppliesTheKernel : Prop :=
  ∀ (dir : Dir) (l : Nat) (s : State) (dre dim sre sim : Word64), s.me.hasPair dre dim sre sim → 3 ≤ l → l ≤ 31 →
    PairReady s.mem (viewOf dre sre (2 ^ l)) (viewOf dim sim (2 ^ l)) →
    ∃ t, exec (.r8 dir l) s = .next t
      ∧ State.Wrote s t [viewOf dre sre (2 ^ l), viewOf dim sim (2 ^ l)] ∧ s.sameDraws t
      ∧ ∀ f, Holds s.mem (viewOf dre sre (2 ^ l)) (viewOf dim sim (2 ^ l)) (2 ^ l) f → ∀ g, g < 2 ^ l / 8 →
        let ty := s.cfg.ty
        let plus := fun z w : Cx => (⟨ty.add z.re w.re, ty.add z.im w.im⟩ : Cx)
        let minus := fun z w : Cx => (⟨ty.sub z.re w.re, ty.sub z.im w.im⟩ : Cx)
        let turn := fun z : Cx => match dir with
          | .forward => (⟨z.im, ty.neg z.re⟩ : Cx)
          | .inverse => (⟨ty.neg z.im, z.re⟩ : Cx)
        let a := fun p => f (8 * g + p)
        let u := fun p => if p % 2 = 0 then plus (a p) (a (p + 1)) else minus (a (p - 1)) (a p)
        let v := fun p => match p % 4 with
          | 0 => plus (u p) (u (p + 2))
          | 1 => plus (u p) (turn (u (p + 2)))
          | 2 => minus (u (p - 2)) (u p)
          | _ => minus (u (p - 2)) (turn (u p))
        let c := ty.sqrtHalf
        let t1 : Cx := match dir with
          | .forward => ⟨ty.mul c (ty.add (v 5).re (v 5).im), ty.mul c (ty.sub (v 5).im (v 5).re)⟩
          | .inverse => ⟨ty.mul c (ty.sub (v 5).re (v 5).im), ty.mul c (ty.add (v 5).im (v 5).re)⟩
        let t2 := turn (v 6)
        let t3 : Cx := match dir with
          | .forward => ⟨ty.mul c (ty.sub (v 7).im (v 7).re), ty.neg (ty.mul c (ty.add (v 7).re (v 7).im))⟩
          | .inverse => ⟨ty.neg (ty.mul c (ty.add (v 7).re (v 7).im)), ty.mul c (ty.sub (v 7).re (v 7).im)⟩
        let y := [plus (v 0) (v 4), plus (v 1) t1, plus (v 2) t2, plus (v 3) t3,
          minus (v 0) (v 4), minus (v 1) t1, minus (v 2) t2, minus (v 3) t3]
        ∀ p z, y[p]? = some z → z = r8V ty dir f (8 * g + p)
          ∧ t.mem.atAddr ((viewOf dre sre (2 ^ l)).addr (8 * g + p)) = some z.re
          ∧ t.mem.atAddr ((viewOf dim sim (2 ^ l)).addr (8 * g + p)) = some z.im

/-- `MPS` runs the `depth` passes that end at level `L`, the radix-8 terminal for the lowest three where `depth = L`, and
writes nothing else (R242, R229). The values are the scalar rule's whichever widths the policy admits (R267). -/
def Obligations.MpsRunsTheMultipass : Prop :=
  ∀ (dir : Dir) (pol : Policy) (l depth : Nat) (s : State) (dre dim sre sim : Word64), s.me.hasPair dre dim sre sim →
    s.cfg.valid = true → depth ≤ l → l ≤ 31 → PairReady s.mem (viewOf dre sre (2 ^ l)) (viewOf dim sim (2 ^ l)) →
    ∃ t, exec (.mps dir pol l depth) s = .next t
      ∧ State.Wrote s t [viewOf dre sre (2 ^ l), viewOf dim sim (2 ^ l)] ∧ t.allocs = s.allocs
      ∧ cacheStep s.cfg s.featCache t.featCache
      ∧ (s.cfg.simdValues = .exact → ∀ f, Holds s.mem (viewOf dre sre (2 ^ l)) (viewOf dim sim (2 ^ l)) (2 ^ l) f →
        Holds t.mem (viewOf dre sre (2 ^ l)) (viewOf dim sim (2 ^ l)) (2 ^ l) (multipassV s.cfg l depth dir f))

/-- `BFY` runs all `L` passes on its destination pair, the radix-8 terminal for the lowest three where `L ≥ 3`, and
writes nothing else (R243, R230). The split of large sizes changes no value. -/
def Obligations.BfyRunsTheSchedule : Prop :=
  ∀ (dir : Dir) (pol : Policy) (l : Nat) (s : State) (dre dim sre sim : Word64), s.me.hasPair dre dim sre sim →
    s.cfg.valid = true → l ≤ 31 → PairReady s.mem (viewOf dre sre (2 ^ l)) (viewOf dim sim (2 ^ l)) →
    ∃ t, exec (.bfy dir pol l) s = .next t
      ∧ State.Wrote s t [viewOf dre sre (2 ^ l), viewOf dim sim (2 ^ l)] ∧ t.allocs = s.allocs
      ∧ cacheStep s.cfg s.featCache t.featCache
      ∧ (s.cfg.simdValues = .exact → ∀ f, Holds s.mem (viewOf dre sre (2 ^ l)) (viewOf dim sim (2 ^ l)) (2 ^ l) f →
        Holds t.mem (viewOf dre sre (2 ^ l)) (viewOf dim sim (2 ^ l)) (2 ^ l) (multipassV s.cfg l l dir f))

/-- `SCL` multiplies both parts of every element by the scale, the element on the left; for `ONE` no element changes
(R244, R232). -/
def Obligations.SclScalesEveryElement : Prop :=
  ∀ (s : State) (n : Word64) (scale : Elem) (dre dim sre sim : Word64), s.me.argN = some n →
    s.me.argScale = some scale → s.me.hasPair dre dim sre sim → n ≠ 0 → n.toNat ≤ 2 ^ 31 →
    PairReady s.mem (viewOf dre sre n.toNat) (viewOf dim sim n.toNat) →
    ∃ t, exec .scl s = .next t ∧ State.Wrote s t [viewOf dre sre n.toNat, viewOf dim sim n.toNat] ∧ s.sameDraws t
      ∧ (s.cfg.ty.isOne scale = true → t.mem = s.mem)
      ∧ (s.cfg.ty.isOne scale = false → ∀ f, Holds s.mem (viewOf dre sre n.toNat) (viewOf dim sim n.toNat) n.toNat f →
        Holds t.mem (viewOf dre sre n.toNat) (viewOf dim sim n.toNat) n.toNat
          (fun i => ⟨s.cfg.ty.mul (f i).re scale, s.cfg.ty.mul (f i).im scale⟩))

/-! ### The SIMD multiplexer (44_simd.md) -/

/-- `PRB` (R276, R264): with caching enabled and a mask stored, `RESULT` is the stored mask and `FEAT_CACHE` stays;
with an empty cache, `RESULT` is the computed mask and `FEAT_CACHE` takes it; with caching disabled, `RESULT` is the
computed mask and `FEAT_CACHE` stays. Nothing else changes but `STATUS`. -/
def Obligations.PrbReportsTheMask : Prop :=
  ∀ s : State, ∃ t, exec .prb s = .next t
    ∧ t = { s with
      featCache := t.featCache
      me := { s.me with status := 0, result := t.me.result, fsm := .idle, bsBase := 0, trans := Transient.dropped } }
    ∧ (s.cfg.featCacheEn = true → s.featCache ≠ 0 →
        t.me.result = (s.featCache.setWidth 6).setWidth 64 ∧ t.featCache = s.featCache)
    ∧ (s.cfg.featCacheEn = true → s.featCache = 0 →
        t.me.result = (freshMask s.cfg).setWidth 64 ∧ t.featCache = (freshMask s.cfg).setWidth 32)
    ∧ (s.cfg.featCacheEn = false → t.me.result = (freshMask s.cfg).setWidth 64 ∧ t.featCache = s.featCache)

/-- The mask a probe computes (R262, R263, R264), width by width: the hook's bit, or the architecture's, gone where the
toggles cap it. `neon` has `4f` and `2d`; x86 has `4f`, `2d` with SSE2, `8f`, `4d` with AVX and its OS state, `16f`, `8d`
with AVX-512F and its OS state besides. -/
def Obligations.ProbedMaskFollowsBuildAndCpu : Prop :=
  ∀ (c : Config) (v : Width),
    (freshMask c).getLsbD (Width.bit v) = (c.potSimdEn && (c.avxEn || v == .f4 || v == .d2)
      && (c.avx512En || !(v == .f16 || v == .d8))
      && (match c.probeHook with | some h => h.getLsbD (Width.bit v) | none => (archMask c).getLsbD (Width.bit v)))
    ∧ (c.arch = .noSimd → (archMask c).getLsbD (Width.bit v) = false)
    ∧ (c.arch = .neon → (archMask c).getLsbD (Width.bit v) = (v == .f4 || v == .d2))
    ∧ (c.arch = .x86 →
        let sse := decide (1 ≤ c.cpu.leaf0.eax.toNat) && c.cpu.leaf1.edx.getLsbD 26
        let avx := decide (1 ≤ c.cpu.leaf0.eax.toNat) && c.cpu.leaf1.ecx.getLsbD 27 && c.cpu.leaf1.ecx.getLsbD 28
          && c.cpu.xcr0.getLsbD 1 && c.cpu.xcr0.getLsbD 2
        let avx512 := avx && decide (7 ≤ c.cpu.leaf0.eax.toNat) && c.cpu.leaf7.ebx.getLsbD 16
          && c.cpu.xcr0.getLsbD 5 && c.cpu.xcr0.getLsbD 6 && c.cpu.xcr0.getLsbD 7
        (archMask c).getLsbD (Width.bit v) = (match v with
          | .f4 => sse | .d2 => sse | .f8 => avx | .d4 => avx | .f16 => avx512 | .d8 => avx512))

/-- `SEL` reports `Sel(L, depth, EffMask(pol))` in `RESULT`, 0 where a destination stride is not 1; -1 for `depth` above
`L` or `L` above 31 (R277, R265). The policy `SCALAR` probes nothing. -/
def Obligations.SelReportsThePassCount : Prop :=
  ∀ (pol : Policy) (l depth : Nat) (s : State) (sre sim : Word64), s.me.argDsRe = some sre → s.me.argDsIm = some sim →
    (l < depth ∨ 31 < l → exec (.sel pol l depth) s = .next s.turnAway)
    ∧ (depth ≤ l → l ≤ 31 → ∃ t, exec (.sel pol l depth) s = .next t
      ∧ t = { s with
        featCache := t.featCache
        me := { s.me with status := 0, result := t.me.result, fsm := .idle, bsBase := 0, trans := Transient.dropped } }
      ∧ (sre ≠ 1 ∨ sim ≠ 1 → t.me.result = 0 ∧ t.featCache = s.featCache)
      ∧ (sre = 1 → sim = 1 →
        t.me.result = BitVec.ofNat 64 (selCount s.cfg.lbuf l depth (match pol with
          | .scalar => 0
          | .auto => (probe s.cfg s.featCache).1 &&& tyMask s.cfg.ty
          | .force v => (probe s.cfg s.featCache).1 &&& tyMask s.cfg.ty &&& (1 <<< Width.bit v)))
        ∧ t.featCache = if pol = .scalar then s.featCache else (probe s.cfg s.featCache).2))

/-- `Sel(L, depth, m)` (R266): 0 for an empty mask; else the three passes of the radix-8 step where `depth = L ≥ 3`, and
from the first level on every level some width of `m` fits, up to the first that none fits. -/
def Obligations.SelCountsTheFittingPasses : Prop :=
  ∀ (lbuf l depth : Nat) (m : Mask), depth ≤ l →
    let k := selCount lbuf l depth m
    let r8 := depth = l ∧ 3 ≤ depth
    let first := if r8 then 4 else l - depth + 1
    let taken := if r8 then k - 3 else k
    let fits := fun d => 2 ≤ d ∧ ∃ v : Width, m.getLsbD (Width.bit v) = true ∧ Width.lanes v ≤ 2 ^ (d - 2)
      ∧ Width.lanes v ≤ 2 ^ min (d - 1) (lbuf - 1)
    (m = 0 → k = 0) ∧ k ≤ depth ∧ (m ≠ 0 → r8 → 3 ≤ k)
    ∧ (∀ j, j < taken → fits (first + j)) ∧ (m ≠ 0 → k < depth → ¬ fits (first + taken))

/-- `OMP` (R278, R271): it takes as many passes as `SEL` reports, none where a stride is not 1, leaves the count in
`RESULT`, and writes only those passes; a count of 0 writes no memory. -/
def Obligations.OmpTakesTheVectorPasses : Prop :=
  ∀ (dir : Dir) (pol : Policy) (l depth : Nat) (s : State) (dre dim sre sim : Word64), s.me.hasPair dre dim sre sim →
    s.cfg.valid = true → depth ≤ l → l ≤ 31 → PairReady s.mem (viewOf dre sre (2 ^ l)) (viewOf dim sim (2 ^ l)) →
    let k := if sre = 1 ∧ sim = 1 then selCount s.cfg.lbuf l depth (effMask s.cfg pol s.work).1 else 0
    ∃ t, exec (.omp dir pol l depth) s = .next t
      ∧ State.Wrote { s with me := { s.me with result := BitVec.ofNat 64 k } } t
        [viewOf dre sre (2 ^ l), viewOf dim sim (2 ^ l)]
      ∧ t.allocs = s.allocs ∧ cacheStep s.cfg s.featCache t.featCache
      ∧ (k = 0 → t.mem = s.mem)
      ∧ (s.cfg.simdValues = .exact → ∀ f, Holds s.mem (viewOf dre sre (2 ^ l)) (viewOf dim sim (2 ^ l)) (2 ^ l) f →
        Holds t.mem (viewOf dre sre (2 ^ l)) (viewOf dim sim (2 ^ l)) (2 ^ l) (ompV s.cfg l depth k dir f))

/-- The vector kernels, lane by lane, write the scalar rules' values (R267): a group of `vw` consecutive pairs of a vector
butterfly (R268, R269) leaves the memory that `vw` scalar butterflies leave; the vector radix-8 terminal leaves the memory
the scalar one leaves, and the vectorized twiddle expansion gives `TwiddleGen`, at every number of lanes (R270). Which lane
takes which group of eight is the model's choice (log 34). -/
def Obligations.VectorGroupIsScalarButterflies : Prop :=
  (∀ (t : Ty) (vr vi : View) (vw lo h : Nat) (tw : List Cx) (w : Work), vr.stride ≠ 0 → vi.stride ≠ 0 → vr.Apart vi →
    vr.Admitted w.mem → vi.Admitted w.mem → w.mem.wf = true → tw.length = vw → vw ≤ h → lo + h + vw ≤ vr.count →
    vi.count = vr.count →
    ∃ w1 w2, vecGroup t vr vi vw lo h tw w = .ok w1
      ∧ forUp vw (fun k => bf t vr vi (lo + k) (lo + k + h) (tw.getD k default)) w = .ok w2 ∧ w1.mem = w2.mem)
  ∧ (∀ (t : Ty) (σ : Dir) (vr vi : View) (vw lt : Nat) (w : Work), vr.stride ≠ 0 → vi.stride ≠ 0 → vr.Apart vi →
    vr.Admitted w.mem → vi.Admitted w.mem → w.mem.wf = true → 1 ≤ vw → 3 ≤ lt → vr.count = 2 ^ lt → vi.count = 2 ^ lt →
    ∃ w1 w2, vecR8Lanes t σ vr vi vw lt w = .ok w1 ∧ r8Kernel t vr vi lt σ w = .ok w2 ∧ w1.mem = w2.mem)
  ∧ ∀ (c : Config) (vw bigN l : Nat) (σ : Dir), 1 ≤ vw →
    vecTwiddleGen c vw bigN l σ = { re := (twiddleGen c bigN l σ).map Cx.re, im := (twiddleGen c bigN l σ).map Cx.im }

/-! ### Transforms (45_transform.md) -/

/-- `XFS` completes a ready request at unit strides (R330, R304): by the power-of-two pipeline, or by Bluestein's where
the count is no power of two and the scratch is granted (R306); it writes its destination only. The draws of the
allocator, and that freed scratch is admitted no more, are the model's choices (log 14). -/
def Obligations.XfsTransformsSplitArrays : Prop :=
  ∀ (dir : Dir) (pol : Policy) (s : State) (n : Word64) (scale : Elem) (sre sim dre dim : Word64),
    s.me.argN = some n → s.me.argScale = some scale → s.me.argSrcRe = some sre → s.me.argSrcIm = some sim →
    s.me.argDstRe = some dre → s.me.argDstIm = some dim → s.cfg.valid = true → n ≠ 0 →
    RequestReady s.cfg s.mem (splitViews sre sim dre dim n.toNat) n.toNat false →
    s.grants (splitViews sre sim dre dim n.toNat) n.toNat false →
    ∃ t, exec (.xfs dir pol) s = .next t
      ∧ s.Transformed t (splitViews sre sim dre dim n.toNat) n.toNat dir scale false

/-- `XFI` completes a ready request on interleaved arrays, `im = re + 1` at stride 2 (R331, R304), whether or not it
deinterleaves (R311). The draws of the allocator, and that freed scratch is admitted no more, are the model's (log 14). -/
def Obligations.XfiTransformsInterleavedArrays : Prop :=
  ∀ (dir : Dir) (pol : Policy) (s : State) (n : Word64) (scale : Elem) (src dst : Word64),
    s.me.argN = some n → s.me.argScale = some scale → s.me.argSrcRe = some src → s.me.argDstRe = some dst →
    s.cfg.valid = true → n ≠ 0 → RequestReady s.cfg s.mem (interleavedViews src dst n.toNat) n.toNat false →
    s.grants (interleavedViews src dst n.toNat) n.toNat false →
    ∃ t, exec (.xfi dir pol) s = .next t ∧ s.Transformed t (interleavedViews src dst n.toNat) n.toNat dir scale false

/-- `XFT` completes a ready request at the register strides (R332, R304): strides may be negative, a source's 0. The draws
of the allocator, and that freed scratch is admitted no more, are the model's choices (log 14). -/
def Obligations.XftTransformsStridedArrays : Prop :=
  ∀ (dir : Dir) (pol : Policy) (s : State) (n : Word64) (scale : Elem) (v : Views), s.me.argN = some n →
    s.me.argScale = some scale → s.me.hasStrided v n.toNat → s.cfg.valid = true → n ≠ 0 →
    RequestReady s.cfg s.mem v n.toNat false → s.grants v n.toNat false →
    ∃ t, exec (.xft dir pol) s = .next t ∧ s.Transformed t v n.toNat dir scale false

/-- `BLU` completes a ready request by the Bluestein pipeline for every count, powers of two among them (R333). The draws
of the allocator, and that freed scratch is admitted no more, are the model's choices (log 14). -/
def Obligations.BluTransformsByBluestein : Prop :=
  ∀ (dir : Dir) (pol : Policy) (s : State) (n : Word64) (scale : Elem) (v : Views), s.me.argN = some n →
    s.me.argScale = some scale → s.me.hasStrided v n.toNat → s.cfg.valid = true → n ≠ 0 →
    RequestReady s.cfg s.mem v n.toNat true → s.grants v n.toNat true →
    ∃ t, exec (.blu dir pol) s = .next t ∧ s.Transformed t v n.toNat dir scale true

/-- The checks of a transform request (R301–R303, R347): an item of R302 gives -1, and a request faults with
`UB(Overlap)` exactly where R303 forbids it and no item of R302 holds. -/
def Obligations.TransformRequestsAreChecked : Prop :=
  ∀ (i : Instr) (s : State) (r : Request), requestOf i s.me = some r → r.n ≠ 0 →
    (RequestRejected s.cfg r → exec i s = .next s.turnAway)
    ∧ (exec i s = .fault .overlap ↔ ¬ RequestRejected s.cfg r ∧ RequestOverlaps r)

/-- A Bluestein request whose allocation draw is null ends with -2: `STATUS` is -2, and memory, `FEAT_CACHE` and every
other register are as they were; the draw is used up (R316, R90). A draw that breaks the contract of R90 has no move: the
command is stuck (R386). The draws are the model's (log 14). -/
def Obligations.NullAllocationGivesOutOfMemory : Prop :=
  ∀ (i : Instr) (s : State) (r : Request), requestOf i s.me = some r → r.n ≠ 0 →
    takesBluestein r.n r.forceBS = true → ¬ RequestRejected s.cfg r → ¬ RequestOverlaps r →
    (∀ rest, s.allocs = none :: rest →
      exec i s = .next { s with
        allocs := rest, tick := s.tick + 1
        me := { s.me with status := 0xFFFFFFFE, fsm := .idle, bsBase := 0, trans := Transient.dropped } })
    ∧ ∀ b rest, s.allocs = some b :: rest →
      allocLawful s.cfg r.views.list s.mem b (scratchLen (clog2 (2 * r.n - 1)) r.n) = false → exec i s = .fault .stuck

/-- A split request is the strided request at unit strides, and an interleaved one the strided request at stride 2 with
`im = re + 1` (R291, R330–R332): the same outcome. -/
def Obligations.ShapesAreStridedRequests : Prop :=
  ∀ (dir : Dir) (pol : Policy) (s : State) (sre sim dre dim : Word64), s.me.argSrcRe = some sre →
    s.me.argSrcIm = some sim → s.me.argDstRe = some dre → s.me.argDstIm = some dim →
    (s.me.argSsRe = some 1 → s.me.argSsIm = some 1 → s.me.argDsRe = some 1 → s.me.argDsIm = some 1 →
      exec (.xfs dir pol) s = exec (.xft dir pol) s)
    ∧ (s.me.argSsRe = some 2 → s.me.argSsIm = some 2 → s.me.argDsRe = some 2 → s.me.argDsIm = some 2 →
      addrOf sim = imBase (addrOf sre) → addrOf dim = imBase (addrOf dre) →
      exec (.xfi dir pol) s = exec (.xft dir pol) s)

/-- Under `SIMD_VALUES = EXACT` the SIMD policy never changes what a transform writes (R267, R315, R389): with any two
policies a ready request ends with the same memory, whichever widths run and whether the pipeline deinterleaves. The draws
of the allocator are the model's choice (log 14). -/
def Obligations.PolicyNeverChangesATransform : Prop :=
  ∀ (i : Instr) (pol : Policy) (s t u : State) (r : Request), requestOf i s.me = some r →
    RequestReady s.cfg s.mem r.views r.n r.forceBS → s.grants r.views r.n r.forceBS → s.cfg.simdValues = .exact →
    s.cfg.valid = true → s.mem.wf = true → exec i s = .next t → exec (withPolicy pol i) s = .next u →
    u.mem = t.mem ∧ u.me = t.me
end

