-- ==== Sys2Proof/Laws/State.lean ====
section
/-! SUPPORT. What each update of the state and of a command's work leaves in each field. -/

namespace Sys2Proof.Machine

/-! ### Completion -/

section finish
variable (s : State) (d : Done)
@[simp] theorem finish_cfg : (s.finish d).cfg = s.cfg := rfl
@[simp] theorem finish_before : (s.finish d).before = s.before := rfl
@[simp] theorem finish_after : (s.finish d).after = s.after := rfl
@[simp] theorem finish_mem : (s.finish d).mem = d.work.mem := rfl
@[simp] theorem finish_featCache : (s.finish d).featCache = d.work.featCache := rfl
@[simp] theorem finish_allocs : (s.finish d).allocs = d.work.allocs := rfl
@[simp] theorem finish_tick : (s.finish d).tick = d.work.tick := rfl
@[simp] theorem finish_sched : (s.finish d).sched = s.sched := rfl
@[simp] theorem finish_tokens : (s.finish d).tokens = s.tokens := rfl
@[simp] theorem finish_log : (s.finish d).log = s.log := rfl
@[simp] theorem finish_faults : (s.finish d).faults = s.faults := rfl
@[simp] theorem finish_halted : (s.finish d).me.halted = s.me.halted := rfl
@[simp] theorem finish_status : (s.finish d).me.status = d.code.word := rfl
@[simp] theorem finish_result : (s.finish d).me.result = d.result.getD s.me.result := rfl
@[simp] theorem finish_resRe : (s.finish d).me.resRe = (d.res.map Cx.re).getD s.me.resRe := rfl
@[simp] theorem finish_resIm : (s.finish d).me.resIm = (d.res.map Cx.im).getD s.me.resIm := rfl
@[simp] theorem finish_fsm : (s.finish d).me.fsm = .idle := rfl
@[simp] theorem finish_bsBase : (s.finish d).me.bsBase = 0 := rfl
@[simp] theorem finish_trans : (s.finish d).me.trans = Transient.dropped := rfl
@[simp] theorem finish_thread : (s.finish d).me.thread = s.me.thread := rfl
@[simp] theorem finish_argScale : (s.finish d).me.argScale = s.me.argScale := rfl
theorem finish_sameArgs : s.me.sameArgs (s.finish d).me := by simp [Context.sameArgs, State.finish]
theorem finish_sameOthers : s.sameOthers (s.finish d) := by simp [State.sameOthers]
end finish

section turnAway
variable (s : State)
@[simp] theorem turnAway_cfg : s.turnAway.cfg = s.cfg := rfl
@[simp] theorem turnAway_before : s.turnAway.before = s.before := rfl
@[simp] theorem turnAway_after : s.turnAway.after = s.after := rfl
@[simp] theorem turnAway_mem : s.turnAway.mem = s.mem := rfl
@[simp] theorem turnAway_featCache : s.turnAway.featCache = s.featCache := rfl
@[simp] theorem turnAway_status : s.turnAway.me.status = 0xFFFFFFFF := rfl
@[simp] theorem turnAway_fsm : s.turnAway.me.fsm = .idle := rfl
@[simp] theorem turnAway_bsBase : s.turnAway.me.bsBase = 0 := rfl
@[simp] theorem turnAway_trans : s.turnAway.me.trans = Transient.dropped := rfl
@[simp] theorem turnAway_halted : s.turnAway.me.halted = s.me.halted := rfl
@[simp] theorem turnAway_faults : s.turnAway.faults = s.faults := rfl
@[simp] theorem turnAway_result : s.turnAway.me.result = s.me.result := rfl
@[simp] theorem turnAway_resRe : s.turnAway.me.resRe = s.me.resRe := rfl
@[simp] theorem turnAway_resIm : s.turnAway.me.resIm = s.me.resIm := rfl
@[simp] theorem turnAway_thread : s.turnAway.me.thread = s.me.thread := rfl
@[simp] theorem turnAway_argScale : s.turnAway.me.argScale = s.me.argScale := rfl
theorem turnAway_sameArgs : s.me.sameArgs s.turnAway.me := finish_sameArgs _ _
theorem turnAway_sameOthers : s.sameOthers s.turnAway := finish_sameOthers _ _
/-- A command turned away leaves `STATUS` -1 and the sequencer idle, and nothing else (R343). -/
theorem turnAway_eq : s.turnAway = { s with
    me := { s.me with status := 0xFFFFFFFF, fsm := .idle, bsBase := 0, trans := Transient.dropped } } := rfl
end turnAway

section setters
variable (s : State)
@[simp] theorem setCmd_cfg (w : Word32) : (s.setCmd w).cfg = s.cfg := rfl
@[simp] theorem setCmd_mem (w : Word32) : (s.setCmd w).mem = s.mem := rfl
@[simp] theorem setCmd_featCache (w : Word32) : (s.setCmd w).featCache = s.featCache := rfl
@[simp] theorem setCmd_before (w : Word32) : (s.setCmd w).before = s.before := rfl
@[simp] theorem setCmd_after (w : Word32) : (s.setCmd w).after = s.after := rfl
@[simp] theorem setProg_cfg (p : HostProg) : (s.setProg p).cfg = s.cfg := rfl
@[simp] theorem setProg_mem (p : HostProg) : (s.setProg p).mem = s.mem := rfl
@[simp] theorem setProg_featCache (p : HostProg) : (s.setProg p).featCache = s.featCache := rfl
@[simp] theorem setProg_before (p : HostProg) : (s.setProg p).before = s.before := rfl
@[simp] theorem setProg_after (p : HostProg) : (s.setProg p).after = s.after := rfl
section halt
variable (f : Fault) (w : Work) (lost : List View)
@[simp] theorem halt_cfg : (s.halt f w lost).cfg = s.cfg := rfl
@[simp] theorem halt_before : (s.halt f w lost).before = s.before := rfl
@[simp] theorem halt_after : (s.halt f w lost).after = s.after := rfl
@[simp] theorem halt_mem : (s.halt f w lost).mem = w.mem.lose s.cfg.ty w.tick lost := rfl
@[simp] theorem halt_featCache : (s.halt f w lost).featCache = w.featCache := rfl
@[simp] theorem halt_allocs : (s.halt f w lost).allocs = w.allocs := rfl
@[simp] theorem halt_log : (s.halt f w lost).log = s.log := rfl
@[simp] theorem halt_me : (s.halt f w lost).me = { s.me with halted := some f, bsBase := w.bsBase } := rfl
end halt
@[simp] theorem enter_cfg (f : Footprint) : (s.enter f).cfg = s.cfg := rfl
@[simp] theorem enter_before (f : Footprint) : (s.enter f).before = s.before := rfl
@[simp] theorem enter_after (f : Footprint) : (s.enter f).after = s.after := rfl
@[simp] theorem enter_mem (f : Footprint) : (s.enter f).mem = s.mem := rfl
@[simp] theorem enter_featCache (f : Footprint) : (s.enter f).featCache = s.featCache := rfl
@[simp] theorem enter_faults (f : Footprint) : (s.enter f).faults = s.faults := rfl
@[simp] theorem enter_halted (f : Footprint) : (s.enter f).me.halted = s.me.halted := rfl
@[simp] theorem resetAll_cfg : s.resetAll.cfg = s.cfg := rfl
@[simp] theorem resetAll_mem : s.resetAll.mem = s.mem := rfl
@[simp] theorem resetAll_featCache : s.resetAll.featCache = 0 := rfl
@[simp] theorem resetAll_faults : s.resetAll.faults = s.faults := rfl
end setters

/-! ### The work of a command -/

section work
variable (s : State)
@[simp] theorem work_mem : s.work.mem = s.mem := rfl
@[simp] theorem work_featCache : s.work.featCache = s.featCache := rfl
@[simp] theorem work_em : s.work.em = none := rfl
@[simp] theorem work_allocs : s.work.allocs = s.allocs := rfl
@[simp] theorem work_tick : s.work.tick = s.tick := rfl
end work

section workSetters
variable (w : Work)
@[simp] theorem goto_mem (f : Fsm) : (w.goto f).mem = w.mem := rfl
@[simp] theorem goto_featCache (f : Fsm) : (w.goto f).featCache = w.featCache := rfl
@[simp] theorem goto_em (f : Fsm) : (w.goto f).em = w.em := rfl
@[simp] theorem goto_allocs (f : Fsm) : (w.goto f).allocs = w.allocs := rfl
@[simp] theorem goto_tick (f : Fsm) : (w.goto f).tick = w.tick := rfl
@[simp] theorem goto_bsBase (f : Fsm) : (w.goto f).bsBase = w.bsBase := rfl
@[simp] theorem gotoPot_mem (f : Fsm) : (w.gotoPot f).mem = w.mem := rfl
@[simp] theorem gotoPot_featCache (f : Fsm) : (w.gotoPot f).featCache = w.featCache := rfl
@[simp] theorem gotoPot_em (f : Fsm) : (w.gotoPot f).em = w.em := rfl
@[simp] theorem gotoPot_allocs (f : Fsm) : (w.gotoPot f).allocs = w.allocs := rfl
@[simp] theorem gotoPot_tick (f : Fsm) : (w.gotoPot f).tick = w.tick := rfl
@[simp] theorem gotoPot_bsBase (f : Fsm) : (w.gotoPot f).bsBase = w.bsBase := rfl
@[simp] theorem setTwb_mem (l : List Cx) : (w.setTwb l).mem = w.mem := rfl
@[simp] theorem setTwb_trans_mul (l : List Cx) : (w.setTwb l).trans.mul = w.trans.mul := rfl
@[simp] theorem setMul_mem (z : Cx) : (w.setMul z).mem = w.mem := rfl
@[simp] theorem setStp_mem (z : Cx) : (w.setStp z).mem = w.mem := rfl
@[simp] theorem setMul_mulAt (z : Cx) : (w.setMul z).mulAt = z := rfl
@[simp] theorem setMul_stpAt (z : Cx) : (w.setMul z).stpAt = w.stpAt := rfl
@[simp] theorem setMul_twbAt (z : Cx) (k : Nat) : (w.setMul z).twbAt k = w.twbAt k := rfl
@[simp] theorem setStp_stpAt (z : Cx) : (w.setStp z).stpAt = z := rfl
@[simp] theorem setStp_mulAt (z : Cx) : (w.setStp z).mulAt = w.mulAt := rfl
@[simp] theorem setStp_twbAt (z : Cx) (k : Nat) : (w.setStp z).twbAt k = w.twbAt k := rfl
/-- The twiddle buffer gives back the entries it was filled with (R47). -/
theorem setTwb_twbAt (l : List Cx) (k : Nat) : (w.setTwb l).twbAt k = l.getD k default := by
  simp only [Work.twbAt, Work.setTwb, List.getD_eq_getElem?_getD, List.getElem?_map]
  cases l[k]? <;> rfl
end workSetters

end Sys2Proof.Machine
end

