-- ==== Sys2Proof/Laws/Memory.lean ====
section
/-! SUPPORT. Element memory: what each operation reads afterwards, and that it keeps the canonical form. -/

namespace Sys2Proof.Machine

/-- The addresses a memory lists. -/
def Mem.keys (m : Mem) : List Nat := m.map Prod.fst

/-! ### Reading -/

theorem Mem.read_some_mem {m : Mem} {a : Nat} {x : Elem} (h : m.read a = some x) : (a, x) ∈ m := by
  induction m with
  | nil => simp [Mem.read] at h
  | cons c m ih =>
    obtain ⟨k, y⟩ := c
    simp only [Mem.read] at h
    split at h
    · simp_all
    · exact List.mem_cons_of_mem _ (ih h)

theorem Mem.read_isSome_iff {m : Mem} {a : Nat} : (m.read a).isSome = true ↔ a ∈ m.keys := by
  induction m with
  | nil => simp [Mem.read, Mem.keys]
  | cons c m ih =>
    obtain ⟨k, y⟩ := c
    simp only [Mem.keys, List.map_cons, List.mem_cons] at ih ⊢
    simp only [Mem.read]
    split
    · subst_vars; simp
    · rename_i hk
      rw [ih]
      exact ⟨Or.inr, fun h => h.resolve_left (Ne.symm hk)⟩

theorem Mem.read_append (m m' : Mem) (a : Nat) : Mem.read (m ++ m') a = (Mem.read m a).or (Mem.read m' a) := by
  induction m with
  | nil => simp [Mem.read]
  | cons c m ih => simp only [List.cons_append, Mem.read]; split <;> simp_all

theorem Mem.read_filter (p : Nat → Bool) (m : Mem) (a : Nat) :
    Mem.read (m.filter (fun c => p c.1)) a = if p a then m.read a else none := by
  induction m with
  | nil => simp [Mem.read]
  | cons c m ih =>
    obtain ⟨k, y⟩ := c
    simp only [List.filter_cons, Mem.read]
    split
    · simp only [Mem.read]; split <;> simp_all
    · rename_i hk
      rw [ih]
      by_cases h : k = a
      · subst h; simp [hk]
      · simp [h]

/-! ### Writing -/

theorem Mem.write_isSome {m : Mem} {a : Nat} {v : Elem} (h : (m.read a).isSome = true) : ∃ m', m.write a v = some m' := by
  induction m with
  | nil => simp [Mem.read] at h
  | cons c m ih =>
    obtain ⟨k, y⟩ := c
    simp only [Mem.read, Mem.write] at h ⊢
    split
    · exact ⟨_, rfl⟩
    · rename_i hk
      rw [if_neg hk] at h
      obtain ⟨m', h'⟩ := ih h
      exact ⟨_, by rw [h']; rfl⟩

theorem Mem.write_isSome_read {m m' : Mem} {a : Nat} {v : Elem} (h : m.write a v = some m') : (m.read a).isSome = true := by
  induction m generalizing m' with
  | nil => simp [Mem.write] at h
  | cons c m ih =>
    obtain ⟨k, y⟩ := c
    simp only [Mem.read, Mem.write] at *
    split
    · rfl
    · simp_all only [if_false, Option.map_eq_some_iff]
      obtain ⟨m'', h', -⟩ := h
      exact ih h'

/-- A read after a write gives the value written at its address, and what was there elsewhere. -/
theorem Mem.write_read {m m' : Mem} {a : Nat} {v : Elem} (h : m.write a v = some m') (b : Nat) :
    m'.read b = if b = a then some v else m.read b := by
  induction m generalizing m' with
  | nil => simp [Mem.write] at h
  | cons c m ih =>
    obtain ⟨k, y⟩ := c
    simp only [Mem.write] at h
    split at h
    · simp only [Option.some.injEq] at h; subst h
      simp only [Mem.read]; split <;> split <;> simp_all
    · obtain ⟨m'', h', rfl⟩ := Option.map_eq_some_iff.1 h
      simp only [Mem.read, ih h']; split <;> split <;> simp_all

theorem Mem.write_keys {m m' : Mem} {a : Nat} {v : Elem} (h : m.write a v = some m') : m'.keys = m.keys := by
  induction m generalizing m' with
  | nil => simp [Mem.write] at h
  | cons c m ih =>
    obtain ⟨k, y⟩ := c
    simp only [Mem.write] at h
    split at h
    · simp only [Option.some.injEq] at h; subst h; rfl
    · obtain ⟨m'', h', rfl⟩ := Option.map_eq_some_iff.1 h
      simp only [Mem.keys, List.map_cons] at *
      rw [ih h']

theorem Mem.write_legal {t : Ty} {m m' : Mem} {a : Nat} {v : Elem} (h : m.write a v = some m') (hv : t.legal v = true)
    (hm : m.legal t = true) : m'.legal t = true := by
  induction m generalizing m' with
  | nil => simp [Mem.write] at h
  | cons c m ih =>
    obtain ⟨k, y⟩ := c
    simp only [Mem.legal, List.all_cons, Bool.and_eq_true] at hm ih
    simp only [Mem.write] at h
    split at h
    · simp only [Option.some.injEq] at h; subst h
      simp [Mem.legal, hv, hm.2]
    · obtain ⟨m'', h', rfl⟩ := Option.map_eq_some_iff.1 h
      simp only [Mem.legal, List.all_cons, hm.1, Bool.true_and]
      exact ih h' hm.2

/-! ### The canonical form -/

theorem Mem.risesFrom_iff {lo : Nat} {m : Mem} :
    Mem.risesFrom lo m = true ↔ m.keys.Pairwise (· < ·) ∧ ∀ k ∈ m.keys, lo < k ∧ k < 2 ^ addrWidth := by
  induction m generalizing lo with
  | nil => simp [Mem.risesFrom, Mem.keys]
  | cons c m ih =>
    obtain ⟨k, y⟩ := c
    simp only [Mem.risesFrom, Bool.and_eq_true, decide_eq_true_eq, ih, Mem.keys, List.map_cons, List.pairwise_cons,
      List.mem_cons, forall_eq_or_imp]
    constructor
    · rintro ⟨⟨h1, h2⟩, h3, h4⟩
      exact ⟨⟨fun b hb => (h4 b hb).1, h3⟩, ⟨h1, h2⟩, fun b hb => ⟨by have := (h4 b hb).1; omega, (h4 b hb).2⟩⟩
    · rintro ⟨⟨h1, h2⟩, ⟨h3, h4⟩, h5⟩
      exact ⟨⟨h3, h4⟩, h2, fun b hb => ⟨h1 b hb, (h5 b hb).2⟩⟩

theorem Mem.wf_iff {m : Mem} :
    m.wf = true ↔ m.keys.Pairwise (· < ·) ∧ ∀ k ∈ m.keys, 0 < k ∧ k < 2 ^ addrWidth := Mem.risesFrom_iff

/-- The canonical form is a property of the addresses listed. -/
theorem Mem.wf_of_keys {m m' : Mem} (h : m'.keys = m.keys) (hm : m.wf = true) : m'.wf = true := by
  rw [Mem.wf_iff] at *; rwa [h]

theorem Mem.read_eq_none_of_rises {lo a : Nat} {m : Mem} (h : Mem.risesFrom lo m = true) (ha : a ≤ lo) : m.read a = none := by
  by_contra hc
  have := (Mem.risesFrom_iff.1 h).2 a (Mem.read_isSome_iff.1 (Option.isSome_iff_ne_none.2 hc))
  omega

theorem Mem.rises_ext {lo : Nat} {m m' : Mem} (h : Mem.risesFrom lo m = true) (h' : Mem.risesFrom lo m' = true)
    (he : ∀ a, m.read a = m'.read a) : m = m' := by
  induction m generalizing lo m' with
  | nil =>
    cases m' with
    | nil => rfl
    | cons c m' => have := he c.1; simp [Mem.read] at this
  | cons c m ih =>
    obtain ⟨k, x⟩ := c
    cases m' with
    | nil => have := he k; simp [Mem.read] at this
    | cons c' m' =>
      obtain ⟨k', x'⟩ := c'
      simp only [Mem.risesFrom, Bool.and_eq_true, decide_eq_true_eq] at h h'
      have hk : k = k' := by
        have h1 := he k
        have h2 := he k'
        simp only [Mem.read, if_true] at h1 h2
        by_contra hne
        rcases Nat.lt_or_gt_of_ne hne with hlt | hlt
        · rw [if_neg (by omega), Mem.read_eq_none_of_rises h'.2 (by omega)] at h1; simp at h1
        · rw [if_neg (by omega), Mem.read_eq_none_of_rises h.2 (by omega)] at h2; simp at h2
      subst hk
      have hx := he k
      simp only [Mem.read, if_true, Option.some.injEq] at hx
      subst hx
      congr 1
      refine ih h.2 h'.2 fun a => ?_
      have := he a
      simp only [Mem.read] at this
      by_cases hka : k = a
      · subst hka
        rw [Mem.read_eq_none_of_rises h.2 (Nat.le_refl _), Mem.read_eq_none_of_rises h'.2 (Nat.le_refl _)]
      · simpa [hka] using this

/-- Memories in canonical form that read the same are the same data. -/
theorem Mem.wf_ext {m m' : Mem} (h : m.wf = true) (h' : m'.wf = true) (he : ∀ a, m.read a = m'.read a) : m = m' :=
  Mem.rises_ext h h' he

/-! ### Placing -/

theorem Mem.place_read (m : Mem) (a : Nat) (v : Elem) (b : Nat) :
    (m.place a v).read b = if b = a then some v else m.read b := by
  induction m with
  | nil => simp only [Mem.place, Mem.read, eq_comm]
  | cons c m ih =>
    obtain ⟨k, y⟩ := c
    simp only [Mem.place]
    split
    · subst_vars; simp only [Mem.read, eq_comm]; split <;> rfl
    · split
      · simp only [Mem.read, eq_comm]
      · simp only [Mem.read, ih]
        by_cases hb : b = a
        · subst hb; simp_all
        · simp [hb]

theorem Mem.place_rises {lo : Nat} {m : Mem} {a : Nat} {v : Elem} (hm : Mem.risesFrom lo m = true) (ha : lo < a)
    (ha' : a < 2 ^ addrWidth) : Mem.risesFrom lo (m.place a v) = true := by
  induction m generalizing lo with
  | nil => simp only [Mem.place, Mem.risesFrom]; simp [ha]; exact ha'
  | cons c m ih =>
    obtain ⟨k, y⟩ := c
    simp only [Mem.risesFrom, Bool.and_eq_true, decide_eq_true_eq] at hm
    simp only [Mem.place]
    split
    · simp only [Mem.risesFrom, Bool.and_eq_true, decide_eq_true_eq]; exact hm
    · split
      · simp only [Mem.risesFrom, Bool.and_eq_true, decide_eq_true_eq]; exact ⟨⟨ha, ha'⟩, ⟨by assumption, hm.1.2⟩, hm.2⟩
      · simp only [Mem.risesFrom, Bool.and_eq_true, decide_eq_true_eq]; exact ⟨hm.1, ih hm.2 (by omega)⟩

theorem Mem.place_wf {m : Mem} {a : Nat} {v : Elem} (hm : m.wf = true) (ha : 0 < a) (ha' : a < 2 ^ addrWidth) :
    (m.place a v).wf = true := Mem.place_rises hm ha ha'

theorem Mem.place_legal {t : Ty} {m : Mem} {a : Nat} {v : Elem} (hv : t.legal v = true) (hm : m.legal t = true) :
    (m.place a v).legal t = true := by
  induction m with
  | nil => simp [Mem.place, Mem.legal, hv]
  | cons c m ih =>
    obtain ⟨k, y⟩ := c
    simp only [Mem.legal, List.all_cons, Bool.and_eq_true] at hm ih
    simp only [Mem.place]
    split
    · simp [Mem.legal, hv, hm.2]
    · split
      · simp [Mem.legal, hv, hm.1, hm.2]
      · simp only [Mem.legal, List.all_cons, hm.1, Bool.true_and]; exact ih hm.2

/-! ### Regions -/

theorem regionCells_keys (b : Nat) (f : Nat → Elem) (i len : Nat) :
    Mem.keys (regionCells b f i len) = (List.range len).map (fun j => b + i + j) := by
  induction len generalizing i with
  | zero => rfl
  | succ n ih =>
    simp only [regionCells, Mem.keys, List.map_cons, List.range_succ_eq_map, List.map_map] at *
    rw [ih (i + 1)]
    simp only [Nat.add_zero, List.cons.injEq, true_and]
    apply List.map_congr_left
    intro j _
    simp only [Function.comp, Nat.succ_eq_add_one]; omega

theorem regionCells_read (b : Nat) (f : Nat → Elem) (i len a : Nat) :
    Mem.read (regionCells b f i len) a = if b + i ≤ a ∧ a < b + i + len then some (f (a - b)) else none := by
  induction len generalizing i with
  | zero => rw [if_neg (by omega)]; rfl
  | succ n ih =>
    simp only [regionCells, Mem.read, ih]
    by_cases h : b + i = a
    · rw [if_pos h, if_pos (by omega)]; congr 2; omega
    · rw [if_neg h]
      by_cases h' : b + i ≤ a ∧ a < b + i + (n + 1)
      · rw [if_pos h', if_pos (by omega)]
      · rw [if_neg h', if_neg (by omega)]

theorem regionCells_legal {t : Ty} {b : Nat} {f : Nat → Elem} (hf : ∀ i, t.legal (f i) = true) (i len : Nat) :
    Mem.legal t (regionCells b f i len) = true := by
  induction len generalizing i with
  | zero => rfl
  | succ n ih => simp only [regionCells, Mem.legal, List.all_cons, hf, Bool.true_and]; exact ih (i + 1)

theorem Mem.free_read {m : Mem} {b len a : Nat} (h : m.free b len = true) (h1 : b ≤ a) (h2 : a < b + len) : m.read a = none := by
  cases hr : m.read a with
  | none => rfl
  | some x =>
    have := List.all_eq_true.1 h _ (Mem.read_some_mem hr)
    simp at this; omega

/-- A granted region reads its contents, and every other address reads as before (R90). -/
theorem Mem.grant_read (m : Mem) (b len : Nat) (f : Nat → Elem) (a : Nat) :
    (m.grant b len f).read a = if b ≤ a ∧ a < b + len then some (f (a - b)) else m.read a := by
  simp only [Mem.grant, Mem.read_append, Mem.read_filter (fun k => decide (k < b)),
    Mem.read_filter (fun k => decide (b ≤ k)), regionCells_read, Nat.add_zero, decide_eq_true_eq]
  by_cases h1 : a < b
  · rw [if_pos h1, if_neg (by omega), if_neg (by omega), if_neg (by omega)]; simp
  · by_cases h2 : a < b + len
    · rw [if_neg h1, if_pos ⟨by omega, h2⟩, if_pos (show b ≤ a ∧ a < b + len from ⟨by omega, h2⟩)]; simp
    · rw [if_neg h1, if_neg (by omega), if_pos (by omega), if_neg (by omega)]; simp

/-- A released region is no longer admitted, and every other address reads as before (R325). -/
theorem Mem.release_read (m : Mem) (b len a : Nat) :
    (m.release b len).read a = if b ≤ a ∧ a < b + len then none else m.read a := by
  have := Mem.read_filter (fun k => !(decide (b ≤ k) && decide (k < b + len))) m a
  simp only [Mem.release] at *
  rw [this]
  by_cases h : b ≤ a ∧ a < b + len <;> simp [h]

theorem Mem.keys_append (m m' : Mem) : Mem.keys (m ++ m') = Mem.keys m ++ Mem.keys m' := by simp [Mem.keys]

theorem Mem.keys_filter (p : Nat → Bool) (m : Mem) : Mem.keys (m.filter (fun c => p c.1)) = m.keys.filter p := by
  simp only [Mem.keys, List.filter_map, Function.comp_def]

theorem Mem.grant_wf {m : Mem} {b len : Nat} {f : Nat → Elem} (hm : m.wf = true) (hb : 0 < b)
    (he : b + len ≤ 2 ^ addrWidth) (h : m.free b len = true) : (m.grant b len f).wf = true := by
  rw [Mem.wf_iff] at *
  have hfree : ∀ k ∈ m.keys, ¬ (b ≤ k ∧ k < b + len) := by
    intro k hk ⟨h1, h2⟩
    have := Mem.read_isSome_iff.2 hk
    rw [Mem.free_read h h1 h2] at this; simp at this
  have hkeys : (m.grant b len f).keys
      = m.keys.filter (fun k => decide (k < b)) ++ (List.range len).map (fun j => b + j)
        ++ m.keys.filter (fun k => decide (b ≤ k)) := by
    simp only [Mem.grant, Mem.keys_append, Mem.keys_filter (fun k => decide (k < b)),
      Mem.keys_filter (fun k => decide (b ≤ k)), regionCells_keys, Nat.add_zero]
  rw [hkeys]
  constructor
  · rw [List.pairwise_append, List.pairwise_append]
    refine ⟨⟨hm.1.filter _, ?_, ?_⟩, hm.1.filter _, ?_⟩
    · rw [List.pairwise_map]
      exact List.Pairwise.imp (fun h => by omega) List.pairwise_lt_range
    · intro x hx y hy
      simp only [List.mem_filter, decide_eq_true_eq, List.mem_map, List.mem_range] at hx hy
      obtain ⟨j, hj, rfl⟩ := hy; omega
    · intro x hx y hy
      simp only [List.mem_append, List.mem_filter, decide_eq_true_eq, List.mem_map, List.mem_range] at hx hy
      rcases hx with ⟨-, hx⟩ | ⟨j, hj, rfl⟩
      · omega
      · have := hfree y hy.1; omega
  · intro k hk
    simp only [List.mem_append, List.mem_filter, decide_eq_true_eq, List.mem_map, List.mem_range] at hk
    rcases hk with (⟨hk, -⟩ | ⟨j, hj, rfl⟩) | ⟨hk, -⟩
    · exact hm.2 k hk
    · omega
    · exact hm.2 k hk

theorem Mem.release_wf {m : Mem} {b len : Nat} (hm : m.wf = true) : (m.release b len).wf = true := by
  rw [Mem.wf_iff] at *
  have : (m.release b len).keys = m.keys.filter (fun k => !(decide (b ≤ k) && decide (k < b + len))) :=
    Mem.keys_filter (fun k => !(decide (b ≤ k) && decide (k < b + len))) m
  rw [this]
  exact ⟨hm.1.filter _, fun k hk => hm.2 k (List.mem_filter.1 hk).1⟩

theorem Mem.grant_legal {t : Ty} {m : Mem} {b len : Nat} {f : Nat → Elem} (hm : m.legal t = true)
    (hf : ∀ i, t.legal (f i) = true) : (m.grant b len f).legal t = true := by
  have hr := regionCells_legal hf (b := b) 0 len
  simp only [Mem.legal, List.all_eq_true] at *
  intro c hc
  simp only [Mem.grant, List.mem_append, List.mem_filter] at hc
  rcases hc with (⟨hc, -⟩ | hc) | ⟨hc, -⟩
  · exact hm c hc
  · exact hr c hc
  · exact hm c hc

theorem Mem.release_legal {t : Ty} {m : Mem} {b len : Nat} (hm : m.legal t = true) : (m.release b len).legal t = true := by
  simp only [Mem.legal, List.all_eq_true] at *
  intro c hc
  exact hm c (List.mem_filter.1 hc).1

/-- Reset memory is in canonical form. -/
theorem reset_mem_wf : State.reset.mem.wf = true := rfl

/-! ### Integer addresses -/

theorem isAddr_iff {a : Int} : isAddr a = true ↔ 0 < a ∧ a < 2 ^ addrWidth := by
  simp only [isAddr, Bool.and_eq_true, decide_eq_true_eq]

theorem isAddr_ofNat {a : Nat} : isAddr a = true ↔ 0 < a ∧ a < 2 ^ addrWidth := by
  rw [isAddr_iff]
  constructor <;> rintro ⟨h1, h2⟩ <;> exact ⟨by omega, by exact_mod_cast h2⟩

theorem Mem.setAddr_isSome {m : Mem} {a : Int} {v : Elem} (h : (m.atAddr a).isSome = true) : ∃ m', m.setAddr a v = some m' := by
  simp only [Mem.atAddr, Mem.setAddr] at *
  split at h
  · simp_all only [if_true]; exact Mem.write_isSome h
  · simp at h

theorem Mem.setAddr_isSome_at {m m' : Mem} {a : Int} {v : Elem} (h : m.setAddr a v = some m') :
    (m.atAddr a).isSome = true := by
  simp only [Mem.atAddr, Mem.setAddr] at *
  split at h
  · simp_all only [if_true]; exact Mem.write_isSome_read h
  · simp at h

/-- A read after a store gives the value stored at its address, and what was there elsewhere (R80). -/
theorem Mem.setAddr_at {m m' : Mem} {a : Int} {v : Elem} (h : m.setAddr a v = some m') (b : Int) :
    m'.atAddr b = if b = a then some v else m.atAddr b := by
  simp only [Mem.atAddr, Mem.setAddr] at *
  by_cases ha : isAddr a = true
  · rw [if_pos ha] at h
    by_cases hb : isAddr b = true
    · rw [if_pos hb, if_pos hb, Mem.write_read h]
      rw [isAddr_iff] at ha hb
      by_cases hab : b = a
      · subst hab; simp
      · rw [if_neg (by omega), if_neg hab]
    · rw [if_neg hb, if_neg hb, if_neg (by rintro rfl; exact hb ha)]
  · rw [if_neg ha] at h; simp at h

theorem Mem.setAddr_keys {m m' : Mem} {a : Int} {v : Elem} (h : m.setAddr a v = some m') : m'.keys = m.keys := by
  simp only [Mem.setAddr] at h
  split at h
  · exact Mem.write_keys h
  · simp at h

theorem Mem.setAddr_legal {t : Ty} {m m' : Mem} {a : Int} {v : Elem} (h : m.setAddr a v = some m')
    (hv : t.legal v = true) (hm : m.legal t = true) : m'.legal t = true := by
  simp only [Mem.setAddr] at h
  split at h
  · exact Mem.write_legal h hv hm
  · simp at h

theorem Mem.atAddr_legal {t : Ty} {m : Mem} {a : Int} {x : Elem} (h : m.atAddr a = some x) (hm : m.legal t = true) :
    t.legal x = true := by
  simp only [Mem.atAddr] at h
  split at h
  · exact List.all_eq_true.1 hm _ (Mem.read_some_mem h)
  · simp at h

/-- Which addresses are admitted is a property of the addresses listed. -/
theorem Mem.admitted_of_keys {m m' : Mem} (h : m'.keys = m.keys) : SameAdmitted m m' := by
  intro a
  simp only [Mem.atAddr]
  split
  · rw [Bool.eq_iff_iff, Mem.read_isSome_iff, Mem.read_isSome_iff, h]
  · rfl

/-- Memories in canonical form that hold the same at every address are the same data. -/
theorem Mem.wf_ext_at {m m' : Mem} (h : m.wf = true) (h' : m'.wf = true) (he : ∀ a, m.atAddr a = m'.atAddr a) : m = m' := by
  refine Mem.wf_ext h h' fun a => ?_
  have := he (a : Int)
  simp only [Mem.atAddr] at this
  by_cases ha : 0 < a ∧ a < 2 ^ addrWidth
  · rw [if_pos (isAddr_ofNat.2 ha), if_pos (isAddr_ofNat.2 ha)] at this
    simpa using this
  · have hn : ∀ {m : Mem}, m.wf = true → m.read a = none := by
      intro m hm
      by_contra hc
      exact ha ((Mem.wf_iff.1 hm).2 a (Mem.read_isSome_iff.1 (Option.isSome_iff_ne_none.2 hc)))
    rw [hn h, hn h']

end Sys2Proof.Machine
end

