-- ==== Sys2Proof/Laws/Views.lean ====
section
/-! SUPPORT. Views and their footprints (R22, R85), and the reversed index (R21). -/

namespace Sys2Proof.Machine

/-! ### Views -/

theorem View.addr_inj {v : View} (hs : v.stride ≠ 0) {i j : Nat} (h : v.addr i = v.addr j) : i = j := by
  simp only [View.addr] at h
  have : ((i : Int) - j) * v.stride = 0 := by ring_nf; linarith
  rcases Int.mul_eq_zero.1 this with h | h
  · omega
  · exact absurd h hs

theorem View.hits_iff {v : View} {a : Int} : v.hits a = true ↔ v.Reaches a := by
  simp only [View.hits, View.Reaches, View.addr]
  split
  · rename_i hs
    simp only [hs, mul_zero, add_zero, Bool.and_eq_true, beq_iff_eq, decide_eq_true_eq]
    exact ⟨fun h => ⟨0, h.2, h.1.symm⟩, fun ⟨i, hi, h⟩ => ⟨h.symm, by omega⟩⟩
  · rename_i hs
    simp only [Bool.and_eq_true, decide_eq_true_eq]
    constructor
    · rintro ⟨⟨h1, h2⟩, h3⟩
      refine ⟨((a - v.base) / v.stride).toNat, by omega, ?_⟩
      rw [Int.toNat_of_nonneg h2, Int.ediv_mul_cancel (Int.dvd_of_emod_eq_zero h1)]; omega
    · rintro ⟨i, hi, rfl⟩
      have : v.base + (i : Int) * v.stride - v.base = i * v.stride := by omega
      rw [this, Int.mul_ediv_cancel _ hs]
      exact ⟨⟨Int.mul_emod_left _ _, by omega⟩, by omega⟩

theorem anyBelow_iff {n : Nat} {p : Nat → Bool} : anyBelow n p = true ↔ ∃ i, i < n ∧ p i = true := by
  induction n with
  | zero => simp [anyBelow]
  | succ n ih =>
    simp only [anyBelow, Bool.or_eq_true, ih]
    constructor
    · rintro (h | ⟨i, hi, h⟩)
      · exact ⟨n, by omega, h⟩
      · exact ⟨i, by omega, h⟩
    · rintro ⟨i, hi, h⟩
      by_cases hin : i = n
      · subst hin; exact .inl h
      · exact .inr ⟨i, by omega, h⟩

/-- Coverage is reach, but for a null view (R85). -/
theorem View.covers_iff {v : View} {a : Int} : v.covers a = true ↔ v.base ≠ 0 ∧ v.Reaches a := by
  simp [View.covers, View.isNull, View.hits_iff]

/-- Two footprints meet where an address of the one is an address of the other (R85). -/
theorem View.meets_iff {v w : View} :
    v.meets w = true ↔ v.base ≠ 0 ∧ w.base ≠ 0 ∧ ∃ i j, i < v.count ∧ j < w.count ∧ v.addr i = w.addr j := by
  simp only [View.meets, Bool.and_eq_true, anyBelow_iff, View.covers_iff, View.Reaches, View.isNull, Bool.not_eq_true',
    beq_eq_false_iff_ne, ne_eq]
  constructor
  · rintro ⟨h1, i, hi, h2, j, hj, h⟩; exact ⟨h1, h2, i, j, hi, hj, h.symm⟩
  · rintro ⟨h1, h2, i, j, hi, hj, h⟩; exact ⟨h1, i, hi, h2, j, hj, h.symm⟩

theorem View.meets_false {v w : View} (hv : v.base ≠ 0) (hw : w.base ≠ 0) : v.meets w = false ↔ v.Apart w := by
  rw [Bool.eq_false_iff, Ne, View.meets_iff, View.Apart]
  constructor
  · intro h i j hi hj he; exact h ⟨hv, hw, i, j, hi, hj, he⟩
  · rintro h ⟨-, -, i, j, hi, hj, he⟩; exact h i j hi hj he

theorem View.Apart.symm {v w : View} (h : v.Apart w) : w.Apart v := fun i j hi hj he => h j i hj hi he.symm

theorem View.isNull_false {v : View} (h : v.base ≠ 0) : v.isNull = false := by simp [View.isNull, h]

@[simp] theorem unitView_addr (b : Int) (n i : Nat) : (unitView b n).addr i = b + i := by simp [unitView, View.addr]
@[simp] theorem unitView_count (b : Int) (n : Nat) : (unitView b n).count = n := rfl
@[simp] theorem unitView_stride (b : Int) (n : Nat) : (unitView b n).stride = 1 := rfl
@[simp] theorem unitView_base (b : Int) (n : Nat) : (unitView b n).base = b := rfl
@[simp] theorem lo_addr (v : View) (i : Nat) : v.lo.addr i = v.addr i := rfl
@[simp] theorem lo_stride (v : View) : v.lo.stride = v.stride := rfl
@[simp] theorem hi_stride (v : View) : v.hi.stride = v.stride := rfl
@[simp] theorem lo_count (v : View) : v.lo.count = v.count / 2 := rfl
@[simp] theorem hi_count (v : View) : v.hi.count = v.count / 2 := rfl
@[simp] theorem hi_addr (v : View) (i : Nat) : v.hi.addr i = v.addr (v.count / 2 + i) := by
  simp only [View.hi, View.addr]; push_cast; ring

/-! ### The reversed index -/

theorem rev_lt (i l : Nat) : rev i l < 2 ^ l := by
  induction l generalizing i with
  | zero => simp [rev]
  | succ l ih =>
    have := ih (i / 2)
    have h2 : i % 2 < 2 := Nat.mod_lt _ (by omega)
    simp only [rev, pow_succ]
    rcases (by omega : i % 2 = 0 ∨ i % 2 = 1) with h | h <;> rw [h] <;> omega

/-- The reversal of a number whose top bit is taken apart (R194, R201). -/
theorem rev_add_top {l j : Nat} (hj : j < 2 ^ l) (a : Nat) : rev (j + 2 ^ l * a) (l + 1) = 2 * rev j l + a % 2 := by
  induction l generalizing j with
  | zero =>
    have : j = 0 := by simpa using hj
    subst this; simp [rev]
  | succ l ih =>
    have h2 : (j + 2 ^ (l + 1) * a) / 2 = j / 2 + 2 ^ l * a := by
      have : 2 ^ (l + 1) * a = 2 * (2 ^ l * a) := by rw [pow_succ]; ring
      omega
    have h1 : (j + 2 ^ (l + 1) * a) % 2 = j % 2 := by
      have : 2 ^ (l + 1) * a = 2 * (2 ^ l * a) := by rw [pow_succ]; ring
      omega
    have h3 : j / 2 < 2 ^ l := by rw [pow_succ] at hj; omega
    rw [rev, h1, h2, ih h3]
    simp only [rev, pow_succ]; ring

/-- Reversing twice gives the number back. -/
theorem rev_rev {i l : Nat} (hi : i < 2 ^ l) : rev (rev i l) l = i := by
  induction l generalizing i with
  | zero => simp only [rev]; have : i < 1 := by simpa using hi
            omega
  | succ l ih =>
    have h3 : i / 2 < 2 ^ l := by rw [pow_succ] at hi; omega
    have hr : rev i (l + 1) = rev (i / 2) l + 2 ^ l * (i % 2) := by simp only [rev]; ring
    rw [hr, rev_add_top (rev_lt _ _), ih h3]; omega

/-- `rev(2j + e, L + 1) = e·2^L + rev(j, L)` (R194). -/
theorem rev_two_mul_add (j l : Nat) {e : Nat} (he : e < 2) : rev (2 * j + e) (l + 1) = e * 2 ^ l + rev j l := by
  rw [rev]; congr 2 <;> omega

theorem rev_inj {i j l : Nat} (hi : i < 2 ^ l) (hj : j < 2 ^ l) (h : rev i l = rev j l) : i = j := by
  rw [← rev_rev hi, h, rev_rev hj]

end Sys2Proof.Machine
end

