-- ==== Sys2Proof/Laws/Arith.lean ====
section
/-! SUPPORT. Every operation of `T` gives a value of `T` (R140): for the IEEE types, an encoding of the format's width. -/

namespace Sys2Proof.Machine

/-- What the two IEEE formats have in common here. -/
structure Fmt.Proper (f : Fmt) : Prop where
  inf : f.infCode < f.signBit
  nan : f.infCode + 2 ^ (f.fracBits - 1) + 2 ^ (f.fracBits - 1) ≤ f.signBit
  one : f.oneCode < f.signBit

theorem binary32_proper : binary32.Proper := by constructor <;> decide
theorem binary64_proper : binary64.Proper := by constructor <;> decide

theorem fmt_proper {t : Ty} {f : Fmt} (h : t.fmt = some f) : f.Proper := by
  cases t <;> simp [Ty.fmt] at h <;> subst h
  · exact binary32_proper
  · exact binary64_proper

theorem Fmt.pack_lt {f : Fmt} {s : Bool} {m : Nat} (h : m < f.signBit) : f.pack s m < 2 * f.signBit := by
  cases s <;> simp [Fmt.pack] <;> omega

theorem Fmt.roundMag_le (f : Fmt) (v sh : Nat) : f.roundMag v sh ≤ f.infCode := by
  simp only [Fmt.roundMag]; exact Nat.min_le_right _ _

theorem Fmt.quietNaN_lt {f : Fmt} (hf : f.Proper) (d : Nat) : f.quietNaN d < 2 * f.signBit := by
  refine Fmt.pack_lt ?_
  have : d / 2 % 2 ^ (f.fracBits - 1) < 2 ^ (f.fracBits - 1) := Nat.mod_lt _ (Nat.two_pow_pos _)
  have := hf.nan
  omega

theorem Fmt.signBit_pos (f : Fmt) : 0 < f.signBit := Nat.two_pow_pos _

theorem Fmt.add_lt {f : Fmt} (hf : f.Proper) (d a b : Nat) : f.add d a b < 2 * f.signBit := by
  have hr := fun v sh => Nat.lt_of_le_of_lt (f.roundMag_le v sh) hf.inf
  simp only [Fmt.add]
  split
  · exact quietNaN_lt hf d
  · split
    · split
      · exact quietNaN_lt hf d
      · exact pack_lt hf.inf
    · split
      · exact pack_lt hf.inf
      · split
        · exact pack_lt f.signBit_pos
        · exact pack_lt (hr _ _)

theorem Fmt.mul_lt {f : Fmt} (hf : f.Proper) (d a b : Nat) : f.mul d a b < 2 * f.signBit := by
  have hr := fun v sh => Nat.lt_of_le_of_lt (f.roundMag_le v sh) hf.inf
  simp only [Fmt.mul]
  split
  · exact quietNaN_lt hf d
  · split
    · split
      · exact quietNaN_lt hf d
      · exact pack_lt hf.inf
    · exact pack_lt (hr _ _)

theorem Fmt.negate_lt (f : Fmt) (a : Nat) : f.negate a < 2 * f.signBit := pack_lt (Nat.mod_lt _ f.signBit_pos)

theorem Fmt.ofFixed_lt {f : Fmt} (hf : f.Proper) (v : Int) (k : Nat) : f.ofFixed v k < 2 * f.signBit := by
  have hr := fun v sh => Nat.lt_of_le_of_lt (f.roundMag_le v sh) hf.inf
  simp only [Fmt.ofFixed]
  refine pack_lt ?_
  split <;> exact hr _ _

/-- Both parts are values of `T`. -/
def legalCx (t : Ty) (z : Cx) : Prop := t.legal z.re = true ∧ t.legal z.im = true

theorem legal_of_lt {t : Ty} {x : Elem} (h : ∀ f, t.fmt = some f → x.code < 2 * f.signBit) : t.legal x = true := by
  simp only [Ty.legal]; split
  · rename_i f hf; exact decide_eq_true (h f hf)
  · rfl

section operations
variable (t : Ty)

theorem zero_legal : t.legal t.zero = true :=
  legal_of_lt fun f hf => by simp only [Ty.zero, hf]; have := f.signBit_pos; omega

theorem one_legal : t.legal t.one = true :=
  legal_of_lt fun f hf => by simp only [Ty.one, hf]; have := (fmt_proper hf).one; omega

theorem add_legal (a b : Elem) : t.legal (t.add a b) = true :=
  legal_of_lt fun f hf => by simp only [Ty.add, hf]; exact Fmt.add_lt (fmt_proper hf) _ _ _

theorem sub_legal (a b : Elem) : t.legal (t.sub a b) = true :=
  legal_of_lt fun f hf => by simp only [Ty.sub, hf]; exact Fmt.add_lt (fmt_proper hf) _ _ _

theorem mul_legal (a b : Elem) : t.legal (t.mul a b) = true :=
  legal_of_lt fun f hf => by simp only [Ty.mul, hf]; exact Fmt.mul_lt (fmt_proper hf) _ _ _

theorem neg_legal (a : Elem) : t.legal (t.neg a) = true :=
  legal_of_lt fun f hf => by simp only [Ty.neg, hf]; exact Fmt.negate_lt _ _

theorem ofHost_legal (v : Nat) : t.legal (t.ofHost v) = true :=
  legal_of_lt fun f hf => by
    simp only [Ty.ofHost, hf]; exact Nat.mod_lt _ (by have := f.signBit_pos; omega)

theorem cadd_legal (z w : Cx) : legalCx t (cadd t z w) := ⟨add_legal _ _ _, add_legal _ _ _⟩
theorem csub_legal (z w : Cx) : legalCx t (csub t z w) := ⟨sub_legal _ _ _, sub_legal _ _ _⟩
theorem cmul_legal (z w : Cx) : legalCx t (cmul t z w) := ⟨sub_legal _ _ _, add_legal _ _ _⟩
theorem zeroCx_legal : legalCx t ⟨t.zero, t.zero⟩ := ⟨zero_legal _, zero_legal _⟩
theorem minusTwo_legal : t.legal (minusTwo t) = true := sub_legal _ _ _

theorem cxtab_legal (k : Nat) (hk : k < cxtabLen) : legalCx t (cxtab t k) := by
  match k, hk with
  | 0, _ => exact zeroCx_legal t
  | 1, _ => exact ⟨minusTwo_legal t, zero_legal t⟩
  | 2, _ => exact ⟨neg_legal _ _, one_legal t⟩
  | k + 3, hk =>
    have h64 : ∀ k, k < 14 → Ty.legal .f64 (entryAt cxtab64 k).re = true ∧ Ty.legal .f64 (entryAt cxtab64 k).im = true := by
      decide
    have h32 : ∀ k, k < 14 → Ty.legal .f32 (entryAt cxtab32 k).re = true ∧ Ty.legal .f32 (entryAt cxtab32 k).im = true := by
      decide
    have hk' : k < 14 := by simp only [cxtabLen] at hk; omega
    cases t
    · exact h32 k hk'
    · exact h64 k hk'
    all_goals exact ⟨rfl, rfl⟩

theorem conformPart_legal {f : Fmt} (hf : t.fmt = some f) (prim : Primitive) (draw : Elem) (v : Int) :
    t.legal (conformPart f prim draw v) = true := by
  have hd : draw.code % (2 * f.signBit) < 2 * f.signBit := Nat.mod_lt _ (by have := f.signBit_pos; omega)
  have hv := Fmt.ofFixed_lt (fmt_proper hf) v nominalBits
  refine legal_of_lt fun g hg => ?_
  obtain rfl : f = g := by rw [hf] at hg; simpa using hg
  simp only [conformPart]
  split
  · exact hv
  · split
    · exact hd
    · exact hv

theorem conformAt_legal {f : Fmt} (hf : t.fmt = some f) (prim : Primitive) (draw : Cx) (p q : Nat) :
    legalCx t (conformAt f prim draw p q) := by
  rw [conformAt]
  exact ⟨conformPart_legal _ hf _ _ _, conformPart_legal _ hf _ _ _⟩

theorem open_legal (hf : t.fmt = none) (z : Cx) : legalCx t z := by
  simp [legalCx, Ty.legal, hf]

end operations

theorem cexpm1_legal (c : Config) (k : Nat) : legalCx c.ty (cexpm1 c k) := by
  have hd : ∀ prim, legalCx c.ty (cexpm1Default c.ty prim k) := by
    intro prim
    simp only [cexpm1Default]
    split
    · exact cxtab_legal _ _ (by assumption)
    · split
      · exact conformAt_legal _ (by assumption) _ _ _ _
      · exact open_legal _ (by assumption) _
  simp only [cexpm1]
  split
  · exact ⟨ofHost_legal _ _, ofHost_legal _ _⟩
  · exact hd _

theorem cexpm1Frac_legal (c : Config) (p q : Nat) : legalCx c.ty (cexpm1Frac c p q) := by
  have hd : ∀ prim, legalCx c.ty (cexpm1FracStd c.ty prim p q) := by
    intro prim
    simp only [cexpm1FracStd]
    split
    · simp only [quarterTurn]
      split
      · exact zeroCx_legal _
      · exact ⟨neg_legal _ _, one_legal _⟩
      · exact ⟨minusTwo_legal _, zero_legal _⟩
      · exact ⟨neg_legal _ _, neg_legal _ _⟩
    · split
      · exact conformAt_legal _ (by assumption) _ _ _ _
      · exact open_legal _ (by assumption) _
  simp only [cexpm1Frac]
  split
  · exact ⟨ofHost_legal _ _, ofHost_legal _ _⟩
  · exact hd _

end Sys2Proof.Machine
end

