-- ==== Sys2Proof/Laws/Work.lean ====
section
/-! SUPPORT. What the shared operations of a command's work do. Two kinds of lemma: what an operation that ends changes
at most (`Only`), and that it ends, with what values, where memory holds the values it reads. -/

namespace Sys2Proof.Machine

/-! ### Sequencing -/

theorem bind_eq_ok {ε α β : Type} {x : Except ε α} {f : α → Except ε β} {b : β} :
    x.bind f = .ok b ↔ ∃ a, x = .ok a ∧ f a = .ok b := by
  cases x with
  | error e => simp [Except.bind]
  | ok a => simp [Except.bind]

theorem bind_ok {ε α β : Type} (a : α) (f : α → Except ε β) : (Except.ok a).bind f = f a := rfl

theorem bind_of_ok {ε α β : Type} {x : Except ε α} {a : α} (h : x = .ok a) (f : α → Except ε β) : x.bind f = f a := by
  rw [h]; rfl

/-! ### What an operation changes at most -/

/-- With caching disabled every probe computes the mask afresh (R264). -/
theorem probe_uncached {c : Config} (h : c.featCacheEn = false) (w : Word32) : probe c w = (freshMask c, w) := by
  simp [probe, h]

/-- A probe that finds the cache filled reads it (R264). -/
theorem probe_filled {c : Config} (h : c.featCacheEn = true) {w : Word32} (hw : w ≠ 0) :
    probe c w = (w.setWidth 6, w) := by
  have : (w != 0) = true := by simpa using hw
  simp only [probe, h, this, Bool.and_self, if_true]

/-- A probe that finds the cache empty stores the mask it computes (R264): storing a zero mask would change nothing. -/
theorem probe_empty {c : Config} (h : c.featCacheEn = true) : probe c 0 = (freshMask c, (freshMask c).setWidth 32) := by
  have h0 : ((0 : Word32) != 0) = false := rfl
  simp only [probe, h, h0, Bool.and_false, Bool.false_eq_true, if_false, Bool.true_and, beq_self_eq_true, Bool.and_true]
  by_cases hm : freshMask c = 0
  · rw [hm]; rfl
  · have : (freshMask c != 0) = true := by simpa using hm
    rw [if_pos this]

/-- A second probe changes nothing more (R264). -/
theorem probe_probe (c : Config) (w : Word32) : (probe c (probe c w).2).2 = (probe c w).2 := by
  by_cases h : c.featCacheEn = true
  · by_cases hw : w = 0
    · subst hw
      rw [probe_empty h]
      by_cases hm : (freshMask c).setWidth 32 = (0 : Word32)
      · rw [hm, probe_empty h, hm]
      · rw [probe_filled h hm]
    · rw [probe_filled h hw, probe_filled h hw]
  · rw [Bool.not_eq_true] at h
    rw [probe_uncached h, probe_uncached h]

/-- While the cache is coherent, every probe reports the same mask (R54, R263). -/
theorem probe_coherent {c : Config} {w : Word32} (h : cacheCoherent c w = true) : (probe c w).1 = freshMask c := by
  by_cases he : c.featCacheEn = true
  · by_cases hw : w = 0
    · subst hw; rw [probe_empty he]
    · rw [probe_filled he hw]
      simp only [cacheCoherent, he, Bool.true_and, Bool.or_eq_true, beq_iff_eq, hw, false_or] at h
      subst h
      simp
  · rw [Bool.not_eq_true] at he
    rw [probe_uncached he]

/-- A probe leaves the cache coherent (R44). -/
theorem probe_keeps_coherent {c : Config} {w : Word32} (h : cacheCoherent c w = true) :
    cacheCoherent c (probe c w).2 = true := by
  by_cases he : c.featCacheEn = true
  · by_cases hw : w = 0
    · subst hw; rw [probe_empty he]; simp [cacheCoherent, he]
    · rw [probe_filled he hw]; exact h
  · rw [Bool.not_eq_true] at he
    rw [probe_uncached he]; exact h

theorem cacheStep_coherent {c : Config} {w w' : Word32} (hs : cacheStep c w w') (h : cacheCoherent c w = true) :
    cacheCoherent c w' = true := by
  rcases hs with rfl | rfl
  · exact h
  · exact probe_keeps_coherent h

theorem cacheStep_refl (c : Config) (w : Word32) : cacheStep c w w := .inl rfl

theorem cacheStep_trans {c : Config} {w1 w2 w3 : Word32} (h : cacheStep c w1 w2) (h' : cacheStep c w2 w3) :
    cacheStep c w1 w3 := by
  rcases h with rfl | rfl
  · exact h'
  · rcases h' with rfl | rfl
    · exact .inr rfl
    · exact .inr (probe_probe c w1)

/-- From `w` to `w'`, memory changed at addresses that satisfy `P` only; which addresses are admitted, the allocation
draws and the scratch did not change, and the feature cache at most by a probe. -/
structure Moved (c : Config) (P : Int → Prop) (w w' : Work) : Prop where
  outside : ∀ a, ¬ P a → w'.mem.atAddr a = w.mem.atAddr a
  keys : w'.mem.keys = w.mem.keys
  legal : w.mem.legal c.ty = true → w'.mem.legal c.ty = true
  allocs : w'.allocs = w.allocs
  bsBase : w'.bsBase = w.bsBase
  cache : cacheStep c w.featCache w'.featCache

theorem Moved.refl (c : Config) (P : Int → Prop) (w : Work) : Moved c P w w :=
  ⟨fun _ _ => rfl, rfl, id, rfl, rfl, cacheStep_refl _ _⟩

theorem Moved.trans {c : Config} {P : Int → Prop} {w1 w2 w3 : Work} (h : Moved c P w1 w2) (h' : Moved c P w2 w3) :
    Moved c P w1 w3 :=
  ⟨fun a ha => (h'.outside a ha).trans (h.outside a ha), h'.keys.trans h.keys, fun hl => h'.legal (h.legal hl),
    h'.allocs.trans h.allocs, h'.bsBase.trans h.bsBase, cacheStep_trans h.cache h'.cache⟩

theorem Moved.mono {c : Config} {P Q : Int → Prop} (hPQ : ∀ a, P a → Q a) {w w' : Work} (h : Moved c P w w') :
    Moved c Q w w' :=
  { h with outside := fun a ha => h.outside a fun hp => ha (hPQ a hp) }

/-- A change of the sequencer, the transient state, the draw counter or the evaluated mask moves nothing. -/
theorem Moved.of_eq {c : Config} {P : Int → Prop} {w w' : Work} (hm : w'.mem = w.mem) (ha : w'.allocs = w.allocs)
    (hb : w'.bsBase = w.bsBase) (hc : w'.featCache = w.featCache) : Moved c P w w' :=
  ⟨fun _ _ => by rw [hm], by rw [hm], by rw [hm]; exact id, ha, hb, .inl hc⟩

theorem goto_moved (c : Config) (P : Int → Prop) (w : Work) (f : Fsm) : Moved c P w (w.goto f) := .of_eq rfl rfl rfl rfl
theorem gotoPot_moved (c : Config) (P : Int → Prop) (w : Work) (f : Fsm) : Moved c P w (w.gotoPot f) :=
  .of_eq rfl rfl rfl rfl

/-- Where the operation ends, it moves at most what `P` allows. -/
def Only (c : Config) (P : Int → Prop) (op : Work → Except Fault Work) : Prop := ∀ w w', op w = .ok w' → Moved c P w w'

theorem Only.mono {c : Config} {P Q : Int → Prop} (hPQ : ∀ a, P a → Q a) {op : Work → Except Fault Work}
    (h : Only c P op) : Only c Q op := fun w w' hw => (h w w' hw).mono hPQ

theorem Only.bind {c : Config} {P : Int → Prop} {op op' : Work → Except Fault Work} (h : Only c P op)
    (h' : Only c P op') : Only c P (fun w => (op w).bind op') := by
  intro w w' hw
  obtain ⟨w1, h1, h2⟩ := bind_eq_ok.1 hw
  exact (h w w1 h1).trans (h' w1 w' h2)

theorem Only.forUp {c : Config} {P : Int → Prop} {n : Nat} {f : Nat → Work → Except Fault Work}
    (h : ∀ k, k < n → Only c P (f k)) : Only c P (forUp n f) := by
  induction n with
  | zero => intro w w' hw; simp only [Machine.forUp, Except.ok.injEq] at hw; subst hw; exact .refl _ _ _
  | succ n ih => exact Only.bind (ih fun k hk => h k (by omega)) (h n (by omega))

/-- An operation that starts from changed sequencer or transient state. -/
theorem Only.after {c : Config} {P : Int → Prop} {op : Work → Except Fault Work} (h : Only c P op) {w w' w0 : Work}
    (hw : op w0 = .ok w') (h0 : Moved c P w w0) : Moved c P w w' := h0.trans (h w0 w' hw)

/-! ### Single accesses -/

theorem memWrite_eq_ok {a : Int} {v : Elem} {w w' : Work} :
    memWrite a v w = .ok w' ↔ ∃ m, w.mem.setAddr a v = some m ∧ w' = { w with mem := m } := by
  simp only [memWrite]
  cases h : w.mem.setAddr a v <;> simp [eq_comm]

theorem memRead_eq_ok {a : Int} {w : Work} {x : Elem} : memRead a w = .ok x ↔ w.mem.atAddr a = some x := by
  simp only [memRead]
  cases h : w.mem.atAddr a <;> simp

/-- A store to an address that is not admitted is stuck (R82). -/
theorem memWrite_stuck {a : Int} {v : Elem} {w : Work} (h : w.mem.atAddr a = none) : memWrite a v w = .error .stuck := by
  simp only [memWrite]
  cases hs : w.mem.setAddr a v with
  | none => rfl
  | some m => have := Mem.setAddr_isSome_at hs; rw [h] at this; simp at this

theorem dstWrite_moved {c : Config} {P : Int → Prop} {v : View} {i : Nat} {x : Elem} (hP : P (v.addr i)) {w w' : Work}
    (hx : w.mem.legal c.ty = true → c.ty.legal x = true) (h : dstWrite v i x w = .ok w') : Moved c P w w' := by
  obtain ⟨m, hm, rfl⟩ := memWrite_eq_ok.1 h
  refine ⟨fun a ha => ?_, Mem.setAddr_keys hm, fun hl => Mem.setAddr_legal hm (hx hl) hl, rfl, rfl, .inl rfl⟩
  rw [Mem.setAddr_at hm, if_neg]
  rintro rfl; exact ha hP

theorem dstWrite_eq {v : View} {i : Nat} {x : Elem} {w w' : Work} (h : dstWrite v i x w = .ok w') :
    w' = { w with mem := w'.mem } := by
  obtain ⟨m, hm, rfl⟩ := memWrite_eq_ok.1 h; rfl

theorem cxWrite_moved {c : Config} {P : Int → Prop} {vr vi : View} {i : Nat} {z : Cx} (hr : P (vr.addr i))
    (hi : P (vi.addr i)) (hz : legalCx c.ty z) {w w' : Work} (h : cxWrite vr vi i z w = .ok w') : Moved c P w w' := by
  obtain ⟨w1, h1, h2⟩ := bind_eq_ok.1 h
  exact (dstWrite_moved hr (fun _ => hz.1) h1).trans (dstWrite_moved hi (fun _ => hz.2) h2)

theorem cxWrite_only {c : Config} {P : Int → Prop} {vr vi : View} {i : Nat} {z : Cx} (hr : P (vr.addr i))
    (hi : P (vi.addr i)) (hz : legalCx c.ty z) : Only c P (cxWrite vr vi i z) := fun _ _ h => cxWrite_moved hr hi hz h

/-- A configuration that differs in its element type only, and for which every element is a value of `T`: what an
operation leaves alone does not depend on the type. -/
def anyElem (c : Config) : Config := { c with ty := .fix }

theorem anyElem_legal (c : Config) (z : Cx) : legalCx (anyElem c).ty z := open_legal _ rfl z

/-- Where memory holds a stray element to begin with, nothing is claimed of the elements it holds afterwards. -/
theorem Moved.unlawful {c : Config} {P : Int → Prop} {w w' : Work} (h : Moved (anyElem c) P w w')
    (hl : ¬ w.mem.legal c.ty = true) : Moved c P w w' :=
  ⟨h.outside, h.keys, fun hw => absurd hw hl, h.allocs, h.bsBase, h.cache⟩

theorem srcRead_legal {t : Ty} {v : View} {i : Nat} {w : Work} {x : Elem} (h : srcRead t v i w = .ok x)
    (hl : w.mem.legal t = true) : t.legal x = true := by
  simp only [srcRead] at h
  split at h
  · simp only [Except.ok.injEq] at h; subst h; exact zero_legal _
  · exact Mem.atAddr_legal (memRead_eq_ok.1 h) hl

theorem cxRead_legal {t : Ty} {vr vi : View} {k : Nat} {w : Work} {z : Cx} (h : cxRead vr vi k w = .ok z)
    (hl : w.mem.legal t = true) : legalCx t z := by
  obtain ⟨x, hx, h⟩ := bind_eq_ok.1 h
  obtain ⟨y, hy, h⟩ := bind_eq_ok.1 h
  simp only [Except.ok.injEq] at h; subst h
  exact ⟨Mem.atAddr_legal (memRead_eq_ok.1 hx) hl, Mem.atAddr_legal (memRead_eq_ok.1 hy) hl⟩

/-! ### Lists of accesses -/

theorem readFrom_legal {t : Ty} {v : View} {w : Work} {i len : Nat} {xs : List Elem} (h : readFrom t v w i len = .ok xs)
    (hl : w.mem.legal t = true) : ∀ x ∈ xs, t.legal x = true := by
  induction len generalizing i xs with
  | zero => simp only [readFrom, Except.ok.injEq] at h; subst h; simp
  | succ n ih =>
    obtain ⟨x, hx, h⟩ := bind_eq_ok.1 h
    obtain ⟨ys, hys, h⟩ := bind_eq_ok.1 h
    simp only [Except.ok.injEq] at h; subst h
    intro y hy
    rcases List.mem_cons.1 hy with rfl | hy
    · exact srcRead_legal hx hl
    · exact ih hys y hy

theorem readFrom_length {t : Ty} {v : View} {w : Work} {i len : Nat} {xs : List Elem}
    (h : readFrom t v w i len = .ok xs) : xs.length = len := by
  induction len generalizing i xs with
  | zero => simp only [readFrom, Except.ok.injEq] at h; subst h; rfl
  | succ n ih =>
    obtain ⟨x, hx, h⟩ := bind_eq_ok.1 h
    obtain ⟨ys, hys, h⟩ := bind_eq_ok.1 h
    simp only [Except.ok.injEq] at h; subst h
    simp [ih hys]

/-- Reading ahead gives the values the view reads. -/
theorem readFrom_eq {t : Ty} {v : View} {w : Work} {g : Nat → Elem} {i len : Nat}
    (h : ∀ j, i ≤ j → j < i + len → srcRead t v j w = .ok (g j)) :
    readFrom t v w i len = .ok ((List.range len).map (fun j => g (i + j))) := by
  induction len generalizing i with
  | zero => rfl
  | succ n ih =>
    rw [readFrom, h i (by omega) (by omega), bind_ok, ih fun j h1 h2 => h j (by omega) (by omega), bind_ok,
      List.range_succ_eq_map, List.map_cons, List.map_map]
    congr 3
    funext j
    simp only [Function.comp, Nat.succ_eq_add_one]
    congr 1; omega

theorem storeAt_ends {c : Config} {L : Prop} {v : View} {p : Nat → Nat} {xs : List Elem} {i : Nat} {P : Int → Prop}
    (hP : ∀ j, i ≤ j → j < i + xs.length → P (v.addr (p j))) {w w' : Work} (hx : L → ∀ x ∈ xs, c.ty.legal x = true)
    (h : storeAt v p xs i w = .ok w') :
    (∀ a, ¬ P a → w'.mem.atAddr a = w.mem.atAddr a) ∧ w'.mem.keys = w.mem.keys
      ∧ (L → w.mem.legal c.ty = true → w'.mem.legal c.ty = true) ∧ w' = { w with mem := w'.mem } := by
  induction xs generalizing i w with
  | nil =>
    simp only [storeAt, Except.ok.injEq] at h; subst h
    exact ⟨fun _ _ => rfl, rfl, fun _ h => h, rfl⟩
  | cons x xs ih =>
    obtain ⟨w1, h1, h2⟩ := bind_eq_ok.1 h
    rw [List.length_cons] at hP
    obtain ⟨m, hm, rfl⟩ := memWrite_eq_ok.1 h1
    obtain ⟨a1, a2, a3, a4⟩ := ih (fun j hj hj' => hP j (by omega) (by omega)) (fun hl y hy => hx hl y (by simp [hy])) h2
    refine ⟨fun a ha => ?_, a2.trans (Mem.setAddr_keys hm), fun hL hl => a3 hL (Mem.setAddr_legal hm (hx hL x (by simp)) hl), a4⟩
    rw [a1 a ha, Mem.setAddr_at hm, if_neg]
    rintro rfl; exact ha (hP i (by omega) (by omega))

theorem storeCx_moved {c : Config} {P : Int → Prop} {vr vi : View} {zs : List Cx} {k : Nat}
    (hr : ∀ j, k ≤ j → j < k + zs.length → P (vr.addr j)) (hi : ∀ j, k ≤ j → j < k + zs.length → P (vi.addr j))
    (hz : ∀ z ∈ zs, legalCx c.ty z) {w w' : Work} (h : storeCx vr vi zs k w = .ok w') : Moved c P w w' := by
  induction zs generalizing k w with
  | nil => simp only [storeCx, Except.ok.injEq] at h; subst h; exact .refl _ _ _
  | cons z zs ih =>
    obtain ⟨w1, h1, h2⟩ := bind_eq_ok.1 h
    rw [List.length_cons] at hr hi
    exact (cxWrite_moved (hr k (by omega) (by omega)) (hi k (by omega) (by omega)) (hz z (by simp)) h1).trans
      (ih (fun j hj hj' => hr j (by omega) (by omega)) (fun j hj hj' => hi j (by omega) (by omega))
        (fun y hy => hz y (by simp [hy])) h2)

end Sys2Proof.Machine
end

