-- ==== Sys2Proof/Laws/Holds.lean ====
section
/-! SUPPORT. Where memory holds the values an operation reads, the operation ends, and memory holds the values it
writes: single accesses, lists of accesses, loops, and the bit reversal (R190). -/

namespace Sys2Proof.Machine

/-! ### Loops -/

/-- A loop carries an invariant from its start to its end. -/
theorem forUp_total {n : Nat} {f : Nat → Work → Except Fault Work} {I : Nat → Work → Prop} {w : Work} (h0 : I 0 w)
    (hs : ∀ k, k < n → ∀ w, I k w → ∃ w', f k w = .ok w' ∧ I (k + 1) w') : ∃ w', forUp n f w = .ok w' ∧ I n w' := by
  induction n with
  | zero => exact ⟨w, rfl, h0⟩
  | succ n ih =>
    obtain ⟨w1, h1, hi⟩ := ih fun k hk => hs k (by omega)
    obtain ⟨w2, h2, hi2⟩ := hs n (by omega) w1 hi
    exact ⟨w2, by rw [forUp, h1]; exact h2, hi2⟩

/-! ### Holding -/

theorem HoldsAt.congr {m : Mem} {v : View} {n : Nat} {f g : Nat → Elem} (h : HoldsAt m v n f) (hfg : ∀ i, i < n → f i = g i) :
    HoldsAt m v n g := fun i hi => by rw [h i hi, hfg i hi]

theorem HoldsAt.mono {m : Mem} {v : View} {n k : Nat} {f : Nat → Elem} (h : HoldsAt m v n f) (hk : k ≤ n) :
    HoldsAt m v k f := fun i hi => h i (by omega)

/-- Holding is a property of the addresses of the view. -/
theorem HoldsAt.of_same {m m' : Mem} {v : View} {n : Nat} {f : Nat → Elem} (h : HoldsAt m v n f)
    (hs : ∀ i, i < n → m'.atAddr (v.addr i) = m.atAddr (v.addr i)) : HoldsAt m' v n f :=
  fun i hi => (hs i hi).trans (h i hi)

theorem Holds.congr {m : Mem} {vr vi : View} {n : Nat} {f g : Stream} (h : Holds m vr vi n f)
    (hfg : ∀ i, i < n → f i = g i) : Holds m vr vi n g :=
  ⟨h.1.congr fun i hi => by rw [hfg i hi], h.2.congr fun i hi => by rw [hfg i hi]⟩

theorem Holds.of_same {m m' : Mem} {vr vi : View} {n : Nat} {f : Stream} (h : Holds m vr vi n f)
    (hr : ∀ i, i < n → m'.atAddr (vr.addr i) = m.atAddr (vr.addr i))
    (hi : ∀ i, i < n → m'.atAddr (vi.addr i) = m.atAddr (vi.addr i)) : Holds m' vr vi n f :=
  ⟨h.1.of_same hr, h.2.of_same hi⟩

/-- An admitted view holds what it reads. -/
theorem HoldsAt.of_admitted {m : Mem} {v : View} {n : Nat} (h : ∀ i, i < n → (m.atAddr (v.addr i)).isSome = true) :
    HoldsAt m v n (fun i => (m.atAddr (v.addr i)).getD default) := fun i hi => by
  obtain ⟨x, hx⟩ := Option.isSome_iff_exists.1 (h i hi)
  simp [hx]

theorem Holds.of_admitted {m : Mem} {vr vi : View} {n : Nat} (hr : ∀ i, i < n → (m.atAddr (vr.addr i)).isSome = true)
    (hi : ∀ i, i < n → (m.atAddr (vi.addr i)).isSome = true) : Holds m vr vi n (streamOf m vr vi) :=
  ⟨.of_admitted hr, .of_admitted hi⟩

/-- What memory holds at a pair of views is what the views read. -/
theorem Holds.eq_streamOf {m : Mem} {vr vi : View} {n : Nat} {f : Stream} (h : Holds m vr vi n f) {i : Nat} (hi : i < n) :
    streamOf m vr vi i = f i := by simp [streamOf, h.1 i hi, h.2 i hi]

/-- Two streams that do not share an address and move from position to position. -/
structure Pair (vr vi : View) (n : Nat) : Prop where
  strideRe : vr.stride ≠ 0
  strideIm : vi.stride ≠ 0
  apart : ∀ i j, i < n → j < n → vr.addr i ≠ vi.addr j

theorem PairReady.pair {m : Mem} {vr vi : View} (h : PairReady m vr vi) {n : Nat} (hr : vr.count = n) (hi : vi.count = n) :
    Pair vr vi n := ⟨h.strideRe, h.strideIm, fun i j h1 h2 => h.apart i j (by omega) (by omega)⟩

/-- The addresses of a pair of streams. -/
def Touch (vr vi : View) (n : Nat) (a : Int) : Prop := ∃ i, i < n ∧ (vr.addr i = a ∨ vi.addr i = a)

theorem touch_re {vr vi : View} {n i : Nat} (h : i < n) : Touch vr vi n (vr.addr i) := ⟨i, h, .inl rfl⟩
theorem touch_im {vr vi : View} {n i : Nat} (h : i < n) : Touch vr vi n (vi.addr i) := ⟨i, h, .inr rfl⟩

/-- The addresses of one stream. -/
def TouchOne (v : View) (n : Nat) (a : Int) : Prop := ∃ i, i < n ∧ v.addr i = a

theorem Touch.of_re {vr vi : View} {n : Nat} {a : Int} (h : TouchOne vr n a) : Touch vr vi n a :=
  let ⟨i, hi, h⟩ := h; ⟨i, hi, .inl h⟩
theorem Touch.of_im {vr vi : View} {n : Nat} {a : Int} (h : TouchOne vi n a) : Touch vr vi n a :=
  let ⟨i, hi, h⟩ := h; ⟨i, hi, .inr h⟩

/-! ### Single accesses -/

theorem dstWrite_holds {v : View} {n : Nat} {f : Nat → Elem} {w : Work} (hs : v.stride ≠ 0) (h : HoldsAt w.mem v n f)
    {k : Nat} (hk : k < n) (x : Elem) : ∃ m', dstWrite v k x w = .ok { w with mem := m' }
      ∧ HoldsAt m' v n (Function.update f k x) ∧ ∀ a, a ≠ v.addr k → m'.atAddr a = w.mem.atAddr a := by
  obtain ⟨m', hm⟩ := Mem.setAddr_isSome (v := x) (m := w.mem) (a := v.addr k) (by rw [h k hk]; rfl)
  refine ⟨m', memWrite_eq_ok.2 ⟨m', hm, rfl⟩, fun i hi => ?_, fun a ha => by rw [Mem.setAddr_at hm, if_neg ha]⟩
  rw [Mem.setAddr_at hm, Function.update_apply]
  by_cases hik : i = k
  · subst hik; simp
  · rw [if_neg fun he => hik (View.addr_inj hs he), if_neg hik, h i hi]

theorem dstRead_holds {v : View} {n : Nat} {f : Nat → Elem} {w : Work} (h : HoldsAt w.mem v n f) {k : Nat} (hk : k < n) :
    dstRead v k w = .ok (f k) := memRead_eq_ok.2 (h k hk)

theorem cxRead_holds {vr vi : View} {n : Nat} {f : Stream} {w : Work} (h : Holds w.mem vr vi n f) {k : Nat} (hk : k < n) :
    cxRead vr vi k w = .ok (f k) := by
  rw [cxRead, dstRead_holds h.1 hk, bind_ok, dstRead_holds h.2 hk, bind_ok]

theorem cxWrite_holds {vr vi : View} {n : Nat} {f : Stream} {w : Work} (hp : Pair vr vi n) (h : Holds w.mem vr vi n f)
    {k : Nat} (hk : k < n) (z : Cx) : ∃ m', cxWrite vr vi k z w = .ok { w with mem := m' }
      ∧ Holds m' vr vi n (Function.update f k z)
      ∧ ∀ a, a ≠ vr.addr k → a ≠ vi.addr k → m'.atAddr a = w.mem.atAddr a := by
  obtain ⟨m1, h1, hr, ho1⟩ := dstWrite_holds hp.strideRe h.1 hk z.re
  have hi1 : HoldsAt m1 vi n (fun i => (f i).im) :=
    h.2.of_same fun i hi => ho1 _ fun he => hp.apart k i hk hi he.symm
  obtain ⟨m2, h2, hi, ho2⟩ := dstWrite_holds (w := { w with mem := m1 }) hp.strideIm hi1 hk z.im
  have hr2 : HoldsAt m2 vr n (Function.update (fun i => (f i).re) k z.re) :=
    hr.of_same fun i hi => ho2 _ (hp.apart i k hi hk)
  refine ⟨m2, by rw [cxWrite, h1]; exact h2, ⟨hr2.congr fun i _ => ?_, hi.congr fun i _ => ?_⟩, fun a ha ha' => ?_⟩
  · simp only [Function.update_apply]; split <;> rfl
  · simp only [Function.update_apply]; split <;> rfl
  · exact (ho2 a ha').trans (ho1 a ha)

/-! ### Lists of accesses -/

/-- A list of complex values, written from position `k` on. -/
theorem storeCx_holds {vr vi : View} {n : Nat} {f : Stream} {w : Work} (hp : Pair vr vi n) (h : Holds w.mem vr vi n f)
    {zs : List Cx} {k : Nat} (hk : k + zs.length ≤ n) : ∃ m', storeCx vr vi zs k w = .ok { w with mem := m' }
      ∧ Holds m' vr vi n (fun i => if k ≤ i ∧ i < k + zs.length then zs.getD (i - k) default else f i)
      ∧ ∀ a, ¬ Touch vr vi n a → m'.atAddr a = w.mem.atAddr a := by
  induction zs generalizing k w f with
  | nil =>
    refine ⟨w.mem, rfl, h.congr fun i _ => ?_, fun _ _ => rfl⟩
    rw [if_neg]; simp
  | cons z zs ih =>
    rw [List.length_cons] at hk
    obtain ⟨m1, h1, hh, ho⟩ := cxWrite_holds hp h (show k < n by omega) z
    obtain ⟨m2, h2, hh2, ho2⟩ := ih (w := { w with mem := m1 }) hh (k := k + 1) (by omega)
    refine ⟨m2, by rw [storeCx, h1]; exact h2, hh2.congr fun i hi => ?_, fun a ha => (ho2 a ha).trans (ho a ?_ ?_)⟩
    · simp only [Function.update_apply, List.length_cons]
      by_cases hik : i = k
      · subst hik; rw [if_neg (by omega), if_pos rfl, if_pos (by omega)]; simp
      · by_cases hr : k + 1 ≤ i ∧ i < k + 1 + zs.length
        · rw [if_pos hr, if_pos (by omega)]
          have : i - k = (i - (k + 1)) + 1 := by omega
          rw [this, List.getD_cons_succ]
        · rw [if_neg hr, if_neg hik, if_neg (by omega)]
    · rintro rfl; exact ha (touch_re (by omega))
    · rintro rfl; exact ha (touch_im (by omega))

/-- A list of elements, written to the reversed positions from index `i` on (R190). -/
theorem storeAt_rev_holds {v : View} {l : Nat} {f : Nat → Elem} {w : Work} (hs : v.stride ≠ 0)
    (h : HoldsAt w.mem v (2 ^ l) f) {xs : List Elem} {i : Nat} (hi : i + xs.length ≤ 2 ^ l) :
    ∃ m', storeAt v (fun i => rev i l) xs i w = .ok { w with mem := m' }
      ∧ HoldsAt m' v (2 ^ l) (fun j => if i ≤ rev j l ∧ rev j l < i + xs.length then xs.getD (rev j l - i) default else f j) := by
  induction xs generalizing i w f with
  | nil =>
    refine ⟨w.mem, rfl, h.congr fun j _ => ?_⟩
    rw [if_neg]; simp
  | cons x xs ih =>
    rw [List.length_cons] at hi
    obtain ⟨m1, h1, hh, -⟩ := dstWrite_holds hs h (rev_lt i l) x
    obtain ⟨m2, h2, hh2⟩ := ih (w := { w with mem := m1 }) hh (i := i + 1) (by omega)
    refine ⟨m2, by rw [storeAt, h1]; exact h2, hh2.congr fun j hj => ?_⟩
    simp only [Function.update_apply, List.length_cons]
    by_cases hji : rev j l = i
    · have : j = rev i l := by rw [← hji, rev_rev hj]
      rw [if_neg (by omega), if_pos this, if_pos (by omega), hji]; simp
    · have hne : j ≠ rev i l := by rintro rfl; exact hji (rev_rev (by omega))
      by_cases hr : i + 1 ≤ rev j l ∧ rev j l < i + 1 + xs.length
      · rw [if_pos hr, if_pos (by omega)]
        have : rev j l - i = (rev j l - (i + 1)) + 1 := by omega
        rw [this, List.getD_cons_succ]
      · rw [if_neg hr, if_neg hne, if_neg (by omega)]

/-! ### Bit reversal -/

/-- The result of the bit reversal (R190): position `rev(i, L)` takes what was read at `i`. -/
theorem bitRev_holds {t : Ty} {src dst : View} {l : Nat} {w : Work} {g f : Nat → Elem} (hs : dst.stride ≠ 0)
    (hsrc : ∀ i, i < 2 ^ l → srcRead t src i w = .ok (g i)) (hdst : HoldsAt w.mem dst (2 ^ l) f) :
    ∃ m', bitRev t src dst l w = .ok { w with mem := m' } ∧ HoldsAt m' dst (2 ^ l) (fun i => g (rev i l)) := by
  have hr := readFrom_eq (t := t) (v := src) (w := w) (g := g) (i := 0) (len := 2 ^ l)
    fun j _ hj => hsrc j (by omega)
  obtain ⟨m', h1, h2⟩ := storeAt_rev_holds hs hdst (xs := (List.range (2 ^ l)).map (fun j => g (0 + j))) (i := 0) (by simp)
  refine ⟨m', by rw [bitRev, hr]; exact h1, h2.congr fun i _ => ?_⟩
  have := rev_lt i l
  rw [if_pos (by simpa using this)]
  simp [List.getD_eq_getElem?_getD, this]

/-- The bit reversal changes its destination only, and moves elements only (R190, R191). -/
theorem bitRev_only (c : Config) (src dst : View) (l : Nat) : Only c (TouchOne dst (2 ^ l)) (bitRev c.ty src dst l) := by
  intro w w' h
  obtain ⟨xs, hx, h⟩ := bind_eq_ok.1 h
  obtain ⟨h1, h2, h3, h4⟩ := storeAt_ends (c := c) (L := w.mem.legal c.ty = true) (P := TouchOne dst (2 ^ l))
    (fun j _ _ => ⟨rev j l, rev_lt j l, rfl⟩) (fun hl => readFrom_legal hx hl) h
  exact ⟨h1, h2, fun hl => h3 hl hl, by rw [h4], by rw [h4], by rw [h4]; exact .inl rfl⟩

/-- A view that is not null reads what memory holds. -/
theorem srcRead_holds {t : Ty} {v : View} {n : Nat} {f : Nat → Elem} {w : Work} (hb : v.base ≠ 0)
    (h : HoldsAt w.mem v n f) {k : Nat} (hk : k < n) : srcRead t v k w = .ok (f k) := by
  rw [srcRead, View.isNull_false hb]; exact dstRead_holds h hk

/-- A source that is null or admitted reads the values `srcValue` names (R83). -/
theorem srcRead_readable {t : Ty} {v : View} {w : Work} (h : v.Readable w.mem) {k : Nat} (hk : k < v.count) :
    srcRead t v k w = .ok (srcValue t w.mem v k) := by
  rw [srcRead, srcValue]
  by_cases hn : v.isNull = true
  · rw [if_pos hn, if_pos hn]
  · rw [if_neg hn, if_neg hn]
    obtain ⟨x, hx⟩ := Option.isSome_iff_exists.1 ((h.resolve_left hn) k hk)
    rw [hx]; exact memRead_eq_ok.2 hx

/-- The bit reversal in place (R190). -/
theorem bitRevIn_holds {t : Ty} {v : View} {l : Nat} {w : Work} {f : Nat → Elem} (hs : v.stride ≠ 0) (hb : v.base ≠ 0)
    (h : HoldsAt w.mem v (2 ^ l) f) :
    ∃ m', bitRevIn t v l w = .ok { w with mem := m' } ∧ HoldsAt m' v (2 ^ l) (fun i => f (rev i l)) :=
  bitRev_holds hs (fun _ hi => srcRead_holds hb h hi) h

theorem bitRevIn_only (c : Config) (v : View) (l : Nat) : Only c (TouchOne v (2 ^ l)) (bitRevIn c.ty v l) :=
  bitRev_only c v v l

end Sys2Proof.Machine
end

