-- ==== Sys2Proof/Laws/Pass.lean ====
section
/-! SUPPORT. The butterfly, the radix-2 pass in its two modes and the radix-8 kernel: where memory holds the streams,
each ends, and memory holds what Values.lean says (R220–R228). -/

namespace Sys2Proof.Machine

/-! ### The butterfly -/

/-- A pair of streams after one butterfly (R220). -/
def bfV (t : Ty) (lo hi : Nat) (tw : Cx) (f : Stream) : Stream :=
  Function.update (Function.update f lo (cadd t (f lo) (cmul t (f hi) tw))) hi (csub t (f lo) (cmul t (f hi) tw))

theorem bf_holds {t : Ty} {vr vi : View} {n : Nat} {f : Stream} {w : Work} (hp : Pair vr vi n)
    (h : Holds w.mem vr vi n f) {lo hi : Nat} (hlo : lo < n) (hhi : hi < n) (tw : Cx) :
    ∃ m', bf t vr vi lo hi tw w = .ok { w with mem := m' } ∧ Holds m' vr vi n (bfV t lo hi tw f) := by
  obtain ⟨m1, h1, hh1, -⟩ := cxWrite_holds hp h hlo (cadd t (f lo) (cmul t (f hi) tw))
  obtain ⟨m2, h2, hh2, -⟩ := cxWrite_holds (w := { w with mem := m1 }) hp hh1 hhi (csub t (f lo) (cmul t (f hi) tw))
  refine ⟨m2, ?_, hh2⟩
  rw [bf, cxRead_holds h hlo, bind_ok, cxRead_holds h hhi, bind_ok]
  simp only []
  rw [h1]; exact h2

theorem bf_only {c : Config} {P : Int → Prop} {vr vi : View} {lo hi : Nat} (h1 : P (vr.addr lo)) (h2 : P (vi.addr lo))
    (h3 : P (vr.addr hi)) (h4 : P (vi.addr hi)) (tw : Cx) : Only c P (bf c.ty vr vi lo hi tw) := by
  intro w w' h
  obtain ⟨l, hl, h⟩ := bind_eq_ok.1 h
  obtain ⟨x, hx, h⟩ := bind_eq_ok.1 h
  obtain ⟨w1, hw1, h⟩ := bind_eq_ok.1 h
  exact (cxWrite_moved h1 h2 (cadd_legal _ _ _) hw1).trans (cxWrite_moved h3 h4 (csub_legal _ _ _) h)

/-! ### The radix-2 pass -/

/-- A stream in the middle of pass `d`: the blocks below `b` are done, and in block `b` the pairs below `k`. -/
def partV (c : Config) (d : Nat) (σ : Dir) (b k : Nat) (f : Stream) : Stream := fun i =>
  if i / 2 ^ d < b ∨ i / 2 ^ d = b ∧ i % 2 ^ d % 2 ^ (d - 1) < k then passV c d σ f i else f i

theorem partV_zero (c : Config) (d : Nat) (σ : Dir) (f : Stream) : partV c d σ 0 0 f = f := by
  funext i; simp [partV]

theorem partV_block (c : Config) (d : Nat) (σ : Dir) (b : Nat) (f : Stream) :
    partV c d σ b (2 ^ (d - 1)) f = partV c d σ (b + 1) 0 f := by
  funext i
  have : i % 2 ^ d % 2 ^ (d - 1) < 2 ^ (d - 1) := Nat.mod_lt _ (Nat.two_pow_pos _)
  simp only [partV, this, and_true, Nat.not_lt_zero, and_false, or_false]
  congr 1
  simp only [eq_iff_iff]; omega

theorem partV_full {c : Config} {d : Nat} {σ : Dir} {lt : Nat} (hd : d ≤ lt) (f : Stream) {i : Nat} (hi : i < 2 ^ lt) :
    partV c d σ (2 ^ (lt - d)) 0 f i = passV c d σ f i := by
  have : i / 2 ^ d < 2 ^ (lt - d) := by
    rw [Nat.div_lt_iff_lt_mul (Nat.two_pow_pos _), ← pow_add]; rwa [Nat.sub_add_cancel hd]
  simp [partV, this]

/-- Where a position of a block lies. -/
theorem block_div {d b x : Nat} (hx : x < 2 ^ d) : (b * 2 ^ d + x) / 2 ^ d = b ∧ (b * 2 ^ d + x) % 2 ^ d = x := by
  rw [mul_comm]
  refine ⟨?_, ?_⟩
  · rw [Nat.mul_add_div (Nat.two_pow_pos _), Nat.div_eq_of_lt hx, Nat.add_zero]
  · rw [Nat.mul_add_mod, Nat.mod_eq_of_lt hx]

theorem block_lt {lt d b x : Nat} (hd : d ≤ lt) (hb : b < 2 ^ (lt - d)) (hx : x < 2 ^ d) : b * 2 ^ d + x < 2 ^ lt := by
  have h1 : (b + 1) * 2 ^ d ≤ 2 ^ (lt - d) * 2 ^ d := Nat.mul_le_mul_right _ hb
  rw [← pow_add, Nat.sub_add_cancel hd] at h1
  rw [Nat.add_mul] at h1; omega

/-- One butterfly of a pass takes the stream one pair further. -/
theorem bfV_partV {c : Config} {d : Nat} {σ : Dir} {b k : Nat} (hd : 1 ≤ d) (hk : k < 2 ^ (d - 1)) (f : Stream) :
    bfV c.ty (b * 2 ^ d + k) (b * 2 ^ d + k + 2 ^ (d - 1)) (passTwiddle c d σ k) (partV c d σ b k f)
      = partV c d σ b (k + 1) f := by
  have hpow : 2 ^ d = 2 * 2 ^ (d - 1) := by rw [← pow_succ', Nat.sub_add_cancel hd]
  have hh := Nat.two_pow_pos (d - 1)
  obtain ⟨a1, a2⟩ := block_div (b := b) (show k < 2 ^ d by omega)
  obtain ⟨b1, b2⟩ := block_div (b := b) (show k + 2 ^ (d - 1) < 2 ^ d by omega)
  rw [← Nat.add_assoc] at b1 b2
  have a3 : k % 2 ^ (d - 1) = k := Nat.mod_eq_of_lt hk
  have b3 : (k + 2 ^ (d - 1)) % 2 ^ (d - 1) = k := by rw [Nat.add_mod_right, a3]
  have elo : partV c d σ b k f (b * 2 ^ d + k) = f (b * 2 ^ d + k) := by simp [partV, a1, a2, a3]
  have ehi : partV c d σ b k f (b * 2 ^ d + k + 2 ^ (d - 1)) = f (b * 2 ^ d + k + 2 ^ (d - 1)) := by
    simp [partV, b1, b2, b3]
  funext i
  simp only [bfV, Function.update_apply, elo, ehi]
  by_cases hi : i = b * 2 ^ d + k + 2 ^ (d - 1)
  · subst hi
    rw [if_pos rfl, partV, b1, b2, b3, if_pos (by omega), passV]
    simp only [b2]
    rw [if_neg (by omega)]
    simp only [Nat.add_sub_cancel]
  · rw [if_neg hi]
    by_cases hl : i = b * 2 ^ d + k
    · subst hl
      rw [if_pos rfl, partV, a1, a2, a3, if_pos (by omega), passV]
      simp only [a2]
      rw [if_pos (by omega)]
    · rw [if_neg hl, partV, partV]
      congr 1
      simp only [eq_iff_iff]
      have hm : i % 2 ^ d < 2 ^ d := Nat.mod_lt _ (Nat.two_pow_pos _)
      have hdm := Nat.div_add_mod i (2 ^ d)
      have hne : i / 2 ^ d = b → i % 2 ^ d % 2 ^ (d - 1) ≠ k := by
        intro hb he
        rw [hb, mul_comm] at hdm
        by_cases hx : i % 2 ^ d < 2 ^ (d - 1)
        · rw [Nat.mod_eq_of_lt hx] at he; omega
        · have h2 : i % 2 ^ d = i % 2 ^ d - 2 ^ (d - 1) + 2 ^ (d - 1) := by omega
          rw [h2, Nat.add_mod_right, Nat.mod_eq_of_lt (by omega)] at he; omega
      constructor
      · rintro (h | ⟨h, h'⟩)
        · exact .inl h
        · exact .inr ⟨h, by omega⟩
      · rintro (h | ⟨h, h'⟩)
        · exact .inl h
        · exact .inr ⟨h, by have := hne h; omega⟩

theorem passFlat_holds {c : Config} {vr vi : View} {lt d : Nat} {σ : Dir} {f : Stream} {w : Work}
    (hp : Pair vr vi (2 ^ lt)) (h : Holds w.mem vr vi (2 ^ lt) f) (h1 : 1 ≤ d) (hd : d ≤ lt) (hb : d ≤ c.lbuf) :
    ∃ w', passFlat c vr vi lt d σ w = .ok w' ∧ Holds w'.mem vr vi (2 ^ lt) (passV c d σ f) := by
  have hpow : 2 ^ d = 2 * 2 ^ (d - 1) := by rw [← pow_succ', Nat.sub_add_cancel h1]
  obtain ⟨w', hw, -, hh⟩ := forUp_total (n := 2 ^ (lt - d)) (w := w.setTwb (twiddleGen c d (d - 1) σ))
    (f := fun b => forUp (2 ^ (d - 1)) (fun k w =>
      bf c.ty vr vi (b * 2 ^ d + k) (b * 2 ^ d + k + 2 ^ (d - 1)) (w.twbAt k) w))
    (I := fun b w1 => (∀ k, w1.twbAt k = (twiddleGen c d (d - 1) σ).getD k default)
      ∧ Holds w1.mem vr vi (2 ^ lt) (partV c d σ b 0 f))
    ⟨fun k => setTwb_twbAt w _ k, by rw [partV_zero]; exact h⟩ (by
      intro b hbl w1 hi
      have := forUp_total (n := 2 ^ (d - 1)) (w := w1)
        (f := fun k w => bf c.ty vr vi (b * 2 ^ d + k) (b * 2 ^ d + k + 2 ^ (d - 1)) (w.twbAt k) w)
        (I := fun k w2 => (∀ k, w2.twbAt k = (twiddleGen c d (d - 1) σ).getD k default)
          ∧ Holds w2.mem vr vi (2 ^ lt) (partV c d σ b k f)) hi (by
          intro k hk w2 ⟨ht, hh⟩
          have hb1 := block_lt hd hbl (show k + 2 ^ (d - 1) < 2 ^ d by omega)
          obtain ⟨m', hm, hv⟩ := bf_holds (t := c.ty) hp hh (lo := b * 2 ^ d + k) (hi := b * 2 ^ d + k + 2 ^ (d - 1))
            (by omega) (by omega) (w2.twbAt k)
          refine ⟨_, hm, ht, ?_⟩
          have htw : w2.twbAt k = passTwiddle c d σ k := by rw [ht, passTwiddle, if_pos hb]
          rw [htw, bfV_partV h1 hk] at hv
          exact hv)
      rwa [partV_block] at this)
  exact ⟨w', hw, hh.congr fun i hi => partV_full hd f hi⟩

theorem passBlock_holds {c : Config} {vr vi : View} {lt d : Nat} {σ : Dir} {f : Stream} {w : Work}
    (hp : Pair vr vi (2 ^ lt)) (h : Holds w.mem vr vi (2 ^ lt) f) (hl : 1 ≤ c.lbuf) (hd : d ≤ lt) (hb : c.lbuf < d) :
    ∃ w', passBlock c vr vi lt d σ w = .ok w' ∧ Holds w'.mem vr vi (2 ^ lt) (passV c d σ f) := by
  have hpow : 2 ^ d = 2 * 2 ^ (d - 1) := by rw [← pow_succ', Nat.sub_add_cancel (by omega)]
  have hc := Nat.two_pow_pos (c.lbuf - 1)
  have hdiv : 2 ^ (d - 1) / 2 ^ (c.lbuf - 1) = 2 ^ (d - c.lbuf) := by
    rw [Nat.pow_div (by omega) (by omega)]; congr 1; omega
  have hmul : 2 ^ (d - c.lbuf) * 2 ^ (c.lbuf - 1) = 2 ^ (d - 1) := by rw [← pow_add]; congr 1; omega
  let T : List Cx := twiddleGen c d (c.lbuf - 1) σ
  let Q : Work → Prop := fun w1 => (∀ k, w1.twbAt k = T.getD k default) ∧ w1.stpAt = stepFactor c d σ
  obtain ⟨w', hw, -, hh⟩ := forUp_total (n := 2 ^ (lt - d))
    (w := (w.setTwb T).setStp (stepFactor c d σ))
    (f := fun b w => forUp (2 ^ (d - 1) / 2 ^ (c.lbuf - 1)) (fun q w =>
          (forUp (2 ^ (c.lbuf - 1)) (fun r w =>
              bf c.ty vr vi (b * 2 ^ d + q * 2 ^ (c.lbuf - 1) + r) (b * 2 ^ d + q * 2 ^ (c.lbuf - 1) + r + 2 ^ (d - 1))
                (blockTwiddle c.ty (w.twbAt r) w.mulAt) w) w).bind
            fun w => .ok (w.setMul (advanceMul c.ty w.mulAt w.stpAt)))
        (w.setMul ⟨c.ty.one, c.ty.zero⟩))
    (I := fun b w1 => Q w1 ∧ Holds w1.mem vr vi (2 ^ lt) (partV c d σ b 0 f))
    ⟨⟨fun k => by rw [setStp_twbAt]; exact setTwb_twbAt w _ k, rfl⟩, by rw [partV_zero]; exact h⟩ (by
      intro b hbl w1 hi
      have := forUp_total (n := 2 ^ (d - c.lbuf)) (w := w1.setMul ⟨c.ty.one, c.ty.zero⟩)
        (f := fun q w =>
          (forUp (2 ^ (c.lbuf - 1)) (fun r w =>
              bf c.ty vr vi (b * 2 ^ d + q * 2 ^ (c.lbuf - 1) + r) (b * 2 ^ d + q * 2 ^ (c.lbuf - 1) + r + 2 ^ (d - 1))
                (blockTwiddle c.ty (w.twbAt r) w.mulAt) w) w).bind
            fun w => .ok (w.setMul (advanceMul c.ty w.mulAt w.stpAt)))
        (I := fun q w2 => (Q w2 ∧ w2.mulAt = mulAfter c d σ q)
          ∧ Holds w2.mem vr vi (2 ^ lt) (partV c d σ b (q * 2 ^ (c.lbuf - 1)) f))
        ⟨⟨hi.1, rfl⟩, by rw [Nat.zero_mul]; exact hi.2⟩ (by
          intro q hq w2 hi2
          have hqc : (q + 1) * 2 ^ (c.lbuf - 1) ≤ 2 ^ (d - 1) := by rw [← hmul]; exact Nat.mul_le_mul_right _ hq
          obtain ⟨w3, hw3, hi3⟩ := forUp_total (n := 2 ^ (c.lbuf - 1)) (w := w2)
            (f := fun r w =>
              bf c.ty vr vi (b * 2 ^ d + q * 2 ^ (c.lbuf - 1) + r) (b * 2 ^ d + q * 2 ^ (c.lbuf - 1) + r + 2 ^ (d - 1))
                (blockTwiddle c.ty (w.twbAt r) w.mulAt) w)
            (I := fun r w3 => (Q w3 ∧ w3.mulAt = mulAfter c d σ q)
              ∧ Holds w3.mem vr vi (2 ^ lt) (partV c d σ b (q * 2 ^ (c.lbuf - 1) + r) f)) hi2 (by
              intro r hr w3 ⟨⟨⟨ht, hs⟩, hmu⟩, hh⟩
              have hk : q * 2 ^ (c.lbuf - 1) + r < 2 ^ (d - 1) := by rw [Nat.add_mul] at hqc; omega
              have hb1 := block_lt hd hbl (show q * 2 ^ (c.lbuf - 1) + r + 2 ^ (d - 1) < 2 ^ d by omega)
              have e1 : b * 2 ^ d + q * 2 ^ (c.lbuf - 1) + r = b * 2 ^ d + (q * 2 ^ (c.lbuf - 1) + r) := by ring
              obtain ⟨m', hm, hv⟩ := bf_holds (t := c.ty) hp hh (lo := b * 2 ^ d + (q * 2 ^ (c.lbuf - 1) + r))
                (hi := b * 2 ^ d + (q * 2 ^ (c.lbuf - 1) + r) + 2 ^ (d - 1))
                (by omega) (by omega) (blockTwiddle c.ty (w3.twbAt r) w3.mulAt)
              refine ⟨{ w3 with mem := m' }, by rw [e1]; exact hm, ⟨⟨ht, hs⟩, hmu⟩, ?_⟩
              have htw : blockTwiddle c.ty (w3.twbAt r) w3.mulAt = passTwiddle c d σ (q * 2 ^ (c.lbuf - 1) + r) := by
                rw [ht, hmu, passTwiddle, if_neg (by omega)]
                obtain ⟨d1, d2⟩ := block_div (b := q) hr
                rw [d1, d2]
              rw [htw, bfV_partV (by omega) hk, Nat.add_assoc] at hv
              exact hv)
          refine ⟨w3.setMul (advanceMul c.ty w3.mulAt w3.stpAt), by rw [hw3]; rfl, ⟨hi3.1.1, ?_⟩, ?_⟩
          · rw [setMul_mulAt, hi3.1.2, hi3.1.1.2]; rfl
          · have e : (q + 1) * 2 ^ (c.lbuf - 1) = q * 2 ^ (c.lbuf - 1) + 2 ^ (c.lbuf - 1) := by ring
            rw [e]; exact hi3.2)
      obtain ⟨w4, hw4, hi4⟩ := this
      rw [hmul, partV_block] at hi4
      exact ⟨w4, by rw [hdiv]; exact hw4, hi4.1.1, hi4.2⟩)
  exact ⟨w', hw, hh.congr fun i hi => partV_full hd f hi⟩

/-- A pass ends, and memory holds what R222 says. -/
theorem pass_holds {c : Config} {vr vi : View} {lt d : Nat} {σ : Dir} {f : Stream} {w : Work} (hp : Pair vr vi (2 ^ lt))
    (h : Holds w.mem vr vi (2 ^ lt) f) (hl : 1 ≤ c.lbuf) (h1 : 1 ≤ d) (hd : d ≤ lt) :
    ∃ w', pass c vr vi lt d σ w = .ok w' ∧ Holds w'.mem vr vi (2 ^ lt) (passV c d σ f) := by
  rw [pass]
  split
  · exact passFlat_holds hp h h1 hd (by assumption)
  · exact passBlock_holds hp h hl hd (by omega)

theorem pass_only {c : Config} {vr vi : View} {lt d : Nat} (σ : Dir) (h1 : 1 ≤ d) (hd : d ≤ lt) :
    Only c (Touch vr vi (2 ^ lt)) (pass c vr vi lt d σ) := by
  have hpow : 2 ^ d = 2 * 2 ^ (d - 1) := by rw [← pow_succ', Nat.sub_add_cancel h1]
  have hbf : ∀ b k tw, b < 2 ^ (lt - d) → k < 2 ^ (d - 1) →
      Only c (Touch vr vi (2 ^ lt)) (bf c.ty vr vi (b * 2 ^ d + k) (b * 2 ^ d + k + 2 ^ (d - 1)) tw) := by
    intro b k tw hb hk
    have := block_lt hd hb (show k + 2 ^ (d - 1) < 2 ^ d by omega)
    exact bf_only (touch_re (by omega)) (touch_im (by omega)) (touch_re (by omega)) (touch_im (by omega)) tw
  intro w w' h
  rw [pass] at h
  split at h
  · simp only [passFlat] at h
    refine Only.after (P := Touch vr vi (2 ^ lt)) (op := forUp _ _) ?_ h (Moved.of_eq rfl rfl rfl rfl)
    exact Only.forUp fun b hb => Only.forUp fun k hk w w' h => hbf b k _ hb hk w w' h
  · have hc := Nat.two_pow_pos (c.lbuf - 1)
    simp only [passBlock] at h
    refine Only.after (P := Touch vr vi (2 ^ lt)) (op := forUp _ _) ?_ h (Moved.of_eq rfl rfl rfl rfl)
    refine Only.forUp fun b hb w w' h => ?_
    refine Only.after (P := Touch vr vi (2 ^ lt)) (op := forUp _ _) ?_ h (Moved.of_eq rfl rfl rfl rfl)
    refine Only.forUp fun q hq => Only.bind ?_ ?_
    · refine Only.forUp fun r hr w w' h => ?_
      rw [Nat.add_assoc (b * 2 ^ d)] at h
      refine hbf b (q * 2 ^ (c.lbuf - 1) + r) _ hb ?_ w w' h
      have h2 : (q + 1) * 2 ^ (c.lbuf - 1) ≤ 2 ^ (d - 1) / 2 ^ (c.lbuf - 1) * 2 ^ (c.lbuf - 1) := Nat.mul_le_mul_right _ hq
      have h3 := Nat.div_mul_le_self (2 ^ (d - 1)) (2 ^ (c.lbuf - 1))
      rw [Nat.add_mul] at h2; omega
    · intro w w' h
      simp only [Except.ok.injEq] at h; subst h
      exact Moved.of_eq rfl rfl rfl rfl

/-! ### The radix-8 kernel -/

theorem r8Values_length (t : Ty) (σ : Dir) (a0 a1 a2 a3 a4 a5 a6 a7 : Cx) :
    (r8Values t σ a0 a1 a2 a3 a4 a5 a6 a7).length = 8 := rfl

theorem r8Values_legal (t : Ty) (σ : Dir) (a0 a1 a2 a3 a4 a5 a6 a7 : Cx) :
    ∀ z ∈ r8Values t σ a0 a1 a2 a3 a4 a5 a6 a7, legalCx t z := by
  rw [r8Values]
  split
  intro z hz
  simp only [List.mem_cons, List.not_mem_nil, or_false] at hz
  rcases hz with rfl | rfl | rfl | rfl | rfl | rfl | rfl | rfl
  · exact cadd_legal _ _ _
  · exact cadd_legal _ _ _
  · exact cadd_legal _ _ _
  · exact cadd_legal _ _ _
  all_goals exact csub_legal _ _ _

/-- A stream with the groups below `g` taken through the radix-8 kernel. -/
def r8PartV (t : Ty) (σ : Dir) (g : Nat) (f : Stream) : Stream := fun i => if i / 8 < g then r8V t σ f i else f i

theorem r8Group_holds {t : Ty} {σ : Dir} {vr vi : View} {n g : Nat} {f : Stream} {w : Work} (hp : Pair vr vi n)
    (hg : 8 * g + 8 ≤ n) (h : Holds w.mem vr vi n (r8PartV t σ g f)) :
    ∃ w', r8Group t σ vr vi g w = .ok w' ∧ Holds w'.mem vr vi n (r8PartV t σ (g + 1) f) := by
  have he : ∀ p, p < 8 → r8PartV t σ g f (8 * g + p) = f (8 * g + p) := by
    intro p hp; rw [r8PartV, if_neg (by omega)]
  have hr : ∀ p, p < 8 → cxRead vr vi (8 * g + p) w = .ok (f (8 * g + p)) := by
    intro p hp8; rw [cxRead_holds h (show 8 * g + p < n by omega), he p hp8]
  obtain ⟨m', h1, h2, -⟩ := storeCx_holds hp h (k := 8 * g)
    (zs := r8Values t σ (f (8 * g)) (f (8 * g + 1)) (f (8 * g + 2)) (f (8 * g + 3)) (f (8 * g + 4)) (f (8 * g + 5))
      (f (8 * g + 6)) (f (8 * g + 7))) (by rw [r8Values_length]; omega)
  refine ⟨{ w with mem := m' }, ?_, h2.congr fun i hi => ?_⟩
  · have h0 := hr 0 (by omega)
    rw [Nat.add_zero] at h0
    simp only [r8Group, h0, hr 1 (by omega), hr 2 (by omega), hr 3 (by omega), hr 4 (by omega), hr 5 (by omega),
      hr 6 (by omega), hr 7 (by omega), bind_ok]
    exact h1
  · rw [r8Values_length]
    by_cases hig : 8 * g ≤ i ∧ i < 8 * g + 8
    · have hq : i / 8 = g := by omega
      have hm : i - 8 * g = i % 8 := by omega
      rw [if_pos hig, r8PartV, if_pos (by omega), r8V, hq, hm]
    · rw [if_neg hig, r8PartV, r8PartV]
      congr 1
      simp only [eq_iff_iff]; omega

/-- The radix-8 kernel ends, and memory holds what R226–R228 say. -/
theorem r8Kernel_holds {t : Ty} {vr vi : View} {lt : Nat} {σ : Dir} {f : Stream} {w : Work} (hp : Pair vr vi (2 ^ lt))
    (h : Holds w.mem vr vi (2 ^ lt) f) (hl : r8Min ≤ lt) :
    ∃ w', r8Kernel t vr vi lt σ w = .ok w' ∧ Holds w'.mem vr vi (2 ^ lt) (r8V t σ f) := by
  have h8 : 2 ^ lt = 8 * 2 ^ (lt - 3) := by
    have : 2 ^ lt = 2 ^ 3 * 2 ^ (lt - 3) := by rw [← pow_add]; congr 1; simp only [r8Min] at hl; omega
    simpa using this
  obtain ⟨w', h1, h2⟩ := forUp_total (n := 2 ^ lt / 8) (w := w) (f := r8Group t σ vr vi)
    (I := fun g w1 => Holds w1.mem vr vi (2 ^ lt) (r8PartV t σ g f))
    (h.congr fun i _ => by simp [r8PartV]) (fun g hg w1 hi => r8Group_holds hp (by omega) hi)
  exact ⟨w', h1, h2.congr fun i hi => by rw [r8PartV, if_pos (by omega)]⟩

theorem r8Kernel_only {c : Config} {vr vi : View} (lt : Nat) (σ : Dir) :
    Only c (Touch vr vi (2 ^ lt)) (r8Kernel c.ty vr vi lt σ) := by
  refine Only.forUp fun g hg w w' h => ?_
  have hlt : 8 * g + 8 ≤ 2 ^ lt := by omega
  simp only [r8Group] at h
  obtain ⟨a0, -, h⟩ := bind_eq_ok.1 h
  obtain ⟨a1, -, h⟩ := bind_eq_ok.1 h
  obtain ⟨a2, -, h⟩ := bind_eq_ok.1 h
  obtain ⟨a3, -, h⟩ := bind_eq_ok.1 h
  obtain ⟨a4, -, h⟩ := bind_eq_ok.1 h
  obtain ⟨a5, -, h⟩ := bind_eq_ok.1 h
  obtain ⟨a6, -, h⟩ := bind_eq_ok.1 h
  obtain ⟨a7, -, h⟩ := bind_eq_ok.1 h
  refine storeCx_moved (fun j _ hj => touch_re ?_) (fun j _ hj => touch_im ?_) (r8Values_legal _ _ _ _ _ _ _ _ _ _) h <;>
    rw [r8Values_length] at hj <;> omega

end Sys2Proof.Machine
end

