-- ==== Sys2Proof/Laws/Schedule.lean ====
section
/-! SUPPORT. The SIMD layer, the multipass, the top-level schedule and the final scaling (R229–R232, R264–R271): where
memory holds the streams, each ends; under `SIMD_VALUES = EXACT` memory holds what Values.lean says. -/

namespace Sys2Proof.Machine

/-! ### Turning a pair of streams -/

/-- Where memory holds a pair of streams, the operation ends and memory holds a pair of streams again: under
`SIMD_VALUES = EXACT` the one `F` gives. -/
def Turns (c : Config) (vr vi : View) (n : Nat) (op : Work → Except Fault Work) (F : Stream → Stream) : Prop :=
  ∀ w f, Holds w.mem vr vi n f →
    ∃ w' g, op w = .ok w' ∧ Holds w'.mem vr vi n g ∧ (c.simdValues = .exact → g = F f)

theorem Turns.of_holds {c : Config} {vr vi : View} {n : Nat} {op : Work → Except Fault Work} {F : Stream → Stream}
    (h : ∀ w f, Holds w.mem vr vi n f → ∃ w', op w = .ok w' ∧ Holds w'.mem vr vi n (F f)) : Turns c vr vi n op F :=
  fun w f hf => let ⟨w', h1, h2⟩ := h w f hf; ⟨w', _, h1, h2, fun _ => rfl⟩

theorem Turns.bind {c : Config} {vr vi : View} {n : Nat} {op op' : Work → Except Fault Work} {F G : Stream → Stream}
    (h : Turns c vr vi n op F) (h' : Turns c vr vi n op' G) :
    Turns c vr vi n (fun w => (op w).bind op') (fun f => G (F f)) := by
  intro w f hf
  obtain ⟨w1, f1, h1, hf1, e1⟩ := h w f hf
  obtain ⟨w2, f2, h2, hf2, e2⟩ := h' w1 f1 hf1
  exact ⟨w2, f2, by simp only [h1, bind_ok]; exact h2, hf2, fun he => by rw [e2 he, e1 he]⟩

theorem Turns.congr {c : Config} {vr vi : View} {n : Nat} {op : Work → Except Fault Work} {F G : Stream → Stream}
    (h : Turns c vr vi n op F) (hFG : ∀ f i, i < n → F f i = G f i) : Turns c vr vi n op G := by
  intro w f hf
  obtain ⟨w', g, h1, h2, h3⟩ := h w f hf
  by_cases he : c.simdValues = .exact
  · exact ⟨w', G f, h1, h2.congr fun i hi => by rw [h3 he, hFG f i hi], fun _ => rfl⟩
  · exact ⟨w', g, h1, h2, fun h => absurd h he⟩

/-- Passes one after the other. -/
theorem Turns.forUp {c : Config} {vr vi : View} {n k : Nat} {op : Nat → Work → Except Fault Work}
    {F : Nat → Stream → Stream} {G : Nat → Stream → Stream} (h : ∀ j, j < k → Turns c vr vi n (op j) (F j))
    (h0 : ∀ f, G 0 f = f) (hs : ∀ j f, G (j + 1) f = F j (G j f)) : Turns c vr vi n (forUp k op) (G k) := by
  induction k with
  | zero => intro w f hf; exact ⟨w, f, rfl, hf, fun _ => (h0 f).symm⟩
  | succ k ih =>
    have := Turns.bind (ih fun j hj => h j (by omega)) (h k (by omega))
    intro w f hf
    obtain ⟨w', g, h1, h2, h3⟩ := this w f hf
    exact ⟨w', g, h1, h2, fun he => by rw [h3 he, hs]⟩

/-- The operation started from a changed sequencer or transient state. -/
theorem Turns.start {c : Config} {vr vi : View} {n : Nat} {op : Work → Except Fault Work} {F : Stream → Stream}
    (h : Turns c vr vi n op F) {w w0 : Work} {f : Stream} (hm : w0.mem = w.mem) (hf : Holds w.mem vr vi n f) :
    ∃ w' g, op w0 = .ok w' ∧ Holds w'.mem vr vi n g ∧ (c.simdValues = .exact → g = F f) :=
  h w0 f (by rw [hm]; exact hf)

/-! ### Vector kernels -/

theorem simdValue_legal (c : Config) (sum : Option Nat) (n : Nat) (d : Elem) {r : Elem} (hr : c.ty.legal r = true) :
    c.ty.legal (simdValue c sum n d r) = true := by
  simp only [simdValue]
  split
  · rename_i f _ hf
    split
    · exact legal_of_lt fun g hg => by
        obtain rfl : f = g := by rw [hf] at hg; simpa using hg
        exact Nat.mod_lt _ (by have := f.signBit_pos; omega)
    · exact hr
  · exact hr

theorem simdRedraw_holds {c : Config} (sum : Option Nat) (m : Nat) {v : View} {n k : Nat} {f : Nat → Elem} {w : Work}
    (hs : v.stride ≠ 0) (h : HoldsAt w.mem v n f) (hk : k < n) :
    ∃ w' x, simdRedraw c sum m v k w = .ok w' ∧ HoldsAt w'.mem v n (Function.update f k x)
      ∧ ∀ a, a ≠ v.addr k → w'.mem.atAddr a = w.mem.atAddr a := by
  obtain ⟨m', h1, h2, h3⟩ := dstWrite_holds (w := { w with tick := w.tick + 1 }) hs h hk
    (simdValue c sum m (Config.simdDraw w.tick) (f k))
  exact ⟨_, _, by rw [simdRedraw, dstRead_holds h hk, bind_ok]; exact h1, h2, h3⟩

theorem simdRedraw_only {c : Config} {P : Int → Prop} (sum : Option Nat) (m : Nat) {v : View} {k : Nat}
    (hP : P (v.addr k)) : Only c P (simdRedraw c sum m v k) := by
  intro w w' h
  obtain ⟨x, hx, h⟩ := bind_eq_ok.1 h
  have hm := dstWrite_moved (c := c) hP (w := { w with tick := w.tick + 1 })
    (fun hl => simdValue_legal c _ _ _ (Mem.atAddr_legal (memRead_eq_ok.1 hx) hl)) h
  have h0 : Moved c P w { w with tick := w.tick + 1 } := .of_eq rfl rfl rfl rfl
  exact h0.trans hm

/-- A stream that memory holds can be read whole. -/
theorem readFrom_holds {t : Ty} {v : View} {n : Nat} {f : Nat → Elem} {w : Work} (h : HoldsAt w.mem v n f) :
    ∃ xs, readFrom t v w 0 n = .ok xs :=
  ⟨_, readFrom_eq (g := fun i => if v.isNull then t.zero else f i) fun j _ hj => by
    rw [srcRead]; split
    · rfl
    · exact dstRead_holds h (by omega)⟩

/-- What a vector kernel leaves (R267, D31): under `EXACT` the scalar values. -/
theorem simdSettle_turns {c : Config} {vr vi : View} {lt : Nat} (hp : Pair vr vi (2 ^ lt)) :
    Turns c vr vi (2 ^ lt) (simdSettle c vr vi lt) id := by
  intro w f hf
  simp only [simdSettle]
  split
  · exact ⟨w, f, rfl, hf, fun _ => rfl⟩
  · rename_i he
    obtain ⟨xs, hx⟩ := readFrom_holds (t := c.ty) hf.1
    obtain ⟨ys, hy⟩ := readFrom_holds (t := c.ty) hf.2
    rw [hx, bind_ok, hy, bind_ok]
    generalize sumSquares c.ty (xs ++ ys) = sum
    obtain ⟨w', h1, g, h2⟩ := forUp_total (n := 2 ^ lt) (w := w)
      (f := fun i w => (simdRedraw c sum (2 ^ lt) vr i w).bind (simdRedraw c sum (2 ^ lt) vi i))
      (I := fun _ w => ∃ g, Holds w.mem vr vi (2 ^ lt) g) ⟨f, hf⟩ (by
        rintro k hk w1 ⟨g, hg⟩
        obtain ⟨w2, x, h1, h2, h3⟩ := simdRedraw_holds (c := c) sum (2 ^ lt) hp.strideRe hg.1 hk
        have hi : HoldsAt w2.mem vi (2 ^ lt) (fun i => (g i).im) :=
          hg.2.of_same fun i hi => h3 _ fun he => hp.apart k i hk hi he.symm
        obtain ⟨w3, y, h4, h5, h6⟩ := simdRedraw_holds (c := c) sum (2 ^ lt) hp.strideIm hi hk
        have hr := h2.of_same (m' := w3.mem) fun i hi => h6 _ (hp.apart i k hi hk)
        exact ⟨w3, by rw [h1]; exact h4, fun i => ⟨_, _⟩, hr, h5⟩)
    exact ⟨w', g, h1, h2, fun h => by rw [he] at h; cases h⟩

theorem simdSettle_only {c : Config} {vr vi : View} {lt : Nat} :
    Only c (Touch vr vi (2 ^ lt)) (simdSettle c vr vi lt) := by
  intro w w' h
  simp only [simdSettle] at h
  split at h
  · simp only [Except.ok.injEq] at h; subst h; exact .refl _ _ _
  · obtain ⟨xs, -, h⟩ := bind_eq_ok.1 h
    obtain ⟨ys, -, h⟩ := bind_eq_ok.1 h
    revert h
    generalize sumSquares c.ty (xs ++ ys) = sum
    intro h
    exact Only.forUp (f := fun i w => (simdRedraw c sum (2 ^ lt) vr i w).bind (simdRedraw c sum (2 ^ lt) vi i))
      (fun k hk => Only.bind (simdRedraw_only sum _ (touch_re hk)) (simdRedraw_only sum _ (touch_im hk))) w w' h

theorem pass_turns {c : Config} {vr vi : View} {lt d : Nat} (σ : Dir) (hp : Pair vr vi (2 ^ lt)) (hl : 1 ≤ c.lbuf)
    (h1 : 1 ≤ d) (hd : d ≤ lt) : Turns c vr vi (2 ^ lt) (pass c vr vi lt d σ) (passV c d σ) :=
  Turns.of_holds fun _ _ h => pass_holds hp h hl h1 hd

theorem r8Kernel_turns {c : Config} {vr vi : View} {lt : Nat} (σ : Dir) (hp : Pair vr vi (2 ^ lt)) (hl : r8Min ≤ lt) :
    Turns c vr vi (2 ^ lt) (r8Kernel c.ty vr vi lt σ) (r8V c.ty σ) :=
  Turns.of_holds fun _ _ h => r8Kernel_holds hp h hl

theorem vecPass_turns {c : Config} {vr vi : View} {lt d : Nat} (σ : Dir) (hp : Pair vr vi (2 ^ lt)) (hl : 1 ≤ c.lbuf)
    (h1 : 1 ≤ d) (hd : d ≤ lt) : Turns c vr vi (2 ^ lt) (vecPass c vr vi lt d σ) (passV c d σ) :=
  (pass_turns σ hp hl h1 hd).bind (simdSettle_turns hp)

theorem vecR8_turns {c : Config} {vr vi : View} {lt : Nat} (σ : Dir) (hp : Pair vr vi (2 ^ lt)) (hl : r8Min ≤ lt) :
    Turns c vr vi (2 ^ lt) (vecR8 c vr vi lt σ) (r8V c.ty σ) := (r8Kernel_turns σ hp hl).bind (simdSettle_turns hp)

theorem vecPass_only {c : Config} {vr vi : View} {lt d : Nat} (σ : Dir) (h1 : 1 ≤ d) (hd : d ≤ lt) :
    Only c (Touch vr vi (2 ^ lt)) (vecPass c vr vi lt d σ) := (pass_only σ h1 hd).bind simdSettle_only

theorem vecR8_only {c : Config} {vr vi : View} (lt : Nat) (σ : Dir) :
    Only c (Touch vr vi (2 ^ lt)) (vecR8 c vr vi lt σ) := (r8Kernel_only lt σ).bind simdSettle_only

/-! ### The effective mask and the pass count -/

/-- Evaluating the mask moves nothing but the feature cache, and that at most by a probe (R265). -/
theorem effMask_moved (c : Config) (P : Int → Prop) (p : Policy) (w : Work) : Moved c P w (effMask c p w).2 := by
  have hp : ∀ m : Mask, Moved c P w { w with em := some m, featCache := (probe c w.featCache).2 } :=
    fun _ => ⟨fun _ _ => rfl, rfl, id, rfl, rfl, .inr rfl⟩
  simp only [effMask]
  split
  · exact .refl _ _ _
  · split
    · exact .of_eq rfl rfl rfl rfl
    · exact hp _

@[simp] theorem effMask_mem (c : Config) (p : Policy) (w : Work) : (effMask c p w).2.mem = w.mem := by
  simp only [effMask]
  split
  · rfl
  · split <;> rfl

theorem fitRun_le (lbuf : Nat) (m : Mask) (d n : Nat) : fitRun lbuf m d n ≤ n := by
  induction n generalizing d with
  | zero => simp [fitRun]
  | succ n ih =>
    simp only [fitRun]
    split
    · have := ih (d + 1); omega
    · omega

theorem r8First_iff {l depth : Nat} : r8First l depth = true ↔ depth = l ∧ r8Min ≤ depth := by simp [r8First]

/-- A multipass's vector kernels take at most its own passes (R266). -/
theorem selCount_le (lbuf l depth : Nat) (m : Mask) : selCount lbuf l depth m ≤ depth := by
  simp only [selCount]
  split
  · omega
  · split
    · rename_i h
      have := fitRun_le lbuf m 4 (depth - 3)
      have := (r8First_iff.1 h).2
      simp only [r8Min] at this; omega
    · exact fitRun_le _ _ _ _

/-- Where the radix-8 step opens a multipass, the vector kernels take three passes at least, if any (R266). -/
theorem selCount_r8 {lbuf l depth : Nat} {m : Mask} (h : r8First l depth = true) (hk : selCount lbuf l depth m ≠ 0) :
    3 ≤ selCount lbuf l depth m := by
  simp only [selCount, h] at *
  split at hk
  · exact absurd rfl hk
  · rename_i hm; rw [if_neg hm]; simp

theorem ompCount_le (c : Config) (vr vi : View) (l depth : Nat) (p : Policy) (w : Work) :
    ompCount c vr vi l depth p w ≤ depth := by
  simp only [ompCount]; split
  · omega
  · exact selCount_le _ _ _ _

/-- The optimized multipass (R271): it ends, reports its count, and memory holds the passes it took. -/
theorem ompRun_holds {c : Config} {vr vi : View} {l depth : Nat} {σ : Dir} {p : Policy} {w : Work} {f : Stream}
    (hp : Pair vr vi (2 ^ l)) (hl : 1 ≤ c.lbuf) (hd : depth ≤ l) (h : Holds w.mem vr vi (2 ^ l) f) :
    ∃ w' g, ompRun c vr vi l depth σ p w = .ok (ompCount c vr vi l depth p w, w') ∧ Holds w'.mem vr vi (2 ^ l) g
      ∧ (c.simdValues = .exact → g = ompV c l depth (ompCount c vr vi l depth p w) σ f) := by
  simp only [ompRun, ompCount]
  split
  · exact ⟨w, f, rfl, h, fun _ => by simp [ompV]⟩
  · have hle := selCount_le c.lbuf l depth (effMask c p w).1
    have hr8 := fun h8 => selCount_r8 (lbuf := c.lbuf) (l := l) (depth := depth) (m := (effMask c p w).1) h8
    have hm : Holds (effMask c p w).2.mem vr vi (2 ^ l) f := by rw [effMask_mem]; exact h
    revert hle hr8 hm
    generalize (effMask c p w).2 = w1
    generalize selCount c.lbuf l depth (effMask c p w).1 = k
    intro hle hr8 hm
    by_cases hk : k = 0
    · rw [if_pos hk]; subst hk
      exact ⟨w1, f, rfl, hm, fun _ => by simp [ompV]⟩
    · rw [if_neg hk]
      by_cases h8 : r8First l depth = true
      · rw [if_pos h8]
        have hmin := (r8First_iff.1 h8)
        have h3 := hr8 h8 hk
        have ht := (vecR8_turns (c := c) σ hp (show r8Min ≤ l by omega)).bind
          (Turns.forUp (k := k - 3) (op := fun i => vecPass c vr vi l (4 + i) σ) (F := fun i => passV c (4 + i) σ)
            (G := passesV c 4 σ) (fun j hj => vecPass_turns σ hp hl (by omega) (by omega)) (fun _ => rfl)
            (fun _ _ => rfl))
        obtain ⟨w', g, e1, e2, e3⟩ := ht w1 f hm
        exact ⟨w', g, by have e1' := e1; simp only [] at e1'; rw [e1']; rfl, e2, fun he => by rw [e3 he, ompV, if_neg hk, if_pos h8]⟩
      · rw [if_neg h8]
        have ht := Turns.forUp (c := c) (vr := vr) (vi := vi) (n := 2 ^ l) (k := k)
          (op := fun i => vecPass c vr vi l (l - depth + 1 + i) σ) (F := fun i => passV c (l - depth + 1 + i) σ)
          (G := passesV c (l - depth + 1) σ) (fun j hj => vecPass_turns σ hp hl (by omega) (by omega)) (fun _ => rfl)
          (fun _ _ => rfl)
        obtain ⟨w', g, e1, e2, e3⟩ := ht w1 f hm
        exact ⟨w', g, by rw [e1]; rfl, e2, fun he => by rw [e3 he, ompV, if_neg hk, if_neg h8]⟩

theorem ompRun_moved {c : Config} {vr vi : View} {l depth : Nat} {σ : Dir} {p : Policy} {w : Work} (hd : depth ≤ l)
    {r : Nat × Work} (h : ompRun c vr vi l depth σ p w = .ok r) : Moved c (Touch vr vi (2 ^ l)) w r.2 := by
  simp only [ompRun] at h
  split at h
  · simp only [Except.ok.injEq] at h; subst h; exact .refl _ _ _
  · have hle := selCount_le c.lbuf l depth (effMask c p w).1
    have hr8 := fun h8 => selCount_r8 (lbuf := c.lbuf) (l := l) (depth := depth) (m := (effMask c p w).1) h8
    refine (effMask_moved c _ p w).trans ?_
    revert hle hr8 h
    generalize (effMask c p w).2 = w1
    generalize selCount c.lbuf l depth (effMask c p w).1 = k
    intro h hle hr8
    by_cases hk : k = 0
    · rw [if_pos hk] at h; simp only [Except.ok.injEq] at h; subst h; exact .refl _ _ _
    · rw [if_neg hk] at h
      by_cases h8 : r8First l depth = true
      · rw [if_pos h8] at h
        have h3 := hr8 h8 hk
        obtain ⟨w2, h2, h⟩ := bind_eq_ok.1 h
        simp only [Except.ok.injEq] at h; subst h
        have hmin := (r8First_iff.1 h8)
        exact Only.bind (vecR8_only l σ) (Only.forUp (f := fun i => vecPass c vr vi l (4 + i) σ)
          fun j hj => vecPass_only σ (by omega) (by omega)) _ _ h2
      · rw [if_neg h8] at h
        obtain ⟨w2, h2, h⟩ := bind_eq_ok.1 h
        simp only [Except.ok.injEq] at h; subst h
        exact Only.forUp (f := fun i => vecPass c vr vi l (l - depth + 1 + i) σ)
          (fun j hj => vecPass_only σ (by omega) (by omega)) _ _ h2

/-! ### Multipass -/

theorem passesV_add (c : Config) (d0 : Nat) (σ : Dir) (k n : Nat) (f : Stream) :
    passesV c (d0 + k) σ n (passesV c d0 σ k f) = passesV c d0 σ (k + n) f := by
  induction n with
  | zero => rfl
  | succ n ih =>
    rw [← Nat.add_assoc k n 1, passesV, passesV, ih, Nat.add_assoc]

theorem passesFrom_turns {c : Config} {vr vi : View} {lt d0 : Nat} (σ : Dir) (hp : Pair vr vi (2 ^ lt)) (hl : 1 ≤ c.lbuf)
    (h1 : 1 ≤ d0) : Turns c vr vi (2 ^ lt) (passesFrom c vr vi lt d0 σ) (passesV c d0 σ (lt + 1 - d0)) :=
  Turns.forUp (op := fun i => pass c vr vi lt (d0 + i) σ) (F := fun i => passV c (d0 + i) σ)
    (fun j hj => pass_turns σ hp hl (by omega) (by omega)) (fun _ => rfl) (fun _ _ => rfl)

theorem passesFrom_only {c : Config} {vr vi : View} {lt d0 : Nat} (σ : Dir) (h1 : 1 ≤ d0) :
    Only c (Touch vr vi (2 ^ lt)) (passesFrom c vr vi lt d0 σ) :=
  Only.forUp fun j hj => pass_only σ (by omega) (by omega)

/-- The passes the SIMD layer takes and the passes the scalar path then runs are those of the multipass (R229). -/
theorem multipass_turns {c : Config} {vr vi : View} {lt depth : Nat} (σ : Dir) (p : Policy) (hp : Pair vr vi (2 ^ lt))
    (hl : 1 ≤ c.lbuf) (hd : depth ≤ lt) :
    Turns c vr vi (2 ^ lt) (multipass c vr vi lt depth σ p) (multipassV c lt depth σ) := by
  intro w f hf
  simp only [multipass]
  by_cases h0 : depth = 0
  · rw [if_pos h0]; subst h0
    refine ⟨w, f, rfl, hf, fun _ => ?_⟩
    rw [multipassV, if_neg (by simp [r8Min])]; rfl
  · rw [if_neg h0]
    obtain ⟨w1, f1, h1, hf1, e1⟩ := ompRun_holds (σ := σ) (p := p) hp hl hd hf
    rw [h1, bind_ok]
    have hle := ompCount_le c vr vi lt depth p w
    have hr8 : ompCount c vr vi lt depth p w ≠ 0 → r8First lt depth = true → 3 ≤ ompCount c vr vi lt depth p w := by
      intro hk h8
      revert hk
      simp only [ompCount]
      split
      · intro h; exact absurd rfl h
      · exact selCount_r8 h8
    revert e1 hle hr8
    generalize ompCount c vr vi lt depth p w = k
    intro e1 hle hr8
    simp only []
    split
    · rename_i hc
      obtain ⟨hk, hd0, hm⟩ := hc
      have hdl : depth = lt := by omega
      have ht := (r8Kernel_turns (c := c) σ hp (show r8Min ≤ lt by omega)).bind (passesFrom_turns σ hp hl (d0 := 4) (by omega))
      obtain ⟨w2, f2, h2, hf2, e2⟩ := ht w1 f1 hf1
      refine ⟨w2, f2, h2, hf2, fun he => ?_⟩
      rw [e2 he, e1 he, multipassV, if_pos ⟨hdl, hm⟩, ompV, if_pos hk]
      rfl
    · rename_i hc
      obtain ⟨w2, f2, h2, hf2, e2⟩ := passesFrom_turns (c := c) σ hp hl (d0 := lt - depth + 1 + k) (by omega) w1 f1 hf1
      refine ⟨w2, f2, h2, hf2, fun he => ?_⟩
      rw [e2 he, e1 he, multipassV, ompV]
      by_cases h8 : r8First lt depth = true
      · obtain ⟨hdl, hm⟩ := r8First_iff.1 h8
        have hk : k ≠ 0 := fun hk => hc ⟨hk, by omega, hm⟩
        have h3 := hr8 hk h8
        rw [if_neg hk, if_pos h8, if_pos ⟨hdl, hm⟩]
        have ea : lt - depth + 1 + k = 4 + (k - 3) := by omega
        have eb : lt + 1 - (4 + (k - 3)) = lt - k := by omega
        have ec : k - 3 + (lt - k) = lt - 3 := by omega
        rw [ea, eb, passesV_add, ec]
      · rw [if_neg h8, if_neg (fun h => h8 (r8First_iff.2 h))]
        have eb : lt + 1 - (lt - depth + 1 + k) = depth - k := by omega
        by_cases hk : k = 0
        · subst hk; rw [if_pos rfl, eb]; rfl
        · rw [if_neg hk, eb, passesV_add]; congr 1; omega

theorem multipass_only {c : Config} {vr vi : View} {lt depth : Nat} (σ : Dir) (p : Policy) (hd : depth ≤ lt) :
    Only c (Touch vr vi (2 ^ lt)) (multipass c vr vi lt depth σ p) := by
  intro w w' h
  simp only [multipass] at h
  split at h
  · simp only [Except.ok.injEq] at h; subst h; exact .refl _ _ _
  · obtain ⟨r, hr, h⟩ := bind_eq_ok.1 h
    refine (ompRun_moved hd hr).trans ?_
    split at h
    · exact Only.bind (r8Kernel_only lt σ) (passesFrom_only σ (by omega)) _ _ h
    · exact passesFrom_only σ (by omega) _ _ h

/-! ### The top-level schedule -/

theorem passV_congr {c : Config} {d lt : Nat} {σ : Dir} (h1 : 1 ≤ d) (hd : d ≤ lt) {f g : Stream}
    (h : ∀ i, i < 2 ^ lt → f i = g i) {i : Nat} (hi : i < 2 ^ lt) : passV c d σ f i = passV c d σ g i := by
  have hpow : 2 ^ d = 2 * 2 ^ (d - 1) := by rw [← pow_succ', Nat.sub_add_cancel h1]
  have hb : i / 2 ^ d < 2 ^ (lt - d) := by
    rw [Nat.div_lt_iff_lt_mul (Nat.two_pow_pos _), ← pow_add]; rwa [Nat.sub_add_cancel hd]
  simp only [passV]
  split
  · rename_i hk
    have := block_lt hd hb (show i % 2 ^ d + 2 ^ (d - 1) < 2 ^ d by omega)
    have hdm := Nat.div_add_mod i (2 ^ d)
    rw [mul_comm] at hdm
    rw [h i hi, h _ (by omega)]
  · rw [h i hi, h _ (by omega)]

/-- A pass below the top level acts on each half by itself (R230). -/
theorem passV_shift {c : Config} {d s : Nat} {σ : Dir} (h1 : 1 ≤ d) (hs : 2 ^ d ∣ s) (f : Stream) (i : Nat) :
    passV c d σ (fun j => f (j + s)) i = passV c d σ f (i + s) := by
  have hpow : 2 ^ d = 2 * 2 ^ (d - 1) := by rw [← pow_succ', Nat.sub_add_cancel h1]
  obtain ⟨q, rfl⟩ := hs
  have hm : (i + 2 ^ d * q) % 2 ^ d = i % 2 ^ d := Nat.add_mul_mod_self_left _ _ _
  have hle := Nat.mod_le i (2 ^ d)
  simp only [passV, hm]
  split
  · congr 3; omega
  · rename_i hk
    congr 2
    omega

theorem r8V_shift {t : Ty} {σ : Dir} {s : Nat} (hs : 8 ∣ s) (f : Stream) (i : Nat) :
    r8V t σ (fun j => f (j + s)) i = r8V t σ f (i + s) := by
  obtain ⟨q, rfl⟩ := hs
  have hm : (i + 8 * q) % 8 = i % 8 := by omega
  have hd : 8 * ((i + 8 * q) / 8) = 8 * (i / 8) + 8 * q := by omega
  simp only [r8V, hm, hd]
  congr 2 <;> congr 1 <;> omega

theorem passesV_shift {c : Config} {d0 n s : Nat} {σ : Dir} (h1 : 1 ≤ d0) (hs : ∀ j, j < n → 2 ^ (d0 + j) ∣ s) (f : Stream) :
    passesV c d0 σ n (fun j => f (j + s)) = fun i => passesV c d0 σ n f (i + s) := by
  induction n with
  | zero => rfl
  | succ n ih =>
    funext i
    simp only [passesV]
    rw [ih fun j hj => hs j (by omega)]
    exact passV_shift (by omega) (hs n (by omega)) (passesV c d0 σ n f) i

/-- The whole multipass of one half acts as the multipass of the array (R230). -/
theorem multipassV_half {c : Config} {l : Nat} {σ : Dir} (hl : r8Min ≤ l) (f : Stream) :
    multipassV c l l σ (fun j => f (j + 2 ^ l)) = fun i => multipassV c l l σ f (i + 2 ^ l) := by
  have h8 : 8 ∣ 2 ^ l := by
    have := Nat.pow_dvd_pow 2 (show 3 ≤ l from hl); simpa using this
  simp only [multipassV, hl, and_self, if_true]
  have : r8V c.ty σ (fun j => f (j + 2 ^ l)) = fun i => r8V c.ty σ f (i + 2 ^ l) := funext fun i => r8V_shift h8 f i
  simp only [r8Min] at hl
  rw [this, passesV_shift (by omega) (fun j hj => Nat.pow_dvd_pow 2 (by omega)) (r8V c.ty σ f)]

/-- The joining pass on top of the whole multipass of both halves is the whole multipass (R230). -/
theorem multipassV_join {c : Config} {l : Nat} {σ : Dir} (hl : r8Min ≤ l) (f : Stream) :
    passV c (l + 1) σ (multipassV c l l σ f) = multipassV c (l + 1) (l + 1) σ f := by
  simp only [multipassV, hl, and_self, if_true, Nat.le_succ_of_le hl]
  simp only [r8Min] at hl
  have e : l + 1 - 3 = l - 3 + 1 := by omega
  rw [e, passesV]; congr 1; omega

theorem Pair.lo {vr vi : View} {l : Nat} (hp : Pair vr vi (2 ^ (l + 1))) : Pair vr.lo vi.lo (2 ^ l) := by
  have hpow : 2 ^ (l + 1) = 2 * 2 ^ l := by ring
  exact ⟨hp.strideRe, hp.strideIm, fun i j hi hj => by
    rw [lo_addr, lo_addr]; exact hp.apart i j (by omega) (by omega)⟩

theorem Pair.hi {vr vi : View} {l : Nat} (hp : Pair vr vi (2 ^ (l + 1))) (hr : vr.count = 2 ^ (l + 1))
    (hi : vi.count = 2 ^ (l + 1)) : Pair vr.hi vi.hi (2 ^ l) := by
  have hpow : 2 ^ (l + 1) = 2 * 2 ^ l := by ring
  exact ⟨hp.strideRe, hp.strideIm, fun i j hi hj => by
    rw [hi_addr, hi_addr]; exact hp.apart _ _ (by omega) (by omega)⟩

theorem touch_lo {vr vi : View} {l : Nat} (a : Int) (h : Touch vr.lo vi.lo (2 ^ l) a) : Touch vr vi (2 ^ (l + 1)) a := by
  have hpow : 2 ^ (l + 1) = 2 * 2 ^ l := by ring
  obtain ⟨i, hi, h⟩ := h
  exact ⟨i, by omega, h⟩

theorem touch_hi {vr vi : View} {l : Nat} (hr : vr.count = 2 ^ (l + 1)) (hc : vi.count = 2 ^ (l + 1)) (a : Int)
    (h : Touch vr.hi vi.hi (2 ^ l) a) : Touch vr vi (2 ^ (l + 1)) a := by
  have hpow : 2 ^ (l + 1) = 2 * 2 ^ l := by ring
  obtain ⟨i, hi, h⟩ := h
  rw [hi_addr, hi_addr, hr, hc] at h
  exact ⟨2 ^ (l + 1) / 2 + i, by omega, h⟩

theorem dbcF_only {c : Config} (σ : Dir) (p : Policy) {l : Nat} {vr vi : View} (hr : vr.count = 2 ^ l)
    (hi : vi.count = 2 ^ l) : Only c (Touch vr vi (2 ^ l)) (dbcF c σ p l vr vi) := by
  induction l generalizing vr vi with
  | zero => exact multipass_only σ p (Nat.le_refl _)
  | succ l ih =>
    have hpow : 2 ^ (l + 1) = 2 * 2 ^ l := by ring
    intro w w' h
    simp only [dbcF] at h
    split at h
    · exact Only.bind (Only.bind ((ih (by simp [hr]; omega) (by simp [hi]; omega)).mono touch_lo)
        ((ih (by simp [hr]; omega) (by simp [hi]; omega)).mono (touch_hi hr hi)))
        (multipass_only σ p (by omega)) _ _ h
    · exact multipass_only σ p (Nat.le_refl _) _ _ h

/-- The top-level schedule writes what the whole multipass writes, split or not (R230). -/
theorem dbcF_turns {c : Config} (σ : Dir) (p : Policy) {l : Nat} {vr vi : View} (hp : Pair vr vi (2 ^ l)) (hl : 1 ≤ c.lbuf)
    (hr : vr.count = 2 ^ l) (hi : vi.count = 2 ^ l) : Turns c vr vi (2 ^ l) (dbcF c σ p l vr vi) (dbcV c l σ) := by
  induction l generalizing vr vi with
  | zero => exact multipass_turns σ p hp hl (Nat.le_refl _)
  | succ l ih =>
    have hpow : 2 ^ (l + 1) = 2 * 2 ^ l := by ring
    intro w f hf
    simp only [dbcF]
    split
    · rename_i hs
      have hmin : r8Min ≤ l := by simp only [splitLog, r8Min] at *; omega
      have hcr : vr.count / 2 = 2 ^ l := by omega
      have hci : vi.count / 2 = 2 ^ l := by omega
      have ihl := ih (vr := vr.lo) (vi := vi.lo) hp.lo (by simp; omega) (by simp; omega)
      have ihh := ih (vr := vr.hi) (vi := vi.hi) (hp.hi hr hi) (by simp; omega) (by simp; omega)
      have ohl := dbcF_only (c := c) σ p (l := l) (vr := vr.lo) (vi := vi.lo) (by simp; omega) (by simp; omega)
      have ohh := dbcF_only (c := c) σ p (l := l) (vr := vr.hi) (vi := vi.hi) (by simp; omega) (by simp; omega)
      have hflo : Holds w.mem vr.lo vi.lo (2 ^ l) f := ⟨hf.1.mono (by omega), hf.2.mono (by omega)⟩
      obtain ⟨w1, g1, h1, hg1, e1⟩ := ihl w f hflo
      have hm1 := ohl w w1 h1
      have hfhi : Holds w1.mem vr.hi vi.hi (2 ^ l) (fun j => f (j + 2 ^ l)) := by
        constructor
        · intro i hi'
          rw [hi_addr, hcr, hm1.outside _ ?_, Nat.add_comm]
          · exact hf.1 _ (by omega)
          · rintro ⟨j, hj, h | h⟩
            · have := View.addr_inj hp.strideRe h; omega
            · exact hp.apart (2 ^ l + i) j (by omega) (by omega) h.symm
        · intro i hi'
          rw [hi_addr, hci, hm1.outside _ ?_, Nat.add_comm]
          · exact hf.2 _ (by omega)
          · rintro ⟨j, hj, h | h⟩
            · exact hp.apart j (2 ^ l + i) (by omega) (by omega) h
            · have := View.addr_inj hp.strideIm h; omega
      obtain ⟨w2, g2, h2, hg2, e2⟩ := ihh w1 _ hfhi
      have hm2 := ohh w1 w2 h2
      have hjoin : Holds w2.mem vr vi (2 ^ (l + 1)) (fun i => if i < 2 ^ l then g1 i else g2 (i - 2 ^ l)) := by
        constructor
        · intro i hi'
          by_cases hil : i < 2 ^ l
          · simp only [if_pos hil]
            rw [hm2.outside _ ?_]
            · exact hg1.1 i hil
            · rintro ⟨j, hj, h | h⟩
              · rw [hi_addr, hcr] at h; have := View.addr_inj hp.strideRe h; omega
              · rw [hi_addr, hci] at h; exact hp.apart i _ (by omega) (by omega) h.symm
          · simp only [if_neg hil]
            have := hg2.1 (i - 2 ^ l) (by omega)
            rw [hi_addr, hcr] at this
            rw [← this]; congr 2; omega
        · intro i hi'
          by_cases hil : i < 2 ^ l
          · simp only [if_pos hil]
            rw [hm2.outside _ ?_]
            · exact hg1.2 i hil
            · rintro ⟨j, hj, h | h⟩
              · rw [hi_addr, hcr] at h; exact hp.apart _ i (by omega) (by omega) h
              · rw [hi_addr, hci] at h; have := View.addr_inj hp.strideIm h; omega
          · simp only [if_neg hil]
            have := hg2.2 (i - 2 ^ l) (by omega)
            rw [hi_addr, hci] at this
            rw [← this]; congr 2; omega
      obtain ⟨w3, g3, h3, hg3, e3⟩ := multipass_turns (c := c) (lt := l + 1) (depth := 1) σ p hp hl (by omega) w2 _ hjoin
      rw [h1, bind_ok, h2, bind_ok, h3]
      by_cases he : c.simdValues = .exact
      · refine ⟨w3, dbcV c (l + 1) σ f, rfl, hg3.congr fun i hi' => ?_, fun _ => rfl⟩
        rw [e3 he, multipassV, if_neg (by simp only [r8Min]; omega), dbcV, ← multipassV_join hmin]
        have e0 : l + 1 - 1 + 1 = l + 1 := by omega
        simp only [passesV, Nat.add_zero, e0]
        refine passV_congr (by omega) (Nat.le_refl _) (fun j hj => ?_) hi'
        split
        · rw [e1 he]; rfl
        · rw [e2 he, dbcV, multipassV_half hmin]
          simp only []
          congr 1; omega
      · exact ⟨w3, g3, rfl, hg3, fun h => absurd h he⟩
    · exact multipass_turns σ p hp hl (Nat.le_refl _) w f hf

/-! ### Scaling -/

theorem scaleOne_holds {t : Ty} {v : View} {n k : Nat} {f : Nat → Elem} {w : Work} (hs : v.stride ≠ 0) (scale : Elem)
    (h : HoldsAt w.mem v n f) (hk : k < n) :
    ∃ m', scaleOne t v k scale w = .ok { w with mem := m' } ∧ HoldsAt m' v n (Function.update f k (t.mul (f k) scale))
      ∧ ∀ a, a ≠ v.addr k → m'.atAddr a = w.mem.atAddr a := by
  obtain ⟨m', h1, h2⟩ := dstWrite_holds hs h hk (t.mul (f k) scale)
  exact ⟨m', by rw [scaleOne, dstRead_holds h hk, bind_ok, h1], h2⟩

theorem scaleOne_only {c : Config} {P : Int → Prop} {v : View} {k : Nat} (hP : P (v.addr k)) (scale : Elem) :
    Only c P (scaleOne c.ty v k scale) := by
  intro w w' h
  obtain ⟨x, -, h⟩ := bind_eq_ok.1 h
  exact dstWrite_moved hP (fun _ => mul_legal _ _ _) h

/-- The final scaling ends, and memory holds what R232 says. -/
theorem scaleViews_holds {t : Ty} {vr vi : View} {n : Nat} {f : Stream} {w : Work} (hp : Pair vr vi n) (scale : Elem)
    (h : Holds w.mem vr vi n f) :
    ∃ m', scaleViews t vr vi n scale w = .ok { w with mem := m' } ∧ Holds m' vr vi n (scaleV t scale f) := by
  simp only [scaleViews]
  split
  · rename_i h1; exact ⟨w.mem, rfl, h.congr fun i _ => by simp [scaleV, h1]⟩
  · rename_i h1
    obtain ⟨w', e1, e2, e3⟩ := forUp_total (n := n) (w := w)
      (f := fun k w => (scaleOne t vr k scale w).bind (scaleOne t vi k scale))
      (I := fun k w1 => w1 = { w with mem := w1.mem }
        ∧ Holds w1.mem vr vi n (fun i => if i < k then scaleV t scale f i else f i))
      ⟨rfl, h.congr fun i _ => by simp⟩ (by
        rintro k hk w1 ⟨hw, hh⟩
        obtain ⟨m1, a1, a2, a3⟩ := scaleOne_holds (t := t) hp.strideRe scale hh.1 hk
        have hi1 := hh.2.of_same (m' := m1) fun i hi => a3 _ fun he => hp.apart k i hk hi he.symm
        obtain ⟨m2, b1, b2, b3⟩ := scaleOne_holds (t := t) (w := { w1 with mem := m1 }) hp.strideIm scale hi1 hk
        have hr1 := a2.of_same (m' := m2) fun i hi => b3 _ (hp.apart i k hi hk)
        refine ⟨{ w1 with mem := m2 }, by rw [a1, bind_ok]; exact b1, by rw [hw], hr1.congr fun i _ => ?_,
          b2.congr fun i _ => ?_⟩
        · simp only [Function.update_apply]
          by_cases hik : i = k
          · subst hik; simp [scaleV, h1]
          · rw [if_neg hik]; congr 2; simp only [eq_iff_iff]; omega
        · simp only [Function.update_apply]
          by_cases hik : i = k
          · subst hik; simp [scaleV, h1]
          · rw [if_neg hik]; congr 2; simp only [eq_iff_iff]; omega)
    exact ⟨w'.mem, by rw [← e2]; exact e1, e3.congr fun i hi => by rw [if_pos hi]⟩

theorem scaleViews_only {c : Config} {vr vi : View} {n : Nat} (scale : Elem) :
    Only c (Touch vr vi n) (scaleViews c.ty vr vi n scale) := by
  intro w w' h
  simp only [scaleViews] at h
  split at h
  · simp only [Except.ok.injEq] at h; subst h; exact .refl _ _ _
  · exact Only.forUp (f := fun k w => (scaleOne c.ty vr k scale w).bind (scaleOne c.ty vi k scale))
      (fun k hk => Only.bind (scaleOne_only (touch_re hk) scale) (scaleOne_only (touch_im hk) scale)) _ _ h

end Sys2Proof.Machine
end

