-- ==== Sys2Proof/Laws/Shuffle.lean ====
section
/-! SUPPORT. The shuffles of `DIL` and `ILV` (R201, R202): their three bit reversals move elements as the rules say. -/

namespace Sys2Proof.Machine

/-- The values of a region after `DIL` (R201): the even positions in the lower half, the odd ones in the upper. -/
def dilV (l : Nat) (f : Nat → Elem) : Nat → Elem := fun i => if i < 2 ^ l then f (2 * i) else f (2 * (i - 2 ^ l) + 1)

/-- The values of a region after `ILV` (R202): the two halves in turn. -/
def ilvV (l : Nat) (f : Nat → Elem) : Nat → Elem := fun i => if i % 2 = 0 then f (i / 2) else f (2 ^ l + i / 2)

/-- A stretch of a unit-stride region. -/
theorem HoldsAt.stretch {m : Mem} {b : Int} {n n' k : Nat} {f : Nat → Elem} (h : HoldsAt m (unitView b n') n f) {len len' : Nat}
    (hk : k + len ≤ n) : HoldsAt m (unitView (b + (k : Nat)) len') len (fun i => f (k + i)) := fun i hi => by
  have := h (k + i) (by omega)
  rw [unitView_addr] at this ⊢
  rw [← this]; congr 1; push_cast; ring

/-- Reversing a stretch of a region leaves the rest of the region. -/
theorem bitRevIn_stretch {t : Ty} {b : Int} {n n' l k : Nat} {w : Work} {f : Nat → Elem} (hb : 0 < b)
    (h : HoldsAt w.mem (unitView b n') n f) (hk : k + 2 ^ l ≤ n) (len' : Nat) :
    ∃ m', bitRevIn t (unitView (b + (k : Nat)) len') l w = .ok { w with mem := m' }
      ∧ HoldsAt m' (unitView b n') n (fun i => if k ≤ i ∧ i < k + 2 ^ l then f (k + rev (i - k) l) else f i) := by
  obtain ⟨m', h1, h2⟩ := bitRevIn_holds (t := t) (v := unitView (b + (k : Nat)) len') (l := l) (by simp)
    (by simp; omega) (h.stretch hk)
  refine ⟨m', h1, fun i hi => ?_⟩
  by_cases hr : k ≤ i ∧ i < k + 2 ^ l
  · have := h2 (i - k) (by omega)
    simp only [hr, and_self, if_true]
    rw [← this, unitView_addr, unitView_addr]
    congr 1; omega
  · simp only [if_neg hr]
    have ho := (bitRev_only { Config.standard with ty := t } _ _ _ _ _ h1).outside ((unitView b n').addr i) (by
      rintro ⟨j, hj, he⟩
      rw [unitView_addr, unitView_addr] at he
      omega)
    exact ho.trans (h i hi)

/-- `DIL` moves the elements of its region as R201 says. -/
theorem deinterleave_holds {t : Ty} {b : Int} {n' l : Nat} {w : Work} {f : Nat → Elem} (hb : 0 < b)
    (h : HoldsAt w.mem (unitView b n') (2 * 2 ^ l) f) :
    ∃ m', deinterleave t b l w = .ok { w with mem := m' } ∧ HoldsAt m' (unitView b n') (2 * 2 ^ l) (dilV l f) := by
  have e0 : (b + ((0 : Nat) : Int)) = b := by simp
  have hpow : 2 ^ (l + 1) = 2 * 2 ^ l := by ring
  obtain ⟨m1, h1, v1⟩ := bitRevIn_stretch (t := t) (l := l + 1) (k := 0) hb h (by omega) (2 * 2 ^ l)
  obtain ⟨m2, h2, v2⟩ := bitRevIn_stretch (t := t) (w := { w with mem := m1 }) (l := l) (k := 0) hb v1 (by omega) (2 ^ l)
  obtain ⟨m3, h3, v3⟩ := bitRevIn_stretch (t := t) (w := { w with mem := m2 }) (l := l) (k := 2 ^ l) hb v2 (by omega) (2 ^ l)
  rw [e0] at h1 h2
  refine ⟨m3, by rw [deinterleave, h1, bind_ok, h2, bind_ok, h3], v3.congr fun i hi => ?_⟩
  have hj := rev_lt i l
  have hj' := rev_lt (i - 2 ^ l) l
  by_cases hl : i < 2 ^ l
  · have e := rev_add_top hj 0
    simp only [Nat.mul_zero, Nat.add_zero, Nat.zero_mod, rev_rev hl] at e
    simp only [dilV, Nat.zero_add, Nat.sub_zero, Nat.zero_le, true_and]
    rw [if_neg (by omega), if_pos hl, if_pos (by omega), if_pos hl, e]
  · have e := rev_add_top hj' 1
    simp only [Nat.mul_one, Nat.one_mod, rev_rev (show i - 2 ^ l < 2 ^ l by omega)] at e
    simp only [dilV, Nat.zero_add, Nat.sub_zero, Nat.zero_le, true_and]
    rw [if_pos (by omega), if_neg (by omega), if_pos (by omega), if_neg hl, add_comm (2 ^ l), e]

/-- `ILV` moves the elements of its region as R202 says. -/
theorem interleave_holds {t : Ty} {b : Int} {n' l : Nat} {w : Work} {f : Nat → Elem} (hb : 0 < b)
    (h : HoldsAt w.mem (unitView b n') (2 * 2 ^ l) f) :
    ∃ m', interleave t b l w = .ok { w with mem := m' } ∧ HoldsAt m' (unitView b n') (2 * 2 ^ l) (ilvV l f) := by
  have e0 : (b + ((0 : Nat) : Int)) = b := by simp
  have hpow : 2 ^ (l + 1) = 2 * 2 ^ l := by ring
  obtain ⟨m1, h1, v1⟩ := bitRevIn_stretch (t := t) (l := l) (k := 0) hb h (by omega) (2 ^ l)
  obtain ⟨m2, h2, v2⟩ := bitRevIn_stretch (t := t) (w := { w with mem := m1 }) (l := l) (k := 2 ^ l) hb v1 (by omega) (2 ^ l)
  obtain ⟨m3, h3, v3⟩ := bitRevIn_stretch (t := t) (w := { w with mem := m2 }) (l := l + 1) (k := 0) hb v2 (by omega)
    (2 * 2 ^ l)
  rw [e0] at h1 h3
  refine ⟨m3, by rw [interleave, h1, bind_ok, h2, bind_ok, h3], v3.congr fun i hi => ?_⟩
  have hk : i / 2 < 2 ^ l := by omega
  have hj := rev_lt (i / 2) l
  have hr := rev_lt i (l + 1)
  have e : rev i (l + 1) = i % 2 * 2 ^ l + rev (i / 2) l := rfl
  simp only [Nat.zero_add, Nat.sub_zero, Nat.zero_le, true_and, ilvV]
  rw [if_pos (by omega)]
  rcases Nat.mod_two_eq_zero_or_one i with h2 | h2 <;> rw [h2] at e
  · rw [if_neg (by omega), if_pos (by omega), if_pos h2]
    simp only [e, Nat.zero_mul, Nat.zero_add, rev_rev hk]
  · rw [if_pos (by omega), if_neg (by omega), if_neg (by omega)]
    congr 1
    rw [e, Nat.one_mul, Nat.add_sub_cancel_left, rev_rev hk]

theorem deinterleave_only (c : Config) (b : Int) (l n' : Nat) :
    Only c (TouchOne (unitView b n') (2 * 2 ^ l)) (deinterleave c.ty b l) := by
  have hpow : 2 ^ (l + 1) = 2 * 2 ^ l := by ring
  refine Only.bind ((bitRevIn_only c _ _).mono ?_) (Only.bind ((bitRevIn_only c _ _).mono ?_) ((bitRevIn_only c _ _).mono ?_))
  · rintro a ⟨i, hi, rfl⟩; exact ⟨i, by omega, by simp⟩
  · rintro a ⟨i, hi, rfl⟩; exact ⟨i, by omega, by simp⟩
  · rintro a ⟨i, hi, rfl⟩; exact ⟨2 ^ l + i, by omega, by simp; ring⟩

theorem interleave_only (c : Config) (b : Int) (l n' : Nat) :
    Only c (TouchOne (unitView b n') (2 * 2 ^ l)) (interleave c.ty b l) := by
  have hpow : 2 ^ (l + 1) = 2 * 2 ^ l := by ring
  refine Only.bind ((bitRevIn_only c _ _).mono ?_) (Only.bind ((bitRevIn_only c _ _).mono ?_) ((bitRevIn_only c _ _).mono ?_))
  · rintro a ⟨i, hi, rfl⟩; exact ⟨i, by omega, by simp⟩
  · rintro a ⟨i, hi, rfl⟩; exact ⟨2 ^ l + i, by omega, by simp; ring⟩
  · rintro a ⟨i, hi, rfl⟩; exact ⟨i, by omega, by simp⟩

/-- `ILV` undoes `DIL` (R202). -/
theorem ilvV_dilV (l : Nat) (f : Nat → Elem) {i : Nat} (hi : i < 2 * 2 ^ l) : ilvV l (dilV l f) i = f i := by
  simp only [ilvV, dilV]
  rcases Nat.mod_two_eq_zero_or_one i with h2 | h2
  · rw [if_pos h2, if_pos (by omega)]; congr 1; omega
  · rw [if_neg (by omega), if_neg (by omega)]; congr 1; omega

end Sys2Proof.Machine
end

