-- ==== Sys2Proof/Laws/Pipeline.lean ====
section
/-! SUPPORT. The power-of-two pipeline (R310–R315): where the sources read and the destinations are admitted, it ends, and
memory holds what Values.lean says. -/

namespace Sys2Proof.Machine

theorem Mem.atAddr_pos {m : Mem} {a : Int} {x : Elem} (h : m.atAddr a = some x) : 0 < a := by
  simp only [Mem.atAddr] at h
  split at h
  · rename_i ha; exact (isAddr_iff.1 ha).1
  · simp at h

/-- What is held outside the addresses an operation moves is held afterwards. -/
theorem HoldsAt.keep {c : Config} {P : Int → Prop} {w w' : Work} {v : View} {n : Nat} {f : Nat → Elem}
    (h : HoldsAt w.mem v n f) (hm : Moved c P w w') (hP : ∀ i, i < n → ¬ P (v.addr i)) : HoldsAt w'.mem v n f :=
  h.of_same fun i hi => hm.outside _ (hP i hi)

theorem Holds.keep {c : Config} {P : Int → Prop} {w w' : Work} {vr vi : View} {n : Nat} {f : Stream}
    (h : Holds w.mem vr vi n f) (hm : Moved c P w w') (hr : ∀ i, i < n → ¬ P (vr.addr i))
    (hi : ∀ i, i < n → ¬ P (vi.addr i)) : Holds w'.mem vr vi n f := ⟨h.1.keep hm hr, h.2.keep hm hi⟩

/-- A source reads the same where none of its addresses moved. -/
theorem srcRead_keep {c : Config} {P : Int → Prop} {w w' : Work} {t : Ty} {v : View} {i : Nat} {x : Elem}
    (h : srcRead t v i w = .ok x) (hm : Moved c P w w') (hP : v.isNull = true ∨ ¬ P (v.addr i)) :
    srcRead t v i w' = .ok x := by
  simp only [srcRead] at *
  split at h
  · rename_i hn; rw [if_pos hn]; exact h
  · rename_i hn
    rw [if_neg hn]
    rw [memRead_eq_ok] at h ⊢
    rw [hm.outside _ (hP.resolve_left hn)]; exact h

/-! ### Permuting -/

/-- `POT_PERMUTE` (R310): each stream takes its source, bit-reversed. -/
theorem potPermute_holds {t : Ty} {v : Views} {l : Nat} {w : Work} {x f : Stream} (hp : Pair v.dr v.di (2 ^ l))
    (hsr : ∀ i, i < 2 ^ l → srcRead t v.sr i w = .ok (x i).re) (hsi : ∀ i, i < 2 ^ l → srcRead t v.si i w = .ok (x i).im)
    (hap : v.si.isNull = true ∨ ∀ i j, i < 2 ^ l → j < 2 ^ l → v.si.addr i ≠ v.dr.addr j)
    (hd : Holds w.mem v.dr v.di (2 ^ l) f) :
    ∃ w', potPermute t v l w = .ok w' ∧ Holds w'.mem v.dr v.di (2 ^ l) (revV l x) := by
  let c : Config := { Config.standard with ty := t }
  obtain ⟨m1, h1, hr1⟩ := bitRev_holds (t := t) (src := v.sr) (w := w.gotoPot .potPermute) (g := fun i => (x i).re)
    (f := fun i => (f i).re) hp.strideRe hsr hd.1
  have hm1 := bitRev_only c v.sr v.dr l _ _ h1
  have hsi1 : ∀ i, i < 2 ^ l → srcRead t v.si i { (w.gotoPot .potPermute) with mem := m1 } = .ok (x i).im := by
    intro i hi
    refine srcRead_keep (w := w.gotoPot .potPermute) (hsi i hi) hm1 (hap.imp id fun h => ?_)
    rintro ⟨j, hj, he⟩; exact h i j hi hj he.symm
  have hi1 : HoldsAt m1 v.di (2 ^ l) (fun i => (f i).im) :=
    hd.2.keep (w := w.gotoPot .potPermute) hm1 fun i hi => by rintro ⟨j, hj, he⟩; exact hp.apart j i hj hi he
  obtain ⟨m2, h2, hi2⟩ := bitRev_holds (t := t) (src := v.si) (w := { (w.gotoPot .potPermute) with mem := m1 })
    (g := fun i => (x i).im) hp.strideIm hsi1 hi1
  have hm2 := bitRev_only c v.si v.di l _ _ h2
  have hr2 := hr1.keep (w := { (w.gotoPot .potPermute) with mem := m1 }) hm2 fun i hi => by
    rintro ⟨j, hj, he⟩; exact hp.apart i j hi hj he.symm
  exact ⟨_, by rw [potPermute, h1, bind_ok, h2], hr2, hi2⟩

theorem potPermute_only (c : Config) (v : Views) (l : Nat) :
    Only c (Touch v.dr v.di (2 ^ l)) (potPermute c.ty v l) := by
  intro w w' h
  exact Only.after (op := fun w => (bitRev c.ty v.sr v.dr l w).bind (bitRev c.ty v.si v.di l))
    (Only.bind ((bitRev_only c _ _ _).mono fun a => Touch.of_re) ((bitRev_only c _ _ _).mono fun a => Touch.of_im)) h
    (Moved.of_eq rfl rfl rfl rfl)

/-! ### The butterfly phases -/

theorem deinterleaves_iff {dr di : View} {l : Nat} {em : Mask} : deinterleaves dr di l em = true ↔
    di.base = dr.base + 1 ∧ dr.stride = 2 ∧ di.stride = 2 ∧ dilMinN < 2 ^ l ∧ em ≠ 0 := by
  simp only [deinterleaves, Bool.and_eq_true, beq_iff_eq, decide_eq_true_eq, bne_iff_ne, and_assoc]

/-- An interleaved pair of streams as one region. -/
theorem Holds.interleaved {m : Mem} {dr di : View} {l n' : Nat} {f : Stream} (h : Holds m dr di (2 ^ l) f)
    (hb : di.base = dr.base + 1) (hr : dr.stride = 2) (hi : di.stride = 2) :
    HoldsAt m (unitView dr.base n') (2 * 2 ^ l) (fun i => if i % 2 = 0 then (f (i / 2)).re else (f (i / 2)).im) := by
  intro i hil
  rw [unitView_addr]
  rcases Nat.mod_two_eq_zero_or_one i with h2 | h2
  · have := h.1 (i / 2) (by omega)
    simp only [View.addr, hr] at this
    simp only [h2, if_true]
    rw [← this]; congr 1; omega
  · have := h.2 (i / 2) (by omega)
    simp only [View.addr, hi, hb] at this
    simp only [h2, Nat.one_ne_zero, if_false]
    rw [← this]; congr 1; omega

/-- One region as an interleaved pair of streams. -/
theorem HoldsAt.split {m : Mem} {dr di : View} {l n' : Nat} {F : Nat → Elem}
    (h : HoldsAt m (unitView dr.base n') (2 * 2 ^ l) F)
    (hb : di.base = dr.base + 1) (hr : dr.stride = 2) (hi : di.stride = 2) :
    Holds m dr di (2 ^ l) (fun i => ⟨F (2 * i), F (2 * i + 1)⟩) := by
  constructor
  · intro i hil
    have := h (2 * i) (by omega)
    rw [unitView_addr] at this
    rw [← this]; congr 1; simp only [View.addr, hr]; push_cast; ring
  · intro i hil
    have := h (2 * i + 1) (by omega)
    rw [unitView_addr] at this
    rw [← this]; congr 1; simp only [View.addr, hi, hb]; push_cast; ring

theorem touch_region {dr di : View} {l n' : Nat} (hb : di.base = dr.base + 1) (hr : dr.stride = 2) (hi : di.stride = 2)
    (a : Int) (h : TouchOne (unitView dr.base n') (2 * 2 ^ l) a) : Touch dr di (2 ^ l) a := by
  obtain ⟨i, hil, rfl⟩ := h
  rw [unitView_addr]
  rcases Nat.mod_two_eq_zero_or_one i with h2 | h2
  · exact ⟨i / 2, by omega, .inl (by simp only [View.addr, hr]; omega)⟩
  · exact ⟨i / 2, by omega, .inr (by simp only [View.addr, hi, hb]; omega)⟩

theorem touch_halves {b : Int} {l n' k k' : Nat} (a : Int)
    (h : Touch (unitView b k) (unitView (b + (2 ^ l : Nat)) k') (2 ^ l) a) : TouchOne (unitView b n') (2 * 2 ^ l) a := by
  obtain ⟨i, hi, rfl | rfl⟩ := h
  · exact ⟨i, by omega, by simp⟩
  · exact ⟨2 ^ l + i, by omega, by simp only [unitView_addr]; push_cast; ring⟩

/-- The butterfly phases turn the destination by the schedule, deinterleaved or not (R311–R313, R315). -/
theorem potButterfly_turns {c : Config} (σ : Dir) (p : Policy) {l : Nat} {dr di : View} (hp : Pair dr di (2 ^ l))
    (hl : 1 ≤ c.lbuf) (hr : dr.count = 2 ^ l) (hi : di.count = 2 ^ l) :
    Turns c dr di (2 ^ l) (potButterfly c dr di l σ p) (dbcV c l σ) := by
  intro w f hf
  simp only [potButterfly]
  have hf0 : Holds (effMask c p (w.gotoPot .potSimdPrep)).2.mem dr di (2 ^ l) f := by rw [effMask_mem]; exact hf
  revert hf0
  generalize (effMask c p (w.gotoPot .potSimdPrep)).1 = em
  generalize (effMask c p (w.gotoPot .potSimdPrep)).2 = w0
  intro hf0
  split
  · rename_i hdl
    obtain ⟨hb, hr2, hi2, -, -⟩ := deinterleaves_iff.1 hdl
    have hpos := Nat.two_pow_pos l
    have hb0 : 0 < dr.base := by
      have := Mem.atAddr_pos (hf0.1 0 hpos)
      simpa [View.addr] using this
    obtain ⟨m1, h1, v1⟩ := deinterleave_holds (t := c.ty) hb0 (hf0.interleaved (n' := 2 * 2 ^ l) hb hr2 hi2)
    have hpair : Pair (unitView dr.base (2 ^ l)) (unitView (dr.base + (2 ^ l : Nat)) (2 ^ l)) (2 ^ l) :=
      ⟨by simp, by simp, fun i j h1 h2 => by rw [unitView_addr, unitView_addr]; omega⟩
    have hh1 : Holds m1 (unitView dr.base (2 ^ l)) (unitView (dr.base + (2 ^ l : Nat)) (2 ^ l)) (2 ^ l) f := by
      constructor
      · intro i hil
        have := v1 i (by omega)
        rw [unitView_addr] at this ⊢
        rw [this, dilV, if_pos hil]
        have e1 : 2 * i % 2 = 0 := by omega
        have e2 : 2 * i / 2 = i := by omega
        simp only [e1, e2, if_true]
      · intro i hil
        have := v1 (2 ^ l + i) (by omega)
        rw [unitView_addr] at this ⊢
        have e0 : dr.base + ((2 ^ l : Nat) : Int) + (i : Int) = dr.base + ((2 ^ l + i : Nat) : Int) := by push_cast; ring
        rw [e0, this, dilV, if_neg (by omega), Nat.add_sub_cancel_left]
        have e1 : (2 * i + 1) % 2 = 1 := by omega
        have e2 : (2 * i + 1) / 2 = i := by omega
        simp only [e1, e2, Nat.one_ne_zero, if_false]
    obtain ⟨w2, g, h2, hg, e2⟩ := dbcF_turns (c := c) σ p hpair hl rfl rfl (({ w0 with mem := m1 } : Work).gotoPot .potButterfly)
      f hh1
    have hreg : HoldsAt (w2.gotoPot .potSimdPost).mem (unitView dr.base (2 * 2 ^ l)) (2 * 2 ^ l)
        (fun i => if i < 2 ^ l then (g i).re else (g (i - 2 ^ l)).im) := by
      intro i hil
      rw [unitView_addr]
      by_cases hlo : i < 2 ^ l
      · have := hg.1 i hlo
        rw [unitView_addr] at this
        simp only [if_pos hlo]; exact this
      · have := hg.2 (i - 2 ^ l) (by omega)
        rw [unitView_addr] at this
        simp only [if_neg hlo]
        rw [← this, gotoPot_mem]; congr 1; omega
    obtain ⟨m3, h3, v3⟩ := interleave_holds (t := c.ty) hb0 hreg
    refine ⟨_, g, by rw [h1, bind_ok, h2, bind_ok, h3], ?_, e2⟩
    refine (v3.split hb hr2 hi2).congr fun i hil => ?_
    have e1 : 2 * i % 2 = 0 := by omega
    have e2 : 2 * i / 2 = i := by omega
    have e3 : (2 * i + 1) % 2 = 1 := by omega
    have e4 : (2 * i + 1) / 2 = i := by omega
    simp only [ilvV, e1, e2, e3, e4, if_true, Nat.one_ne_zero, if_false, hil]
    rw [if_neg (by omega), Nat.add_sub_cancel_left]
  · obtain ⟨w2, g, h2, hg, e2⟩ := dbcF_turns (c := c) σ p hp hl hr hi (w0.gotoPot .potButterfly) f hf0
    exact ⟨w2.gotoPot .potSimdPost, g, by rw [h2, bind_ok], hg, e2⟩

theorem potButterfly_only {c : Config} (σ : Dir) (p : Policy) {l : Nat} {dr di : View} (hr : dr.count = 2 ^ l)
    (hi : di.count = 2 ^ l) : Only c (Touch dr di (2 ^ l)) (potButterfly c dr di l σ p) := by
  intro w w' h
  simp only [potButterfly] at h
  have h0 : Moved c (Touch dr di (2 ^ l)) w (w.gotoPot .potSimdPrep) := Moved.of_eq rfl rfl rfl rfl
  refine (h0.trans (effMask_moved c _ p (w.gotoPot .potSimdPrep))).trans ?_
  revert h
  generalize (effMask c p (w.gotoPot .potSimdPrep)).1 = em
  generalize (effMask c p (w.gotoPot .potSimdPrep)).2 = w0
  intro h
  split at h
  · rename_i hdl
    obtain ⟨hb, hr2, hi2, -, -⟩ := deinterleaves_iff.1 hdl
    obtain ⟨w2, h, h3⟩ := bind_eq_ok.1 h
    obtain ⟨w1, h1, h2⟩ := bind_eq_ok.1 h
    have a1 := (deinterleave_only c dr.base l (2 * 2 ^ l)) _ _ h1
    have a2 := Only.after ((dbcF_only (c := c) σ p (l := l) (vr := unitView dr.base (2 ^ l))
      (vi := unitView (dr.base + (2 ^ l : Nat)) (2 ^ l)) rfl rfl).mono (touch_halves (n' := 2 * 2 ^ l))) h2
      (gotoPot_moved _ _ w1 _)
    have a3 := Only.after (interleave_only c dr.base l (2 * 2 ^ l)) h3 (gotoPot_moved _ _ w2 _)
    exact ((a1.trans a2).trans a3).mono (touch_region hb hr2 hi2)
  · obtain ⟨w2, h1, h2⟩ := bind_eq_ok.1 h
    simp only [Except.ok.injEq] at h2; subst h2
    have a1 := Only.after (dbcF_only (c := c) σ p hr hi) h1 (gotoPot_moved _ _ w0 _)
    exact a1.trans (gotoPot_moved _ _ w2 _)

/-! ### The pipeline -/

/-- The power-of-two pipeline ends, and the destination holds the transform of what the sources read (R310–R315). -/
theorem potPipeline_holds {c : Config} {v : Views} {l : Nat} {σ : Dir} {scale : Elem} {p : Policy} {w : Work}
    {x f : Stream} (hp : Pair v.dr v.di (2 ^ l)) (hl : 1 ≤ c.lbuf) (hr : v.dr.count = 2 ^ l) (hi : v.di.count = 2 ^ l)
    (hsr : ∀ i, i < 2 ^ l → srcRead c.ty v.sr i w = .ok (x i).re)
    (hsi : ∀ i, i < 2 ^ l → srcRead c.ty v.si i w = .ok (x i).im)
    (hap : v.si.isNull = true ∨ ∀ i j, i < 2 ^ l → j < 2 ^ l → v.si.addr i ≠ v.dr.addr j)
    (hd : Holds w.mem v.dr v.di (2 ^ l) f) :
    ∃ w' g, potPipeline c v l σ scale p w = .ok w' ∧ Holds w'.mem v.dr v.di (2 ^ l) g
      ∧ (c.simdValues = .exact → g = potV c l σ scale x) := by
  obtain ⟨w1, h1, hv1⟩ := potPermute_holds hp hsr hsi hap hd
  obtain ⟨w2, g, h2, hv2, e2⟩ := potButterfly_turns (c := c) σ p hp hl hr hi w1 _ hv1
  obtain ⟨m3, h3, hv3⟩ := scaleViews_holds (t := c.ty) (w := w2.gotoPot .potScale) hp scale hv2
  exact ⟨_, _, by rw [potPipeline, h1, bind_ok, h2, bind_ok, h3], hv3, fun he => by rw [e2 he]; rfl⟩

theorem potPipeline_only {c : Config} {v : Views} {l : Nat} (σ : Dir) (scale : Elem) (p : Policy)
    (hr : v.dr.count = 2 ^ l) (hi : v.di.count = 2 ^ l) :
    Only c (Touch v.dr v.di (2 ^ l)) (potPipeline c v l σ scale p) :=
  Only.bind (potPermute_only c v l) (Only.bind (potButterfly_only σ p hr hi) fun _ _ h =>
    Only.after (scaleViews_only scale) h (gotoPot_moved _ _ _ _))

/-- The pipeline in place on one pair of arrays (R320, R321, R323). -/
theorem potPipeline_inPlace {c : Config} {vr vi : View} {l : Nat} (σ : Dir) (scale : Elem) (p : Policy)
    (hp : Pair vr vi (2 ^ l)) (hl : 1 ≤ c.lbuf) (hr : vr.count = 2 ^ l) (hi : vi.count = 2 ^ l) (hbr : vr.base ≠ 0)
    (hbi : vi.base ≠ 0) : Turns c vr vi (2 ^ l) (potPipeline c (inPlace vr vi) l σ scale p) (potV c l σ scale) :=
  fun _ _ hf => potPipeline_holds (v := inPlace vr vi) hp hl hr hi (fun _ hk => srcRead_holds hbr hf.1 hk)
    (fun _ hk => srcRead_holds hbi hf.2 hk) (.inr fun i j h1 h2 he => hp.apart j i h2 h1 he.symm) hf

end Sys2Proof.Machine
end

