-- ==== Sys2Proof/Laws/Bluestein.lean ====
section
/-! SUPPORT. The twiddle generators' lists, and the Bluestein pipeline from its premultiplication to its
postmultiplication (R175, R316–R324): where the sources read and the destinations are admitted, it ends, and the
destination holds what Values.lean says. -/

namespace Sys2Proof.Machine

/-! ### Twiddle lists -/

theorem twiddleRaw_length (c : Config) (bigN : Nat) (σ : Dir) (i : Nat) : (twiddleRaw c bigN σ i).length = 2 ^ i := by
  induction i with
  | zero => rfl
  | succ i ih => simp only [twiddleRaw, List.length_append, List.length_map, ih]; ring

/-- `TwiddleGen(N, L, σ)` has `2^L` entries (R170). -/
theorem twiddleGen_length (c : Config) (bigN l : Nat) (σ : Dir) : (twiddleGen c bigN l σ).length = 2 ^ l := by
  simp [twiddleGen, twiddleRaw_length]

theorem twStep_legal (t : Ty) (w z : Cx) : legalCx t (twStep t w z) := ⟨add_legal _ _ _, add_legal _ _ _⟩

theorem addOne_legal {t : Ty} {z : Cx} (h : legalCx t z) : legalCx t (addOne t z) := ⟨add_legal _ _ _, h.2⟩

theorem twiddleRaw_legal (c : Config) (bigN : Nat) (σ : Dir) (i : Nat) : ∀ z ∈ twiddleRaw c bigN σ i, legalCx c.ty z := by
  induction i with
  | zero => intro z hz; simp only [twiddleRaw, List.mem_singleton] at hz; subst hz; exact zeroCx_legal _
  | succ i ih =>
    intro z hz
    simp only [twiddleRaw, List.mem_append, List.mem_map] at hz
    rcases hz with hz | ⟨y, -, rfl⟩
    · exact ih z hz
    · exact twStep_legal _ _ _

theorem twiddleGen_legal (c : Config) (bigN l : Nat) (σ : Dir) : ∀ z ∈ twiddleGen c bigN l σ, legalCx c.ty z := by
  intro z hz
  obtain ⟨y, hy, rfl⟩ := List.mem_map.1 hz
  exact addOne_legal (twiddleRaw_legal c bigN σ l y hy)

theorem fracRaw_length (c : Config) (n : Nat) (σ : Dir) (k : Nat) :
    (fracRaw c n σ k).length = min (2 ^ k) (n / 2 + 1) := by
  induction k with
  | zero => simp [fracRaw]
  | succ k ih =>
    simp only [fracRaw, List.length_take, List.length_append, List.length_map, ih, pow_succ]; omega

theorem fracFirst_length (c : Config) (n : Nat) (σ : Dir) : (fracFirst c n σ).length = n / 2 + 1 := by
  simp only [fracFirst, List.length_map, fracRaw_length, doublings]
  split
  · rename_i h; rw [h]; rfl
  · have := Nat.lt_log2_self (n := n / 2)
    omega

theorem fracHalf_length (c : Config) {n : Nat} (σ : Dir) (hn : 1 ≤ n) : (fracHalf c n σ).length = n := by
  simp only [fracHalf, List.length_append, List.length_map, List.length_range, fracFirst_length]; omega

/-- `FracTwiddles(n, σ)` has `2n` entries (R175). -/
theorem fracTwiddles_length (c : Config) {n : Nat} (σ : Dir) (hn : 1 ≤ n) : (fracTwiddles c n σ).length = 2 * n := by
  simp only [fracTwiddles, List.length_append, List.length_map, fracHalf_length c σ hn]; omega

theorem fracRaw_legal (c : Config) (n : Nat) (σ : Dir) (k : Nat) : ∀ z ∈ fracRaw c n σ k, legalCx c.ty z := by
  induction k with
  | zero => intro z hz; simp only [fracRaw, List.mem_singleton] at hz; subst hz; exact zeroCx_legal _
  | succ k ih =>
    intro z hz
    have hz := List.mem_of_mem_take hz
    simp only [List.mem_append, List.mem_map] at hz
    rcases hz with hz | ⟨y, -, rfl⟩
    · exact ih z hz
    · exact twStep_legal _ _ _

theorem default_legal (t : Ty) : legalCx t default := by
  have h : t.legal ⟨0⟩ = true := legal_of_lt fun f _ => by have := f.signBit_pos; simp only; omega
  exact ⟨h, h⟩

theorem getD_legal {t : Ty} {l : List Cx} (h : ∀ z ∈ l, legalCx t z) (k : Nat) : legalCx t (l.getD k default) := by
  rw [List.getD_eq_getElem?_getD]
  cases hk : l[k]? with
  | none => exact default_legal t
  | some z => exact h z (List.mem_of_getElem? hk)

theorem fracFirst_legal (c : Config) (n : Nat) (σ : Dir) : ∀ z ∈ fracFirst c n σ, legalCx c.ty z := by
  intro z hz
  obtain ⟨y, hy, rfl⟩ := List.mem_map.1 hz
  exact addOne_legal (fracRaw_legal c n σ _ y hy)

theorem fracHalf_legal (c : Config) (n : Nat) (σ : Dir) : ∀ z ∈ fracHalf c n σ, legalCx c.ty z := by
  intro z hz
  simp only [fracHalf, List.mem_append, List.mem_map] at hz
  rcases hz with hz | ⟨y, -, rfl⟩
  · exact fracFirst_legal c n σ z hz
  · exact ⟨neg_legal _ _, (getD_legal (fracFirst_legal c n σ) _).2⟩

theorem fracTwiddles_legal (c : Config) (n : Nat) (σ : Dir) : ∀ z ∈ fracTwiddles c n σ, legalCx c.ty z := by
  intro z hz
  simp only [fracTwiddles, List.mem_append, List.mem_map] at hz
  rcases hz with hz | ⟨y, -, rfl⟩
  · exact fracHalf_legal c n σ z hz
  · exact ⟨neg_legal _ _, neg_legal _ _⟩

theorem chirpIndex_lt {n : Nat} (k : Nat) (hn : 1 ≤ n) : chirpIndex n k < 2 * n := Nat.mod_lt _ (by omega)

/-- `m = 2^⌈log2 x⌉` is at least `x` (R14). -/
theorem le_two_pow_clog2 (x : Nat) : x ≤ 2 ^ clog2 x := by
  simp only [clog2]
  split
  · simpa using ‹x ≤ 1›
  · have := Nat.lt_log2_self (n := x - 1); omega

/-! ### The scratch -/

/-- The addresses of the scratch region (R316). -/
abbrev InScratch (b len : Nat) (a : Int) : Prop := (b : Int) ≤ a ∧ a < (b + len : Nat)

/-- The whole scratch is admitted. -/
def ScratchHere (m : Mem) (b len : Nat) : Prop := ∀ a, InScratch b len a → (m.atAddr a).isSome = true

section scratch
variable {b m n : Nat}

theorem scratch_pairA : Pair (scratchAt b m n).ar (scratchAt b m n).ai m :=
  ⟨by simp [scratchAt], by simp [scratchAt], fun i j hi hj => by simp only [scratchAt, unitView_addr]; push_cast; omega⟩

theorem scratch_pairB : Pair (scratchAt b m n).br (scratchAt b m n).bi m :=
  ⟨by simp [scratchAt], by simp [scratchAt], fun i j hi hj => by simp only [scratchAt, unitView_addr]; push_cast; omega⟩

theorem scratch_pairT : Pair (scratchAt b m n).tr (scratchAt b m n).ti (2 * n) :=
  ⟨by simp [scratchAt], by simp [scratchAt], fun i j hi hj => by simp only [scratchAt, unitView_addr]; push_cast; omega⟩

theorem touchA_scratch (a : Int) (h : Touch (scratchAt b m n).ar (scratchAt b m n).ai m a) : InScratch b (4 * m + 4 * n) a := by
  obtain ⟨i, hi, h | h⟩ := h <;> simp only [scratchAt, unitView_addr] at h <;> subst h <;>
    exact ⟨by push_cast; omega, by push_cast; omega⟩

theorem touchB_scratch (a : Int) (h : Touch (scratchAt b m n).br (scratchAt b m n).bi m a) : InScratch b (4 * m + 4 * n) a := by
  obtain ⟨i, hi, h | h⟩ := h <;> simp only [scratchAt, unitView_addr] at h <;> subst h <;>
    exact ⟨by push_cast; omega, by push_cast; omega⟩

theorem touchT_scratch (a : Int) (h : Touch (scratchAt b m n).tr (scratchAt b m n).ti (2 * n) a) :
    InScratch b (4 * m + 4 * n) a := by
  obtain ⟨i, hi, h | h⟩ := h <;> simp only [scratchAt, unitView_addr] at h <;> subst h <;>
    exact ⟨by push_cast; omega, by push_cast; omega⟩

theorem holdsA_keep {c : Config} {w w' : Work} {f : Stream} (h : Holds w.mem (scratchAt b m n).ar (scratchAt b m n).ai m f)
    {P : Int → Prop} (hm : Moved c P w w') (hP : ∀ a, P a → ¬ ((b : Int) ≤ a ∧ a < (b + 2 * m : Nat))) :
    Holds w'.mem (scratchAt b m n).ar (scratchAt b m n).ai m f :=
  h.keep hm (fun i hi hp => hP _ hp (by simp only [scratchAt, unitView_addr]; push_cast; omega))
    (fun i hi hp => hP _ hp (by simp only [scratchAt, unitView_addr]; push_cast; omega))

theorem holdsB_keep {c : Config} {w w' : Work} {f : Stream} (h : Holds w.mem (scratchAt b m n).br (scratchAt b m n).bi m f)
    {P : Int → Prop} (hm : Moved c P w w') (hP : ∀ a, P a → ¬ ((b + 2 * m : Nat) ≤ a ∧ a < (b + 4 * m : Nat))) :
    Holds w'.mem (scratchAt b m n).br (scratchAt b m n).bi m f :=
  h.keep hm (fun i hi hp => hP _ hp (by simp only [scratchAt, unitView_addr]; push_cast; omega))
    (fun i hi hp => hP _ hp (by simp only [scratchAt, unitView_addr]; push_cast; omega))

theorem holdsT_keep {c : Config} {w w' : Work} {f : Stream}
    (h : Holds w.mem (scratchAt b m n).tr (scratchAt b m n).ti (2 * n) f)
    {P : Int → Prop} (hm : Moved c P w w') (hP : ∀ a, P a → ¬ ((b + 4 * m : Nat) ≤ a ∧ a < (b + (4 * m + 4 * n) : Nat))) :
    Holds w'.mem (scratchAt b m n).tr (scratchAt b m n).ti (2 * n) f :=
  h.keep hm (fun i hi hp => hP _ hp (by simp only [scratchAt, unitView_addr]; push_cast; omega))
    (fun i hi hp => hP _ hp (by simp only [scratchAt, unitView_addr]; push_cast; omega))

theorem touchA_range {a : Int} (h : Touch (scratchAt b m n).ar (scratchAt b m n).ai m a) :
    (b : Int) ≤ a ∧ a < (b + 2 * m : Nat) := by
  obtain ⟨i, hi, h | h⟩ := h <;> simp only [scratchAt, unitView_addr] at h <;> subst h <;>
    exact ⟨by push_cast; omega, by push_cast; omega⟩

theorem touchB_range {a : Int} (h : Touch (scratchAt b m n).br (scratchAt b m n).bi m a) :
    ((b + 2 * m : Nat) : Int) ≤ a ∧ a < (b + 4 * m : Nat) := by
  obtain ⟨i, hi, h | h⟩ := h <;> simp only [scratchAt, unitView_addr] at h <;> subst h <;>
    exact ⟨by push_cast; omega, by push_cast; omega⟩

theorem touchT_range {a : Int} (h : Touch (scratchAt b m n).tr (scratchAt b m n).ti (2 * n) a) :
    ((b + 4 * m : Nat) : Int) ≤ a ∧ a < (b + (4 * m + 4 * n) : Nat) := by
  obtain ⟨i, hi, h | h⟩ := h <;> simp only [scratchAt, unitView_addr] at h <;> subst h <;>
    exact ⟨by push_cast; omega, by push_cast; omega⟩

theorem scratch_here {mm : Mem} (h : ScratchHere mm b (4 * m + 4 * n)) {v : View} {k o : Nat}
    (hv : v = unitView (b + o : Nat) k) (ho : o + k ≤ 4 * m + 4 * n) : ∀ i, i < k → (mm.atAddr (v.addr i)).isSome = true := by
  intro i hi
  subst hv
  rw [unitView_addr]
  exact h _ ⟨by push_cast; omega, by push_cast; omega⟩

end scratch

/-! ### Premultiplication -/

theorem zeroFill_holds {t : Ty} {vr vi : View} {n i len : Nat} {f : Stream} {w : Work} (hp : Pair vr vi n)
    (h : Holds w.mem vr vi n f) (hlen : i + len ≤ n) :
    ∃ w', zeroFill t vr vi i len w = .ok w'
      ∧ Holds w'.mem vr vi n (fun j => if i ≤ j ∧ j < i + len then ⟨t.zero, t.zero⟩ else f j) := by
  obtain ⟨w', h1, h2⟩ := forUp_total (n := len) (w := w) (f := fun k w => cxWrite vr vi (i + k) ⟨t.zero, t.zero⟩ w)
    (I := fun k w1 => Holds w1.mem vr vi n (fun j => if i ≤ j ∧ j < i + k then ⟨t.zero, t.zero⟩ else f j))
    (h.congr fun j _ => by rw [if_neg (by omega)]) (by
      intro k hk w1 hi
      obtain ⟨m', a1, a2, -⟩ := cxWrite_holds hp hi (show i + k < n by omega) ⟨t.zero, t.zero⟩
      refine ⟨_, a1, a2.congr fun j _ => ?_⟩
      simp only [Function.update_apply]
      by_cases hj : j = i + k
      · rw [if_pos hj, if_pos (by omega)]
      · rw [if_neg hj]; congr 1; simp only [eq_iff_iff]; omega)
  exact ⟨w', h1, h2⟩

theorem zeroFill_only {c : Config} {vr vi : View} {n i len : Nat} (hlen : i + len ≤ n) :
    Only c (Touch vr vi n) (zeroFill c.ty vr vi i len) :=
  Only.forUp fun k hk => cxWrite_only (touch_re (by omega)) (touch_im (by omega)) (zeroCx_legal _)

/-- `x` premultiplied and its chirp entries placed: what one turn of the loop of R319 does. -/
theorem premulOne_holds {c : Config} {sr si : View} {b m n k : Nat} {x tw fa fb : Stream} {w : Work} (hk : k < n)
    (hm : 2 * n ≤ m + 1) (hx : srcRead c.ty sr k w = .ok (x k).re) (hy : srcRead c.ty si k w = .ok (x k).im)
    (hA : Holds w.mem (scratchAt b m n).ar (scratchAt b m n).ai m fa)
    (hB : Holds w.mem (scratchAt b m n).br (scratchAt b m n).bi m fb)
    (hT : Holds w.mem (scratchAt b m n).tr (scratchAt b m n).ti (2 * n) tw) (invM : Elem) :
    ∃ w', premulOne c.ty sr si (scratchAt b m n) m n invM k w = .ok w'
      ∧ Holds w'.mem (scratchAt b m n).ar (scratchAt b m n).ai m
          (Function.update fa k (scaledProduct c.ty (x k) (tw (chirpIndex n k)) invM))
      ∧ Holds w'.mem (scratchAt b m n).br (scratchAt b m n).bi m (fun j =>
          if j = k ∨ (1 ≤ k ∧ j = m - k) then ⟨(tw (chirpIndex n k)).re, c.ty.neg (tw (chirpIndex n k)).im⟩ else fb j)
      ∧ Holds w'.mem (scratchAt b m n).tr (scratchAt b m n).ti (2 * n) tw := by
  have hj := chirpIndex_lt (n := n) k (by omega)
  obtain ⟨m1, a1, a2, -⟩ := cxWrite_holds scratch_pairA hA (show k < m by omega)
    (scaledProduct c.ty (x k) (tw (chirpIndex n k)) invM)
  have v1 := cxWrite_moved (c := anyElem c) (P := Touch (scratchAt b m n).ar (scratchAt b m n).ai m) (touch_re (by omega))
    (touch_im (by omega)) (anyElem_legal c _) a1
  have hB1 := holdsB_keep hB v1 fun a ha => by have := touchA_range ha; push_cast at *; omega
  have hT1 := holdsT_keep hT v1 fun a ha => by have := touchA_range ha; push_cast at *; omega
  obtain ⟨m2, b1, b2, -⟩ := cxWrite_holds (w := { w with mem := m1 }) scratch_pairB hB1 (show k < m by omega)
    ⟨(tw (chirpIndex n k)).re, c.ty.neg (tw (chirpIndex n k)).im⟩
  have v2 := cxWrite_moved (c := anyElem c) (P := Touch (scratchAt b m n).br (scratchAt b m n).bi m) (touch_re (by omega))
    (touch_im (by omega)) (anyElem_legal c _) b1
  have hA2 := holdsA_keep (w := { w with mem := m1 }) a2 v2 fun a ha => by have := touchB_range ha; push_cast at *; omega
  have hT2 := holdsT_keep hT1 v2 fun a ha => by have := touchB_range ha; push_cast at *; omega
  have hstart : premulOne c.ty sr si (scratchAt b m n) m n invM k w
      = if 1 ≤ k then cxWrite (scratchAt b m n).br (scratchAt b m n).bi (m - k)
          ⟨(tw (chirpIndex n k)).re, c.ty.neg (tw (chirpIndex n k)).im⟩ { w with mem := m2 }
        else .ok { w with mem := m2 } := by
    rw [premulOne, hx, bind_ok, hy, bind_ok, cxRead_holds hT hj, bind_ok, a1, bind_ok, b1, bind_ok]
  by_cases h1 : 1 ≤ k
  · rw [hstart, if_pos h1]
    obtain ⟨m3, c1, c2, -⟩ := cxWrite_holds (w := { w with mem := m2 }) scratch_pairB b2 (show m - k < m by omega)
      ⟨(tw (chirpIndex n k)).re, c.ty.neg (tw (chirpIndex n k)).im⟩
    have v3 := cxWrite_moved (c := anyElem c) (P := Touch (scratchAt b m n).br (scratchAt b m n).bi m)
      (touch_re (by omega)) (touch_im (by omega)) (anyElem_legal c _) c1
    have hA3 := holdsA_keep hA2 v3 fun a ha => by have := touchB_range ha; push_cast at *; omega
    have hT3 := holdsT_keep hT2 v3 fun a ha => by have := touchB_range ha; push_cast at *; omega
    refine ⟨_, c1, hA3, c2.congr fun j _ => ?_, hT3⟩
    simp only [Function.update_apply, h1, true_and]
    by_cases e1 : j = m - k
    · rw [if_pos e1, if_pos (.inr e1)]
    · by_cases e2 : j = k
      · rw [if_neg e1, if_pos e2, if_pos (.inl e2)]
      · rw [if_neg e1, if_neg e2, if_neg (by tauto)]
  · rw [hstart, if_neg h1]
    refine ⟨_, rfl, hA2, b2.congr fun j _ => ?_, hT2⟩
    simp only [Function.update_apply, h1, false_and, or_false]

theorem premulOne_only {c : Config} {sr si : View} {b m n k : Nat} (hk : k < n) (hm : 2 * n ≤ m + 1) (invM : Elem) :
    Only c (fun a => (b : Int) ≤ a ∧ a < (b + 4 * m : Nat)) (premulOne c.ty sr si (scratchAt b m n) m n invM k) := by
  have hA : ∀ {i}, i < m → ∀ v, v = (scratchAt b m n).ar ∨ v = (scratchAt b m n).ai →
      (b : Int) ≤ v.addr i ∧ v.addr i < (b + 4 * m : Nat) := by
    rintro i hi v (rfl | rfl) <;> simp only [scratchAt, unitView_addr] <;> push_cast <;> omega
  have hB : ∀ {i}, i < m → ∀ v, v = (scratchAt b m n).br ∨ v = (scratchAt b m n).bi →
      (b : Int) ≤ v.addr i ∧ v.addr i < (b + 4 * m : Nat) := by
    rintro i hi v (rfl | rfl) <;> simp only [scratchAt, unitView_addr] <;> push_cast <;> omega
  intro w w' h
  obtain ⟨xr, -, h⟩ := bind_eq_ok.1 h
  obtain ⟨xi, -, h⟩ := bind_eq_ok.1 h
  obtain ⟨tw, htw, h⟩ := bind_eq_ok.1 h
  obtain ⟨w1, h1, h⟩ := bind_eq_ok.1 h
  obtain ⟨w2, h2, h⟩ := bind_eq_ok.1 h
  have key : ∀ d : Config, legalCx d.ty (scaledProduct c.ty ⟨xr, xi⟩ tw invM) →
      legalCx d.ty ⟨tw.re, c.ty.neg tw.im⟩ → Moved d (fun a => (b : Int) ≤ a ∧ a < (b + 4 * m : Nat)) w w' := by
    intro d hz1 hz2
    have a1 := cxWrite_moved (c := d) (P := fun a => (b : Int) ≤ a ∧ a < (b + 4 * m : Nat))
      (hA (by omega) _ (.inl rfl)) (hA (by omega) _ (.inr rfl)) hz1 h1
    have a2 := cxWrite_moved (c := d) (P := fun a => (b : Int) ≤ a ∧ a < (b + 4 * m : Nat))
      (hB (by omega) _ (.inl rfl)) (hB (by omega) _ (.inr rfl)) hz2 h2
    refine (a1.trans a2).trans ?_
    split at h
    · exact cxWrite_moved (c := d) (P := fun a => (b : Int) ≤ a ∧ a < (b + 4 * m : Nat))
        (hB (by omega) _ (.inl rfl)) (hB (by omega) _ (.inr rfl)) hz2 h
    · simp only [Except.ok.injEq] at h; subst h; exact .refl _ _ _
  by_cases hl : w.mem.legal c.ty = true
  · exact key c ⟨mul_legal _ _ _, mul_legal _ _ _⟩ ⟨(cxRead_legal htw hl).1, neg_legal _ _⟩
  · exact (key (anyElem c) (anyElem_legal c _) (anyElem_legal c _)).unlawful hl

/-- `BS_PREMUL` ends, and the scratch arrays hold what R319 says. -/
theorem bsPremul_holds {c : Config} {v : Views} {b lm n : Nat} {σ : Dir} {x : Stream} {w : Work} (hn : 1 ≤ n)
    (hm : 2 * n ≤ 2 ^ lm + 1) (hs : ScratchHere w.mem b (scratchLen lm n))
    (hsr : ∀ i, i < n → srcRead c.ty v.sr i w = .ok (x i).re) (hsi : ∀ i, i < n → srcRead c.ty v.si i w = .ok (x i).im)
    (har : v.sr.isNull = true ∨ ∀ i, i < n → ¬ InScratch b (scratchLen lm n) (v.sr.addr i))
    (hai : v.si.isNull = true ∨ ∀ i, i < n → ¬ InScratch b (scratchLen lm n) (v.si.addr i)) :
    ∃ w', bsPremul c v (scratchAt b (2 ^ lm) n) lm n σ w = .ok w'
      ∧ Holds w'.mem (scratchAt b (2 ^ lm) n).ar (scratchAt b (2 ^ lm) n).ai (2 ^ lm) (premulA c lm n σ x)
      ∧ Holds w'.mem (scratchAt b (2 ^ lm) n).br (scratchAt b (2 ^ lm) n).bi (2 ^ lm) (premulB c lm n σ)
      ∧ Holds w'.mem (scratchAt b (2 ^ lm) n).tr (scratchAt b (2 ^ lm) n).ti (2 * n)
          (fun j => (fracTwiddles c n σ).getD j default) := by
  have hA0 : Holds w.mem (scratchAt b (2 ^ lm) n).ar (scratchAt b (2 ^ lm) n).ai (2 ^ lm) _ :=
    .of_admitted (scratch_here hs (o := 0) rfl (by omega)) (scratch_here hs (o := 2 ^ lm) rfl (by omega))
  have hB0 : Holds w.mem (scratchAt b (2 ^ lm) n).br (scratchAt b (2 ^ lm) n).bi (2 ^ lm) _ :=
    .of_admitted (scratch_here hs (o := 2 * 2 ^ lm) rfl (by omega)) (scratch_here hs (o := 3 * 2 ^ lm) rfl (by omega))
  have hT0 : Holds w.mem (scratchAt b (2 ^ lm) n).tr (scratchAt b (2 ^ lm) n).ti (2 * n) _ :=
    .of_admitted (scratch_here hs (o := 4 * 2 ^ lm) rfl (by omega))
      (scratch_here hs (o := 4 * 2 ^ lm + 2 * n) (by simp only [scratchAt]; congr 1; push_cast; ring) (by omega))
  revert hA0 hB0 hT0
  generalize streamOf w.mem (scratchAt b (2 ^ lm) n).ar (scratchAt b (2 ^ lm) n).ai = fa
  generalize streamOf w.mem (scratchAt b (2 ^ lm) n).br (scratchAt b (2 ^ lm) n).bi = fb
  generalize streamOf w.mem (scratchAt b (2 ^ lm) n).tr (scratchAt b (2 ^ lm) n).ti = ft
  intro hA0 hB0 hT0
  have hlen := fracTwiddles_length c (n := n) σ hn
  obtain ⟨m1, e1, hT1, -⟩ := storeCx_holds (w := w.goto .bsPremul) scratch_pairT hT0 (zs := fracTwiddles c n σ) (k := 0)
    (by rw [hlen]; omega)
  have v1 : Moved c (Touch (scratchAt b (2 ^ lm) n).tr (scratchAt b (2 ^ lm) n).ti (2 * n)) (w.goto .bsPremul)
      { (w.goto .bsPremul) with mem := m1 } :=
    storeCx_moved (fun j _ hj => touch_re (by omega)) (fun j _ hj => touch_im (by omega)) (fracTwiddles_legal c n σ) e1
  have hA1 := holdsA_keep (w := w.goto .bsPremul) hA0 v1 fun a ha => by have := touchT_range ha; push_cast at *; omega
  have hB1 := holdsB_keep (w := w.goto .bsPremul) hB0 v1 fun a ha => by have := touchT_range ha; push_cast at *; omega
  have hT2 : Holds m1 (scratchAt b (2 ^ lm) n).tr (scratchAt b (2 ^ lm) n).ti (2 * n)
      (fun j => (fracTwiddles c n σ).getD j default) :=
    hT1.congr fun j hj => by rw [if_pos (by omega), Nat.sub_zero]
  obtain ⟨w2, e2, i2, hA2, hB2, hT3⟩ := forUp_total (n := n) (w := { (w.goto .bsPremul) with mem := m1 })
    (f := premulOne c.ty v.sr v.si (scratchAt b (2 ^ lm) n) (2 ^ lm) n (c.ty.invPow2 lm))
    (I := fun k w2 => Moved c (InScratch b (scratchLen lm n)) (w.goto .bsPremul) w2
      ∧ Holds w2.mem (scratchAt b (2 ^ lm) n).ar (scratchAt b (2 ^ lm) n).ai (2 ^ lm)
          (fun i => if i < k then scaledProduct c.ty (x i) (chirpV c n σ i) (c.ty.invPow2 lm) else fa i)
      ∧ Holds w2.mem (scratchAt b (2 ^ lm) n).br (scratchAt b (2 ^ lm) n).bi (2 ^ lm)
          (fun i => if i < k then ⟨(chirpV c n σ i).re, c.ty.neg (chirpV c n σ i).im⟩
            else if 2 ^ lm - i < k then ⟨(chirpV c n σ (2 ^ lm - i)).re, c.ty.neg (chirpV c n σ (2 ^ lm - i)).im⟩
            else fb i)
      ∧ Holds w2.mem (scratchAt b (2 ^ lm) n).tr (scratchAt b (2 ^ lm) n).ti (2 * n)
          (fun j => (fracTwiddles c n σ).getD j default))
    ⟨v1.mono touchT_scratch, hA1.congr fun i _ => by simp, hB1.congr fun i _ => by simp, hT2⟩ (by
      rintro k hk w2 ⟨i2, hA2, hB2, hT3⟩
      have hx : srcRead c.ty v.sr k w2 = .ok (x k).re :=
        srcRead_keep (w := w.goto .bsPremul) (hsr k hk) i2 (har.imp id fun h => h k hk)
      have hy : srcRead c.ty v.si k w2 = .ok (x k).im :=
        srcRead_keep (w := w.goto .bsPremul) (hsi k hk) i2 (hai.imp id fun h => h k hk)
      obtain ⟨w3, e3, hA3, hB3, hT4⟩ := premulOne_holds hk hm hx hy hA2 hB2 hT3 (c.ty.invPow2 lm)
      have i3 := premulOne_only (c := c) hk hm (c.ty.invPow2 lm) w2 w3 e3
      have i4 : Moved c (InScratch b (scratchLen lm n)) w2 w3 := i3.mono fun a ha => ⟨ha.1, by
        have := ha.2; simp only [scratchLen]; push_cast at *; omega⟩
      refine ⟨w3, e3, i2.trans i4, hA3.congr fun i _ => ?_, hB3.congr fun i hi => ?_, hT4⟩
      · simp only [Function.update_apply]
        by_cases hik : i = k
        · subst hik; rw [if_pos rfl, if_pos (by omega)]; rfl
        · rw [if_neg hik]; congr 1; simp only [eq_iff_iff]; omega
      · by_cases hik : i = k
        · subst hik; rw [if_pos (.inl rfl), if_pos (by omega)]; rfl
        · by_cases hmk : 1 ≤ k ∧ i = 2 ^ lm - k
          · have e : 2 ^ lm - i = k := by omega
            rw [if_pos (.inr hmk), if_neg (by omega), if_pos (by omega), e]; rfl
          · rw [if_neg (by tauto)]
            by_cases h1 : i < k
            · rw [if_pos h1, if_pos (show i < k + 1 by omega)]
            · have h3 : ¬ i < k + 1 := by omega
              by_cases h2 : 2 ^ lm - i < k
              · rw [if_neg h1, if_pos h2, if_neg h3, if_pos (show 2 ^ lm - i < k + 1 by omega)]
              · rw [if_neg h1, if_neg h2, if_neg h3, if_neg (show ¬ 2 ^ lm - i < k + 1 by omega)])
  obtain ⟨w3, e3, hA3⟩ := zeroFill_holds (t := c.ty) scratch_pairA hA2 (i := n) (len := 2 ^ lm - n) (by omega)
  have v3 := zeroFill_only (c := c) (vr := (scratchAt b (2 ^ lm) n).ar) (vi := (scratchAt b (2 ^ lm) n).ai) (n := 2 ^ lm)
    (i := n) (len := 2 ^ lm - n) (by omega) _ _ e3
  have hB3 := holdsB_keep hB2 v3 fun a ha => by have := touchA_range ha; push_cast at *; omega
  have hT4 := holdsT_keep hT3 v3 fun a ha => by have := touchA_range ha; push_cast at *; omega
  obtain ⟨w4, e4, hB4⟩ := zeroFill_holds (t := c.ty) scratch_pairB hB3 (i := n) (len := 2 ^ lm + 1 - 2 * n) (by omega)
  have v4 := zeroFill_only (c := c) (vr := (scratchAt b (2 ^ lm) n).br) (vi := (scratchAt b (2 ^ lm) n).bi) (n := 2 ^ lm)
    (i := n) (len := 2 ^ lm + 1 - 2 * n) (by omega) _ _ e4
  have hA4 := holdsA_keep hA3 v4 fun a ha => by have := touchB_range ha; push_cast at *; omega
  have hT5 := holdsT_keep hT4 v4 fun a ha => by have := touchB_range ha; push_cast at *; omega
  refine ⟨w4, ?_, hA4.congr fun i hi => ?_, hB4.congr fun i hi => ?_, hT5⟩
  · simp only [bsPremul]
    rw [e1, bind_ok, e2, bind_ok, e3, bind_ok, e4]
  · simp only [premulA]
    by_cases h1 : i < n
    · rw [if_neg (by omega), if_pos h1, if_pos h1]
    · rw [if_pos (by omega), if_neg h1]
  · simp only [premulB]
    by_cases h1 : i < n
    · rw [if_neg (by omega), if_pos h1, if_pos h1]
    · by_cases h2 : 2 ^ lm - i < n
      · rw [if_neg (by omega), if_neg h1, if_pos h2, if_neg h1, if_pos h2]
      · rw [if_pos (by omega), if_neg h1, if_neg h2]

theorem bsPremul_only {c : Config} {v : Views} {b lm n : Nat} (σ : Dir) (hn : 1 ≤ n) (hm : 2 * n ≤ 2 ^ lm + 1) :
    Only c (InScratch b (scratchLen lm n)) (bsPremul c v (scratchAt b (2 ^ lm) n) lm n σ) := by
  have hlen := fracTwiddles_length c (n := n) σ hn
  intro w w' h
  simp only [bsPremul] at h
  obtain ⟨w1, h1, h⟩ := bind_eq_ok.1 h
  obtain ⟨w2, h2, h⟩ := bind_eq_ok.1 h
  obtain ⟨w3, h3, h4⟩ := bind_eq_ok.1 h
  have a1 : Moved c (Touch (scratchAt b (2 ^ lm) n).tr (scratchAt b (2 ^ lm) n).ti (2 * n)) (w.goto .bsPremul) w1 :=
    storeCx_moved (fun j _ hj => touch_re (by omega)) (fun j _ hj => touch_im (by omega)) (fracTwiddles_legal c n σ) h1
  have a2 := Only.forUp (fun k hk => premulOne_only (c := c) (sr := v.sr) (si := v.si) (b := b) (m := 2 ^ lm) hk hm
    (c.ty.invPow2 lm)) _ _ h2
  have a3 := zeroFill_only (c := c) (n := 2 ^ lm) (by omega) _ _ h3
  have a4 := zeroFill_only (c := c) (n := 2 ^ lm) (by omega) _ _ h4
  have a2' : Moved c (InScratch b (scratchLen lm n)) w1 w2 := a2.mono fun a ha => ⟨ha.1, by
    have := ha.2; simp only [scratchLen]; push_cast at *; omega⟩
  exact ((((goto_moved c _ w _).trans (a1.mono touchT_scratch)).trans a2').trans
    (a3.mono touchA_scratch)).trans (a4.mono touchB_scratch)

/-! ### The whole convolution -/

theorem cxReads_only {c : Config} {P : Int → Prop} {vr vi ur ui tr ti : View} {k : Nat} (hr : P (vr.addr k))
    (hi : P (vi.addr k)) : Only c P (fun w => (cxRead ur ui k w).bind fun a => (cxRead tr ti k w).bind fun b =>
      cxWrite vr vi k (cmul c.ty a b) w) := by
  intro w w' h
  obtain ⟨a, -, h⟩ := bind_eq_ok.1 h
  obtain ⟨b, -, h⟩ := bind_eq_ok.1 h
  exact cxWrite_moved hr hi (cmul_legal _ _ _) h

/-- `BS_POINTWISE` ends, and `a` holds the products (R322). -/
theorem bsPointwise_holds {t : Ty} {b m n : Nat} {fa fb : Stream} {w : Work}
    (hA : Holds w.mem (scratchAt b m n).ar (scratchAt b m n).ai m fa)
    (hB : Holds w.mem (scratchAt b m n).br (scratchAt b m n).bi m fb) :
    ∃ w', bsPointwise t (scratchAt b m n) m w = .ok w'
      ∧ Holds w'.mem (scratchAt b m n).ar (scratchAt b m n).ai m (fun k => cmul t (fa k) (fb k)) := by
  obtain ⟨w', h1, h2, -⟩ := forUp_total (n := m) (w := w.goto .bsPointwise)
    (f := fun k w => (cxRead (scratchAt b m n).ar (scratchAt b m n).ai k w).bind fun a =>
      (cxRead (scratchAt b m n).br (scratchAt b m n).bi k w).bind fun b' =>
      cxWrite (scratchAt b m n).ar (scratchAt b m n).ai k (cmul t a b') w)
    (I := fun k w1 => Holds w1.mem (scratchAt b m n).ar (scratchAt b m n).ai m
        (fun i => if i < k then cmul t (fa i) (fb i) else fa i)
      ∧ Holds w1.mem (scratchAt b m n).br (scratchAt b m n).bi m fb)
    ⟨hA.congr fun i _ => by simp, hB⟩ (by
      rintro k hk w1 ⟨h1, h2⟩
      obtain ⟨m', e1, e2, -⟩ := cxWrite_holds scratch_pairA h1 hk (cmul t (fa k) (fb k))
      have v1 := cxWrite_moved (c := anyElem Config.standard) (P := Touch (scratchAt b m n).ar (scratchAt b m n).ai m)
        (touch_re hk) (touch_im hk) (anyElem_legal _ _) e1
      refine ⟨{ w1 with mem := m' }, ?_, e2.congr fun i _ => ?_, holdsB_keep h2 v1 fun a ha => by
        have := touchA_range ha; push_cast at *; omega⟩
      · rw [cxRead_holds h1 hk, bind_ok, cxRead_holds h2 hk, bind_ok, if_neg (by omega), e1]
      · simp only [Function.update_apply]
        by_cases hik : i = k
        · subst hik; rw [if_pos rfl, if_pos (by omega)]
        · rw [if_neg hik]; congr 1; simp only [eq_iff_iff]; omega)
  exact ⟨w', h1, h2.congr fun i hi => by rw [if_pos hi]⟩

/-- `BS_POSTMUL` ends, and the destination holds the products (R324). -/
theorem bsPostmul_holds {t : Ty} {b m n : Nat} {dr di : View} {fa tw fd : Stream} {w : Work} (hn : 1 ≤ n) (hm : n ≤ m)
    (hp : Pair dr di n) (hd : Holds w.mem dr di n fd)
    (har : ∀ i, i < n → ¬ InScratch b (4 * m + 4 * n) (dr.addr i))
    (hai : ∀ i, i < n → ¬ InScratch b (4 * m + 4 * n) (di.addr i))
    (hA : Holds w.mem (scratchAt b m n).ar (scratchAt b m n).ai m fa)
    (hT : Holds w.mem (scratchAt b m n).tr (scratchAt b m n).ti (2 * n) tw) :
    ∃ w', bsPostmul t (scratchAt b m n) dr di n w = .ok w'
      ∧ Holds w'.mem dr di n (fun k => cmul t (fa k) (tw (chirpIndex n k))) := by
  obtain ⟨w', h1, h2, -, -⟩ := forUp_total (n := n) (w := w.goto .bsPostmul)
    (f := fun k w => (cxRead (scratchAt b m n).ar (scratchAt b m n).ai k w).bind fun a =>
      (cxRead (scratchAt b m n).tr (scratchAt b m n).ti (chirpIndex n k) w).bind fun tw =>
      cxWrite dr di k (cmul t a tw) w)
    (I := fun k w1 => Holds w1.mem dr di n (fun i => if i < k then cmul t (fa i) (tw (chirpIndex n i)) else fd i)
      ∧ Holds w1.mem (scratchAt b m n).ar (scratchAt b m n).ai m fa
      ∧ Holds w1.mem (scratchAt b m n).tr (scratchAt b m n).ti (2 * n) tw)
    ⟨hd.congr fun i _ => by simp, hA, hT⟩ (by
      rintro k hk w1 ⟨h1, h2, h3⟩
      obtain ⟨m', e1, e2, -⟩ := cxWrite_holds hp h1 hk (cmul t (fa k) (tw (chirpIndex n k)))
      have v1 := cxWrite_moved (c := anyElem Config.standard) (P := fun a => ¬ InScratch b (4 * m + 4 * n) a)
        (har k hk) (hai k hk) (anyElem_legal _ _) e1
      refine ⟨{ w1 with mem := m' }, ?_, e2.congr fun i _ => ?_, ?_, ?_⟩
      · rw [cxRead_holds h2 (show k < m by omega), bind_ok, cxRead_holds h3 (chirpIndex_lt k hn), bind_ok, e1]
      · simp only [Function.update_apply]
        by_cases hik : i = k
        · subst hik; rw [if_pos rfl, if_pos (by omega)]
        · rw [if_neg hik]; congr 1; simp only [eq_iff_iff]; omega
      · refine holdsA_keep h2 v1 fun a ha hr => ha ⟨hr.1, ?_⟩
        have := hr.2; push_cast at *; omega
      · refine holdsT_keep h3 v1 fun a ha hr => ha ⟨?_, hr.2⟩
        have := hr.1; push_cast at *; omega)
  exact ⟨w', h1, h2.congr fun i hi => by rw [if_pos hi]⟩

theorem bsPointwise_only {c : Config} {b m n : Nat} :
    Only c (Touch (scratchAt b m n).ar (scratchAt b m n).ai m) (bsPointwise c.ty (scratchAt b m n) m) := fun _ _ h =>
  Only.after (Only.forUp fun _ hk => cxReads_only (touch_re hk) (touch_im hk)) h (goto_moved _ _ _ _)

theorem bsPostmul_only {c : Config} {b m n : Nat} {dr di : View} :
    Only c (Touch dr di n) (bsPostmul c.ty (scratchAt b m n) dr di n) := fun _ w' h => by
  refine Only.after (op := forUp n fun k w =>
    (cxRead (scratchAt b m n).ar (scratchAt b m n).ai k w).bind fun a =>
      (cxRead (scratchAt b m n).tr (scratchAt b m n).ti (chirpIndex n k) w).bind fun tw =>
      cxWrite dr di k (cmul c.ty a tw) w) (Only.forUp fun k hk => ?_) h (goto_moved _ _ _ _)
  intro w w' h
  obtain ⟨a, -, h⟩ := bind_eq_ok.1 h
  obtain ⟨b, -, h⟩ := bind_eq_ok.1 h
  exact cxWrite_moved (touch_re hk) (touch_im hk) (cmul_legal _ _ _) h

theorem potV_congr {c : Config} {l : Nat} {σ : Dir} {scale : Elem} {f g : Stream} (h : ∀ i, i < 2 ^ l → f i = g i)
    {i : Nat} (hi : i < 2 ^ l) : potV c l σ scale f i = potV c l σ scale g i := by
  have hrev : ∀ i, i < 2 ^ l → revV l f i = revV l g i := fun i _ => h _ (rev_lt i l)
  have hpass : ∀ d0 n (f g : Stream), 1 ≤ d0 → d0 + n ≤ l + 1 → (∀ i, i < 2 ^ l → f i = g i) →
      ∀ i, i < 2 ^ l → passesV c d0 σ n f i = passesV c d0 σ n g i := by
    intro d0 n f g h1 hle hfg
    induction n with
    | zero => exact hfg
    | succ n ih => exact fun i hi => passV_congr (by omega) (by omega) (ih (by omega)) hi
  have hdbc : ∀ i, i < 2 ^ l → dbcV c l σ (revV l f) i = dbcV c l σ (revV l g) i := by
    simp only [dbcV, multipassV]
    split
    · rename_i h3
      simp only [r8Min] at h3
      have h8 : 2 ^ l = 8 * 2 ^ (l - 3) := by
        have : 2 ^ l = 2 ^ 3 * 2 ^ (l - 3) := by rw [← pow_add]; congr 1; omega
        simpa using this
      refine hpass 4 (l - 3) _ _ (by omega) (by omega) fun i hi => ?_
      have hb : ∀ p, p < 8 → revV l f (8 * (i / 8) + p) = revV l g (8 * (i / 8) + p) := fun p hp => hrev _ (by omega)
      have h0 := hb 0 (by omega)
      rw [Nat.add_zero] at h0
      simp only [r8V]
      rw [h0, hb 1 (by omega), hb 2 (by omega), hb 3 (by omega), hb 4 (by omega), hb 5 (by omega), hb 6 (by omega),
        hb 7 (by omega)]
    · exact hpass _ _ _ _ (by omega) (by omega) hrev
  simp only [potV, scaleV, hdbc i hi]

/-- The Bluestein pipeline ends, and the destination holds the transform of what the sources read (R316–R324). -/
theorem bsCore_holds {c : Config} {v : Views} {b n : Nat} {σ : Dir} {scale : Elem} {p : Policy} {x fd : Stream} {w : Work}
    (hl : 1 ≤ c.lbuf) (hb : 0 < b) (hn : 1 ≤ n) (hp : Pair v.dr v.di n) (hd : Holds w.mem v.dr v.di n fd)
    (hs : ScratchHere w.mem b (scratchLen (clog2 (2 * n - 1)) n))
    (hsr : ∀ i, i < n → srcRead c.ty v.sr i w = .ok (x i).re) (hsi : ∀ i, i < n → srcRead c.ty v.si i w = .ok (x i).im)
    (hasr : v.sr.isNull = true ∨ ∀ i, i < n → ¬ InScratch b (scratchLen (clog2 (2 * n - 1)) n) (v.sr.addr i))
    (hasi : v.si.isNull = true ∨ ∀ i, i < n → ¬ InScratch b (scratchLen (clog2 (2 * n - 1)) n) (v.si.addr i))
    (har : ∀ i, i < n → ¬ InScratch b (scratchLen (clog2 (2 * n - 1)) n) (v.dr.addr i))
    (hai : ∀ i, i < n → ¬ InScratch b (scratchLen (clog2 (2 * n - 1)) n) (v.di.addr i)) :
    ∃ w' g, bsCore c v (scratchAt b (2 ^ clog2 (2 * n - 1)) n) (clog2 (2 * n - 1)) n σ scale p w = .ok w'
      ∧ Holds w'.mem v.dr v.di n g ∧ (c.simdValues = .exact → ∀ i, i < n → g i = bluesteinV c n σ scale x i) := by
  have hm : 2 * n ≤ 2 ^ clog2 (2 * n - 1) + 1 := by have := le_two_pow_clog2 (2 * n - 1); omega
  obtain ⟨w1, e1, hA1, hB1, hT1⟩ := bsPremul_holds (σ := σ) hn hm hs hsr hsi hasr hasi
  have v1 := bsPremul_only (c := c) (v := v) (b := b) σ hn hm _ _ e1
  have hd1 := hd.keep v1 har hai
  revert hA1 hB1 hT1 e1 har hai hm
  simp only [bluesteinV]
  generalize clog2 (2 * n - 1) = lm
  intro har hai hm e1 hA1 hB1 hT1
  have hpos := Nat.two_pow_pos lm
  have hT0 : (scratchAt b (2 ^ lm) n).ar.base ≠ 0 ∧ (scratchAt b (2 ^ lm) n).ai.base ≠ 0
      ∧ (scratchAt b (2 ^ lm) n).br.base ≠ 0 ∧ (scratchAt b (2 ^ lm) n).bi.base ≠ 0 := by
    refine ⟨?_, ?_, ?_, ?_⟩ <;> simp only [scratchAt, unitView_base] <;> omega
  obtain ⟨z1, z2, z3, z4⟩ := hT0
  have keepA : ∀ {w w' : Work} {f : Stream}, Moved c (Touch (scratchAt b (2 ^ lm) n).br (scratchAt b (2 ^ lm) n).bi (2 ^ lm)) w w' →
      Holds w.mem (scratchAt b (2 ^ lm) n).ar (scratchAt b (2 ^ lm) n).ai (2 ^ lm) f →
      Holds w'.mem (scratchAt b (2 ^ lm) n).ar (scratchAt b (2 ^ lm) n).ai (2 ^ lm) f := fun hv hh =>
    holdsA_keep hh hv fun a ha => by have := touchB_range ha; push_cast at *; omega
  have keepB : ∀ {w w' : Work} {f : Stream}, Moved c (Touch (scratchAt b (2 ^ lm) n).ar (scratchAt b (2 ^ lm) n).ai (2 ^ lm)) w w' →
      Holds w.mem (scratchAt b (2 ^ lm) n).br (scratchAt b (2 ^ lm) n).bi (2 ^ lm) f →
      Holds w'.mem (scratchAt b (2 ^ lm) n).br (scratchAt b (2 ^ lm) n).bi (2 ^ lm) f := fun hv hh =>
    holdsB_keep hh hv fun a ha => by have := touchA_range ha; push_cast at *; omega
  have keepT : ∀ {w w' : Work} {f : Stream},
      Moved c (fun a => Touch (scratchAt b (2 ^ lm) n).ar (scratchAt b (2 ^ lm) n).ai (2 ^ lm) a
        ∨ Touch (scratchAt b (2 ^ lm) n).br (scratchAt b (2 ^ lm) n).bi (2 ^ lm) a) w w' →
      Holds w.mem (scratchAt b (2 ^ lm) n).tr (scratchAt b (2 ^ lm) n).ti (2 * n) f →
      Holds w'.mem (scratchAt b (2 ^ lm) n).tr (scratchAt b (2 ^ lm) n).ti (2 * n) f := fun hv hh =>
    holdsT_keep hh hv fun a ha => by
      rcases ha with ha | ha
      · have := touchA_range ha; push_cast at *; omega
      · have := touchB_range ha; push_cast at *; omega
  have keepD : ∀ {w w' : Work} {f : Stream},
      Moved c (fun a => Touch (scratchAt b (2 ^ lm) n).ar (scratchAt b (2 ^ lm) n).ai (2 ^ lm) a
        ∨ Touch (scratchAt b (2 ^ lm) n).br (scratchAt b (2 ^ lm) n).bi (2 ^ lm) a) w w' →
      Holds w.mem v.dr v.di n f → Holds w'.mem v.dr v.di n f := fun hv hh =>
    hh.keep hv (fun i hi hP => har i hi (by rcases hP with h | h; exacts [touchA_scratch _ h, touchB_scratch _ h]))
      (fun i hi hP => hai i hi (by rcases hP with h | h; exacts [touchA_scratch _ h, touchB_scratch _ h]))
  -- the two forward transforms
  obtain ⟨w2, fa, e2, hA2, x2⟩ := potPipeline_inPlace (c := c) .forward c.ty.one p scratch_pairA hl rfl rfl z1 z2
    (w1.goto .bsFftA) _ hA1
  have v2 := Only.after (potPipeline_only (c := c) (v := inPlace (scratchAt b (2 ^ lm) n).ar (scratchAt b (2 ^ lm) n).ai)
    .forward c.ty.one p rfl rfl) e2 (goto_moved _ _ w1 _)
  have hB2 := keepB v2 hB1
  have hT2 := keepT (v2.mono fun _ => .inl) hT1
  have hd2 := keepD (v2.mono fun _ => .inl) hd1
  obtain ⟨w3, fb, e3, hB3, x3⟩ := potPipeline_inPlace (c := c) .forward c.ty.one p scratch_pairB hl rfl rfl z3 z4
    (w2.goto .bsFftB) _ hB2
  have v3 := Only.after (potPipeline_only (c := c) (v := inPlace (scratchAt b (2 ^ lm) n).br (scratchAt b (2 ^ lm) n).bi)
    .forward c.ty.one p rfl rfl) e3 (goto_moved _ _ w2 _)
  have hA3 := keepA v3 hA2
  have hT3 := keepT (v3.mono fun _ => .inr) hT2
  have hd3 := keepD (v3.mono fun _ => .inr) hd2
  -- the product and the inverse transform
  obtain ⟨w4, e4, hA4⟩ := bsPointwise_holds (t := c.ty) hA3 hB3
  have v4 := bsPointwise_only (c := c) _ _ e4
  have hT4 := keepT (v4.mono fun _ => .inl) hT3
  have hd4 := keepD (v4.mono fun _ => .inl) hd3
  obtain ⟨w5, fy, e5, hA5, x5⟩ := potPipeline_inPlace (c := c) .inverse scale p scratch_pairA hl rfl rfl z1 z2
    (w4.goto .bsIfft) _ hA4
  have v5 := Only.after (potPipeline_only (c := c) (v := inPlace (scratchAt b (2 ^ lm) n).ar (scratchAt b (2 ^ lm) n).ai)
    .inverse scale p rfl rfl) e5 (goto_moved _ _ w4 _)
  have hT5 := keepT (v5.mono fun _ => .inl) hT4
  have hd5 := keepD (v5.mono fun _ => .inl) hd4
  -- the postmultiplication
  obtain ⟨w6, e6, hd6⟩ := bsPostmul_holds (t := c.ty) hn (show n ≤ 2 ^ lm by omega) hp hd5 har hai hA5 hT5
  refine ⟨w6, _, ?_, hd6, fun he i hi => ?_⟩
  · simp only [bsCore]
    rw [e1, bind_ok, e2, bind_ok, e3, bind_ok, e4, bind_ok, e5, bind_ok, e6]
  · rw [x5 he, x3 he, x2 he]; rfl

theorem bsCore_only {c : Config} {v : Views} {b n : Nat} (σ : Dir) (scale : Elem) (p : Policy) (hn : 1 ≤ n) :
    Only c (fun a => InScratch b (scratchLen (clog2 (2 * n - 1)) n) a ∨ Touch v.dr v.di n a)
      (bsCore c v (scratchAt b (2 ^ clog2 (2 * n - 1)) n) (clog2 (2 * n - 1)) n σ scale p) := by
  have hm : 2 * n ≤ 2 ^ clog2 (2 * n - 1) + 1 := by have := le_two_pow_clog2 (2 * n - 1); omega
  intro w w' h
  simp only [bsCore] at h
  obtain ⟨w1, h1, h⟩ := bind_eq_ok.1 h
  obtain ⟨w2, h2, h⟩ := bind_eq_ok.1 h
  obtain ⟨w3, h3, h⟩ := bind_eq_ok.1 h
  obtain ⟨w4, h4, h⟩ := bind_eq_ok.1 h
  obtain ⟨w5, h5, h6⟩ := bind_eq_ok.1 h
  have a1 := bsPremul_only (c := c) (v := v) (b := b) σ hn hm _ _ h1
  have a2 := Only.after (potPipeline_only (c := c)
    (v := inPlace (scratchAt b (2 ^ clog2 (2 * n - 1)) n).ar (scratchAt b (2 ^ clog2 (2 * n - 1)) n).ai)
    .forward c.ty.one p rfl rfl) h2 (goto_moved _ _ w1 _)
  have a3 := Only.after (potPipeline_only (c := c)
    (v := inPlace (scratchAt b (2 ^ clog2 (2 * n - 1)) n).br (scratchAt b (2 ^ clog2 (2 * n - 1)) n).bi)
    .forward c.ty.one p rfl rfl) h3 (goto_moved _ _ w2 _)
  have a4 := bsPointwise_only (c := c) _ _ h4
  have a5 := Only.after (potPipeline_only (c := c)
    (v := inPlace (scratchAt b (2 ^ clog2 (2 * n - 1)) n).ar (scratchAt b (2 ^ clog2 (2 * n - 1)) n).ai)
    .inverse scale p rfl rfl) h5 (goto_moved _ _ w4 _)
  have a6 := bsPostmul_only (c := c) _ _ h6
  exact (((((a1.mono fun _ => .inl).trans (a2.mono fun a ha => .inl (touchA_scratch a ha))).trans
    (a3.mono fun a ha => .inl (touchB_scratch a ha))).trans (a4.mono fun a ha => .inl (touchA_scratch a ha))).trans
    (a5.mono fun a ha => .inl (touchA_scratch a ha))).trans (a6.mono fun _ => .inr)

end Sys2Proof.Machine
end

