-- ==== Sys2Proof/Laws/Command.lean ====
section
/-! SUPPORT. What a command does at most: every way `exec` gives a next state (R19, R86, R340, R343, R350). -/

namespace Sys2Proof.Machine

/-! ### The allocator -/

/-- What the allocator answers (R90, R386): a region that meets the contract, null, or no move, for a listed draw that
breaks the contract. -/
theorem alloc_cases (c : Config) (vs : List View) (len : Nat) (w : Work) :
    (∃ b, allocLawful c vs w.mem b len = true ∧ alloc c vs len w = .ok (some b, allocGrant c len b w))
      ∨ alloc c vs len w = .ok (none, allocNull w)
      ∨ alloc c vs len w = .error .stuck := by
  simp only [alloc]
  split
  · exact .inr (.inl rfl)
  · split
    · exact .inl ⟨_, by assumption, rfl⟩
    · exact .inr (.inr rfl)
  · split
    · exact .inr (.inl rfl)
    · split
      · exact .inl ⟨_, by assumption, rfl⟩
      · exact .inr (.inl rfl)

theorem alloc_some {c : Config} {vs : List View} {len b : Nat} {w w1 : Work} (h : alloc c vs len w = .ok (some b, w1)) :
    allocLawful c vs w.mem b len = true ∧ w1 = allocGrant c len b w := by
  rcases alloc_cases c vs len w with ⟨b', hl, h'⟩ | h' | h' <;> rw [h'] at h
  · simp only [Except.ok.injEq, Prod.mk.injEq, Option.some.injEq] at h
    obtain ⟨rfl, rfl⟩ := h; exact ⟨hl, rfl⟩
  · simp at h
  · cases h

theorem alloc_none {c : Config} {vs : List View} {len : Nat} {w w1 : Work} (h : alloc c vs len w = .ok (none, w1)) :
    w1 = allocNull w := by
  rcases alloc_cases c vs len w with ⟨b', -, h'⟩ | h' | h' <;> rw [h'] at h
  · simp at h
  · simpa using h.symm
  · cases h

/-- The launch's next draw, where it meets the contract (R90), is what the allocator returns. -/
theorem alloc_of_lawful {c : Config} {vs : List View} {len b : Nat} {w : Work} {rest : List (Option Nat)}
    (h : w.allocs = some b :: rest) (hl : allocLawful c vs w.mem b len = true) :
    alloc c vs len w = .ok (some b, allocGrant c len b w) := by
  simp only [alloc, h, hl, if_true]

/-- A listed draw that breaks the contract has no move (R386). -/
theorem alloc_of_unlawful {c : Config} {vs : List View} {len b : Nat} {w : Work} {rest : List (Option Nat)}
    (h : w.allocs = some b :: rest) (hl : allocLawful c vs w.mem b len = false) :
    alloc c vs len w = .error .stuck := by
  simp only [alloc, h, hl, Bool.false_eq_true, if_false]

/-- A null draw is what the allocator returns (R90). -/
theorem alloc_of_null {c : Config} {vs : List View} {len : Nat} {w : Work} {rest : List (Option Nat)}
    (h : w.allocs = none :: rest) : alloc c vs len w = .ok (none, allocNull w) := by
  simp only [alloc, h]

theorem allocLawful_iff {c : Config} {vs : List View} {m : Mem} {b len : Nat} : allocLawful c vs m b len = true ↔
    0 < b ∧ b + len ≤ 2 ^ addrWidth ∧ b * c.es % simdAlign = 0 ∧ m.free b len = true ∧ clearOf vs b len = true := by
  simp only [allocLawful, Bool.and_eq_true, decide_eq_true_eq, and_assoc]

/-- What a granted region and every other address hold (R90). -/
theorem Mem.grant_at {m : Mem} {b len : Nat} {f : Nat → Elem} (hb : 0 < b) (he : b + len ≤ 2 ^ addrWidth) (a : Int) :
    (m.grant b len f).atAddr a = if InScratch b len a then some (f (a.toNat - b)) else m.atAddr a := by
  by_cases hs : InScratch b len a
  · have ha : isAddr a = true := isAddr_iff.2 ⟨by have := hs.1; omega, by
      have h2 := hs.2
      have : ((b + len : Nat) : Int) ≤ 2 ^ addrWidth := by exact_mod_cast he
      omega⟩
    simp only [Mem.atAddr, ha, if_true, if_pos hs, Mem.grant_read]
    rw [if_pos]
    obtain ⟨h1, h2⟩ := hs; omega
  · simp only [Mem.atAddr, if_neg hs]
    split
    · rename_i ha
      have := (isAddr_iff.1 ha).1
      rw [Mem.grant_read, if_neg]
      rintro ⟨h1, h2⟩; exact hs ⟨by omega, by omega⟩
    · rfl

theorem Mem.release_at {m : Mem} {b len : Nat} (a : Int) :
    (m.release b len).atAddr a = if InScratch b len a then none else m.atAddr a := by
  simp only [Mem.atAddr]
  by_cases ha : isAddr a = true
  · have := (isAddr_iff.1 ha).1
    rw [if_pos ha, if_pos ha, Mem.release_read]
    by_cases hs : InScratch b len a
    · rw [if_pos hs, if_pos]; obtain ⟨h1, h2⟩ := hs; omega
    · rw [if_neg hs, if_neg]; rintro ⟨h1, h2⟩; exact hs ⟨by omega, by omega⟩
  · rw [if_neg ha, if_neg ha]; simp

theorem Mem.free_at {m : Mem} {b len : Nat} (h : m.free b len = true) {a : Int} (hs : InScratch b len a) :
    m.atAddr a = none := by
  simp only [Mem.atAddr]
  split
  · rename_i ha
    have := (isAddr_iff.1 ha).1
    obtain ⟨h1, h2⟩ := hs
    exact Mem.free_read h (by omega) (by omega)
  · rfl

/-! ### What a command leaves -/

/-- From `w` to `w'`, memory changed at addresses that satisfy `P` only, the same addresses are admitted, memory kept its
canonical form and its elements, and the feature cache changed at most by a probe. -/
structure Settled (c : Config) (P : Int → Prop) (w w' : Work) : Prop where
  outside : ∀ a, ¬ P a → w'.mem.atAddr a = w.mem.atAddr a
  admitted : SameAdmitted w.mem w'.mem
  wf : w.mem.wf = true → w'.mem.wf = true
  legal : w.mem.legal c.ty = true → w'.mem.legal c.ty = true
  cache : cacheStep c w.featCache w'.featCache

theorem Moved.settled {c : Config} {P : Int → Prop} {w w' : Work} (h : Moved c P w w') : Settled c P w w' :=
  ⟨h.outside, Mem.admitted_of_keys h.keys, Mem.wf_of_keys h.keys, h.legal, h.cache⟩

theorem Settled.mono {c : Config} {P Q : Int → Prop} (hPQ : ∀ a, P a → Q a) {w w' : Work} (h : Settled c P w w') :
    Settled c Q w w' := { h with outside := fun a ha => h.outside a fun hp => ha (hPQ a hp) }

theorem scratchElem_legal (t : Ty) (k i : Nat) : t.legal (scratchElem t k i) = true := ofHost_legal _ _

/-- The Bluestein pipeline with its allocation (R316–R325): it writes its destination only, and releases its scratch. -/
theorem bluestein_settled {c : Config} {v : Views} {n : Nat} {σ : Dir} {scale : Elem} {p : Policy} {w : Work}
    {r : Code × Work} (hn : 1 ≤ n) (h : bluestein c v n σ scale p w = .ok r) :
    Settled c (Touch v.dr v.di n) w r.2
      ∧ (r.1 = .ok ∨ r.1 = .outOfMemory ∧ r.2.mem = w.mem ∧ r.2.featCache = w.featCache) := by
  simp only [bluestein] at h
  obtain ⟨x, ha, h⟩ := bind_eq_ok.1 h
  split at h
  · simp only [Except.ok.injEq] at h; subst h
    have := alloc_none ha; subst this
    exact ⟨⟨fun _ _ => rfl, fun _ => rfl, id, id, .inl rfl⟩, .inr ⟨rfl, rfl, rfl⟩⟩
  · rename_i b w1
    obtain ⟨hl, rfl⟩ := alloc_some ha
    obtain ⟨hb, he, -, hfree, -⟩ := allocLawful_iff.1 hl
    rw [goto_mem] at hfree
    obtain ⟨w2, h2, h⟩ := bind_eq_ok.1 h
    simp only [Except.ok.injEq] at h; subst h
    have hm := bsCore_only σ scale p hn _ _ h2
    have hbase : w2.bsBase = b := hm.bsBase
    refine ⟨⟨fun a ha => ?_, fun a => ?_, fun hw => ?_, fun hlg => ?_, ?_⟩, .inl rfl⟩
    · simp only [release, goto_mem, goto_bsBase, hbase, Mem.release_at]
      by_cases hs : InScratch b (scratchLen (clog2 (2 * n - 1)) n) a
      · rw [if_pos hs, Mem.free_at hfree hs]
      · rw [if_neg hs, hm.outside a (by rintro (h | h); exacts [hs h, ha h])]
        simp only [allocGrant, Mem.grant_at hb he, if_neg hs, goto_mem]
    · have hk := Mem.admitted_of_keys hm.keys a
      simp only [release, goto_mem, goto_bsBase, hbase, Mem.release_at]
      by_cases hs : InScratch b (scratchLen (clog2 (2 * n - 1)) n) a
      · rw [if_pos hs, Mem.free_at hfree hs]
      · rw [if_neg hs, hk]
        simp only [allocGrant, Mem.grant_at hb he, if_neg hs, goto_mem]
    · simp only [release, goto_mem, goto_bsBase]
      exact Mem.release_wf (Mem.wf_of_keys hm.keys (Mem.grant_wf hw hb he hfree))
    · simp only [release, goto_mem, goto_bsBase]
      exact Mem.release_legal (hm.legal (Mem.grant_legal hlg fun i => scratchElem_legal _ _ i))
    · exact hm.cache

theorem isPow2_iff {n : Nat} : isPow2 n = true ↔ n ≠ 0 ∧ 2 ^ Nat.log2 n = n := by simp [isPow2]

theorem takesBluestein_false {n : Nat} {fb : Bool} (h : takesBluestein n fb = false) : fb = false ∧ 2 ^ Nat.log2 n = n := by
  simp only [takesBluestein, Bool.or_eq_false_iff, Bool.not_eq_false'] at h
  exact ⟨h.1, (isPow2_iff.1 h.2).2⟩

theorem transform_settled {c : Config} {v : Views} {n : Nat} {σ : Dir} {scale : Elem} {p : Policy} {fb : Bool} {w : Work}
    {r : Code × Work} (hn : 1 ≤ n) (hr : v.dr.count = n) (hi : v.di.count = n)
    (h : transform c v n σ scale p fb w = .ok r) : Settled c (Touch v.dr v.di n) w r.2
      ∧ (r.1 = .ok ∨ r.1 = .outOfMemory ∧ r.2.mem = w.mem ∧ r.2.featCache = w.featCache) := by
  simp only [transform] at h
  by_cases hb : takesBluestein n fb = true
  · rw [if_pos hb] at h
    obtain ⟨a1, a2⟩ := bluestein_settled hn h
    exact ⟨⟨a1.outside, a1.admitted, a1.wf, a1.legal, a1.cache⟩, a2⟩
  · rw [if_neg hb] at h
    have hp := (takesBluestein_false (Bool.not_eq_true _ ▸ hb)).2
    obtain ⟨w1, h1, h⟩ := bind_eq_ok.1 h
    simp only [Except.ok.injEq] at h; subst h
    have := potPipeline_only σ scale p (hr.trans hp.symm) (hi.trans hp.symm) _ _ h1
    rw [hp] at this
    exact ⟨(((goto_moved c _ w .dispatch).trans this).trans (goto_moved c _ w1 .return)).settled, .inl rfl⟩

/-! ### The bodies of the commands -/

/-- The addresses a command may write: the destination views of its footprint (R86). -/
def MayWrite (i : Instr) (me : Context) (a : Int) : Prop := ∃ v ∈ (footprint i me).writes, v.Reaches a

/-- What a command that ends hands over (R19): the memory it may write, its code, and the result registers it has. -/
structure Ends (c : Config) (i : Instr) (me : Context) (w : Work) (d : Done) : Prop where
  settled : Settled c (MayWrite i me) w d.work
  code : d.code = .ok ∨ d.code = .outOfMemory ∧ d.work.mem = w.mem ∧ d.work.featCache = w.featCache
    ∧ d.result = none ∧ d.res = none
  result : writesResult i = false → d.result = none
  res : writesRes i = false → d.res = none
  legal : ∀ z, d.res = some z → legalCx c.ty z

theorem liftWork_eq_ok {r : Except Fault Work} {w : Work} : liftWork r = .ok w ↔ r = .ok w := by
  cases r <;> simp [liftWork]

theorem liftWork_doneOk {r : Except Fault Work} {d : Done} (h : (liftWork r).bind doneOk = .ok d) :
    ∃ w, r = .ok w ∧ d = { code := .ok, work := w, result := none, res := none } := by
  obtain ⟨w, hw, h⟩ := bind_eq_ok.1 h
  simp only [doneOk, Except.ok.injEq] at h
  exact ⟨w, liftWork_eq_ok.1 hw, h.symm⟩

theorem ends_ok {c : Config} {i : Instr} {me : Context} {w w' : Work} (hm : Settled c (MayWrite i me) w w') :
    Ends c i me w { code := .ok, work := w', result := none, res := none } :=
  ⟨hm, .inl rfl, fun _ => rfl, fun _ => rfl, fun _ h => by cases h⟩

theorem ends_same {c : Config} {i : Instr} {me : Context} (w : Work) :
    Ends c i me w { code := .ok, work := w, result := none, res := none } := ends_ok (Moved.refl c _ w).settled

theorem mayWrite_pair {i : Instr} {me : Context} {n : Nat} {views : Nat → View × View}
    (hf : footprint i me = pairFootprint me n) (hv : dstPair me = .ok views) (hr : (views n).1.count = n)
    (hi : (views n).2.count = n) (a : Int) (h : Touch (views n).1 (views n).2 n a) : MayWrite i me a := by
  obtain ⟨j, hj, h⟩ := h
  simp only [MayWrite, hf, pairFootprint, hv, List.mem_cons, List.not_mem_nil, or_false]
  rcases h with h | h
  · exact ⟨_, .inl rfl, j, by omega, h⟩
  · exact ⟨_, .inr rfl, j, by omega, h⟩

theorem arg_eq_ok {α : Type} {o : Option α} {x : α} : arg o = .ok x ↔ o = some x := by
  cases o <;> simp [arg]

/-- The destination pair is that of the four destination registers (R36, R37). -/
theorem dstPair_eq_ok {me : Context} {views : Nat → View × View} : dstPair me = .ok views ↔
    ∃ dre dim sre sim, me.hasPair dre dim sre sim ∧ views = fun n => (viewOf dre sre n, viewOf dim sim n) := by
  constructor
  · intro h
    obtain ⟨dre, h1, h⟩ := bind_eq_ok.1 h
    obtain ⟨dim, h2, h⟩ := bind_eq_ok.1 h
    obtain ⟨sre, h3, h⟩ := bind_eq_ok.1 h
    obtain ⟨sim, h4, h⟩ := bind_eq_ok.1 h
    simp only [Except.ok.injEq] at h
    exact ⟨dre, dim, sre, sim, ⟨arg_eq_ok.1 h1, arg_eq_ok.1 h2, arg_eq_ok.1 h3, arg_eq_ok.1 h4⟩, h.symm⟩
  · rintro ⟨dre, dim, sre, sim, ⟨h1, h2, h3, h4⟩, rfl⟩
    simp only [dstPair, h1, h2, h3, h4, arg, bind_ok]

theorem dstPair_counts {me : Context} {views : Nat → View × View} (h : dstPair me = .ok views) (n : Nat) :
    (views n).1.count = n ∧ (views n).2.count = n := by
  obtain ⟨dre, dim, sre, sim, -, rfl⟩ := dstPair_eq_ok.1 h; exact ⟨rfl, rfl⟩

theorem invalidIf_eq_ok {b : Bool} {u : Unit} : invalidIf b = .ok u ↔ b = false := by cases b <;> simp [invalidIf]

theorem checkOverlap_eq_ok {ss : List View} {dr di : View} {u : Unit} :
    checkOverlap ss dr di = .ok u ↔ overlapBad ss dr di = false := by
  simp only [checkOverlap]; cases overlapBad ss dr di <;> simp

/-- The common body of the in-place commands (R240–R243). -/
theorem runInPlace_ends {c : Config} {i : Instr} {me : Context} {w : Work} {log2n : Nat} {bad : Bool}
    {engine : View → View → Work → Except Fault Work} (hf : footprint i me = pairFootprint me (2 ^ log2n))
    (he : bad = false → ∀ vr vi : View, vr.count = 2 ^ log2n → vi.count = 2 ^ log2n →
      Only c (Touch vr vi (2 ^ log2n)) (engine vr vi)) {d : Done} (h : runInPlace me w log2n bad engine = .ok d) :
    Ends c i me w d := by
  simp only [runInPlace] at h
  obtain ⟨views, hv, h⟩ := bind_eq_ok.1 h
  obtain ⟨_, hb, h⟩ := bind_eq_ok.1 h
  obtain ⟨-, -, h⟩ := bind_eq_ok.1 h
  obtain ⟨-, -, h⟩ := bind_eq_ok.1 h
  obtain ⟨w', hw, rfl⟩ := liftWork_doneOk h
  obtain ⟨hr, hi⟩ := dstPair_counts hv (2 ^ log2n)
  exact ends_ok ((he (invalidIf_eq_ok.1 hb) _ _ hr hi _ _ hw).mono (mayWrite_pair hf hv hr hi)).settled

theorem runScl_ends {c : Config} {me : Context} {w : Work} {d : Done} (h : runScl c me w = .ok d) :
    Ends c .scl me w d := by
  simp only [runScl] at h
  obtain ⟨n, hn, h⟩ := bind_eq_ok.1 h
  obtain ⟨scale, -, h⟩ := bind_eq_ok.1 h
  obtain ⟨views, hv, h⟩ := bind_eq_ok.1 h
  split at h
  · simp only [doneOk, Except.ok.injEq] at h; subst h; exact ends_same w
  · obtain ⟨-, -, h⟩ := bind_eq_ok.1 h
    obtain ⟨-, -, h⟩ := bind_eq_ok.1 h
    obtain ⟨-, -, h⟩ := bind_eq_ok.1 h
    obtain ⟨w', hw, rfl⟩ := liftWork_doneOk h
    obtain ⟨hr, hi⟩ := dstPair_counts hv n.toNat
    refine ends_ok ((scaleViews_only scale _ _ hw).mono (mayWrite_pair ?_ hv hr hi)).settled
    simp only [footprint, arg_eq_ok.1 hn, Option.getD_some]

theorem runTwg_ends {c : Config} {me : Context} {w : Work} {σ : Dir} {bigN l : Nat} {d : Done}
    (h : runTwg c me w σ bigN l = .ok d) : Ends c (.twg σ bigN l) me w d := by
  simp only [runTwg] at h
  obtain ⟨views, hv, h⟩ := bind_eq_ok.1 h
  obtain ⟨-, -, h⟩ := bind_eq_ok.1 h
  obtain ⟨-, -, h⟩ := bind_eq_ok.1 h
  obtain ⟨-, -, h⟩ := bind_eq_ok.1 h
  obtain ⟨w', hw, rfl⟩ := liftWork_doneOk h
  obtain ⟨hr, hi⟩ := dstPair_counts hv (2 ^ l)
  have hlen := twiddleGen_length c bigN l σ
  have hm : Moved c (Touch (views (2 ^ l)).1 (views (2 ^ l)).2 (2 ^ l)) w w' :=
    storeCx_moved (fun j _ hj => touch_re (by omega)) (fun j _ hj => touch_im (by omega)) (twiddleGen_legal c bigN l σ) hw
  exact ends_ok (hm.mono (mayWrite_pair rfl hv hr hi)).settled

theorem runTwf_ends {c : Config} {me : Context} {w : Work} {σ : Dir} {d : Done}
    (h : runTwf c me w σ = .ok d) : Ends c (.twf σ) me w d := by
  simp only [runTwf] at h
  obtain ⟨n, hn, h⟩ := bind_eq_ok.1 h
  obtain ⟨views, hv, h⟩ := bind_eq_ok.1 h
  split at h
  · simp only [doneOk, Except.ok.injEq] at h; subst h; exact ends_same w
  · rename_i h0
    obtain ⟨-, -, h⟩ := bind_eq_ok.1 h
    obtain ⟨-, -, h⟩ := bind_eq_ok.1 h
    obtain ⟨-, -, h⟩ := bind_eq_ok.1 h
    obtain ⟨w', hw, rfl⟩ := liftWork_doneOk h
    obtain ⟨hr, hi⟩ := dstPair_counts hv (2 * n.toNat)
    have hlen := fracTwiddles_length c (n := n.toNat) σ (by omega)
    have hm : Moved c (Touch (views (2 * n.toNat)).1 (views (2 * n.toNat)).2 (2 * n.toNat)) w w' :=
      storeCx_moved (fun j _ hj => touch_re (by omega)) (fun j _ hj => touch_im (by omega))
        (fracTwiddles_legal c n.toNat σ) hw
    refine ends_ok (hm.mono (mayWrite_pair ?_ hv hr hi)).settled
    simp only [footprint, arg_eq_ok.1 hn, Option.getD_some]

theorem runBrv_ends {c : Config} {me : Context} {w : Work} {l : Nat} {d : Done} (h : runBrv c me w l = .ok d) :
    Ends c (.brv l) me w d := by
  simp only [runBrv] at h
  obtain ⟨views, hv, h⟩ := bind_eq_ok.1 h
  obtain ⟨-, -, h⟩ := bind_eq_ok.1 h
  have hc : (views (2 ^ l)).2.count = 2 ^ l := by
    obtain ⟨_, -, h⟩ := bind_eq_ok.1 hv
    obtain ⟨_, -, h⟩ := bind_eq_ok.1 h
    obtain ⟨_, -, h⟩ := bind_eq_ok.1 h
    obtain ⟨_, -, h⟩ := bind_eq_ok.1 h
    simp only [Except.ok.injEq] at h; subst h; rfl
  have hP : ∀ a, TouchOne (views (2 ^ l)).2 (2 ^ l) a → MayWrite (.brv l) me a := by
    rintro a ⟨j, hj, h⟩
    simp only [MayWrite, footprint, brvFootprint, hv, List.mem_cons, List.not_mem_nil, or_false]
    exact ⟨_, rfl, j, by omega, h⟩
  split at h
  · obtain ⟨w', hw, rfl⟩ := liftWork_doneOk h
    exact ends_ok ((bitRevIn_only c _ l _ _ hw).mono hP).settled
  · split at h
    · simp at h
    · obtain ⟨w', hw, rfl⟩ := liftWork_doneOk h
      exact ends_ok ((bitRev_only c _ _ l _ _ hw).mono hP).settled

theorem runShuffle_ends {c : Config} {i : Instr} {me : Context} {w : Work} {shuffle : Int → Nat → Work → Except Fault Work}
    (hf : footprint i me = shuffleFootprint me)
    (hs : ∀ b l, Only c (TouchOne (unitView b (2 * 2 ^ l)) (2 * 2 ^ l)) (shuffle b l)) {d : Done}
    (h : runShuffle shuffle me w = .ok d) : Ends c i me w d := by
  simp only [runShuffle] at h
  obtain ⟨n, hn, h⟩ := bind_eq_ok.1 h
  obtain ⟨base, hb, h⟩ := bind_eq_ok.1 h
  split at h
  · simp only [doneOk, Except.ok.injEq] at h; subst h; exact ends_same w
  · obtain ⟨_, hbad, h⟩ := bind_eq_ok.1 h
    obtain ⟨w', hw, rfl⟩ := liftWork_doneOk h
    have hbad := invalidIf_eq_ok.1 hbad
    simp only [dilBad, Bool.or_eq_false_iff, Bool.not_eq_false'] at hbad
    have hp := (isPow2_iff.1 hbad.1.1).2
    refine ends_ok ((hs _ _ _ _ hw).mono ?_).settled
    rintro a ⟨j, hj, h⟩
    simp only [MayWrite, hf, shuffleFootprint, arg_eq_ok.1 hn, arg_eq_ok.1 hb, Option.getD_some, List.mem_cons,
      List.not_mem_nil, or_false]
    exact ⟨_, rfl, j, by simp only [unitView_count]; omega, by rw [unitView_addr] at h ⊢; exact h⟩

theorem runOmp_ends {c : Config} {me : Context} {w : Work} {σ : Dir} {p : Policy} {l depth : Nat} {d : Done}
    (h : runOmp c me w σ p l depth = .ok d) : Ends c (.omp σ p l depth) me w d := by
  simp only [runOmp] at h
  obtain ⟨views, hv, h⟩ := bind_eq_ok.1 h
  obtain ⟨_, hb, h⟩ := bind_eq_ok.1 h
  obtain ⟨-, -, h⟩ := bind_eq_ok.1 h
  obtain ⟨-, -, h⟩ := bind_eq_ok.1 h
  obtain ⟨r, hr, h⟩ := bind_eq_ok.1 h
  simp only [Except.ok.injEq] at h; subst h
  have hb := invalidIf_eq_ok.1 hb
  simp only [multipassBad, Bool.or_eq_false_iff, decide_eq_false_iff_not] at hb
  have hrun : ompRun c (views (2 ^ l)).1 (views (2 ^ l)).2 l depth σ p w = .ok r := by
    revert hr
    cases ompRun c (views (2 ^ l)).1 (views (2 ^ l)).2 l depth σ p w <;> simp [liftCount]
  obtain ⟨h1, h2⟩ := dstPair_counts hv (2 ^ l)
  exact ⟨((ompRun_moved (by omega) hrun).mono (mayWrite_pair rfl hv h1 h2)).settled, .inl rfl,
    fun h => by simp [writesResult] at h, fun _ => rfl, fun _ h => by cases h⟩

/-- Every shape gives views of the request's count (R291). -/
theorem shape_counts {c : Context} {views : Nat → Views}
    (h : splitArgs c = .ok views ∨ interleavedArgs c = .ok views ∨ stridedArgs c = .ok views) (n : Nat) :
    (views n).sr.count = n ∧ (views n).si.count = n ∧ (views n).dr.count = n ∧ (views n).di.count = n := by
  rcases h with h | h | h
  · obtain ⟨_, -, h⟩ := bind_eq_ok.1 h
    obtain ⟨_, -, h⟩ := bind_eq_ok.1 h
    obtain ⟨_, -, h⟩ := bind_eq_ok.1 h
    obtain ⟨_, -, h⟩ := bind_eq_ok.1 h
    simp only [Except.ok.injEq] at h; subst h; exact ⟨rfl, rfl, rfl, rfl⟩
  · obtain ⟨_, -, h⟩ := bind_eq_ok.1 h
    obtain ⟨_, -, h⟩ := bind_eq_ok.1 h
    simp only [Except.ok.injEq] at h; subst h; exact ⟨rfl, rfl, rfl, rfl⟩
  · obtain ⟨_, -, h⟩ := bind_eq_ok.1 h
    obtain ⟨_, -, h⟩ := bind_eq_ok.1 h
    obtain ⟨_, -, h⟩ := bind_eq_ok.1 h
    obtain ⟨_, -, h⟩ := bind_eq_ok.1 h
    obtain ⟨_, -, h⟩ := bind_eq_ok.1 h
    obtain ⟨_, -, h⟩ := bind_eq_ok.1 h
    obtain ⟨_, -, h⟩ := bind_eq_ok.1 h
    obtain ⟨_, -, h⟩ := bind_eq_ok.1 h
    simp only [Except.ok.injEq] at h; subst h; exact ⟨rfl, rfl, rfl, rfl⟩

theorem runXform_ends {c : Config} {i : Instr} {me : Context} {w : Work} {shape : Context → Except Stop (Nat → Views)}
    (hf : footprint i me = requestFootprint shape me)
    (hs : ∀ views, shape me = .ok views → splitArgs me = .ok views ∨ interleavedArgs me = .ok views ∨ stridedArgs me = .ok views)
    {σ : Dir} {p : Policy} {fb : Bool} {d : Done} (h : runXform c me w shape σ p fb = .ok d) : Ends c i me w d := by
  simp only [runXform] at h
  obtain ⟨n, hn, h⟩ := bind_eq_ok.1 h
  obtain ⟨scale, -, h⟩ := bind_eq_ok.1 h
  obtain ⟨views, hv, h⟩ := bind_eq_ok.1 h
  split at h
  · simp only [doneOk, Except.ok.injEq] at h; subst h
    exact ends_ok ((goto_moved c _ w .validate).trans (goto_moved c _ _ .return)).settled
  · rename_i h0
    obtain ⟨-, -, h⟩ := bind_eq_ok.1 h
    obtain ⟨-, -, h⟩ := bind_eq_ok.1 h
    obtain ⟨-, -, hr, hi⟩ := shape_counts (hs views hv) n.toNat
    have hP : ∀ a, Touch (views n.toNat).dr (views n.toNat).di n.toNat a → MayWrite i me a := by
      rintro a ⟨j, hj, h⟩
      simp only [MayWrite, hf, requestFootprint, hv, arg_eq_ok.1 hn, Option.getD_some, List.mem_cons, List.not_mem_nil,
        or_false]
      rcases h with h | h
      · exact ⟨_, .inl rfl, j, by omega, h⟩
      · exact ⟨_, .inr rfl, j, by omega, h⟩
    revert h
    cases ht : transform c (views n.toNat) n.toNat σ scale p fb (w.goto .validate) with
    | error f => simp [liftCode]
    | ok r =>
      intro h
      simp only [liftCode, Except.ok.injEq] at h; subst h
      obtain ⟨a1, a2⟩ := transform_settled (by omega) hr hi ht
      have a3 := a1.mono hP
      refine ⟨⟨a3.outside, a3.admitted, a3.wf, a3.legal, a3.cache⟩, ?_, fun _ => rfl, fun _ => rfl, fun _ h => by cases h⟩
      exact a2.imp id fun ⟨e1, e2, e3⟩ => ⟨e1, e2, e3, rfl, rfl⟩

/-! ### Every command -/

theorem complete_next {s t : State} {r : Except Stop Done} :
    s.complete r = .next t ↔ (∃ d, r = .ok d ∧ t = s.finish d) ∨ (r = .error .invalid ∧ t = s.turnAway) := by
  rcases r with e | d
  · cases e <;> simp [State.complete, eq_comm]
  · simp [State.complete, eq_comm]

/-- Every way a command gives a next state: it ends with its own effects, or it is turned away (R340). -/
theorem exec_next {i : Instr} {s t : State} (h : exec i s = .next t) :
    (∃ d, Ends s.cfg i s.me s.work d ∧ t = s.finish d) ∨ t = s.turnAway := by
  have key : ∀ {r : Except Stop Done}, (∀ d, r = .ok d → Ends s.cfg i s.me s.work d) → s.complete r = .next t →
      (∃ d, Ends s.cfg i s.me s.work d ∧ t = s.finish d) ∨ t = s.turnAway := by
    intro r hr hc
    rcases complete_next.1 hc with ⟨d, h1, h2⟩ | ⟨-, h2⟩
    · exact .inl ⟨d, hr d h1, h2⟩
    · exact .inr h2
  cases i with
  | xfs dir pol => exact key (fun d hd => runXform_ends rfl (fun _ => .inl) hd) h
  | xfi dir pol => exact key (fun d hd => runXform_ends rfl (fun _ h => .inr (.inl h)) hd) h
  | xft dir pol => exact key (fun d hd => runXform_ends rfl (fun _ h => .inr (.inr h)) hd) h
  | blu dir pol => exact key (fun d hd => runXform_ends rfl (fun _ h => .inr (.inr h)) hd) h
  | brv l => exact key (fun d hd => runBrv_ends hd) h
  | dil => exact key (fun d hd => runShuffle_ends rfl (fun b l => deinterleave_only _ b l _) hd) h
  | ilv => exact key (fun d hd => runShuffle_ends rfl (fun b l => interleave_only _ b l _) hd) h
  | pass dir dd lt =>
    refine key (fun d hd => runInPlace_ends rfl (fun hb vr vi _ _ => ?_) hd) h
    simp only [passBad, Bool.or_eq_false_iff, decide_eq_false_iff_not] at hb
    exact pass_only dir (by omega) (by omega)
  | r8 dir lt => exact key (fun d hd => runInPlace_ends rfl (fun _ vr vi _ _ => r8Kernel_only lt dir) hd) h
  | mps dir pol lt depth =>
    refine key (fun d hd => runInPlace_ends rfl (fun hb vr vi _ _ => ?_) hd) h
    simp only [multipassBad, Bool.or_eq_false_iff, decide_eq_false_iff_not] at hb
    exact multipass_only dir pol (by omega)
  | bfy dir pol lt => exact key (fun d hd => runInPlace_ends rfl (fun _ vr vi hr hi => dbcF_only dir pol hr hi) hd) h
  | scl => exact key (fun d hd => runScl_ends hd) h
  | twg dir bigN l => exact key (fun d hd => runTwg_ends hd) h
  | twf dir => exact key (fun d hd => runTwf_ends hd) h
  | cxm k =>
    simp only [exec, execCxm] at h
    refine key (fun d hd => ?_) h
    simp only [runCxm, Except.ok.injEq] at hd; subst hd
    exact ⟨(Moved.refl _ _ _).settled, .inl rfl, fun _ => rfl, fun h => by simp [writesRes] at h,
      fun z hz => by simp only [Option.some.injEq] at hz; subst hz; exact cexpm1_legal _ _⟩
  | cxf =>
    refine key (fun d hd => ?_) h
    simp only [runCxf] at hd
    obtain ⟨_, -, hd⟩ := bind_eq_ok.1 hd
    obtain ⟨_, -, hd⟩ := bind_eq_ok.1 hd
    obtain ⟨_, -, hd⟩ := bind_eq_ok.1 hd
    simp only [Except.ok.injEq] at hd; subst hd
    exact ⟨(Moved.refl _ _ _).settled, .inl rfl, fun _ => rfl, fun h => by simp [writesRes] at h,
      fun z hz => by simp only [Option.some.injEq] at hz; subst hz; exact cexpm1Frac_legal _ _ _⟩
  | prb =>
    simp only [exec, execPrb] at h
    refine key (fun d hd => ?_) h
    simp only [runPrb, Except.ok.injEq] at hd; subst hd
    exact ⟨⟨fun _ _ => rfl, fun _ => rfl, id, id, .inr rfl⟩, .inl rfl, fun h => by simp [writesResult] at h,
      fun _ => rfl, fun _ h => by cases h⟩
  | sel pol l depth =>
    refine key (fun d hd => ?_) h
    simp only [runSel] at hd
    obtain ⟨_, -, hd⟩ := bind_eq_ok.1 hd
    obtain ⟨_, -, hd⟩ := bind_eq_ok.1 hd
    obtain ⟨_, -, hd⟩ := bind_eq_ok.1 hd
    split at hd
    · simp only [Except.ok.injEq] at hd; subst hd
      exact ⟨(Moved.refl _ _ _).settled, .inl rfl, fun h => by simp [writesResult] at h, fun _ => rfl, fun _ h => by cases h⟩
    · simp only [Except.ok.injEq] at hd; subst hd
      exact ⟨(effMask_moved _ _ _ _).settled, .inl rfl, fun h => by simp [writesResult] at h, fun _ => rfl,
        fun _ h => by cases h⟩
  | omp dir pol l depth => exact key (fun d hd => runOmp_ends hd) h

end Sys2Proof.Machine
end

