-- ==== Sys2Proof/Laws/Checks.lean ====
section
/-! SUPPORT. The checks a command makes on its views (R85, R302, R303), each said once as a proposition and once as the
test the machine runs. -/

namespace Sys2Proof.Machine

theorem addrOf_eq_zero {a : Word64} : addrOf a = 0 ↔ a = 0 := by
  rw [addrOf, Int.natCast_eq_zero, ← BitVec.toNat_inj]; simp

theorem addrOf_inj {a b : Word64} : addrOf a = addrOf b ↔ a = b := by
  rw [addrOf, addrOf, Int.natCast_inj, BitVec.toNat_inj]

theorem strideOf_inj {a b : Word64} : strideOf a = strideOf b ↔ a = b := BitVec.toInt_inj

/-- Two footprints share an address where the machine's test says so (R85). -/
theorem View.share_iff {v w : View} : v.Share w ↔ v.meets w = true := by
  rw [View.meets_iff]
  constructor
  · rintro ⟨a, ⟨hv, i, hi, rfl⟩, hw, j, hj, h⟩; exact ⟨hv, hw, i, j, hi, hj, h.symm⟩
  · rintro ⟨hv, hw, i, j, hi, hj, h⟩; exact ⟨_, ⟨hv, i, hi, rfl⟩, hw, j, hj, h.symm⟩

/-- Views of non-null bases are apart where they share no address. -/
theorem View.apart_of_not_meets {v w : View} (hv : v.base ≠ 0) (hw : w.base ≠ 0) (h : v.meets w = false) : v.Apart w :=
  (View.meets_false hv hw).1 h

/-- `CheckDst` fails exactly on items 1 to 3 of R302. -/
theorem dstRejected_iff {vr vi : View} : DstRejected vr vi ↔ dstBad vr vi = true := by
  simp [DstRejected, dstBad, View.isNull, or_assoc]

theorem strideClash_iff {s d : View} : strideClash s d = true ↔ s.base ≠ 0 ∧ s.base = d.base ∧ s.stride ≠ d.stride := by
  simp [strideClash, View.isNull, and_assoc]

theorem crossAlias_iff {s d : View} : crossAlias s d = true ↔ s.base ≠ 0 ∧ s.base = d.base := by
  simp [crossAlias, View.isNull]

theorem takesBluestein_iff {n : Nat} {fb : Bool} : takesBluestein n fb = true ↔ isPow2 n = false ∨ fb = true := by
  cases fb <;> simp [takesBluestein]

theorem takesBluestein_eq_false {n : Nat} {fb : Bool} : takesBluestein n fb = false ↔ isPow2 n = true ∧ fb = false := by
  cases fb <;> simp [takesBluestein]

/-- `Validate` fails exactly on the items of R302. -/
theorem requestRejected_iff {c : Config} {r : Request} :
    RequestRejected c r ↔ requestBad c r.views r.n r.forceBS = true := by
  simp only [RequestRejected, requestBad, dstRejected_iff, Bool.or_eq_true, Bool.and_eq_true, strideClash_iff,
    crossAlias_iff, takesBluestein_iff, takesBluestein_eq_false, Bool.not_eq_true', decide_eq_true_eq, and_or_left, or_assoc,
    and_assoc, log2nMax]

theorem clash_iff {s d : View} : clash s d = true ↔ s.base ≠ 0 ∧ s ≠ d ∧ s.Share d := by
  simp [clash, View.isNull, View.share_iff, and_assoc]

/-- `CheckOverlap` fails exactly where R303 says. -/
theorem requestOverlaps_iff {r : Request} :
    RequestOverlaps r ↔ overlapBad [r.views.sr, r.views.si] r.views.dr r.views.di = true := by
  simp only [RequestOverlaps, overlapBad, clash_iff, View.share_iff, List.any_cons, List.any_nil, Bool.or_eq_true,
    List.mem_cons, List.not_mem_nil, or_false, exists_eq_or_imp, exists_eq_left, Bool.or_false]

/-- Footprints conflict where one command writes an address of the other (R95, R379). -/
theorem anyMeet_iff {vs ws : List View} : anyMeet vs ws = true ↔ ∃ a, InSome vs a ∧ InSome ws a := by
  simp only [anyMeet, List.any_eq_true, ← View.share_iff, View.Share, InSome]
  constructor
  · rintro ⟨v, hv, w, hw, a, h1, h2⟩; exact ⟨a, ⟨v, hv, h1⟩, w, hw, h2⟩
  · rintro ⟨a, ⟨v, hv, h1⟩, w, hw, h2⟩; exact ⟨v, hv, w, hw, a, h1, h2⟩

end Sys2Proof.Machine
end

