-- ==== Sys2Proof/Laws/Faults.lean ====
section
/-! SUPPORT. How a command can fail: its work can only be stuck (R233, R345), and what stops it before its work is one of
its checks (R347). -/

namespace Sys2Proof.Machine

/-- The one way the work of a command can fail is to be stuck (R345). -/
def OnlyStuck {α : Type} (r : Except Fault α) : Prop := ∀ f, r = .error f → f = .stuck

theorem bind_eq_error {ε α β : Type} {x : Except ε α} {f : α → Except ε β} {e : ε} :
    x.bind f = .error e ↔ x = .error e ∨ ∃ a, x = .ok a ∧ f a = .error e := by
  cases x <;> simp [Except.bind]

theorem OnlyStuck.ok {α : Type} (a : α) : OnlyStuck (.ok a) := fun _ h => by cases h

theorem OnlyStuck.bind {α β : Type} {x : Except Fault α} {f : α → Except Fault β} (h : OnlyStuck x)
    (hf : ∀ a, OnlyStuck (f a)) : OnlyStuck (x.bind f) := fun e he => by
  rcases bind_eq_error.1 he with he | ⟨a, -, he⟩
  · exact h e he
  · exact hf a e he

theorem OnlyStuck.ite {α : Type} {p : Prop} [Decidable p] {x y : Except Fault α} (hx : OnlyStuck x) (hy : OnlyStuck y) :
    OnlyStuck (if p then x else y) := by split <;> assumption

theorem OnlyStuck.forUp {n : Nat} {f : Nat → Work → Except Fault Work} (h : ∀ k w, OnlyStuck (f k w)) (w : Work) :
    OnlyStuck (forUp n f w) := by
  induction n with
  | zero => exact .ok w
  | succ n ih => exact ih.bind (h n)

/-! ### Memory -/

theorem memRead_stuck (a : Int) (w : Work) : OnlyStuck (memRead a w) := fun f h => by
  simp only [memRead] at h; split at h <;> simp_all

theorem memWrite_onlyStuck (a : Int) (v : Elem) (w : Work) : OnlyStuck (memWrite a v w) := fun f h => by
  simp only [memWrite] at h; split at h <;> simp_all

theorem srcRead_stuck (t : Ty) (v : View) (i : Nat) (w : Work) : OnlyStuck (srcRead t v i w) :=
  .ite (.ok _) (memRead_stuck _ _)

theorem cxRead_stuck (vr vi : View) (i : Nat) (w : Work) : OnlyStuck (cxRead vr vi i w) :=
  (memRead_stuck _ _).bind fun _ => (memRead_stuck _ _).bind fun _ => .ok _

theorem cxWrite_stuck (vr vi : View) (i : Nat) (z : Cx) (w : Work) : OnlyStuck (cxWrite vr vi i z w) :=
  (memWrite_onlyStuck _ _ _).bind fun _ => memWrite_onlyStuck _ _ _

theorem readFrom_stuck (t : Ty) (v : View) (w : Work) (i len : Nat) : OnlyStuck (readFrom t v w i len) := by
  induction len generalizing i with
  | zero => exact .ok _
  | succ len ih => exact (srcRead_stuck _ _ _ _).bind fun _ => (ih (i + 1)).bind fun _ => .ok _

theorem storeAt_stuck (v : View) (p : Nat → Nat) (xs : List Elem) (i : Nat) (w : Work) : OnlyStuck (storeAt v p xs i w) := by
  induction xs generalizing i w with
  | nil => exact .ok _
  | cons x xs ih => exact (memWrite_onlyStuck _ _ _).bind fun w => ih (i + 1) w

theorem storeCx_stuck (vr vi : View) (zs : List Cx) (k : Nat) (w : Work) : OnlyStuck (storeCx vr vi zs k w) := by
  induction zs generalizing k w with
  | nil => exact .ok _
  | cons z zs ih => exact (cxWrite_stuck _ _ _ _ _).bind fun w => ih (k + 1) w

/-! ### The engines -/

theorem bitRev_stuck (t : Ty) (src dst : View) (l : Nat) (w : Work) : OnlyStuck (bitRev t src dst l w) :=
  (readFrom_stuck _ _ _ _ _).bind fun _ => storeAt_stuck _ _ _ _ _

theorem deinterleave_stuck (t : Ty) (b : Int) (l : Nat) (w : Work) : OnlyStuck (deinterleave t b l w) :=
  (bitRev_stuck _ _ _ _ _).bind fun _ => (bitRev_stuck _ _ _ _ _).bind fun _ => bitRev_stuck _ _ _ _ _

theorem interleave_stuck (t : Ty) (b : Int) (l : Nat) (w : Work) : OnlyStuck (interleave t b l w) :=
  (bitRev_stuck _ _ _ _ _).bind fun _ => (bitRev_stuck _ _ _ _ _).bind fun _ => bitRev_stuck _ _ _ _ _

theorem bf_stuck (t : Ty) (vr vi : View) (lo hi : Nat) (tw : Cx) (w : Work) : OnlyStuck (bf t vr vi lo hi tw w) :=
  (cxRead_stuck _ _ _ _).bind fun _ => (cxRead_stuck _ _ _ _).bind fun _ =>
    (cxWrite_stuck _ _ _ _ _).bind fun _ => cxWrite_stuck _ _ _ _ _

theorem pass_stuck (c : Config) (vr vi : View) (lt d : Nat) (σ : Dir) (w : Work) : OnlyStuck (pass c vr vi lt d σ w) :=
  .ite (.forUp (fun _ w => .forUp (fun _ _ => bf_stuck _ _ _ _ _ _ _) w) _)
    (.forUp (fun _ _ => .forUp (fun _ _ => (OnlyStuck.forUp (fun _ _ => bf_stuck _ _ _ _ _ _ _) _).bind fun _ => .ok _) _) _)

theorem r8Kernel_stuck (t : Ty) (vr vi : View) (lt : Nat) (σ : Dir) (w : Work) : OnlyStuck (r8Kernel t vr vi lt σ w) :=
  .forUp (fun _ _ => (cxRead_stuck _ _ _ _).bind fun _ => (cxRead_stuck _ _ _ _).bind fun _ =>
    (cxRead_stuck _ _ _ _).bind fun _ => (cxRead_stuck _ _ _ _).bind fun _ => (cxRead_stuck _ _ _ _).bind fun _ =>
    (cxRead_stuck _ _ _ _).bind fun _ => (cxRead_stuck _ _ _ _).bind fun _ => (cxRead_stuck _ _ _ _).bind fun _ =>
    storeCx_stuck _ _ _ _ _) _

theorem simdSettle_stuck (c : Config) (vr vi : View) (lt : Nat) (w : Work) : OnlyStuck (simdSettle c vr vi lt w) := by
  have hr : ∀ sum n v i w, OnlyStuck (simdRedraw c sum n v i w) := fun _ _ v i w =>
    (memRead_stuck _ _).bind fun _ => memWrite_onlyStuck _ _ _
  rw [simdSettle]
  split
  · exact .ok _
  · exact (readFrom_stuck _ _ _ _ _).bind fun _ => (readFrom_stuck _ _ _ _ _).bind fun _ =>
      .forUp (fun _ _ => (hr _ _ _ _ _).bind fun _ => hr _ _ _ _ _) _

theorem vecPass_stuck (c : Config) (vr vi : View) (lt d : Nat) (σ : Dir) (w : Work) : OnlyStuck (vecPass c vr vi lt d σ w) :=
  (pass_stuck _ _ _ _ _ _ _).bind fun _ => simdSettle_stuck _ _ _ _ _

theorem ompRun_stuck (c : Config) (vr vi : View) (l depth : Nat) (σ : Dir) (p : Policy) (w : Work) :
    OnlyStuck (ompRun c vr vi l depth σ p w) := by
  rw [ompRun]
  refine .ite (.ok _) (.ite (.ok _) (.ite ?_ ?_))
  · exact (((r8Kernel_stuck _ _ _ _ _ _).bind fun _ => simdSettle_stuck _ _ _ _ _).bind
      fun _ => .forUp (fun _ _ => vecPass_stuck _ _ _ _ _ _ _) _).bind fun _ => .ok _
  · exact (OnlyStuck.forUp (fun _ _ => vecPass_stuck _ _ _ _ _ _ _) _).bind fun _ => .ok _

theorem multipass_stuck (c : Config) (vr vi : View) (lt depth : Nat) (σ : Dir) (p : Policy) (w : Work) :
    OnlyStuck (multipass c vr vi lt depth σ p w) := by
  have hp : ∀ d0 w, OnlyStuck (passesFrom c vr vi lt d0 σ w) := fun d0 w => .forUp (fun _ _ => pass_stuck _ _ _ _ _ _ _) _
  rw [multipass]
  exact .ite (.ok _) ((ompRun_stuck _ _ _ _ _ _ _ _).bind fun _ => .ite ((r8Kernel_stuck _ _ _ _ _ _).bind fun _ => hp _ _) (hp _ _))

theorem dbcF_stuck (c : Config) (σ : Dir) (p : Policy) (l : Nat) (vr vi : View) (w : Work) : OnlyStuck (dbcF c σ p l vr vi w) := by
  induction l generalizing vr vi w with
  | zero => exact multipass_stuck _ _ _ _ _ _ _ _
  | succ l ih =>
    rw [dbcF]
    exact .ite (((ih _ _ _).bind fun _ => ih _ _ _).bind fun _ => multipass_stuck _ _ _ _ _ _ _ _) (multipass_stuck _ _ _ _ _ _ _ _)

theorem scaleViews_stuck (t : Ty) (vr vi : View) (n : Nat) (s : Elem) (w : Work) : OnlyStuck (scaleViews t vr vi n s w) := by
  have h1 : ∀ v k w, OnlyStuck (scaleOne t v k s w) := fun v k w => (memRead_stuck _ _).bind fun _ => memWrite_onlyStuck _ _ _
  exact .ite (.ok _) (.forUp (fun _ _ => (h1 _ _ _).bind fun _ => h1 _ _ _) _)

theorem potPipeline_stuck (c : Config) (v : Views) (l : Nat) (σ : Dir) (scale : Elem) (p : Policy) (w : Work) :
    OnlyStuck (potPipeline c v l σ scale p w) := by
  refine OnlyStuck.bind ((bitRev_stuck _ _ _ _ _).bind fun _ => bitRev_stuck _ _ _ _ _) fun w => OnlyStuck.bind ?_
    fun w => scaleViews_stuck _ _ _ _ _ _
  rw [potButterfly]
  exact .ite (((deinterleave_stuck _ _ _ _).bind fun _ => dbcF_stuck _ _ _ _ _ _ _).bind fun _ => interleave_stuck _ _ _ _)
    ((dbcF_stuck _ _ _ _ _ _ _).bind fun _ => .ok _)

theorem bsCore_stuck (c : Config) (v : Views) (z : Scratch) (lm n : Nat) (σ : Dir) (scale : Elem) (p : Policy) (w : Work) :
    OnlyStuck (bsCore c v z lm n σ scale p w) := by
  have hz : ∀ vr vi i len w, OnlyStuck (zeroFill c.ty vr vi i len w) := fun _ _ _ _ _ => .forUp (fun _ _ => cxWrite_stuck _ _ _ _ _) _
  refine OnlyStuck.bind ?_ fun _ => (potPipeline_stuck _ _ _ _ _ _ _).bind fun _ => (potPipeline_stuck _ _ _ _ _ _ _).bind
    fun _ => OnlyStuck.bind ?_ fun _ => (potPipeline_stuck _ _ _ _ _ _ _).bind fun _ => ?_
  · refine OnlyStuck.bind (storeCx_stuck _ _ _ _ _) fun _ => OnlyStuck.bind (.forUp (fun k w => ?_) _) fun _ =>
      (hz _ _ _ _ _).bind fun _ => hz _ _ _ _ _
    exact (srcRead_stuck _ _ _ _).bind fun _ => (srcRead_stuck _ _ _ _).bind fun _ => (cxRead_stuck _ _ _ _).bind fun _ =>
      (cxWrite_stuck _ _ _ _ _).bind fun _ => (cxWrite_stuck _ _ _ _ _).bind fun _ => .ite (cxWrite_stuck _ _ _ _ _) (.ok _)
  · exact .forUp (fun _ _ => (cxRead_stuck _ _ _ _).bind fun _ => (cxRead_stuck _ _ _ _).bind fun _ => cxWrite_stuck _ _ _ _ _) _
  · exact .forUp (fun _ _ => (cxRead_stuck _ _ _ _).bind fun _ => (cxRead_stuck _ _ _ _).bind fun _ => cxWrite_stuck _ _ _ _ _) _

theorem bsAlloc_stuck (c : Config) (v : Views) (n : Nat) (w : Work) : OnlyStuck (bsAlloc c v n w) := fun f h => by
  rcases alloc_cases c v.list (scratchLen (clog2 (2 * n - 1)) n) (w.goto .bsAlloc) with ⟨b, -, h'⟩ | h' | h' <;>
    rw [bsAlloc, h'] at h <;> cases h
  rfl

theorem transform_stuck (c : Config) (v : Views) (n : Nat) (σ : Dir) (scale : Elem) (p : Policy) (fb : Bool) (w : Work) :
    OnlyStuck (transform c v n σ scale p fb w) := by
  refine .ite ?_ ((potPipeline_stuck _ _ _ _ _ _ _).bind fun _ => .ok _)
  rw [bluestein]
  refine (bsAlloc_stuck _ _ _ _).bind fun r => ?_
  split
  · exact .ok _
  · exact (bsCore_stuck _ _ _ _ _ _ _ _ _).bind fun _ => .ok _

/-! ### The commands -/

/-- A command faults where its body does (R340). -/
theorem complete_fault {s : State} {r : Except Stop Done} {f : Fault} : s.complete r = .fault f ↔ r = .error (.fault f) := by
  rcases r with e | d
  · cases e <;> simp [State.complete]
  · simp [State.complete]

/-- No command is refused (R340): its outcome is a next state or a fault. -/
theorem complete_not_refused (s : State) (r : Except Stop Done) (x : Refusal) : s.complete r ≠ .refused x := by
  rcases r with e | d
  · cases e <;> simp [State.complete]
  · simp [State.complete]

theorem liftWork_fault {r : Except Fault Work} {e : Stop} (hr : OnlyStuck r) (h : liftWork r = .error e) :
    e = .fault .stuck := by
  rcases r with f | w
  · simp only [liftWork, Except.error.injEq] at h; rw [← h, hr f rfl]
  · simp [liftWork] at h

theorem arg_eq_error {α : Type} {o : Option α} {e : Stop} : arg o = .error e ↔ o = none ∧ e = .fault .unwrittenRegister := by
  cases o <;> simp [arg, eq_comm]

theorem invalidIf_eq_error {b : Bool} {e : Stop} : invalidIf b = .error e ↔ b = true ∧ e = .invalid := by
  cases b <;> simp [invalidIf, eq_comm]

theorem checkOverlap_eq_error {ss : List View} {dr di : View} {e : Stop} :
    checkOverlap ss dr di = .error e ↔ overlapBad ss dr di = true ∧ e = .fault .overlap := by
  simp only [checkOverlap]; cases overlapBad ss dr di <;> simp [eq_comm]

end Sys2Proof.Machine
end

