-- ==== Sys2Proof/Laws/Host.lean ====
section
/-! SUPPORT. What a command's outcome leaves on the machine (R95, R340, R344, R345): its next state, or the halt of its
context, and nothing of another context. -/

namespace Sys2Proof.Machine

/-! ### Memory whose contents are lost -/

theorem Mem.lose_keys (t : Ty) (k : Nat) (vs : List View) (m : Mem) : (m.lose t k vs).keys = m.keys := by
  simp only [Mem.keys, Mem.lose, List.map_map]
  refine List.map_congr_left fun c _ => ?_
  simp only [Function.comp]; split <;> rfl

theorem Mem.lose_wf {t : Ty} {k : Nat} {vs : List View} {m : Mem} (h : m.wf = true) : (m.lose t k vs).wf = true :=
  Mem.wf_of_keys (Mem.lose_keys t k vs m) h

theorem Mem.lose_legal {t : Ty} {k : Nat} {vs : List View} {m : Mem} (h : m.legal t = true) :
    (m.lose t k vs).legal t = true := by
  simp only [Mem.legal, Mem.lose, List.all_map, List.all_eq_true, Function.comp] at *
  intro c hc
  split
  · exact ofHost_legal _ _
  · exact h c hc

/-- The admitted addresses stay admitted (R82). -/
theorem Mem.lose_admitted (t : Ty) (k : Nat) (vs : List View) (m : Mem) : SameAdmitted m (m.lose t k vs) :=
  Mem.admitted_of_keys (Mem.lose_keys t k vs m)

theorem Mem.lose_read (t : Ty) (k : Nat) (vs : List View) (m : Mem) {a : Nat} (h : ∀ v ∈ vs, v.covers a = false) :
    (m.lose t k vs).read a = m.read a := by
  induction m with
  | nil => rfl
  | cons c m ih =>
    obtain ⟨b, x⟩ := c
    simp only [Mem.lose, List.map_cons] at *
    by_cases hb : b = a
    · subst hb
      have : vs.any (fun v => v.covers b) = false := by
        rw [List.any_eq_false]; exact fun v hv => by rw [h v hv]; simp
      simp [this, Mem.read]
    · split <;> simp only [Mem.read, if_neg hb] <;> exact ih

/-- Outside the views nothing is lost (R344, R345). -/
theorem Mem.lose_outside (t : Ty) (k : Nat) (vs : List View) (m : Mem) : SameOutside vs m (m.lose t k vs) := fun a ha => by
  simp only [Mem.atAddr]
  split
  · rename_i h
    refine Mem.lose_read t k vs m fun v hv => ?_
    have hn : ((a.toNat : Nat) : Int) = a := Int.toNat_of_nonneg (by have := (isAddr_iff.1 h).1; omega)
    rw [hn]
    exact Bool.eq_false_iff.2 fun hc => ha v hv (View.covers_iff.1 hc).2
  · rfl

/-! ### A stuck command's work -/

/-- What a stuck command has drawn (R345): nothing but, for a Bluestein request, one allocation, whose region stays. -/
theorem heldWork_cases (i : Instr) (s : State) :
    heldWork i s = s.work ∨ heldWork i s = allocNull s.work
      ∨ (heldWork i s = allocNull (s.work.goto .bsAlloc))
      ∨ ∃ vs b len, allocLawful s.cfg vs s.mem b len = true
        ∧ heldWork i s = allocGrant s.cfg len b (s.work.goto .bsAlloc) := by
  simp only [heldWork]
  split
  · rename_i r _
    split
    · rcases alloc_cases s.cfg r.views.list (scratchLen (clog2 (2 * r.n - 1)) r.n) (s.work.goto .bsAlloc)
        with ⟨b, hl, h⟩ | h | h
      · refine .inr (.inr (.inr ⟨_, b, _, hl, ?_⟩)); simp only [bsAlloc, h]
      · exact .inr (.inr (.inl (by simp only [bsAlloc, h])))
      · exact .inr (.inl (by simp only [bsAlloc, h]))
    · exact .inl rfl
  · exact .inl rfl

theorem heldWork_featCache (i : Instr) (s : State) : (heldWork i s).featCache = s.featCache := by
  rcases heldWork_cases i s with h | h | h | ⟨_, _, _, _, h⟩ <;> rw [h] <;> rfl

theorem heldWork_wf {i : Instr} {s : State} (hw : s.mem.wf = true) : (heldWork i s).mem.wf = true := by
  rcases heldWork_cases i s with h | h | h | ⟨_, b, len, hl, h⟩ <;> rw [h] <;> try exact hw
  obtain ⟨h1, h2, -, h4, -⟩ := allocLawful_iff.1 hl
  exact Mem.grant_wf hw h1 h2 h4

theorem heldWork_legal {i : Instr} {s : State} (hm : s.mem.legal s.cfg.ty = true) :
    (heldWork i s).mem.legal s.cfg.ty = true := by
  rcases heldWork_cases i s with h | h | h | ⟨_, _, _, _, h⟩ <;> rw [h] <;> try exact hm
  exact Mem.grant_legal hm fun _ => scratchElem_legal _ _ _

/-! ### The outcome on the machine -/

theorem raceHalt_me (s t : State) (f : Footprint) (l : List CmdRecord) :
    (raceHalt s t f l).me = { s.me with halted := some .crossContextOverlap, bsBase := t.me.bsBase } := rfl

/-- A command that races with no other leaves its next state, and is entered in the log. -/
theorem recordCommand_next {i : Instr} {s t : State}
    (h : racesWith s.number s.me.thread.clock (countedFootprint i s (.next t)) s.log = []) :
    recordCommand i s (.next t) = .next (t.enter (countedFootprint i s (.next t))) := by
  simp only [recordCommand, h, if_true]

/-- A command that races is halted, with the fault recorded (R95). -/
theorem recordCommand_race {i : Instr} {s t : State}
    (h : racesWith s.number s.me.thread.clock (countedFootprint i s (.next t)) s.log ≠ []) :
    recordCommand i s (.next t) = .next ((raceHalt s t (countedFootprint i s (.next t))
      (racesWith s.number s.me.thread.clock (countedFootprint i s (.next t)) s.log)).enter
        (countedFootprint i s (.next t))) := by
  simp only [recordCommand, if_neg h]

/-- What a command that did not complete leaves (R344, R345): no register of its context changes but that it is halted and
keeps its scratch, memory keeps its form, and nothing of another context changes. -/
structure HaltedFrom (s u : State) : Prop where
  me : ∃ f b th, u.me = { s.me with halted := some f, bsBase := b, thread := th }
    ∧ (u.faults = s.faults ∧ f = .stuck ∨ { ctx := s.number, fault := f } ∈ u.faults ∧ f ≠ .stuck)
  cfg : u.cfg = s.cfg
  before : u.before = s.before
  after : u.after = s.after
  grows : s.faults <:+ u.faults
  wf : s.mem.wf = true → u.mem.wf = true
  legal : s.mem.legal s.cfg.ty = true → u.mem.legal s.cfg.ty = true
  cache : cacheStep s.cfg s.featCache u.featCache

/-- A command that did not complete, or raced, leaves its context halted. -/
theorem halt_haltedFrom {s t : State} {f : Fault} {w : Work} {lost : List View} {g : Footprint}
    (hm : ∃ b h, t.me = { s.me with bsBase := b, halted := h }) (hc : t.cfg = s.cfg) (hb : t.before = s.before)
    (ha : t.after = s.after) (hf : s.faults <:+ t.faults) (hs : f = .stuck → t.faults = s.faults)
    (hw : s.mem.wf = true → w.mem.wf = true) (hl : s.mem.legal s.cfg.ty = true → w.mem.legal s.cfg.ty = true)
    (hk : cacheStep s.cfg s.featCache w.featCache) : HaltedFrom s ((t.halt f w lost).enter g) := by
  obtain ⟨b, h, hm⟩ := hm
  refine ⟨⟨f, w.bsBase, { t.me.thread with issued := t.me.thread.issued + 1 }, ?_, ?_⟩, hc, hb, ha, ?_,
    fun h => Mem.lose_wf (hw h), fun h => ?_, hk⟩
  · simp only [State.enter, State.halt, hm]
  · have hn : t.number = s.number := by simp only [State.number, hb]
    cases f with
    | stuck => exact .inl ⟨hs rfl, rfl⟩
    | overlap => exact .inr ⟨by simp [State.enter, State.halt, Fault.recorded, hn], by decide⟩
    | crossContextOverlap => exact .inr ⟨by simp [State.enter, State.halt, Fault.recorded, hn], by decide⟩
    | unwrittenRegister => exact .inr ⟨by simp [State.enter, State.halt, Fault.recorded, hn], by decide⟩
  · simp only [State.enter, State.halt]
    split
    · exact hf.trans (List.suffix_cons _ _)
    · exact hf
  · show (Mem.lose t.cfg.ty _ _ _).legal s.cfg.ty = true
    rw [hc]; exact Mem.lose_legal (hl h)

/-- Everything a command's outcome can be on the machine (R340, R344, R345, R95): the next state of the command, entered
in the log, or a halt of its context. -/
theorem recordCommand_exec (i : Instr) (s : State) :
    (∃ t g, exec i s = .next t ∧ recordCommand i s (exec i s) = .next (t.enter g))
      ∨ ∃ u, recordCommand i s (exec i s) = .next u ∧ HaltedFrom s u := by
  cases he : exec i s with
  | next t =>
    by_cases h : racesWith s.number s.me.thread.clock (countedFootprint i s (.next t)) s.log = []
    · exact .inl ⟨t, _, rfl, recordCommand_next h⟩
    · refine .inr ⟨_, recordCommand_race h, ?_⟩
      have hw : t.cfg = s.cfg ∧ t.before = s.before ∧ t.after = s.after ∧ t.faults = s.faults
          ∧ (s.mem.wf = true → t.mem.wf = true) ∧ (s.mem.legal s.cfg.ty = true → t.mem.legal s.cfg.ty = true)
          ∧ cacheStep s.cfg s.featCache t.featCache := by
        rcases exec_next he with ⟨d, hd, rfl⟩ | rfl
        · exact ⟨rfl, rfl, rfl, rfl, hd.settled.wf, hd.settled.legal, hd.settled.cache⟩
        · exact ⟨rfl, rfl, rfl, rfl, id, id, .inl rfl⟩
      obtain ⟨h1, h2, h3, h4, h5, h6, h7⟩ := hw
      exact halt_haltedFrom (t := { t with me := { s.me with bsBase := t.me.bsBase } }) ⟨_, s.me.halted, rfl⟩ h1 h2 h3
        (by rw [h4]) (fun h => by cases h) h5 h6 h7
  | fault f =>
    refine .inr ?_
    have hw : ∀ h : s.mem.wf = true, (if f = .stuck then heldWork i s else s.work).mem.wf = true := fun h => by
      split
      · exact heldWork_wf h
      · exact h
    have hl : ∀ h : s.mem.legal s.cfg.ty = true,
        (if f = .stuck then heldWork i s else s.work).mem.legal s.cfg.ty = true := fun h => by
      split
      · exact heldWork_legal h
      · exact h
    have hk : cacheStep s.cfg s.featCache (if f = .stuck then heldWork i s else s.work).featCache := by
      split
      · exact .inl (heldWork_featCache i s)
      · exact .inl rfl
    simp only [recordCommand]
    split
    · exact ⟨_, rfl, halt_haltedFrom (t := s) ⟨_, _, rfl⟩ rfl rfl rfl (List.suffix_refl _) (fun _ => rfl) hw hl hk⟩
    · have h1 := halt_haltedFrom (t := s) (f := f) (lost := (countedFootprint i s (.fault f)).writes)
        (g := countedFootprint i s (.fault f)) ⟨_, _, rfl⟩ rfl rfl rfl (List.suffix_refl _) (fun _ => rfl) hw hl hk
      exact ⟨_, rfl, halt_haltedFrom ⟨_, s.me.halted, rfl⟩ rfl rfl rfl h1.grows (fun h => by cases h) h1.wf h1.legal h1.cache⟩
  | refused x =>
    exfalso
    cases i <;> first
      | exact complete_not_refused _ _ _ he
      | (simp only [exec, execCxm, execPrb] at he; exact complete_not_refused _ _ _ he)

end Sys2Proof.Machine
end

