-- ==== Sys2Proof/Laws/PerInstr.lean ====
section
/-! SUPPORT. A family of statements, one per command: the fields of a command's word (R110, R111, R114). -/

namespace Sys2Proof.Laws.EncodingFits

/-- Reading the fields of a well-formed command's word gives the command's fields, and they meet a row of the opcode
map: its opcode is listed, and every must-be-zero bit is zero (R110, R114). -/
def Statement (i : Instr) : Prop :=
  i.wellFormed = true →
    fieldsOf (encode i) = i.fields ∧ ∃ r, rowOf i.fields.op = some r ∧ r.zerosHold i.fields = true

/-- Fields that fit their places are read back from the word they make (R110). -/
theorem fieldsOf_word {op dir vsel vw a b : Nat} (h1 : op < 256) (h2 : dir < 2) (h3 : vsel < 4) (h4 : vw < 16)
    (h5 : a < 32) (h6 : b < 32) :
    fieldsOf (fieldsWith op dir vsel vw a b).word = fieldsWith op dir vsel vw a b := by
  have hw : (fieldsWith op dir vsel vw a b).word.toNat
      = op + 256 * dir + 1024 * vsel + 4096 * vw + 65536 * a + 2097152 * b := by
    rw [Fields.word, BitVec.toNat_ofNat]
    simp only [fieldsWith]
    omega
  rw [fieldsOf, hw]
  simp only [fieldsWith, Fields.mk.injEq]
  omega

theorem dir_field_lt (d : Dir) : d.field < 2 := by cases d <;> decide

theorem policy_vsel_lt (p : Policy) : p.vsel < 4 := by
  cases p with
  | auto => decide
  | scalar => decide
  | force w => cases w <;> decide

theorem policy_vw_lt (p : Policy) : p.vw < 16 := by
  cases p with
  | auto => decide
  | scalar => decide
  | force w => cases w <;> decide

theorem xfs (dir : Dir) (pol : Policy) : Statement (.xfs dir pol) := by
  intro _
  exact ⟨fieldsOf_word (by decide) (dir_field_lt dir) (policy_vsel_lt pol) (policy_vw_lt pol) (by decide) (by decide),
    _, rfl, by simp [Row.zerosHold, Instr.fields, fieldsWith]⟩

theorem xfi (dir : Dir) (pol : Policy) : Statement (.xfi dir pol) := by
  intro _
  exact ⟨fieldsOf_word (by decide) (dir_field_lt dir) (policy_vsel_lt pol) (policy_vw_lt pol) (by decide) (by decide),
    _, rfl, by simp [Row.zerosHold, Instr.fields, fieldsWith]⟩

theorem xft (dir : Dir) (pol : Policy) : Statement (.xft dir pol) := by
  intro _
  exact ⟨fieldsOf_word (by decide) (dir_field_lt dir) (policy_vsel_lt pol) (policy_vw_lt pol) (by decide) (by decide),
    _, rfl, by simp [Row.zerosHold, Instr.fields, fieldsWith]⟩

theorem blu (dir : Dir) (pol : Policy) : Statement (.blu dir pol) := by
  intro _
  exact ⟨fieldsOf_word (by decide) (dir_field_lt dir) (policy_vsel_lt pol) (policy_vw_lt pol) (by decide) (by decide),
    _, rfl, by simp [Row.zerosHold, Instr.fields, fieldsWith]⟩

theorem brv (log2n : Nat) : Statement (.brv log2n) := by
  intro h
  simp only [Instr.wellFormed, fitsField, decide_eq_true_eq] at h
  exact ⟨fieldsOf_word (by decide) (by decide) (by decide) (by decide) h (by decide),
    _, rfl, by simp [Row.zerosHold, Instr.fields, fieldsWith]⟩

theorem dil : Statement .dil := by
  intro _
  exact ⟨fieldsOf_word (by decide) (by decide) (by decide) (by decide) (by decide) (by decide),
    _, rfl, by simp [Row.zerosHold, Instr.fields, fieldsWith]⟩

theorem ilv : Statement .ilv := by
  intro _
  exact ⟨fieldsOf_word (by decide) (by decide) (by decide) (by decide) (by decide) (by decide),
    _, rfl, by simp [Row.zerosHold, Instr.fields, fieldsWith]⟩

theorem pass (dir : Dir) (d : Nat) (log2n : Nat) : Statement (.pass dir d log2n) := by
  intro h
  simp only [Instr.wellFormed, fitsField, Bool.and_eq_true, decide_eq_true_eq] at h
  exact ⟨fieldsOf_word (by decide) (dir_field_lt dir) (by decide) (by decide) h.1 h.2,
    _, rfl, by simp [Row.zerosHold, Instr.fields, fieldsWith]⟩

theorem r8 (dir : Dir) (log2n : Nat) : Statement (.r8 dir log2n) := by
  intro h
  simp only [Instr.wellFormed, fitsField, decide_eq_true_eq] at h
  exact ⟨fieldsOf_word (by decide) (dir_field_lt dir) (by decide) (by decide) h (by decide),
    _, rfl, by simp [Row.zerosHold, Instr.fields, fieldsWith]⟩

theorem mps (dir : Dir) (pol : Policy) (log2n : Nat) (depth : Nat) : Statement (.mps dir pol log2n depth) := by
  intro h
  simp only [Instr.wellFormed, fitsField, Bool.and_eq_true, decide_eq_true_eq] at h
  exact ⟨fieldsOf_word (by decide) (dir_field_lt dir) (policy_vsel_lt pol) (policy_vw_lt pol) h.1 h.2,
    _, rfl, by simp [Row.zerosHold, Instr.fields, fieldsWith]⟩

theorem bfy (dir : Dir) (pol : Policy) (log2n : Nat) : Statement (.bfy dir pol log2n) := by
  intro h
  simp only [Instr.wellFormed, fitsField, decide_eq_true_eq] at h
  exact ⟨fieldsOf_word (by decide) (dir_field_lt dir) (policy_vsel_lt pol) (policy_vw_lt pol) h (by decide),
    _, rfl, by simp [Row.zerosHold, Instr.fields, fieldsWith]⟩

theorem scl : Statement .scl := by
  intro _
  exact ⟨fieldsOf_word (by decide) (by decide) (by decide) (by decide) (by decide) (by decide),
    _, rfl, by simp [Row.zerosHold, Instr.fields, fieldsWith]⟩

theorem twg (dir : Dir) (bigN : Nat) (l : Nat) : Statement (.twg dir bigN l) := by
  intro h
  simp only [Instr.wellFormed, fitsField, Bool.and_eq_true, decide_eq_true_eq] at h
  exact ⟨fieldsOf_word (by decide) (dir_field_lt dir) (by decide) (by decide) h.1 h.2,
    _, rfl, by simp [Row.zerosHold, Instr.fields, fieldsWith]⟩

theorem twf (dir : Dir) : Statement (.twf dir) := by
  intro _
  exact ⟨fieldsOf_word (by decide) (dir_field_lt dir) (by decide) (by decide) (by decide) (by decide),
    _, rfl, by simp [Row.zerosHold, Instr.fields, fieldsWith]⟩

theorem cxm (k : Nat) : Statement (.cxm k) := by
  intro h
  simp only [Instr.wellFormed, fitsField, decide_eq_true_eq] at h
  exact ⟨fieldsOf_word (by decide) (by decide) (by decide) (by decide) h (by decide),
    _, rfl, by simp [Row.zerosHold, Instr.fields, fieldsWith]⟩

theorem cxf : Statement .cxf := by
  intro _
  exact ⟨fieldsOf_word (by decide) (by decide) (by decide) (by decide) (by decide) (by decide),
    _, rfl, by simp [Row.zerosHold, Instr.fields, fieldsWith]⟩

theorem prb : Statement .prb := by
  intro _
  exact ⟨fieldsOf_word (by decide) (by decide) (by decide) (by decide) (by decide) (by decide),
    _, rfl, by simp [Row.zerosHold, Instr.fields, fieldsWith]⟩

theorem sel (pol : Policy) (log2n : Nat) (depth : Nat) : Statement (.sel pol log2n depth) := by
  intro h
  simp only [Instr.wellFormed, fitsField, Bool.and_eq_true, decide_eq_true_eq] at h
  exact ⟨fieldsOf_word (by decide) (by decide) (policy_vsel_lt pol) (policy_vw_lt pol) h.1 h.2,
    _, rfl, by simp [Row.zerosHold, Instr.fields, fieldsWith]⟩

theorem omp (dir : Dir) (pol : Policy) (log2n : Nat) (depth : Nat) : Statement (.omp dir pol log2n depth) := by
  intro h
  simp only [Instr.wellFormed, fitsField, Bool.and_eq_true, decide_eq_true_eq] at h
  exact ⟨fieldsOf_word (by decide) (dir_field_lt dir) (policy_vsel_lt pol) (policy_vw_lt pol) h.1 h.2,
    _, rfl, by simp [Row.zerosHold, Instr.fields, fieldsWith]⟩

end Sys2Proof.Laws.EncodingFits
end

