-- ==== Sys2Proof/Laws/Request.lean ====
section
/-! SUPPORT. Requests that pass their checks: the transform ends, and its destination holds the values Values.lean names
(R302–R325). -/

namespace Sys2Proof.Machine

/-! ### The checks -/

theorem dstBad_false {dr di : View} : dstBad dr di = false ↔
    dr.base ≠ 0 ∧ di.base ≠ 0 ∧ dr.stride ≠ 0 ∧ di.stride ≠ 0 ∧ dr.base ≠ di.base := by
  simp only [dstBad, View.isNull, Bool.or_eq_false_iff, beq_eq_false_iff_ne, ne_eq, and_assoc]

/-- A ready pair passes `CheckDst` and `CheckOverlap` (R302, R303). -/
theorem PairReady.checks {m : Mem} {vr vi : View} (h : PairReady m vr vi) :
    checkDst vr vi = .ok () ∧ checkOverlap [] vr vi = .ok () := by
  refine ⟨?_, checkOverlap_eq_ok.2 ?_⟩
  · exact invalidIf_eq_ok.2 (dstBad_false.2 ⟨h.baseRe, h.baseIm, h.strideRe, h.strideIm, h.bases⟩)
  · simp only [overlapBad, List.any_nil, Bool.false_or]
    exact (View.meets_false h.baseRe h.baseIm).2 h.apart

theorem clash_false {s d : View} (hd : d.base ≠ 0) (h : clash s d = false) : s.isNull = true ∨ s = d ∨ s.Apart d := by
  by_cases hn : s.isNull = true
  · exact .inl hn
  · by_cases he : s = d
    · exact .inr (.inl he)
    · have hb : s.base ≠ 0 := by simpa [View.isNull] using hn
      have : (s != d) = true := by simpa using he
      simp only [clash, hn, this, Bool.not_false, Bool.and_self, Bool.true_and] at h
      exact .inr (.inr ((View.meets_false hb hd).1 h))

section ready
variable {c : Config} {m : Mem} {v : Views} {n : Nat} {fb : Bool}

theorem RequestReady.dst (h : RequestReady c m v n fb) :
    v.dr.base ≠ 0 ∧ v.di.base ≠ 0 ∧ v.dr.stride ≠ 0 ∧ v.di.stride ≠ 0 ∧ v.dr.base ≠ v.di.base := by
  have := h.valid
  simp only [requestBad, Bool.or_eq_false_iff] at this
  exact dstBad_false.1 (by tauto)

theorem RequestReady.pair (h : RequestReady c m v n fb) : Pair v.dr v.di n := by
  obtain ⟨h1, h2, h3, h4, -⟩ := h.dst
  have ho := h.overlap
  simp only [overlapBad, Bool.or_eq_false_iff] at ho
  obtain ⟨-, -, c1, c2⟩ := h.counts
  exact ⟨h3, h4, fun i j hi hj => (View.meets_false h1 h2).1 ho.2 i j (by omega) (by omega)⟩

/-- The imaginary source shares no element with the real destination (R302 item 5, R303). -/
theorem RequestReady.si_apart (h : RequestReady c m v n fb) :
    v.si.isNull = true ∨ ∀ i j, i < n → j < n → v.si.addr i ≠ v.dr.addr j := by
  obtain ⟨h1, -⟩ := h.dst
  have hv := h.valid
  have ho := h.overlap
  obtain ⟨-, c2, c3, -⟩ := h.counts
  simp only [requestBad, Bool.or_eq_false_iff] at hv
  simp only [overlapBad, List.any_cons, List.any_nil, Bool.or_false, Bool.or_eq_false_iff] at ho
  have hx : crossAlias v.si v.dr = false := by tauto
  rcases clash_false h1 ho.1.2.1 with h | h | h
  · exact .inl h
  · by_cases hn : v.si.isNull = true
    · exact .inl hn
    · rw [Bool.not_eq_true] at hn
      rw [← h] at hx
      simp [crossAlias, hn] at hx
  · exact .inr fun i j hi hj => h i j (by omega) (by omega)

theorem RequestReady.reads (h : RequestReady c m v n fb) {w : Work} (hw : w.mem = m) :
    (∀ i, i < n → srcRead c.ty v.sr i w = .ok (inputOf c.ty m v.sr v.si i).re)
      ∧ (∀ i, i < n → srcRead c.ty v.si i w = .ok (inputOf c.ty m v.sr v.si i).im) := by
  obtain ⟨c1, c2, -⟩ := h.counts
  subst hw
  exact ⟨fun i hi => srcRead_readable h.srcRe (by omega), fun i hi => srcRead_readable h.srcIm (by omega)⟩

theorem RequestReady.holds (h : RequestReady c m v n fb) : Holds m v.dr v.di n (streamOf m v.dr v.di) := by
  obtain ⟨-, -, c3, c4⟩ := h.counts
  exact .of_admitted (fun i hi => h.dstRe i (by omega)) (fun i hi => h.dstIm i (by omega))

end ready

/-! ### The pipelines -/

theorem not_inScratch {m : Mem} {b len : Nat} (hf : m.free b len = true) {a : Int} (h : (m.atAddr a).isSome = true) :
    ¬ InScratch b len a := fun hs => by rw [Mem.free_at hf hs] at h; simp at h

/-- The Bluestein pipeline, granted its scratch, ends with success (R316–R325). -/
theorem bluestein_holds {c : Config} {m : Mem} {v : Views} {n b : Nat} {fb : Bool} {σ : Dir} {scale : Elem} {p : Policy}
    {w : Work} {rest : List (Option Nat)} (hl : 1 ≤ c.lbuf) (hn : 1 ≤ n) (h : RequestReady c m v n fb) (hw : w.mem = m)
    (ha : w.allocs = some b :: rest) (hb : allocLawful c v.list m b (scratchLen (clog2 (2 * n - 1)) n) = true) :
    ∃ w' g, bluestein c v n σ scale p w = .ok (.ok, w') ∧ Holds w'.mem v.dr v.di n g
      ∧ (c.simdValues = .exact → ∀ i, i < n → g i = bluesteinV c n σ scale (inputOf c.ty m v.sr v.si) i) := by
  obtain ⟨hb0, he, -, hfree, -⟩ := allocLawful_iff.1 hb
  obtain ⟨hsr, hsi⟩ := h.reads hw
  obtain ⟨c1, c2, c3, c4⟩ := h.counts
  have hD := h.holds
  subst hw
  have hnr : ∀ i, i < n → ¬ InScratch b (scratchLen (clog2 (2 * n - 1)) n) (v.dr.addr i) :=
    fun i hi => not_inScratch hfree (h.dstRe i (by omega))
  have hni : ∀ i, i < n → ¬ InScratch b (scratchLen (clog2 (2 * n - 1)) n) (v.di.addr i) :=
    fun i hi => not_inScratch hfree (h.dstIm i (by omega))
  have hsnr : v.sr.isNull = true ∨ ∀ i, i < n → ¬ InScratch b (scratchLen (clog2 (2 * n - 1)) n) (v.sr.addr i) :=
    h.srcRe.imp id fun hs i hi => not_inScratch hfree (hs i (by omega))
  have hsni : v.si.isNull = true ∨ ∀ i, i < n → ¬ InScratch b (scratchLen (clog2 (2 * n - 1)) n) (v.si.addr i) :=
    h.srcIm.imp id fun hs i hi => not_inScratch hfree (hs i (by omega))
  have halloc : bsAlloc c v n w = .ok (some b, allocGrant c (scratchLen (clog2 (2 * n - 1)) n) b (w.goto .bsAlloc)) :=
    alloc_of_lawful (w := w.goto .bsAlloc) ha hb
  simp only [bluestein, halloc, bind_ok]
  generalize hw1 : allocGrant c (scratchLen (clog2 (2 * n - 1)) n) b (w.goto .bsAlloc) = w1
  have hm1 : ∀ a, w1.mem.atAddr a = if InScratch b (scratchLen (clog2 (2 * n - 1)) n) a
      then some (scratchElem c.ty w.tick (a.toNat - b)) else w.mem.atAddr a := by
    subst hw1; exact fun a => Mem.grant_at hb0 he a
  have hout : ∀ a, ¬ InScratch b (scratchLen (clog2 (2 * n - 1)) n) a → w1.mem.atAddr a = w.mem.atAddr a :=
    fun a ha => by rw [hm1, if_neg ha]
  have hread : ∀ (s : View) (i : Nat) (x : Elem), (s.isNull = true ∨
      ¬ InScratch b (scratchLen (clog2 (2 * n - 1)) n) (s.addr i)) → srcRead c.ty s i w = .ok x →
      srcRead c.ty s i w1 = .ok x := by
    intro s i x hs hx
    simp only [srcRead] at *
    split at hx
    · rename_i hn'; rw [if_pos hn']; exact hx
    · rename_i hn'
      rw [if_neg hn']
      rw [memRead_eq_ok] at hx ⊢
      rw [hout _ (hs.resolve_left hn')]; exact hx
  obtain ⟨w2, g, e2, hg, x2⟩ := bsCore_holds (c := c) (v := v) (b := b) (n := n) (σ := σ) (scale := scale) (p := p)
    (x := inputOf c.ty w.mem v.sr v.si) (w := w1) hl hb0 hn h.pair
    (hD.of_same (fun i hi => hout _ (hnr i hi)) (fun i hi => hout _ (hni i hi)))
    (fun a ha => by rw [hm1, if_pos ha]; rfl)
    (fun i hi => hread _ _ _ (hsnr.imp id fun h => h i hi) (hsr i hi))
    (fun i hi => hread _ _ _ (hsni.imp id fun h => h i hi) (hsi i hi)) hsnr hsni hnr hni
  have hbase : w2.bsBase = b := by
    rw [(bsCore_only (c := c) σ scale p hn _ _ e2).bsBase]; subst hw1; rfl
  refine ⟨_, g, by rw [e2, bind_ok], ?_, x2⟩
  refine hg.of_same (fun i hi => ?_) (fun i hi => ?_)
  · simp only [release, goto_mem, goto_bsBase, hbase, Mem.release_at]; rw [if_neg (hnr i hi)]
  · simp only [release, goto_mem, goto_bsBase, hbase, Mem.release_at]; rw [if_neg (hni i hi)]

/-- A request that passes its checks, and gets its scratch where it needs one, ends with success (R304). -/
theorem transform_holds {c : Config} {m : Mem} {v : Views} {n b : Nat} {fb : Bool} {σ : Dir} {scale : Elem} {p : Policy}
    {w : Work} {rest : List (Option Nat)} (hl : 1 ≤ c.lbuf) (hn : 1 ≤ n) (h : RequestReady c m v n fb) (hw : w.mem = m)
    (ha : takesBluestein n fb = true →
      w.allocs = some b :: rest ∧ allocLawful c v.list m b (scratchLen (clog2 (2 * n - 1)) n) = true) :
    ∃ w' g, transform c v n σ scale p fb w = .ok (.ok, w') ∧ Holds w'.mem v.dr v.di n g
      ∧ (c.simdValues = .exact → ∀ i, i < n → g i = requestV c n σ scale fb (inputOf c.ty m v.sr v.si) i) := by
  simp only [transform, requestV]
  by_cases ht : takesBluestein n fb = true
  · rw [if_pos ht, if_pos ht]
    obtain ⟨ha1, ha2⟩ := ha ht
    exact bluestein_holds hl hn h (w := w.goto .dispatch) hw ha1 ha2
  · rw [if_neg ht, if_neg ht]
    have hp := (takesBluestein_false (Bool.not_eq_true _ ▸ ht)).2
    obtain ⟨c1, c2, c3, c4⟩ := h.counts
    obtain ⟨hsr, hsi⟩ := h.reads (w := w.goto .dispatch) hw
    have hD := h.holds
    have hpair := h.pair
    have hap := h.si_apart
    rw [← hw] at hD
    have key := potPipeline_holds (c := c) (v := v) (l := Nat.log2 n) (σ := σ) (scale := scale) (p := p)
      (w := w.goto .dispatch) (x := inputOf c.ty m v.sr v.si) (f := streamOf w.mem v.dr v.di)
    rw [hp] at key
    obtain ⟨w', g, e, hg, x⟩ := key hpair hl c3 c4 hsr hsi hap hD
    exact ⟨w'.goto .return, g, by rw [e, bind_ok], hg, fun he i _ => by rw [x he]⟩

/-- A null draw ends the Bluestein pipeline with `-2`, nothing written (R316). -/
theorem transform_null {c : Config} {v : Views} {n : Nat} {fb : Bool} {σ : Dir} {scale : Elem} {p : Policy}
    {w : Work} {rest : List (Option Nat)} (ht : takesBluestein n fb = true) (ha : w.allocs = none :: rest) :
    transform c v n σ scale p fb w
      = .ok (.outOfMemory, (allocNull ((w.goto .dispatch).goto .bsAlloc)).goto .errorReturn) := by
  have h : bsAlloc c v n (w.goto .dispatch) = .ok (none, allocNull ((w.goto .dispatch).goto .bsAlloc)) :=
    alloc_of_null (w := (w.goto .dispatch).goto .bsAlloc) ha
  simp only [transform, ht, if_true, bluestein, h, bind_ok]

/-- A draw that breaks the contract leaves the Bluestein pipeline stuck (R386). -/
theorem transform_unlawful {c : Config} {v : Views} {n b : Nat} {fb : Bool} {σ : Dir} {scale : Elem} {p : Policy}
    {w : Work} {rest : List (Option Nat)} (ht : takesBluestein n fb = true) (ha : w.allocs = some b :: rest)
    (hl : allocLawful c v.list w.mem b (scratchLen (clog2 (2 * n - 1)) n) = false) :
    transform c v n σ scale p fb w = .error .stuck := by
  have h : bsAlloc c v n (w.goto .dispatch) = .error .stuck :=
    alloc_of_unlawful (w := (w.goto .dispatch).goto .bsAlloc) ha hl
  simp only [transform, ht, if_true, bluestein, h]; rfl

/-- An in-place command on a ready pair runs its engine (R240–R243). -/
theorem runInPlace_ready {me : Context} {w : Work} {log2n : Nat} {bad : Bool}
    {engine : View → View → Work → Except Fault Work} {dre dim sre sim : Word64} (hr : me.hasPair dre dim sre sim)
    (hb : bad = false) (hp : PairReady w.mem (viewOf dre sre (2 ^ log2n)) (viewOf dim sim (2 ^ log2n))) {w' : Work}
    (he : engine (viewOf dre sre (2 ^ log2n)) (viewOf dim sim (2 ^ log2n)) w = .ok w') :
    runInPlace me w log2n bad engine = .ok { code := .ok, work := w', result := none, res := none } := by
  obtain ⟨h1, h2⟩ := hp.checks
  subst hb
  simp only [runInPlace, dstPair_eq_ok.2 ⟨dre, dim, sre, sim, hr, rfl⟩, bind_ok, invalidIf, h1, h2, he, liftWork, doneOk,
    Bool.false_eq_true, if_false]

/-- A transform request that is ready runs its pipeline (R329). -/
theorem runXform_ready {c : Config} {me : Context} {w : Work} {shape : Context → Except Stop (Nat → Views)} {σ : Dir}
    {p : Policy} {fb : Bool} {n : Word64} {scale : Elem} {views : Nat → Views} (hn : me.argN = some n)
    (hs : me.argScale = some scale) (hv : shape me = .ok views) (h0 : n.toNat ≠ 0)
    (hr : RequestReady c w.mem (views n.toNat) n.toNat fb) {r : Code × Work}
    (ht : transform c (views n.toNat) n.toNat σ scale p fb (w.goto .validate) = .ok r) :
    runXform c me w shape σ p fb = .ok { code := r.1, work := r.2, result := none, res := none } := by
  simp only [runXform, hn, hs, hv, arg, bind_ok, h0, if_false, (invalidIf_eq_ok (u := ())).2 hr.valid,
    (checkOverlap_eq_ok (u := ())).2 hr.overlap, ht, liftCode]

end Sys2Proof.Machine
end

