-- ==== Sys2Proof/Tests/Slice0.lean ====
section
/-! SUPPORT. Tests: each is one fixed case whose expected result is the spec's own (95_test_vectors.md, the examples of
the rules), and for each obligation with hypotheses a witness that they can be met together. -/

namespace Sys2Proof.Tests

open Sys2Proof Sys2Proof.Machine

-- One theorem after the other: checked all at once, their threads fill the memory the build may ask for.
set_option Elab.async false

/-! ### Well-formedness (R110, R111): each check refuses a term it must refuse -/

theorem test_wellFormed_accepts :
    Instr.wellFormed (.mps .inverse (.force .d8) 31 31) = true ∧ Instr.wellFormed .dil = true
      ∧ Instr.wellFormed (.sel .scalar 0 31) = true := by decide
theorem test_illFormed_brv : Instr.wellFormed (.brv 32) = false := by decide
theorem test_illFormed_pass : Instr.wellFormed (.pass .forward 32 0) = false ∧ Instr.wellFormed (.pass .forward 1 32) = false := by
  decide
theorem test_illFormed_r8 : Instr.wellFormed (.r8 .inverse 32) = false := by decide
theorem test_illFormed_mps :
    Instr.wellFormed (.mps .forward .auto 32 1) = false ∧ Instr.wellFormed (.mps .forward .auto 1 32) = false := by decide
theorem test_illFormed_bfy : Instr.wellFormed (.bfy .forward .scalar 32) = false := by decide
theorem test_illFormed_twg :
    Instr.wellFormed (.twg .forward 32 1) = false ∧ Instr.wellFormed (.twg .forward 1 32) = false := by decide
theorem test_illFormed_cxm : Instr.wellFormed (.cxm 32) = false := by decide
theorem test_illFormed_sel : Instr.wellFormed (.sel .auto 32 1) = false ∧ Instr.wellFormed (.sel .auto 1 32) = false := by
  decide
theorem test_illFormed_omp :
    Instr.wellFormed (.omp .forward .auto 32 1) = false ∧ Instr.wellFormed (.omp .forward .auto 1 32) = false := by decide

/-! ### Decoding: words written out field by field from R110 to R114 (binary, `B` `A` `VW` `VSEL` 0 `DIR` `OP`) -/

/-- V-ENC-4: `xfs.f.w2d`. -/
theorem test_decode_xfs : decodeTableWord 32 0b000000_00000_00000_0100_10_0_0_00000001 = some (.xfs .forward (.force .d2)) := by decide
/-- V-ENC-2 on the next row: `DIR` set. -/
theorem test_decode_xfi : decodeTableWord 32 0b000000_00000_00000_0000_00_0_1_00000010 = some (.xfi .inverse .auto) := by decide
/-- V-ENC-5: `xft.i.s`. -/
theorem test_decode_xft : decodeTableWord 32 0x00000503 = some (.xft .inverse .scalar) := by decide
theorem test_decode_blu : decodeTableWord 32 0b000000_00000_00000_0011_10_0_0_00000100 = some (.blu .forward (.force .f16)) := by decide
/-- V-BR-12: `brv 31`. -/
theorem test_decode_brv : decodeTableWord 32 0x001F0010 = some (.brv 31) := by decide
theorem test_decode_dil : decodeTableWord 32 0x00000011 = some .dil := by decide
theorem test_decode_ilv : decodeTableWord 32 0x00000012 = some .ilv := by decide
/-- `A` is the level, `B` the size: `pass.i 2, 3`. -/
theorem test_decode_pass : decodeTableWord 32 0b000000_00011_00010_0000_00_0_1_00100000 = some (.pass .inverse 2 3) := by decide
theorem test_decode_r8 : decodeTableWord 32 0x00030121 = some (.r8 .inverse 3) := by decide
/-- V-BF-14: `mps.f 2, 1`. -/
theorem test_decode_mps : decodeTableWord 32 0x00220022 = some (.mps .forward .auto 2 1) := by decide
theorem test_decode_bfy : decodeTableWord 32 0b000000_00000_11111_0001_10_0_1_00100011 = some (.bfy .inverse (.force .f4) 31) := by decide
theorem test_decode_scl : decodeTableWord 32 0x00000024 = some .scl := by decide
/-- V-ENC-8: `twg.f 3, 2`. -/
theorem test_decode_twg : decodeTableWord 32 0x00430030 = some (.twg .forward 3 2) := by decide
theorem test_decode_twf : decodeTableWord 32 0x00000131 = some (.twf .inverse) := by decide
theorem test_decode_cxm : decodeTableWord 32 0x001F0032 = some (.cxm 31) := by decide
theorem test_decode_cxf : decodeTableWord 32 0x00000033 = some .cxf := by decide
theorem test_decode_prb : decodeTableWord 32 0x00000040 = some .prb := by decide
/-- V-SM-21: `sel.w16f 5, 5`. -/
theorem test_decode_sel : decodeTableWord 32 0x00A53841 = some (.sel (.force .f16) 5 5) := by decide
/-- V-SM-27: `omp.f.s 3, 3`. -/
theorem test_decode_omp : decodeTableWord 32 0x00630442 = some (.omp .forward .scalar 3 3) := by decide

/-- V-ENC-9 to V-ENC-20: the illegal words, each for its reason. -/
theorem test_illegal_words :
    decode 0x00000000 = .error .allZeroWord ∧ decode 0x000000E0 = .error .reservedOpcode
      ∧ decode 0x00000005 = .error .unknownOpcode ∧ decode 0x00000201 = .error .mustBeZero
      ∧ decode 0x04000001 = .error .mustBeZero ∧ decode 0x00000C01 = .error .illegalPolicy
      ∧ decode 0x00000801 = .error .illegalPolicy ∧ decode 0x00007801 = .error .illegalPolicy
      ∧ decode 0x00001001 = .error .illegalPolicy ∧ decode 0x00000420 = .error .mustBeZero
      ∧ decode 0x00000111 = .error .mustBeZero ∧ decode 0x00010024 = .error .mustBeZero := by
  refine ⟨rfl, rfl, rfl, rfl, rfl, rfl, rfl, rfl, rfl, rfl, rfl, rfl⟩

/-- The `match` and `mask` columns of the opcode table, row by row. -/
theorem test_rows_match_table :
    rows.map (fun r => (r.pattern, r.mask)) =
      [(0x01, 0xFFFF02FF), (0x02, 0xFFFF02FF), (0x03, 0xFFFF02FF), (0x04, 0xFFFF02FF), (0x10, 0xFFE0FFFF),
       (0x11, 0xFFFFFFFF), (0x12, 0xFFFFFFFF), (0x20, 0xFC00FEFF), (0x21, 0xFFE0FEFF), (0x22, 0xFC0002FF)]
      ++ [(0x23, 0xFFE002FF), (0x24, 0xFFFFFFFF), (0x30, 0xFC00FEFF), (0x31, 0xFFFFFEFF), (0x32, 0xFFE0FFFF),
       (0x33, 0xFFFFFFFF), (0x40, 0xFFFFFFFF), (0x41, 0xFC0003FF), (0x42, 0xFC0002FF)] := by decide

/-! ### One command on a small state -/

/-- Cells at `a`, `a + 1`, … that hold the encodings `xs`. -/
def cells : Nat → List Nat → Mem
  | _, [] => []
  | a, x :: xs => (a, ⟨x⟩) :: cells (a + 1) xs

/-- The state after reset with registers written (R33) and memory placed (R82). -/
def start (regs : List (Nat × Nat)) (mem : Mem) : State :=
  { State.reset with me := regs.foldl (fun c r => writeReg .f64 c r.1 r.2) State.reset.me, mem := mem }

/-- The state after reset with one host step to take. -/
def waitingOn (a : HostAct) : State := State.reset.setProg (.act a .done)

/-- The step that issues a word, tested where it is a next state. -/
def after (w : Nat) (s : State) (p : State → Bool) : Bool :=
  match step (s.withFetchWord 32 w) with
  | .next t => p t
  | .fault _ => false
  | .refused _ => false

/-- The step that issues a word leaves its context halted by this fault, which is recorded unless the context is stuck;
`STATUS` is not written (R344, R345). -/
def faults (w : Nat) (s : State) (f : Fault) : Bool :=
  after w s fun t => t.me.halted == some f && t.me.status == s.me.status
    && t.faults == (if f.recorded then [{ ctx := s.number, fault := f }] else [])

/-- Memory holds the encodings `xs` from address `a`. -/
def has (a : Nat) : List Nat → State → Bool
  | [], _ => true
  | x :: xs, t => t.mem.read a == some ⟨x⟩ && has (a + 1) xs t

/-- `STATUS`, and the encodings at two places. -/
def left (status : Word32) (a : Nat) (xs : List Nat) (b : Nat) (ys : List Nat) (t : State) : Bool :=
  t.me.status == status && has a xs t && has b ys t

/-- A destination pair of `n` elements at `0x200` and `0x300`, strides 1. -/
def pair (re im : List Nat) (more : List (Nat × Nat)) : State :=
  start ([(0x08, 0x200), (0x09, 0x300), (0x0C, 1), (0x0D, 1)] ++ more) (cells 0x200 re ++ cells 0x300 im)

abbrev p0 : Nat := 0
abbrev n0 : Nat := 0x8000000000000000
abbrev half : Nat := 0x3FE0000000000000
abbrev p1 : Nat := 0x3FF0000000000000
abbrev n1 : Nat := 0xBFF0000000000000
abbrev p2 : Nat := 0x4000000000000000
abbrev n2 : Nat := 0xC000000000000000
abbrev p3 : Nat := 0x4008000000000000
abbrev p4 : Nat := 0x4010000000000000
abbrev n4 : Nat := 0xC010000000000000
abbrev p5 : Nat := 0x4014000000000000
abbrev p6 : Nat := 0x4018000000000000
abbrev p7 : Nat := 0x401C000000000000
abbrev p8 : Nat := 0x4020000000000000
abbrev p9 : Nat := 0x4022000000000000
abbrev p10 : Nat := 0x4024000000000000
abbrev p36 : Nat := 0x4042000000000000

/-- `STATUS` and the two element results. -/
def results (status : Word32) (re im : Nat) (t : State) : Bool :=
  t.me.status == status && t.me.resRe == ⟨re⟩ && t.me.resIm == ⟨im⟩

/-- V-CX-2 and V-CX-4: `CXTAB[1]` and `CXTAB[3]`. -/
theorem test_cxm_table :
    (after 0x00010032 State.reset (results 0 n2 0)
      && after 0x00030032 State.reset (results 0 0xBFD2BEC333018867 0x3FE6A09E667F3BCD)) = true := by decide +kernel

/-- V-CX-8: five quarter turns are one. -/
theorem test_cxf_periodic : after 0x33 (start [(0x0E, 5), (0x0F, 4)] []) (results 0 n1 p1) = true := by decide +kernel
/-- V-CX-13, V-CX-14: a zero `ARG_Q`, and one never written. -/
theorem test_cxf_refuses :
    (after 0x33 (start [(0x0E, 1), (0x0F, 0)] []) (results 0xFFFFFFFF 0 0)
      && faults 0x33 (start [(0x0E, 1)] []) .unwrittenRegister) = true := by decide +kernel

/-- V-TW-3: the recurrence's own rounding shows in entry 3 (`-0.7071067811865477`). -/
theorem test_twg_rounding :
    after 0x00430030 (pair [p9, p9, p9, p9] [p9, p9, p9, p9] [])
      (left 0 0x200 [p1, 0x3FE6A09E667F3BCC, 0, 0xBFE6A09E667F3BCE] 0x300 [0, 0xBFE6A09E667F3BCD, n1, 0xBFE6A09E667F3BCC])
      = true := by decide +kernel
/-- V-TW-9: `L > N`. -/
theorem test_twg_range : after 0x00410030 (pair [p9] [p9] []) (left 0xFFFFFFFF 0x200 [p9] 0x300 [p9]) = true := by
  decide +kernel

/-- V-TW-14: `twf.f` with `n = 2`, its zeros with their signs. -/
theorem test_twf_two :
    after 0x31 (pair [p9, p9, p9, p9] [p9, p9, p9, p9] [(0x04, 2)])
      (left 0 0x200 [p1, 0, n1, n0] 0x300 [0, n1, n0, p1]) = true := by decide +kernel
/-- V-TW-18: `n = 0` does nothing. -/
theorem test_twf_zero : after 0x31 (pair [p9] [p9] [(0x04, 0)]) (left 0 0x200 [p9] 0x300 [p9]) = true := by decide +kernel

/-- V-BR-2: out of place. -/
theorem test_brv_out :
    after 0x00030010 (start [(0x06, 0x100), (0x0A, 1), (0x08, 0x200), (0x0C, 1)]
      (cells 0x100 [p1, p2, p3, p4, p5, p6, p7, p8] ++ cells 0x200 [p9, p9, p9, p9, p9, p9, p9, p9]))
      (left 0 0x200 [p1, p5, p3, p7, p2, p6, p4, p8] 0x100 [p1, p2]) = true := by decide +kernel
/-- V-BR-6 and V-BR-11: a source of stride -1; a source that meets the destination. -/
theorem test_brv_views :
    (after 0x00020010 (start [(0x06, 0x103), (0x0A, 0xFFFFFFFFFFFFFFFF), (0x08, 0x200), (0x0C, 1)]
        (cells 0x100 [p4, p3, p2, p1] ++ cells 0x200 [p9, p9, p9, p9])) (left 0 0x200 [p1, p3, p2, p4] 0x100 [])
      && faults 0x00020010 (start [(0x06, 0x100), (0x0A, 1), (0x08, 0x102), (0x0C, 1)] []) .overlap) = true := by
  decide +kernel

/-- V-BR-13: `DIL`; V-BR-16: a count that is no power of two. -/
theorem test_dil :
    (after 0x11 (start [(0x04, 4), (0x08, 0x300)] (cells 0x300 [p1, p10, p2, p9, p3, p8, p4, p7]))
        (left 0 0x300 [p1, p2, p3, p4, p10, p9, p8, p7] 0 [])
      && after 0x11 (start [(0x04, 3), (0x08, 0x300)] []) (left 0xFFFFFFFF 0 [] 0 [])) = true := by decide +kernel
/-- V-BR-14: `ILV` brings back what `DIL` moved. -/
theorem test_ilv :
    after 0x12 (start [(0x04, 4), (0x08, 0x300)] (cells 0x300 [p1, p2, p3, p4, p10, p9, p8, p7]))
        (left 0 0x300 [p1, p10, p2, p9, p3, p8, p4, p7] 0 []) = true := by decide +kernel

/-- V-BF-3: `pass.f 2, 2`. -/
theorem test_pass_flat :
    after 0x00420020 (pair [p1, p2, p3, p4] [0, 0, 0, 0] []) (left 0 0x200 [p4, p2, n2, p2] 0x300 [0, n4, 0, p4]) = true := by
  decide +kernel
/-- V-BF-6, the last element (9.65685424949238 and 5.65685424949238, as encodings): the recursive-block mode's twiddle (`LBUF = 2`, `Q = 1`). -/
theorem test_pass_block :
    after 0x00630020
      { pair [p1, p2, p3, p4, p5, p6, p7, p8] [0, 0, 0, 0, 0, 0, 0, 0] [] with
        cfg := { Config.standard with lbuf := 2, q := 1 } }
      (left 0 0x207 [0x4023504F333F9DE6] 0x307 [0x4016A09E667F3BCC]) = true := by decide +kernel

/-- V-BF-11: the radix-8 kernel on bit-reversed `1..8`. -/
theorem test_r8_group :
    after 0x00030021 (pair [p1, p5, p3, p7, p2, p6, p4, p8] [0, 0, 0, 0, 0, 0, 0, 0] [])
      (left 0 0x200 [p36, n4, n4, n4, n4, n4, n4, n4] 0x300 [0, 0x4023504F333F9DE6, p4, 0x3FFA827999FCEF34]) = true := by
  decide +kernel
/-- V-BF-12: fewer than eight elements. -/
theorem test_r8_range : after 0x00020021 (pair [p9] [p9] []) (left 0xFFFFFFFF 0x200 [p9] 0x300 [p9]) = true := by
  decide +kernel

/-- V-BF-14: pass 2 only. -/
theorem test_mps_last_pass :
    after 0x00220022 (pair [p1, p3, p2, p4] [0, 0, 0, 0] []) (left 0 0x200 [p3, p3, n1, p3] 0x300 [0, n4, 0, p4]) = true := by
  decide +kernel
/-- V-BF-18: the whole schedule of four elements. -/
theorem test_bfy_four :
    after 0x00020023 (pair [p1, p3, p2, p4] [0, 0, 0, 0] []) (left 0 0x200 [p10, n2, n2, n2] 0x300 [0, p2, 0, n2]) = true := by
  decide +kernel

/-- V-BF-26: the sign of a zero product. -/
theorem test_scl_signs :
    after 0x24 (pair [p1, p2, p3] [0, p1, n1] [(0x04, 3), (0x05, n2)])
      (left 0 0x200 [n2, n4, 0xC018000000000000] 0x300 [n0, n2, p2]) = true := by decide +kernel
/-- V-BF-27: `ARG_SCALE` is read before the count is tested. -/
theorem test_scl_reads_first : faults 0x24 (pair [p1] [p1] [(0x04, 0)]) .unwrittenRegister = true := by decide +kernel

/-- `RESULT` and `FEAT_CACHE`. -/
def reported (result : Word64) (cache : Word32) (t : State) : Bool :=
  t.me.status == 0 && t.me.result == result && t.featCache == cache

/-- A state with its build changed to ARM NEON. -/
def onNeon (s : State) : State := { s with cfg := { Config.standard with arch := .neon } }

/-- V-SM-1 and V-SM-5: NEON's mask; a hook's mask with AVX-512 capped. -/
theorem test_prb_masks :
    (after 0x40 (onNeon State.reset) (reported 0x09 0x09)
      && after 0x40 { State.reset with cfg := { Config.standard with probeHook := some 0x3F, avx512En := false } }
        (reported 0x1B 0x1B)) = true := by decide +kernel
/-- V-SM-9 and V-SM-11: the radix-8 step counts three passes; pass 2 fits no width. -/
theorem test_sel_counts :
    (after 0x00630041 (onNeon (pair [] [] [])) (reported 3 0x09)
      && after 0x00430041 (onNeon (pair [] [] [])) (reported 0 0x09)) = true := by decide +kernel
/-- V-SM-26: three passes taken, memory as V-BF-11. -/
theorem test_omp_passes :
    after 0x00630042 (onNeon (pair [p1, p5, p3, p7, p2, p6, p4, p8] [0, 0, 0, 0, 0, 0, 0, 0] []))
      (fun t => reported 3 0x09 t && left 0 0x200 [p36, n4, n4, n4] 0x301 [0x4023504F333F9DE6, p4] t) = true := by
  decide +kernel
/-- V-SM-28: no width, no pass. -/
theorem test_omp_none :
    after 0x00630042 (pair [p1, p5, p3, p7, p2, p6, p4, p8] [0, 0, 0, 0, 0, 0, 0, 0] [])
      (fun t => reported 0 0 t && left 0 0x200 [p1, p5] 0x300 [0] t) = true := by decide +kernel

/-- A request of `n` elements at the places of 95_test_vectors §2.7, scale 1.0, unit strides. -/
def request (n : Nat) (re im : List Nat) (more : List (Nat × Nat)) : State :=
  start ([(0x04, n), (0x05, p1), (0x06, 0x100), (0x07, 0x110), (0x08, 0x200), (0x09, 0x210), (0x0A, 1), (0x0B, 1)]
    ++ [(0x0C, 1), (0x0D, 1)] ++ more)
    (cells 0x100 re ++ cells 0x110 im ++ cells 0x200 (List.replicate n p9) ++ cells 0x210 (List.replicate n p9))

/-- V-XF-1: a constant. -/
theorem test_xfs_constant :
    after 0x01 (request 4 [p1, p1, p1, p1] [0, 0, 0, 0] []) (left 0 0x200 [p4, 0, 0, 0] 0x210 [0, 0, 0, 0]) = true := by
  decide +kernel
/-- V-XF-14: the registers are read before `n = 0`. -/
theorem test_xfs_reads_first : faults 0x01 (start [(0x04, 0)] []) .unwrittenRegister = true := by decide +kernel
/-- V-XF-2: an interleaved pair. -/
theorem test_xfi_pair :
    after 0x02 (start [(0x04, 2), (0x05, p1), (0x06, 0x100), (0x08, 0x200)]
      (cells 0x100 [p1, 0, 0, 0] ++ cells 0x200 [p9, p9, p9, p9])) (left 0 0x200 [p1, 0, p1, 0] 0x100 [p1]) = true := by
  decide +kernel
/-- V-XF-6 and V-XF-9: the same values at strides 1 and -1. -/
theorem test_xft_strides :
    (after 0x03 (request 4 [p1, p2, p3, p4] [0, 0, 0, 0] []) (left 0 0x200 [p10, n2, n2, n2] 0x210 [0, p2, 0, n2])
      && after 0x03 (request 4 [p4, p3, p2, p1] [0, 0, 0, 0] [(0x06, 0x103), (0x0A, 0xFFFFFFFFFFFFFFFF)])
        (left 0 0x200 [p10, n2, n2, n2] 0x210 [0, p2, 0, n2])) = true := by decide +kernel
/-- V-XF-20, V-XF-23, V-XF-26: invalid before overlapping; overlapping; an address the launch does not admit. -/
theorem test_xft_stops :
    (after 0x03 (request 4 [p1, p1, p1, p1] [0, 0, 0, 0] [(0x06, 0x210)]) (left 0xFFFFFFFF 0x200 [p9] 0x210 [p9])
      && faults 0x03 (request 4 [p1, p1, p1, p1] [0, 0, 0, 0] [(0x06, 0x202)]) .overlap
      && faults 0x03 { request 4 [p1, p1, p1, p1] [0, 0, 0, 0] [] with
          mem := (request 4 [p1, p1, p1, p1] [0, 0, 0, 0] []).mem.filter (fun c => c.1 != 0x203) } .stuck) = true := by
  decide +kernel
/-- V-BS-1: one element by Bluestein, the scratch at `0x1000` given back. -/
theorem test_blu_one :
    after 0x04 { request 1 [p3] [n4] [] with allocs := [some 0x1000] }
      (fun t => left 0 0x200 [p3] 0x210 [n4] t && t.mem.read 0x1000 == none && t.me.bsBase == 0) = true := by decide +kernel
/-- V-BS-8: the allocation draw is null. -/
theorem test_blu_out_of_memory :
    after 0x04 { request 1 [p3] [n4] [] with allocs := [none] } (left 0xFFFFFFFE 0x200 [p9] 0x210 [p9]) = true := by
  decide +kernel

/-- A draw that reaches into a buffer of the request is unlawful, placed or not (R90), and has no move (R386). -/
theorem test_blu_unlawful_draw :
    allocLawful Config.standard [viewOf 0x1000 1 4] [] 0x1000 8 = false
      ∧ allocLawful Config.standard [viewOf 0x1008 1 4] [] 0x1000 8 = true
      ∧ faults 0x04 { request 1 [p3] [n4] [] with allocs := [some 0x1001] } .stuck = true := by decide +kernel

/-! ### The host's side -/

/-- The default `Q` (R9): `min(LBUF/2, 6)`. -/
theorem test_default_q : defaultQ 9 = 4 ∧ defaultQ 12 = 6 ∧ defaultQ 30 = 6 ∧ defaultQ 2 = 1 ∧ Config.standard.q = 4 := by
  decide
/-- Within one ULP (R23): the neighbours of 1.0 are, the value two places above and the one three places below are not. -/
theorem test_within_one_ulp :
    [p1 - 3, p1 - 1, p1, p1 + 1, p1 + 2].map (fun c => binary64.withinUlp c (binary64.toInt p1) 0 binary64.unitLog)
      = [false, true, true, true, false] := by decide +kernel
/-- One ULP of the nominal value (R152): at 1/12 the imaginary part is 1/2, and `1/2 + 2^-53` conforms, `1/2 + 2^-52` does
not; at 1/3 the real part is -3/2, and `-3/2 - 2^-52` conforms, `-3/2 - 2^-51` does not. -/
theorem test_conforming_fraction :
    [0x3FE0000000000001, 0x3FE0000000000002].map
        (fun c => (conformPart binary64 .conforming ⟨c⟩ (nominalExpm1 1 12).2).code)
      = [0x3FE0000000000001, 0x3FE0000000000000]
      ∧ [0xBFF8000000000001, 0xBFF8000000000002].map
        (fun c => (conformPart binary64 .conforming ⟨c⟩ (nominalExpm1 1 3).1).code)
      = [0xBFF8000000000001, 0xBFF8000000000000] := by decide +kernel
/-- `4·ε·RMS` (property 9) at an output of one element, 1.0: four ULPs. -/
theorem test_within_rms :
    [p1 + 4, p1 + 5].map (fun c => binary64.withinRms c p1 (binary64.squares [p1]) 1) = [true, false] := by decide +kernel
/-- Two contexts, the first current, the second with `CXM` next. -/
def stuckAndReady : State :=
  { State.reset with
    cfg := { Config.standard with nctx := 2 }
    me := (start [(0x04, 2), (0x08, 0x300)] []).me
    after := [(waitingOn (.cmd 0x00020032)).me] }
/-- A stuck command leaves the other context able to move, and its own not (R345, R348). -/
theorem test_stuck_leaves_others :
    faults 0x11 stuckAndReady .stuck = true
      ∧ after 0x11 stuckAndReady (fun t => !t.ready 0 && t.ready 1 && t.endState == none) = true := by decide +kernel
/-- A run has ended when every host is done, not while one waits for a token (R387). -/
theorem test_run_ends :
    let l : Launch := { cfg := Config.standard, memory := [(3, p1)], hosts := [], draws := [], sched := [] }
    (l.start.endState.map EndState.mem = some [(3, ⟨p1⟩)])
      ∧ ({ l with hosts := [.act (.await 7) .done] }).start.endState = none := by decide

/-- V-ENC-9: an illegal word reads no register and leaves -1 (R116). -/
theorem test_illegal_word_status : after 0 State.reset (fun t => t.me.status == 0xFFFFFFFF && t.me.result == 0) = true := by
  decide +kernel
/-- `CFG` of the build of 95_test_vectors §0 (R43): 9, 4, the six toggles, `TY` 1, `ARCH` 0. -/
theorem test_cfg_word : Config.standard.cfgWord = 0x0001FC89 := by decide
/-- A placed element admits its address (R82). -/
theorem test_place_admits :
    Mem.place (cells 5 [p1]) 3 ⟨p2⟩ = [(3, ⟨p2⟩), (5, ⟨p1⟩)] ∧ Mem.atAddr (cells 5 [p1]) 4 = none
      ∧ Mem.atAddr (cells 5 [p1]) 5 = some ⟨p1⟩ := by decide
/-- `V-SM-7b`'s sibling, the x86 probe without OSXSAVE (R263): SSE2 only. -/
theorem test_probe_x86 :
    probeX86 { leaf0 := { eax := 7 }, leaf1 := { edx := 0x04000000, ecx := 0x10000000 }, leaf7 := { ebx := 0x00010000 }
               xcr0 := 0xE7 } = 0x09 := by decide

/-! ### Witnesses: the hypotheses of each obligation, met together -/

/-- A test is true of the state a command leaves. -/
def leaves (i : Instr) (s : State) (p : State → Bool) : Bool :=
  match exec i s with
  | .next t => p t
  | .fault _ => false
  | .refused _ => false

theorem leaves_next {i : Instr} {s : State} {p : State → Bool} (h : leaves i s p = true) :
    ∃ t, exec i s = .next t ∧ p t = true := by
  unfold leaves at h
  cases he : exec i s with
  | next t => rw [he] at h; exact ⟨t, rfl, h⟩
  | fault f => rw [he] at h; cases h
  | refused r => rw [he] at h; cases h

/-- Every address of a view is admitted, as a test. -/
def admits (m : Mem) (v : View) : Bool := (List.range v.count).all fun i => (m.atAddr (v.addr i)).isSome

theorem admitted_of {m : Mem} {v : View} (h : admits m v = true) : v.Admitted m := fun i hi =>
  List.all_eq_true.1 h i (List.mem_range.2 hi)

/-- A destination pair is ready, as a test. -/
def pairTest (m : Mem) (vr vi : View) : Bool := !dstBad vr vi && !vr.meets vi && admits m vr && admits m vi

theorem pairReady_of {m : Mem} {vr vi : View} (h : pairTest m vr vi = true) : PairReady m vr vi := by
  simp only [pairTest, Bool.and_eq_true, Bool.not_eq_true', dstBad, Bool.or_eq_false_iff, View.isNull,
    beq_eq_false_iff_ne, ne_eq] at h
  obtain ⟨⟨⟨⟨⟨⟨⟨h1, h2⟩, h3⟩, h4⟩, h5⟩, h6⟩, h7⟩, h8⟩ := h
  exact ⟨h1, h2, h3, h4, h5, View.apart_of_not_meets h1 h2 h6, admitted_of h7, admitted_of h8⟩

/-- Memory holds the values it holds at two admitted views. -/
theorem holds_streamOf {m : Mem} {vr vi : View} (hr : vr.Admitted m) (hi : vi.Admitted m) {n : Nat} (h1 : n = vr.count)
    (h2 : n = vi.count) : Holds m vr vi n (streamOf m vr vi) := by
  constructor
  · intro i hlt
    obtain ⟨x, hx⟩ := Option.isSome_iff_exists.1 (hr i (by omega))
    simp [streamOf, hx]
  · intro i hlt
    obtain ⟨x, hx⟩ := Option.isSome_iff_exists.1 (hi i (by omega))
    simp [streamOf, hx]

/-- A ready pair that holds some stream. -/
theorem pair_holds {m : Mem} {vr vi : View} (h : PairReady m vr vi) {n : Nat} (h1 : n = vr.count) (h2 : n = vi.count) :
    ∃ f, Holds m vr vi n f := ⟨_, holds_streamOf h.hereRe h.hereIm h1 h2⟩

/-- A source is ready, as a test. -/
def readable (m : Mem) (v : View) : Bool := v.isNull || admits m v

theorem readable_of {m : Mem} {v : View} (h : readable m v = true) : v.Readable m := by
  rcases Bool.or_eq_true_iff.1 h with h | h
  · exact .inl h
  · exact .inr (admitted_of h)

/-- A transform request is ready, as a test. -/
def requestTest (c : Config) (m : Mem) (v : Views) (n : Nat) (forceBS : Bool) : Bool :=
  (v.sr.count == n && v.si.count == n && v.dr.count == n && v.di.count == n) && !requestBad c v n forceBS
    && !overlapBad [v.sr, v.si] v.dr v.di && readable m v.sr && readable m v.si && admits m v.dr && admits m v.di

theorem requestReady_of {c : Config} {m : Mem} {v : Views} {n : Nat} {forceBS : Bool}
    (h : requestTest c m v n forceBS = true) : RequestReady c m v n forceBS := by
  simp only [requestTest, Bool.and_eq_true, Bool.not_eq_true', beq_iff_eq] at h
  obtain ⟨⟨⟨⟨⟨⟨⟨⟨⟨h1, h2⟩, h3⟩, h4⟩, h5⟩, h6⟩, h7⟩, h8⟩, h9⟩, h10⟩ := h
  exact ⟨⟨h1, h2, h3, h4⟩, h5, h6, readable_of h7, readable_of h8, admitted_of h9, admitted_of h10⟩

/-- Eight elements in each stream. -/
def eight (more : List (Nat × Nat)) : State := pair [p1, p2, p3, p4, p5, p6, p7, p8] [0, 0, 0, 0, 0, 0, 0, 0] more

theorem eight_hasPair : (eight []).me.hasPair 0x200 0x300 1 1 := ⟨rfl, rfl, rfl, rfl⟩

theorem eight_ready : PairReady (eight []).mem (viewOf 0x200 1 (2 ^ 3)) (viewOf 0x300 1 (2 ^ 3)) :=
  pairReady_of (by decide)

theorem eight_one_ready : PairReady (eight []).mem (viewOf 0x200 1 (2 ^ 0)) (viewOf 0x300 1 (2 ^ 0)) :=
  pairReady_of (by decide)

/-! #### Encoding -/

theorem witness_DecodeOfEncodeIsTheCommand : Instr.wellFormed (.omp .inverse (.force .d8) 31 31) = true := by decide

theorem witness_EncodeOfDecodeIsTheWord : decode 0x03FF6942 = .ok (.omp .inverse (.force .d8) 31 31) := rfl

theorem witness_LegalWordsMatchOneRow :
    (∃ r ∈ rows, (0x03FF6942 : Word32) &&& r.mask = r.pattern ∧ (policyOf (fieldsOf 0x03FF6942).vsel (fieldsOf 0x03FF6942).vw).isSome)
      ∧ ∃ r ∈ rows, (0x00000C01 : Word32) &&& r.mask = r.pattern ∧ (policyOf (fieldsOf 0x00000C01).vsel (fieldsOf 0x00000C01).vw).isNone := by
  decide

theorem witness_IllegalWordChangesStatusAlone :
    decode 0x00000000 = .error .allZeroWord ∧ decode 0x00007801 = .error .illegalPolicy := ⟨rfl, rfl⟩

/-! #### Reset, invariant and step -/

theorem witness_InvariantHoldsAtReset :
    ({ cfg := { Config.standard with nctx := 3 }, memory := [(5, p1)], hosts := [.act (.cmd 0x40) .done], draws := [none]
       sched := [2] } : Launch).cfg.valid = true := by decide

theorem witness_StepKeepsTheInvariant :
    State.Inv ((eight []).withFetchWord 32 0x00030023) ∧ ∃ t, step ((eight []).withFetchWord 32 0x00030023) = .next t := by
  refine ⟨⟨by decide, by decide, by decide, by decide, by decide, by decide⟩, ?_⟩
  have h : after 0x00030023 (eight []) (fun _ => true) = true := by decide +kernel
  unfold after at h
  revert h
  cases step ((eight []).withFetchWord 32 0x00030023) with
  | next t => exact fun _ => ⟨t, rfl⟩
  | fault f => intro h; cases h
  | refused r => intro h; cases h

/-- A state whose context 0 has a command as its host's next step. -/
def waiting (w : Word32) : State := waitingOn (.cmd w)

theorem witness_StepRunsTheDecodedCommand_scheduled :
    ({ waiting 0x40 with sched := [0] }).cfg.valid = true
      ∧ (∃ rest, ({ waiting 0x40 with sched := [0] }).sched = 0 :: rest
        ∧ ({ waiting 0x40 with sched := [0] }).ready 0 = true
        ∧ waiting 0x40 = State.focus { ({ waiting 0x40 with sched := [0] }) with sched := rest } 0)
      ∧ (waiting 0x40).me.thread.prog = .act (.cmd 0x40) .done ∧ decode 0x40 = .ok .prb :=
  ⟨by decide, ⟨[], rfl, by decide, by decide⟩, rfl, rfl⟩

theorem witness_StepRunsTheDecodedCommand_first :
    (waiting 0x40).cfg.valid = true ∧ (waiting 0x40).sched = []
      ∧ (waiting 0x40).firstReady 0 (waiting 0x40).contexts.length = some 0 ∧ waiting 0x40 = (waiting 0x40).focus 0
      ∧ (waiting 0x40).me.thread.prog = .act (.cmd 0x40) .done ∧ decode 0x40 = .ok .prb :=
  ⟨by decide, rfl, by decide, by decide, rfl, rfl⟩

theorem witness_StepIssuesThePlacedWord : State.reset.cfg.valid = true := by decide

theorem witness_InvalidConfigurationsAreRefused :
    ({ Config.standard with lbuf := 1, q := 1 }).valid = false ∧ ({ Config.standard with lbuf := 31 }).valid = false
      ∧ ({ Config.standard with q := 0 }).valid = false ∧ ({ Config.standard with q := 5 }).valid = false
      ∧ ({ Config.standard with nctx := 0 }).valid = false
      ∧ ({ Config.standard with ty := .mp, openRecord := false }).valid = false
      ∧ ({ Config.standard with ty := .fix, esOpen := 0 }).valid = false
      ∧ ({ Config.standard with lbuf := 2, q := 1, ty := .fext }).valid = true
      ∧ ({ Config.standard with lbuf := 30, q := 15 }).valid = true
      ∧ 2 ≤ ({ Config.standard with lbuf := 2, q := 1 }).lbuf := by decide

/-! #### The host's side -/

theorem witness_HostRegisterMapIsKept :
    readReg Config.standard (writeReg .f64 State.reset.me 4 (2 ^ 64 + 3)) 4 = some 3
      ∧ readReg Config.standard (writeReg .f64 State.reset.me 0x0F 7) 0x0F = some 7
      ∧ readReg Config.standard (writeReg .f64 State.reset.me 5 (2 ^ 64 + 3)) 5 = some 3
      ∧ writeReg .f64 State.reset.me 3 9 = State.reset.me ∧ writeReg .f64 State.reset.me 0x10 9 = State.reset.me
      ∧ readReg Config.standard State.reset.me 0x12 = some 0
      ∧ readReg Config.standard (writeReg .f64 State.reset.me 4 1) 6 = none := by decide

/-- A host read of a written register, and one of an UNWRITTEN register (R33). -/
theorem witness_HostRegisterMapIsKept_reads :
    readReg Config.standard State.reset.me 0x11 = some 0 ∧ readReg Config.standard State.reset.me 4 = none
      ∧ (waitingOn (.rd 4)).me.thread.prog = .act (.rd 4) .done := by decide

theorem witness_CfgReportsTheBuild :
    Config.standard.valid = true ∧ ({ Config.standard with lbuf := 30, q := 15, ty := .fix, arch := .neon }).valid = true := by
  decide

theorem witness_PlacedElementIsHeld : (0 < 1 ∧ 1 < 2 ^ 64) ∧ 0 < 2 ^ 64 - 1 ∧ 2 ^ 64 - 1 < 2 ^ 64 := by decide

/-- Two contexts, the second current. -/
def two : State := { eight [] with before := [State.reset.me], cfg := { Config.standard with nctx := 2 } }

theorem witness_OtherContextsAreUntouched :
    HostAct.mov 4 7 ≠ HostAct.reset
      ∧ hostAct (.mov 4 7) two = .next { two with me := { two.me with argN := some 7 } } := ⟨by decide, rfl⟩

/-- A command that is stuck, beside a context that can move and would not reset FBD. -/
theorem witness_OtherContextsAreUntouched_stuck :
    (∃ t, hostAct (.cmd 0x11) stuckAndReady = .next t ∧ t.me.halted = some .stuck) ∧ 1 ≠ stuckAndReady.number
      ∧ stuckAndReady.ready 1 = true
      ∧ ∀ x ∈ stuckAndReady.contexts[1]?, x.thread.prog = .act (.cmd 0x00020032) .done :=
  ⟨⟨_, rfl, by decide +kernel⟩, by decide, by decide, by decide⟩

theorem witness_FeatCacheIsWrittenOnce :
    HostAct.cmd 0x40 ≠ HostAct.reset
      ∧ (∃ t, hostAct (.cmd 0x40) (onNeon State.reset) = .next t ∧ t.featCache = 9)
      ∧ ∃ t, hostAct (.cmd 0x40) { onNeon State.reset with featCache := 1 } = .next t ∧ t.featCache = 1 := by
  exact ⟨by decide, ⟨_, rfl, by decide⟩, ⟨_, rfl, by decide⟩⟩

/-- A command of context 1 that wrote the element at `a`, and that nothing has ordered before context 0. -/
def ranAt (a : Int) : State :=
  { eight [] with log := [{ ctx := 1, seq := 1, fp := { views := [unitView a 1], writes := [unitView a 1] } }] }

/-- At the last element of the destination there is a race, and one above it there is none. -/
theorem witness_UnorderedOverlapIsARace :
    (∃ t, exec (.pass .forward 1 3) (ranAt 0x207) = .next t ∧ t.me.status = 0
      ∧ idleOn (.pass .forward 1 3) (ranAt 0x207) = false
      ∧ ∃ r ∈ (ranAt 0x207).log, r.ctx ≠ (ranAt 0x207).number ∧ (ranAt 0x207).me.thread.clock.getD r.ctx 0 < r.seq
        ∧ InSome (footprint (.pass .forward 1 3) (ranAt 0x207).me).writes 0x207 ∧ InSome r.fp.views 0x207)
    ∧ (∃ t, exec (.pass .forward 1 3) (ranAt 0x208) = .next t ∧ t.me.status = 0)
      ∧ racesWith 0 [] (footprint (.pass .forward 1 3) (ranAt 0x208).me) (ranAt 0x208).log = [] := by
  have hs : ∀ a, leaves (.pass .forward 1 3) (ranAt a) (fun t => t.me.status == 0)
      = leaves (.pass .forward 1 3) (ranAt 0x207) (fun t => t.me.status == 0) := fun _ => rfl
  have h1 : leaves (.pass .forward 1 3) (ranAt 0x207) (fun t => t.me.status == 0) = true := by decide +kernel
  obtain ⟨t, ht, h⟩ := leaves_next h1
  obtain ⟨u, hu, h'⟩ := leaves_next ((hs 0x208).trans h1)
  refine ⟨⟨t, ht, by simpa using h, rfl, _, List.mem_singleton.2 rfl, by decide, by decide, ?_, ?_⟩, ⟨u, hu, by simpa using h'⟩, by decide⟩
  · exact ⟨viewOf 0x200 1 (2 ^ 3), by decide, by decide, 7, by decide, by decide⟩
  · exact ⟨unitView 0x207 1, by decide, by decide, 0, by decide, by decide⟩

/-- A command that makes no access counts none of its views as written: `MPS` of depth 0. -/
theorem witness_UnorderedOverlapIsARace_idle :
    (∃ t, exec (.mps .forward .auto 3 0) (ranAt 0x207) = .next t ∧ t.me.status = 0)
      ∧ idleOn (.mps .forward .auto 3 0) (ranAt 0x207) = true := by
  obtain ⟨t, ht, h⟩ := leaves_next (i := .mps .forward .auto 3 0) (s := ranAt 0x207) (p := fun t => t.me.status == 0)
    (by decide +kernel)
  exact ⟨⟨t, ht, by simpa using h⟩, rfl⟩

/-- A token posted and awaited, and one that is not posted. -/
theorem witness_UnorderedOverlapIsARace_tokens :
    (∃ t, hostAct (.post 7) two = .next t ∧ tokenClock t.tokens 7 = some [0, 0])
      ∧ tokenClock ({ two with tokens := [(7, [4])] }).tokens 7 = some [4]
      ∧ (∃ t, hostAct (.await 7) { two with tokens := [(7, [4])] } = .next t ∧ t.me.thread.clock = [4])
      ∧ tokenClock State.reset.tokens 7 = none ∧ (waitingOn (.await 7)).me.thread.prog = .act (.await 7) .done :=
  ⟨⟨_, rfl, by decide⟩, rfl, ⟨_, rfl, by decide⟩, rfl, rfl⟩

/-! #### Every command -/

theorem witness_FailedCommandChangesStatusAlone :
    ∃ t, exec .cxf (start [(0x0E, 1), (0x0F, 0)] []) = .next t ∧ t.me.status ≠ 0 := ⟨_, rfl, by decide⟩

theorem witness_CommandKeepsItsFrame : ∃ t, exec (.bfy .forward .auto 3) (eight []) = .next t := by
  obtain ⟨t, h, -⟩ := leaves_next (i := .bfy .forward .auto 3) (s := eight []) (p := fun _ => true) (by decide +kernel)
  exact ⟨t, h⟩

theorem witness_UnwrittenRegisterFaults :
    (∃ r ∈ argsRead .dil, (start [(0x04, 0)] []).me.argument r = none)
      ∧ ¬ ∃ r ∈ argsRead .dil, (start [(0x04, 0), (0x08, 0)] []).me.argument r = none := by decide

/-- Registers that `DIL` does not read may differ, or be UNWRITTEN in one context only. -/
theorem witness_UnlistedRegistersDoNotMatter :
    let s := start [(0x04, 4), (0x08, 0x300), (0x06, 1)] (cells 0x300 [p1, p2, p3, p4, p5, p6, p7, p8])
    let d := { s.me with argSrcRe := none, argP := some 5 }
    (d.fsm = s.me.fsm ∧ d.bsBase = s.me.bsBase ∧ d.trans = s.me.trans
      ∧ ∀ r ∈ argsRead .dil, d.argument r = s.me.argument r) ∧ ∃ t, exec .dil s = .next t := by
  refine ⟨by decide, ?_⟩
  obtain ⟨t, h, -⟩ := leaves_next (i := .dil)
    (s := start [(0x04, 4), (0x08, 0x300), (0x06, 1)] (cells 0x300 [p1, p2, p3, p4, p5, p6, p7, p8]))
    (p := fun _ => true) (by decide +kernel)
  exact ⟨t, h⟩

theorem witness_ZeroCountDoesNoWork :
    (.n ∈ argsRead (.xft .forward .auto) ∧ argsWritten (.xft .forward .auto) (request 0 [] [] []).me
      ∧ (request 0 [] [] []).me.argN = some 0)
    ∧ .n ∈ argsRead .scl ∧ argsWritten .scl (request 0 [] [] []).me := by
  unfold argsWritten
  decide

/-- Each clause with the last element of a view not admitted. -/
theorem witness_UnadmittedAccessIsStuck_brv :
    let s := start [(0x06, 0), (0x0A, 0), (0x08, 0x200), (0x0C, 1)] (cells 0x200 [p1, p2, p3])
    (s.me.argSrcRe = some 0 ∧ s.me.argSsRe = some 0 ∧ s.me.argDstRe = some 0x200 ∧ s.me.argDsRe = some 1)
      ∧ ∃ i < 2 ^ 2, s.mem.atAddr ((viewOf 0x200 1 (2 ^ 2)).addr i) = none := by decide

theorem witness_UnadmittedAccessIsStuck_source :
    let s := start [(0x06, 0x100), (0x0A, 1), (0x08, 0x200), (0x0C, 1)] (cells 0x100 [p1, p2, p3] ++ cells 0x200 [p1, p2, p3, p4])
    s.me.argSrcRe = some 0x100 ∧ (viewOf 0x100 1 (2 ^ 2)).Apart (viewOf 0x200 1 (2 ^ 2))
      ∧ ∃ i < 2 ^ 2, s.mem.atAddr ((viewOf 0x100 1 (2 ^ 2)).addr i) = none :=
  ⟨by decide, View.apart_of_not_meets (by decide) (by decide) (by decide), by decide⟩

theorem witness_UnadmittedAccessIsStuck_shuffle :
    let s := start [(0x04, 2), (0x08, 0x300)] (cells 0x300 [p1, p2, p3])
    s.me.argN = some 2 ∧ s.me.argDstRe = some 0x300 ∧ isPow2 (2 : Word64).toNat = true
      ∧ ∃ i < 2 * (2 : Word64).toNat, s.mem.atAddr (addrOf 0x300 + (i : Nat)) = none := by decide

/-- A destination pair with its last imaginary element not admitted: each command that makes an access. -/
theorem witness_UnadmittedAccessIsStuck_pair :
    let s := onNeon (pair [p1, p1, p1, p1, p1, p1, p1, p1] [p1, p1, p1, p1, p1, p1, p1] [(0x04, 8), (0x05, half)])
    (∀ i ∈ [Instr.pass .forward 1 3, .r8 .forward 3, .mps .forward .auto 3 1, .bfy .forward .auto 3, .scl]
        ++ [Instr.twg .forward 3 3, .omp .forward .auto 3 3],
      (pairWork i s.cfg.lbuf s.me).map Prod.fst = some 8 ∧ (∀ r ∈ argsRead i, (s.me.argument r).isSome = true)
        ∧ idleOn i s = false)
    ∧ (pairWork (.pass .forward 1 3) s.cfg.lbuf s.me = some (8, 1 < 1 ∨ 3 < 1 ∨ 31 < 3))
    ∧ s.me.hasPair 0x200 0x300 1 1 ∧ ¬ DstRejected (viewOf 0x200 1 8) (viewOf 0x300 1 8)
    ∧ (viewOf 0x200 1 8).Apart (viewOf 0x300 1 8) ∧ ∃ k < 8, s.mem.atAddr ((viewOf 0x300 1 8).addr k) = none :=
  ⟨by decide, rfl, ⟨rfl, rfl, rfl, rfl⟩, by rw [dstRejected_iff]; decide,
    View.apart_of_not_meets (by decide) (by decide) (by decide), by decide⟩

theorem witness_UnadmittedAccessIsStuck_twf :
    pairWork (.twf .forward) 9 (pair [p1] [p1, p1] [(0x04, 1)]).me = some (2 * 1, 2 ^ 30 < 1)
      ∧ (pair [p1] [p1, p1] [(0x04, 1)]).me.hasPair 0x200 0x300 1 1
      ∧ ∃ i < 2 * 1, (pair [p1] [p1, p1] [(0x04, 1)]).mem.atAddr ((viewOf 0x200 1 (2 * 1)).addr i) = none :=
  ⟨rfl, ⟨rfl, rfl, rfl, rfl⟩, by decide⟩

/-- The three clauses: an operand just out of range, equal bases, and views that share their last and first element. -/
theorem witness_PairCommandsCheckDestinations :
    (pairWork (.pass .forward 4 3) 9 (eight []).me = some (2 ^ 3, 4 < 1 ∨ 3 < 4 ∨ 31 < 3)
      ∧ argsWritten (.pass .forward 4 3) (eight []).me ∧ (eight []).me.hasPair 0x200 0x300 1 1)
    ∧ ((eight [(0x09, 0x200)]).me.hasPair 0x200 0x200 1 1 ∧ DstRejected (viewOf 0x200 1 (2 ^ 3)) (viewOf 0x200 1 (2 ^ 3)))
    ∧ (eight [(0x09, 0x207)]).me.hasPair 0x200 0x207 1 1 ∧ ¬ DstRejected (viewOf 0x200 1 (2 ^ 3)) (viewOf 0x207 1 (2 ^ 3))
      ∧ (viewOf 0x200 1 (2 ^ 3)).Share (viewOf 0x207 1 (2 ^ 3)) := by
  refine ⟨⟨rfl, ?_, ⟨rfl, rfl, rfl, rfl⟩⟩, ⟨⟨rfl, rfl, rfl, rfl⟩, ?_⟩, ⟨rfl, rfl, rfl, rfl⟩, ?_, ?_⟩
  · unfold argsWritten; decide
  · rw [dstRejected_iff]; decide
  · rw [dstRejected_iff]; decide
  · rw [View.share_iff]; decide

/-! #### Scalar arithmetic and twiddle factors -/

theorem witness_CxmReadsTheTable :
    (Config.standard.cexpm1 ≠ .custom ∧ Config.standard.ty = .f64)
      ∧ ({ Config.standard with ty := .f32, cexpm1 := .nearest }).cexpm1 ≠ .custom := by decide

theorem witness_CxfLeavesTheFraction :
    ((start [(0x0E, 1), (0x0F, 3)] []).me.argP = some 1 ∧ (start [(0x0E, 1), (0x0F, 3)] []).me.argQ = some 3)
      ∧ (start [(0x0E, 1), (0x0F, 0)] []).me.argQ = some 0 := by decide

/-- One case for each quarter: `0/4`, `1/4`, `2/4`, `3/4`. -/
theorem witness_QuarterTurnsAreExact :
    Config.standard.cexpm1Frac ≠ .custom ∧ (4 : Word64) ≠ 0
      ∧ ∀ j < 4, (start [(0x0E, j), (0x0F, 4)] []).me.argP = some (BitVec.ofNat 64 j)
        ∧ 4 * (BitVec.ofNat 64 j).toNat = j * (4 : Word64).toNat := by decide

theorem witness_TwiddleGenDoubles : (3 ≤ 3 ∧ 2 < 3 ∧ 3 < 2 ^ 2) ∧ 7 < 2 ^ 3 := by decide

/-- `n = 5`: doubled entries up to 2, mirrored ones 3 and 4, negated ones 5 to 9; `n = 1`: no doubling. -/
theorem witness_FracTwiddlesFillQuadrants :
    (1 ≤ 5 ∧ 2 ^ 1 ≤ 5 / 2 ∧ 2 ^ 1 + 0 ≤ 5 / 2) ∧ (5 / 2 < 3 ∧ 4 < 5) ∧ (5 ≤ 5 ∧ 9 < 2 * 5) ∧ 1 ≤ 1 ∧ 0 ≤ 1 / 2 := by decide

theorem witness_TwgStoresTheTwiddles :
    (eight []).me.hasPair 0x200 0x300 1 1 ∧ 3 ≤ 4 ∧ 3 ≤ (eight []).cfg.lbuf
      ∧ PairReady (eight []).mem (viewOf 0x200 1 (2 ^ 3)) (viewOf 0x300 1 (2 ^ 3)) :=
  ⟨eight_hasPair, by decide, by decide, eight_ready⟩

theorem witness_TwfStoresTheTwiddles :
    (eight [(0x04, 4)]).me.argN = some 4 ∧ (eight [(0x04, 4)]).me.hasPair 0x200 0x300 1 1
      ∧ PairReady (eight [(0x04, 4)]).mem (viewOf 0x200 1 (2 * (4 : Word64).toNat)) (viewOf 0x300 1 (2 * (4 : Word64).toNat)) :=
  ⟨rfl, ⟨rfl, rfl, rfl, rfl⟩, pairReady_of (by decide)⟩

/-! #### Bit reversal -/

theorem witness_RevReversesTheBits : 5 < 2 ^ 3 ∧ 0 < 2 ^ 0 := by decide

/-- Out of place, in place, from a null source, and from a stride-0 source. -/
theorem witness_BrvPermutesByReversal :
    let m := cells 0x100 [p1, p2, p3, p4] ++ cells 0x200 [p9, p9, p9, p9]
    let v := viewOf 0x200 1 (2 ^ 2)
    v.Admitted m
      ∧ ((viewOf 0x100 1 (2 ^ 2)).Apart v ∧ (viewOf 0x100 1 (2 ^ 2)).Readable m)
      ∧ v.Readable m ∧ (viewOf 0 0 (2 ^ 2)).Readable m
      ∧ (viewOf 0x100 0 (2 ^ 2)).Apart v ∧ (viewOf 0x100 0 (2 ^ 2)).Readable m := by
  refine ⟨admitted_of (by decide), ⟨View.apart_of_not_meets (by decide) (by decide) (by decide), readable_of (by decide)⟩,
    readable_of (by decide), readable_of (by decide), View.apart_of_not_meets (by decide) (by decide) (by decide),
    readable_of (by decide)⟩

/-- The views that turn `BRV` away, views that share one element, and counts that turn the shuffles away. -/
theorem witness_PermutationsCheckTheirViews :
    let s := start [(0x06, 0x100), (0x0A, 1), (0x08, 0x100), (0x0C, 2)] []
    (s.me.argSrcRe = some 0x100 ∧ s.me.argSsRe = some 1 ∧ s.me.argDstRe = some 0x100 ∧ s.me.argDsRe = some 2)
    ∧ (viewOf 0x100 1 (2 ^ 2)).Share (viewOf 0x103 1 (2 ^ 2))
    ∧ isPow2 (3 : Word64).toNat = false ∧ 2 ^ 30 < (BitVec.ofNat 64 (2 ^ 31)).toNat
    ∧ (start [(0x04, 3), (0x08, 0x300)] []).me.argN = some 3 := by
  refine ⟨by decide, ?_, by decide, by decide, by decide⟩
  rw [View.share_iff]; decide

/-- The smallest region, and one of four pairs. -/
theorem witness_DilDeinterleaves :
    let s := start [(0x04, 4), (0x08, 0x200)] (eight []).mem
    (s.me.argN = some 4 ∧ s.me.argDstRe = some 0x200 ∧ isPow2 (4 : Word64).toNat = true)
      ∧ (unitView (addrOf 0x200) (2 * (4 : Word64).toNat)).Admitted s.mem ∧ isPow2 (1 : Word64).toNat = true :=
  ⟨by decide, admitted_of (by decide), by decide⟩

theorem witness_IlvReinterleaves :
    let s := start [(0x04, 4), (0x08, 0x200)] (eight []).mem
    (s.me.argN = some 4 ∧ s.me.argDstRe = some 0x200 ∧ isPow2 (4 : Word64).toNat = true)
      ∧ (unitView (addrOf 0x200) (2 * (4 : Word64).toNat)).Admitted s.mem :=
  ⟨by decide, admitted_of (by decide)⟩

theorem witness_IlvUndoesDil :
    let s := start [(0x04, 4), (0x08, 0x200)] (eight []).mem
    s.mem.wf = true ∧ ∃ t, exec .dil s = .next t ∧ ∃ u, exec .ilv t = .next u := by
  refine ⟨by decide, ?_⟩
  obtain ⟨t, h, ht⟩ := leaves_next (i := .dil) (s := start [(0x04, 4), (0x08, 0x200)] (eight []).mem)
    (p := fun t => leaves .ilv t (fun _ => true)) (by decide +kernel)
  obtain ⟨u, hu, -⟩ := leaves_next ht
  exact ⟨t, h, u, hu⟩

/-- Memory that admits `len` elements from address 1, and the work on it. -/
def region (len : Nat) : Mem := Mem.grant [] 1 len (fun _ => ⟨p1⟩)

theorem region_admitted {len : Nat} (h : 1 + len ≤ 2 ^ addrWidth) : (unitView 1 len).Admitted (region len) := by
  intro i hi
  have hi : i < len := hi
  rw [region, Mem.grant_at (by decide) h, if_pos ⟨by simp, by simp; omega⟩]
  rfl

theorem region_wf {len : Nat} (h : 1 + len ≤ 2 ^ addrWidth) : (region len).wf = true :=
  Mem.grant_wf rfl (by decide) h rfl

/-- In place at the limits of the regimes, 8, 9 and 16 bits, and from a null source. -/
theorem witness_SmallRegimesReachTheReversal :
    ∀ l ∈ [0, 8, 9, 16], l ≤ 16 ∧ (unitView 1 (2 ^ l)).count = 2 ^ l ∧ (unitView 1 (2 ^ l)).stride ≠ 0
      ∧ (unitView 1 (2 ^ l)).Readable (region (2 ^ l)) ∧ (unitView 1 (2 ^ l)).Admitted (region (2 ^ l))
      ∧ (unitView 0 (2 ^ l)).isNull = true ∧ (unitView 0 (2 ^ l)).Readable (region (2 ^ l))
      ∧ (region (2 ^ l)).wf = true := by
  intro l hl
  have h : 1 + 2 ^ l ≤ 2 ^ addrWidth := by
    simp only [List.mem_cons, List.not_mem_nil, or_false] at hl
    rcases hl with rfl | rfl | rfl | rfl <;> decide
  refine ⟨?_, rfl, by simp, .inr (region_admitted h), region_admitted h, rfl, .inl rfl, region_wf h⟩
  simp only [List.mem_cons, List.not_mem_nil, or_false] at hl
  omega

/-- In place above 16 bits, with tiles that fit (`Q = 4`) and tiles that do not (`Q = 9`), and from a null source. -/
theorem witness_LargeRegimesReachTheReversal :
    Config.standard.valid = true ∧ ({ Config.standard with lbuf := 18, q := 9 }).valid = true
      ∧ (unitView 1 (2 ^ 17)).Readable (region (2 ^ 17)) ∧ (unitView 1 (2 ^ 17)).Admitted (region (2 ^ 17))
      ∧ (unitView 0 (2 ^ 17)).Readable (region (2 ^ 17)) ∧ (region (2 ^ 17)).wf = true :=
  have h : 1 + 2 ^ 17 ≤ 2 ^ addrWidth := by decide
  ⟨by decide, by decide, .inr (region_admitted h), region_admitted h, .inl rfl, region_wf h⟩

/-! #### Butterflies -/

theorem witness_PassAppliesItsButterflies :
    (eight []).me.hasPair 0x200 0x300 1 1 ∧ (eight []).cfg.valid = true ∧ (1 ≤ 3 ∧ 3 ≤ 3 ∧ 3 ≤ 31)
      ∧ PairReady (eight []).mem (viewOf 0x200 1 (2 ^ 3)) (viewOf 0x300 1 (2 ^ 3))
      ∧ (∃ f, Holds (eight []).mem (viewOf 0x200 1 (2 ^ 3)) (viewOf 0x300 1 (2 ^ 3)) (2 ^ 3) f)
      ∧ 0 < 2 ^ (3 - 3) ∧ 3 < 2 ^ (3 - 1) :=
  ⟨eight_hasPair, by decide, by decide, eight_ready, pair_holds eight_ready rfl rfl, by decide, by decide⟩

theorem witness_R8AppliesTheKernel :
    (eight []).me.hasPair 0x200 0x300 1 1 ∧ 3 ≤ 3
      ∧ PairReady (eight []).mem (viewOf 0x200 1 (2 ^ 3)) (viewOf 0x300 1 (2 ^ 3))
      ∧ ∃ f, Holds (eight []).mem (viewOf 0x200 1 (2 ^ 3)) (viewOf 0x300 1 (2 ^ 3)) (2 ^ 3) f :=
  ⟨eight_hasPair, by decide, eight_ready, pair_holds eight_ready rfl rfl⟩

/-- At both ends of `depth`, under `EXACT`. -/
theorem witness_MpsRunsTheMultipass :
    (eight []).me.hasPair 0x200 0x300 1 1 ∧ (eight []).cfg.valid = true ∧ (0 ≤ 3 ∧ 3 ≤ 3)
      ∧ PairReady (eight []).mem (viewOf 0x200 1 (2 ^ 3)) (viewOf 0x300 1 (2 ^ 3))
      ∧ (eight []).cfg.simdValues = .exact
      ∧ ∃ f, Holds (eight []).mem (viewOf 0x200 1 (2 ^ 3)) (viewOf 0x300 1 (2 ^ 3)) (2 ^ 3) f :=
  ⟨eight_hasPair, by decide, by decide, eight_ready, rfl, pair_holds eight_ready rfl rfl⟩

theorem witness_BfyRunsTheSchedule :
    (eight []).me.hasPair 0x200 0x300 1 1 ∧ (eight []).cfg.valid = true
      ∧ PairReady (eight []).mem (viewOf 0x200 1 (2 ^ 0)) (viewOf 0x300 1 (2 ^ 0))
      ∧ PairReady (eight []).mem (viewOf 0x200 1 (2 ^ 3)) (viewOf 0x300 1 (2 ^ 3))
      ∧ (eight []).cfg.simdValues = .exact
      ∧ ∃ f, Holds (eight []).mem (viewOf 0x200 1 (2 ^ 3)) (viewOf 0x300 1 (2 ^ 3)) (2 ^ 3) f :=
  ⟨eight_hasPair, by decide, eight_one_ready, eight_ready, rfl, pair_holds eight_ready rfl rfl⟩

/-- A scale that is `ONE`, and one that is not. -/
theorem witness_SclScalesEveryElement :
    let s := eight [(0x04, 8), (0x05, half)]
    (s.me.argN = some 8 ∧ s.me.argScale = some ⟨half⟩ ∧ s.me.hasPair 0x200 0x300 1 1)
      ∧ PairReady s.mem (viewOf 0x200 1 (8 : Word64).toNat) (viewOf 0x300 1 (8 : Word64).toNat)
      ∧ s.cfg.ty.isOne ⟨half⟩ = false ∧ s.cfg.ty.isOne ⟨p1⟩ = true
      ∧ ∃ f, Holds s.mem (viewOf 0x200 1 (8 : Word64).toNat) (viewOf 0x300 1 (8 : Word64).toNat) (8 : Word64).toNat f :=
  have h : PairReady (eight [(0x04, 8), (0x05, half)]).mem (viewOf 0x200 1 (8 : Word64).toNat) (viewOf 0x300 1 (8 : Word64).toNat) :=
    pairReady_of (by decide)
  ⟨⟨rfl, rfl, ⟨rfl, rfl, rfl, rfl⟩⟩, h, by decide, by decide, pair_holds h rfl rfl⟩

/-! #### The SIMD multiplexer -/

/-- Caching enabled with an empty and with a filled cache, and caching disabled. -/
theorem witness_PrbReportsTheMask :
    (State.reset.cfg.featCacheEn = true ∧ State.reset.featCache = 0)
      ∧ ({ State.reset with featCache := 9 }).featCache ≠ 0
      ∧ ({ Config.standard with featCacheEn := false }).featCacheEn = false := by decide

theorem witness_ProbedMaskFollowsBuildAndCpu :
    Config.standard.arch = .noSimd ∧ (onNeon State.reset).cfg.arch = .neon
      ∧ ({ Config.standard with arch := .x86 }).arch = .x86 := by decide

/-- A depth just above the size and one equal to it; a stride that is not 1 and two that are. -/
theorem witness_SelReportsThePassCount :
    ((eight []).me.argDsRe = some 1 ∧ (eight []).me.argDsIm = some 1) ∧ 3 < 4 ∧ 3 ≤ 3
      ∧ (eight [(0x0D, 2)]).me.argDsIm = some 2 ∧ (2 : Word64) ≠ 1 := by decide

/-- The empty mask; the radix-8 step, then a level that does not fit; levels without the radix-8 step. -/
theorem witness_SelCountsTheFittingPasses :
    selCount 9 3 3 0 = 0 ∧ selCount 9 5 5 0x04 = 3 ∧ selCount 9 4 2 0x09 = 2 := by decide

/-- A mask that takes passes, and one that takes none. -/
theorem witness_OmpTakesTheVectorPasses :
    (onNeon (eight [])).me.hasPair 0x200 0x300 1 1 ∧ (onNeon (eight [])).cfg.valid = true
      ∧ PairReady (onNeon (eight [])).mem (viewOf 0x200 1 (2 ^ 3)) (viewOf 0x300 1 (2 ^ 3))
      ∧ selCount 9 3 3 (effMask (onNeon (eight [])).cfg .auto (onNeon (eight [])).work).1 = 3
      ∧ selCount 9 3 3 (effMask (eight []).cfg .auto (eight []).work).1 = 0
      ∧ (onNeon (eight [])).cfg.simdValues = .exact
      ∧ ∃ f, Holds (onNeon (eight [])).mem (viewOf 0x200 1 (2 ^ 3)) (viewOf 0x300 1 (2 ^ 3)) (2 ^ 3) f :=
  ⟨⟨rfl, rfl, rfl, rfl⟩, by decide, eight_ready, by decide, by decide, rfl, pair_holds eight_ready rfl rfl⟩

/-- The last group of a level; the radix-8 terminal with more lanes than groups. -/
theorem witness_VectorGroupIsScalarButterflies :
    let vr := viewOf 0x200 1 (2 ^ 3)
    let vi := viewOf 0x300 1 (2 ^ 3)
    let tw : List Cx := [⟨⟨p1⟩, ⟨0⟩⟩, ⟨⟨0⟩, ⟨n1⟩⟩]
    (vr.stride ≠ 0 ∧ vi.stride ≠ 0) ∧ vr.Apart vi ∧ vr.Admitted (eight []).mem ∧ vi.Admitted (eight []).mem
      ∧ (eight []).mem.wf = true ∧ tw.length = 2 ∧ 2 ≤ 2 ∧ 4 + 2 + 2 ≤ vr.count ∧ vi.count = vr.count
      ∧ (1 ≤ 2 ∧ 3 ≤ 3 ∧ vr.count = 2 ^ 3 ∧ vi.count = 2 ^ 3) :=
  ⟨by decide, eight_ready.apart, eight_ready.hereRe, eight_ready.hereIm, by decide, rfl, by decide, by decide, rfl, by decide⟩

/-! #### Transforms -/

/-- Three elements, for the Bluestein pipeline, with the scratch granted. -/
def three : State := { request 3 [p1, p1, p1] [0, 0, 0] [] with allocs := [some 0x1000] }

/-- Four elements, for the power-of-two pipeline. -/
def four : State := request 4 [p1, p2, p3, p4] [0, 0, 0, 0] []

theorem four_grants (v : Views) : four.grants v 4 false := fun h => absurd h (by decide)

/-- A power of two, and a count that is none. -/
theorem witness_XfsTransformsSplitArrays :
    (four.me.argN = some 4 ∧ four.me.argScale = some ⟨p1⟩ ∧ four.me.argSrcRe = some 0x100 ∧ four.me.argSrcIm = some 0x110
      ∧ four.me.argDstRe = some 0x200 ∧ four.me.argDstIm = some 0x210 ∧ four.cfg.valid = true)
      ∧ RequestReady four.cfg four.mem (splitViews 0x100 0x110 0x200 0x210 (4 : Word64).toNat) (4 : Word64).toNat false
      ∧ four.grants (splitViews 0x100 0x110 0x200 0x210 (4 : Word64).toNat) (4 : Word64).toNat false
      ∧ four.cfg.simdValues = .exact ∧ three.me.argN = some 3
      ∧ RequestReady three.cfg three.mem (splitViews 0x100 0x110 0x200 0x210 (3 : Word64).toNat) (3 : Word64).toNat false
      ∧ three.grants (splitViews 0x100 0x110 0x200 0x210 (3 : Word64).toNat) (3 : Word64).toNat false :=
  ⟨by decide, requestReady_of (by decide), four_grants _, rfl, rfl, requestReady_of (by decide),
    fun _ => ⟨0x1000, [], rfl, by decide⟩⟩

/-- An interleaved request of `n` elements on NEON, where the destination is deinterleaved above 16 elements. -/
def inter (n : Nat) (draws : List (Option Nat)) : State :=
  { onNeon (start [(0x04, n), (0x05, p1), (0x06, 0x100), (0x08, 0x200)]
      (cells 0x100 (List.replicate (2 * n) p1) ++ cells 0x200 (List.replicate (2 * n) p9))) with allocs := draws }

/-- Thirty-two elements, deinterleaved and by vector passes; three, by Bluestein. -/
theorem witness_XfiTransformsInterleavedArrays :
    ((inter 32 []).me.argN = some 32 ∧ (inter 32 []).me.argScale = some ⟨p1⟩ ∧ (inter 32 []).me.argSrcRe = some 0x100
        ∧ (inter 32 []).me.argDstRe = some 0x200 ∧ (inter 32 []).cfg.valid = true)
      ∧ RequestReady (inter 32 []).cfg (inter 32 []).mem (interleavedViews 0x100 0x200 32) 32 false
      ∧ (inter 32 []).grants (interleavedViews 0x100 0x200 32) 32 false
      ∧ deinterleaves (interleavedViews 0x100 0x200 32).dr (interleavedViews 0x100 0x200 32).di 5
        (effMask (inter 32 []).cfg .auto (inter 32 []).work).1 = true
      ∧ (inter 3 [some 0x1000]).me.argN = some 3
      ∧ RequestReady (inter 3 [some 0x1000]).cfg (inter 3 [some 0x1000]).mem (interleavedViews 0x100 0x200 3) 3 false
      ∧ takesBluestein 3 false = true
      ∧ (inter 3 [some 0x1000]).grants (interleavedViews 0x100 0x200 3) 3 false :=
  ⟨by decide, requestReady_of (by decide +kernel), fun h => absurd h (by decide), by decide, by decide,
    requestReady_of (by decide), by decide, fun _ => ⟨0x1000, [], rfl, by decide⟩⟩

/-- The strided views of a request at the places of 95_test_vectors §2.7. -/
def strided (n : Nat) : Views :=
  { sr := srcView (addrOf 0x100) (strideOf 1) n, si := srcView (addrOf 0x110) (strideOf 1) n
    dr := viewOf 0x200 1 n, di := viewOf 0x210 1 n }

theorem four_strided : four.me.hasStrided (strided 4) 4 :=
  ⟨0x100, 0x110, 0x200, 0x210, 1, 1, 1, 1, rfl, rfl, rfl, rfl, rfl, rfl, rfl, rfl, rfl⟩

theorem three_strided : three.me.hasStrided (strided 3) 3 :=
  ⟨0x100, 0x110, 0x200, 0x210, 1, 1, 1, 1, rfl, rfl, rfl, rfl, rfl, rfl, rfl, rfl, rfl⟩

theorem three_grants (forceBS : Bool) : three.grants (strided 3) 3 forceBS := fun _ => ⟨0x1000, [], rfl, by decide⟩

theorem witness_XftTransformsStridedArrays :
    (four.me.argN = some 4 ∧ four.me.argScale = some ⟨p1⟩ ∧ four.me.hasStrided (strided 4) 4)
      ∧ RequestReady four.cfg four.mem (strided 4) 4 false ∧ four.grants (strided 4) 4 false
      ∧ three.me.hasStrided (strided 3) 3 ∧ RequestReady three.cfg three.mem (strided 3) 3 false
      ∧ three.grants (strided 3) 3 false :=
  ⟨⟨rfl, rfl, four_strided⟩, requestReady_of (by decide), four_grants _, three_strided, requestReady_of (by decide),
    three_grants false⟩

/-- A count that is no power of two, and one that is, by force. -/
theorem witness_BluTransformsByBluestein :
    (three.me.argN = some 3 ∧ three.me.argScale = some ⟨p1⟩ ∧ three.me.hasStrided (strided 3) 3)
      ∧ RequestReady three.cfg three.mem (strided 3) 3 true ∧ three.grants (strided 3) 3 true
      ∧ RequestReady four.cfg four.mem (strided 4) 4 true
      ∧ ({ four with allocs := [some 0x1000] }).grants (strided 4) 4 true :=
  ⟨⟨rfl, rfl, three_strided⟩, requestReady_of (by decide), three_grants true, requestReady_of (by decide),
    fun _ => ⟨0x1000, [], rfl, by decide⟩⟩

/-- The request of the registers of `four`, or of its like with other registers. -/
def requestIn (v : Views) (n : Nat) (forceBS : Bool) : Request := { n := n, scale := ⟨p1⟩, views := v, forceBS := forceBS }

/-- A cross alias (V-XF-20), and an overlap of one element alone (V-XF-23 at its boundary). -/
theorem witness_TransformRequestsAreChecked :
    let v1 : Views := { strided 4 with sr := srcView (addrOf 0x210) (strideOf 1) 4 }
    let v2 : Views := { strided 4 with sr := srcView (addrOf 0x203) (strideOf 1) 4 }
    (requestOf (.xft .forward .auto) (request 4 [] [] [(0x06, 0x210)]).me = some (requestIn v1 4 false)
      ∧ RequestRejected Config.standard (requestIn v1 4 false))
    ∧ requestOf (.xft .forward .auto) (request 4 [] [] [(0x06, 0x203)]).me = some (requestIn v2 4 false)
      ∧ ¬ RequestRejected Config.standard (requestIn v2 4 false) ∧ RequestOverlaps (requestIn v2 4 false) := by
  refine ⟨⟨by decide, ?_⟩, by decide, ?_, ?_⟩
  · rw [requestRejected_iff]; decide
  · rw [requestRejected_iff]; decide
  · rw [requestOverlaps_iff]; decide

/-- A null draw, and one that is not aligned. -/
theorem witness_NullAllocationGivesOutOfMemory :
    requestOf (.blu .forward .auto) four.me = some (requestIn (strided 4) 4 true)
      ∧ takesBluestein 4 true = true ∧ ¬ RequestRejected four.cfg (requestIn (strided 4) 4 true)
      ∧ ¬ RequestOverlaps (requestIn (strided 4) 4 true) ∧ ({ four with allocs := [none] }).allocs = none :: []
      ∧ ({ four with allocs := [some 0x1001] }).allocs = some 0x1001 :: []
      ∧ allocLawful four.cfg (strided 4).list four.mem 0x1001 (scratchLen (clog2 (2 * 4 - 1)) 4) = false := by
  refine ⟨by decide, by decide, ?_, ?_, rfl, rfl, by decide⟩
  · rw [requestRejected_iff]; decide
  · rw [requestOverlaps_iff]; decide

/-- A power of two and a Bluestein request, each with the last element of its destination not admitted. -/
theorem witness_UnadmittedAccessIsStuck_transform :
    let m := four.mem.filter (fun c => c.1 != 0x213)
    let s := { four with mem := m, allocs := [some 0x1000] }
    (requestOf (.xft .forward .auto) s.me = some (requestIn (strided 4) 4 false)
        ∧ requestOf (.blu .forward .auto) s.me = some (requestIn (strided 4) 4 true))
      ∧ ¬ RequestRejected s.cfg (requestIn (strided 4) 4 false) ∧ ¬ RequestOverlaps (requestIn (strided 4) 4 false)
      ∧ ¬ RequestRejected s.cfg (requestIn (strided 4) 4 true) ∧ ¬ RequestOverlaps (requestIn (strided 4) 4 true)
      ∧ s.allocs = some 0x1000 :: [] ∧ (∃ k < 4, s.mem.atAddr ((strided 4).di.addr k) = none) := by
  refine ⟨by decide, ?_, ?_, ?_, ?_, rfl, by decide⟩
  · rw [requestRejected_iff]; decide
  · rw [requestOverlaps_iff]; decide
  · rw [requestRejected_iff]; decide
  · rw [requestOverlaps_iff]; decide

/-- The same registers read as split and as strided; read as interleaved and as strided. -/
theorem witness_ShapesAreStridedRequests :
    (four.me.argSsRe = some 1 ∧ four.me.argSsIm = some 1 ∧ four.me.argDsRe = some 1 ∧ four.me.argDsIm = some 1)
      ∧ let s := request 4 [] [] [(0x07, 0x101), (0x09, 0x201), (0x0A, 2), (0x0B, 2), (0x0C, 2), (0x0D, 2)];
        s.me.argSsRe = some 2 ∧ s.me.argSsIm = some 2 ∧ s.me.argDsRe = some 2 ∧ s.me.argDsIm = some 2
          ∧ s.me.argSrcIm = some 0x101 ∧ addrOf 0x101 = imBase (addrOf 0x100) ∧ addrOf 0x201 = imBase (addrOf 0x200) := by
  decide

/-- A ready interleaved request ends (`transform_holds`), so that two runs of one can be compared. -/
theorem inter_ends (pol : Policy) : ∃ t, exec (.xfi .forward pol) (inter 32 []) = .next t := by
  have hr : RequestReady (inter 32 []).cfg (inter 32 []).mem (interleavedViews 0x100 0x200 32) 32 false :=
    requestReady_of (by decide +kernel)
  obtain ⟨w, g, h, -⟩ := transform_holds (b := 0) (rest := []) (σ := .forward) (scale := ⟨p1⟩) (p := pol)
    (w := (inter 32 []).work.goto .validate) (by decide) (by decide) hr rfl (fun h => absurd h (by decide))
  exact ⟨_, by rw [exec, execXfi, runXform_ready (n := 32) (by decide) (by decide) rfl (by decide) hr h]; rfl⟩

/-- Thirty-two interleaved elements on NEON: one policy deinterleaves and takes two vector passes above the radix-8 step,
the other does neither. -/
theorem witness_PolicyNeverChangesATransform :
    requestOf (.xfi .forward .auto) (inter 32 []).me = some (requestIn (interleavedViews 0x100 0x200 32) 32 false)
      ∧ RequestReady (inter 32 []).cfg (inter 32 []).mem (interleavedViews 0x100 0x200 32) 32 false
      ∧ (inter 32 []).grants (interleavedViews 0x100 0x200 32) 32 false
      ∧ (inter 32 []).cfg.simdValues = .exact ∧ (inter 32 []).cfg.valid = true ∧ (inter 32 []).mem.wf = true
      ∧ (∃ t, exec (.xfi .forward .auto) (inter 32 []) = .next t)
      ∧ (∃ u, exec (withPolicy .scalar (.xfi .forward .auto)) (inter 32 []) = .next u)
      ∧ selCount 9 5 5 (effMask (inter 32 []).cfg .auto (inter 32 []).work).1 = 5
      ∧ selCount 9 5 5 (effMask (inter 32 []).cfg .scalar (inter 32 []).work).1 = 0
      ∧ deinterleaves (interleavedViews 0x100 0x200 32).dr (interleavedViews 0x100 0x200 32).di 5
        (effMask (inter 32 []).cfg .auto (inter 32 []).work).1 = true :=
  ⟨by decide, requestReady_of (by decide +kernel), fun h => absurd h (by decide), rfl, by decide, by decide,
    inter_ends .auto, inter_ends .scalar, by decide, by decide, by decide⟩

end Sys2Proof.Tests
end

/-! SUPPORT. Proofs of the scope's statements: the reversed index (R21), and what one step runs (R6, R334, R387). -/

namespace Sys2Proof.Machine

/-! ### The bits of the reversed index -/

/-- The lowest bit of the index is the top bit of its reversal; the others are those of the rest, reversed (R21). -/
theorem testBit_rev_succ (i l j : Nat) :
    (rev i (l + 1)).testBit j = if j < l then (rev (i / 2) l).testBit j else (i % 2).testBit (j - l) := by
  rw [rev, mul_comm, Nat.testBit_two_pow_mul_add _ (rev_lt _ _)]

/-- Bit `L-1-b` of `rev(i, L)` is bit `b` of `i`, whatever `i` (R21). -/
theorem testBit_rev (i : Nat) {l b : Nat} (hb : b < l) : (rev i l).testBit (l - 1 - b) = i.testBit b := by
  induction l generalizing i b with
  | zero => omega
  | succ l ih =>
    rw [testBit_rev_succ]
    cases b with
    | zero => simp
    | succ b =>
      have hj : l + 1 - 1 - (b + 1) = l - 1 - b := by omega
      rw [hj, if_pos (by omega), ih (i / 2) (by omega), Nat.testBit_succ]

/-- Settles O34, by `testBit_rev`; the bound is the model's `rev_lt`. -/
theorem revReversesTheBits : Obligations.RevReversesTheBits := by
  intro i l _
  exact ⟨rev_lt i l, fun b hb => testBit_rev i hb, rfl⟩

/-! ### The context that moves -/

/-- The context the schedule names takes its host's next step, where it can move (R387). -/
theorem step_scheduled {s : State} {c : Nat} {rest : List Nat} (hv : s.cfg.valid = true) (hs : s.sched = c :: rest)
    (hr : s.ready c = true) : step s = hostStep (State.focus { s with sched := rest } c) := by
  simp only [step, hv, machineStep, hs, hr, if_true]

/-- With an empty schedule the first context that can move takes its host's next step (log 17). -/
theorem step_firstReady {s : State} {c : Nat} (hv : s.cfg.valid = true) (hs : s.sched = [])
    (hf : s.firstReady 0 s.contexts.length = some c) : step s = hostStep (s.focus c) := by
  simp only [step, hv, machineStep, hs, hf, if_true]

/-! ### The command it issues -/

/-- A host whose next step writes a word to `CMD` issues it, with that step taken off (R33, R334). -/
theorem hostStep_cmd {u : State} {w : Word32} {k : HostProg} (hp : u.me.thread.prog = .act (.cmd w) k) :
    hostStep u = issue w (u.setProg k) := by
  simp only [hostStep, hp, hostAct]

/-- A word that decodes runs its command with the word in `CMD` (R6). -/
theorem issue_decoded {w : Word32} {i : Instr} (hd : decode w = .ok i) (s : State) :
    issue w s = recordCommand i (s.setCmd w) (exec i (s.setCmd w)) := by
  simp only [issue, hd]

/-- Settles O9: the step is the host step of the context that moves, which issues the word, which runs its command. -/
theorem stepRunsTheDecodedCommand : Obligations.StepRunsTheDecodedCommand := by
  intro s u w k i hv hu hp hd
  have hstep : step s = hostStep u := by
    obtain ⟨c, ⟨rest, hs, hr, rfl⟩ | ⟨hs, hf, rfl⟩⟩ := hu
    · exact step_scheduled hv hs hr
    · exact step_firstReady hv hs hf
  rw [hstep, hostStep_cmd hp, issue_decoded hd]

end Sys2Proof.Machine

/-! SUPPORT. Proofs of the scope's statements: reset, the invariant, the host's side and what every command keeps (R30–R54,
R115, R370). -/

namespace Sys2Proof.Machine

/-! ### Contexts between commands -/

theorem Context.quiet_iff {t : Ty} {c : Context} : c.quiet t = true ↔
    c.fsm = .idle ∧ (c.bsBase = 0 ∨ c.halted.isSome = true) ∧ c.trans = Transient.dropped
      ∧ (c.status = 0 ∨ c.status = 0xFFFFFFFF ∨ c.status = 0xFFFFFFFE)
      ∧ t.legal c.resRe = true ∧ t.legal c.resIm = true ∧ (c.argScale.map t.legal).getD true = true := by
  simp only [Context.quiet, Bool.and_eq_true, Bool.or_eq_true, beq_iff_eq, and_assoc, or_assoc]

theorem reset_quiet (t : Ty) (th : HostThread) : (Context.reset t.zero th).quiet t = true :=
  Context.quiet_iff.2 ⟨rfl, .inl rfl, rfl, .inl rfl, zero_legal t, zero_legal t, rfl⟩

theorem reset_atReset (zero : Elem) (th : HostThread) : (Context.reset zero th).AtReset zero := by
  constructor <;> rfl

/-- `finish` leaves a context between commands, with values of `T` where the command gives values of `T` (R350). -/
theorem finish_quiet {s : State} {d : Done} {t : Ty} (hd : ∀ z, d.res = some z → legalCx t z) (h : s.me.quiet t = true) :
    (s.finish d).me.quiet t = true := by
  obtain ⟨-, -, -, -, hre, him, hscale⟩ := Context.quiet_iff.1 h
  have hcode : d.code.word = 0 ∨ d.code.word = 0xFFFFFFFF ∨ d.code.word = 0xFFFFFFFE := by
    cases d.code
    · exact .inl rfl
    · exact .inr (.inl rfl)
    · exact .inr (.inr rfl)
  have hres : t.legal (s.finish d).me.resRe = true ∧ t.legal (s.finish d).me.resIm = true := by
    rw [finish_resRe, finish_resIm]
    cases hr : d.res with
    | none => exact ⟨hre, him⟩
    | some z => exact hd z hr
  exact Context.quiet_iff.2 ⟨rfl, .inl rfl, rfl, hcode, hres.1, hres.2, hscale⟩

theorem turnAway_quiet {s : State} {t : Ty} (h : s.me.quiet t = true) : s.turnAway.me.quiet t = true :=
  finish_quiet (fun _ hz => by cases hz) h

/-- A halt keeps the registers, and the scratch it may keep is that of a command that did not complete (R345). -/
theorem HaltedFrom.quiet {s u : State} (hu : HaltedFrom s u) {t : Ty} (h : s.me.quiet t = true) : u.me.quiet t = true := by
  obtain ⟨f, b, th, hme, -⟩ := hu.me
  obtain ⟨hfsm, -, htrans, hstatus, hre, him, hscale⟩ := Context.quiet_iff.1 h
  rw [hme]
  exact Context.quiet_iff.2 ⟨hfsm, .inr rfl, htrans, hstatus, hre, him, hscale⟩

/-- A host register write gives `ARG_SCALE` a value of `T` and touches nothing else a context between commands must have
(R33). -/
theorem writeReg_quiet {t : Ty} {c : Context} (reg v : Nat) (h : c.quiet t = true) : (writeReg t c reg v).quiet t = true := by
  unfold writeReg
  split
  case h_2 =>
    obtain ⟨hfsm, hbase, htrans, hstatus, hre, him, -⟩ := Context.quiet_iff.1 h
    exact Context.quiet_iff.2 ⟨hfsm, hbase, htrans, hstatus, hre, him, ofHost_legal t v⟩
  all_goals exact h

/-! ### What an act leaves -/

/-- What a host act other than a reset does at most: the configuration and the other contexts stay, memory keeps its form
and its values, `FEAT_CACHE` changes by a probe only, the current context is left between commands, and a token stays
posted. -/
structure Acted (s t : State) : Prop where
  cfg : t.cfg = s.cfg
  before : t.before = s.before
  after : t.after = s.after
  wf : s.mem.wf = true → t.mem.wf = true
  legal : s.mem.legal s.cfg.ty = true → t.mem.legal s.cfg.ty = true
  cache : cacheStep s.cfg s.featCache t.featCache
  quiet : s.me.quiet s.cfg.ty = true → t.me.quiet s.cfg.ty = true
  tokens : ∀ k, (tokenClock s.tokens k).isSome = true → (tokenClock t.tokens k).isSome = true

/-- An act that changes nothing but the current context. -/
theorem acted_setMe {s : State} {c : Context} (h : s.me.quiet s.cfg.ty = true → c.quiet s.cfg.ty = true) :
    Acted s { s with me := c } := ⟨rfl, rfl, rfl, id, id, .inl rfl, h, fun _ => id⟩

/-- A command that gives a next state. -/
theorem exec_acted {i : Instr} {s t : State} (h : exec i s = .next t) : Acted s t := by
  rcases exec_next h with ⟨d, hd, rfl⟩ | rfl
  · exact ⟨rfl, rfl, rfl, hd.settled.wf, hd.settled.legal, hd.settled.cache, finish_quiet hd.legal, fun _ => id⟩
  · exact ⟨rfl, rfl, rfl, id, id, .inl rfl, turnAway_quiet, fun _ => id⟩

/-- Recording a command's outcome posts no token. -/
theorem recordCommand_tokens {i : Instr} {s u : State} (h : recordCommand i s (exec i s) = .next u) :
    u.tokens = s.tokens := by
  cases he : exec i s with
  | next t =>
    have ht : t.tokens = s.tokens := by
      rcases exec_next he with ⟨d, -, rfl⟩ | rfl <;> rfl
    rw [he, recordCommand, Host.Outcome.next.injEq] at h
    rw [← h, ← ht]
    split <;> rfl
  | fault f =>
    rw [he, recordCommand, Host.Outcome.next.injEq] at h
    rw [← h]
    split <;> rfl
  | refused x => rw [he] at h; cases h

theorem recordCommand_acted {i : Instr} {s u : State} (h : recordCommand i s (exec i s) = .next u) : Acted s u := by
  have htok : ∀ k, (tokenClock s.tokens k).isSome = true → (tokenClock u.tokens k).isSome = true := by
    rw [recordCommand_tokens h]; exact fun _ => id
  rcases recordCommand_exec i s with ⟨t, g, he, hu⟩ | ⟨u', hu, hh⟩
  · obtain rfl : t.enter g = u := by rw [hu] at h; exact Host.Outcome.next.inj h
    exact { exec_acted he with tokens := htok }
  · obtain rfl : u' = u := by rw [hu] at h; exact Host.Outcome.next.inj h
    exact ⟨hh.cfg, hh.before, hh.after, hh.wf, hh.legal, hh.cache, hh.quiet, htok⟩

/-- A write of a command word, legal or not. -/
theorem issue_acted {w : Word32} {s t : State} (h : issue w s = .next t) : Acted s t := by
  unfold issue at h
  split at h
  · exact { recordCommand_acted h with }
  · cases h
    exact ⟨rfl, rfl, rfl, id, id, .inl rfl, turnAway_quiet (s := s.setCmd w), fun _ => id⟩

theorem place_acted (s : State) (a v : Nat) :
    Acted s (if isAddr a then { s with mem := s.mem.place a (s.cfg.ty.ofHost v) } else s) := by
  split
  · rename_i ha
    obtain ⟨h0, h64⟩ := isAddr_ofNat.1 ha
    exact ⟨rfl, rfl, rfl, fun h => Mem.place_wf h h0 h64, Mem.place_legal (ofHost_legal _ v), .inl rfl, id, fun _ => id⟩
  · exact acted_setMe id

theorem post_acted (s : State) (k : Nat) (c : List Nat) : Acted s { s with tokens := (k, c) :: s.tokens } := by
  refine ⟨rfl, rfl, rfl, id, id, .inl rfl, id, fun j hj => ?_⟩
  simp only [tokenClock, Option.isSome_map, List.find?_isSome, List.mem_cons] at hj ⊢
  obtain ⟨x, hx, hk⟩ := hj
  exact ⟨x, .inr hx, hk⟩

/-- Everything a host act but a reset does (R334, R386). -/
theorem hostAct_acted {a : HostAct} {s t : State} (ha : a ≠ .reset) (h : hostAct a s = .next t) : Acted s t := by
  cases a with
  | mov reg v =>
    simp only [hostAct] at h
    split at h
    · exact issue_acted h
    · cases h; exact acted_setMe (writeReg_quiet reg v)
  | cmd w => exact issue_acted h
  | rd reg =>
    simp only [hostAct] at h
    split at h <;> cases h <;> exact acted_setMe id
  | place a v => cases h; exact place_acted s a v
  | post k => cases h; exact post_acted s k _
  | await k => cases h; exact acted_setMe id
  | reset => exact absurd rfl ha

/-! ### Reset -/

theorem resetAll_contexts (s : State) :
    s.resetAll.contexts = s.contexts.map fun c => Context.reset s.cfg.ty.zero c.thread := by
  simp only [State.contexts, State.resetAll, List.map_append, List.map_cons]

theorem resetAll_mem_contexts {s : State} {c : Context} (h : c ∈ s.resetAll.contexts) :
    ∃ th, c = Context.reset s.cfg.ty.zero th := by
  rw [resetAll_contexts] at h
  obtain ⟨d, -, rfl⟩ := List.mem_map.1 h
  exact ⟨d.thread, rfl⟩

/-- Settles O6, by `reset_atReset`: a reset gives every context `Context.reset`. -/
theorem resetSetsEveryRegister : Obligations.ResetSetsEveryRegister := by
  refine ⟨⟨rfl, fun c hc => ?_⟩, fun s => ⟨s.resetAll, rfl, rfl, rfl, rfl, rfl, ?_, fun c hc => ?_⟩⟩
  · obtain rfl := List.mem_singleton.1 hc
    exact reset_atReset _ _
  · rw [resetAll_contexts, List.length_map]
  · obtain ⟨th, rfl⟩ := resetAll_mem_contexts hc
    exact reset_atReset _ _

/-! ### The invariant -/

theorem mem_contexts {s : State} {c : Context} : c ∈ s.contexts ↔ c ∈ s.before ∨ c = s.me ∨ c ∈ s.after := by
  rw [State.contexts, List.mem_append, List.mem_cons]

/-- The invariant speaks of the configuration, memory, the contexts and `FEAT_CACHE` only. -/
theorem State.Inv.congr {s t : State} (h : s.Inv) (hcfg : t.cfg = s.cfg) (hmem : t.mem = s.mem)
    (hctx : t.contexts = s.contexts) (hcache : t.featCache = s.featCache) : t.Inv where
  config := by rw [hcfg]; exact h.config
  memory := by rw [hmem]; exact h.memory
  elements := by rw [hcfg, hmem]; exact h.elements
  count := by rw [hcfg, hctx]; exact h.count
  quiet := by rw [hcfg, hctx]; exact h.quiet
  cache := by rw [hcfg, hcache]; exact h.cache

theorem Acted.inv {s t : State} (h : Acted s t) (hs : s.Inv) : t.Inv where
  config := by rw [h.cfg]; exact hs.config
  memory := h.wf hs.memory
  elements := by rw [h.cfg]; exact h.legal hs.elements
  count := by
    have := hs.count
    simp only [State.contexts, List.length_append, List.length_cons, h.cfg, h.before, h.after] at this ⊢
    exact this
  quiet := fun c hc => by
    rw [h.cfg]
    rw [mem_contexts, h.before, h.after] at hc
    rcases hc with hc | rfl | hc
    · exact hs.quiet c (mem_contexts.2 (.inl hc))
    · exact h.quiet (hs.quiet s.me (mem_contexts.2 (.inr (.inl rfl))))
    · exact hs.quiet c (mem_contexts.2 (.inr (.inr hc)))
  cache := by rw [h.cfg]; exact cacheStep_coherent h.cache hs.cache

theorem resetAll_inv {s : State} (hs : s.Inv) : s.resetAll.Inv where
  config := hs.config
  memory := hs.memory
  elements := hs.elements
  count := by rw [resetAll_contexts, List.length_map]; exact hs.count
  quiet := fun c hc => by
    obtain ⟨th, rfl⟩ := resetAll_mem_contexts hc
    exact reset_quiet _ th
  cache := rfl

theorem hostAct_inv {a : HostAct} {s t : State} (hs : s.Inv) (h : hostAct a s = .next t) : t.Inv := by
  by_cases ha : a = .reset
  · subst ha; cases h; exact resetAll_inv hs
  · exact (hostAct_acted ha h).inv hs

/-! ### The step -/

/-- What the current context's next host step can be: its program moves on alone, or it makes an act (R334). -/
theorem hostStep_cases {s t : State} (h : hostStep s = .next t) :
    (∃ p, t = s.setProg p) ∨ ∃ a k, s.me.thread.prog = .act a k ∧ hostAct a (s.setProg k) = .next t := by
  unfold hostStep at h
  split at h
  case h_1 => cases h; exact .inl ⟨_, rfl⟩
  case h_2 => cases h; exact .inl ⟨_, rfl⟩
  case h_3 a k hp => exact .inr ⟨a, k, hp, h⟩

/-- What a step can be: at most the schedule moves on, or a context takes its host's next step (R387). -/
theorem step_cases {s t : State} (h : step s = .next t) :
    ∃ sched, t = { s with sched := sched } ∨ ∃ c, hostStep (State.focus { s with sched := sched } c) = .next t := by
  unfold step at h
  split at h
  case isFalse => cases h
  unfold machineStep at h
  split at h
  case h_1 c rest _ =>
    refine ⟨rest, ?_⟩
    split at h
    · exact .inr ⟨c, h⟩
    · cases h; exact .inl rfl
  case h_2 hs =>
    refine ⟨s.sched, ?_⟩
    split at h
    case h_1 c _ => exact .inr ⟨c, h⟩
    case h_2 => cases h; exact .inl rfl

@[simp] theorem focus_cfg (s : State) (c : Nat) : (s.focus c).cfg = s.cfg := by unfold State.focus; split <;> rfl
@[simp] theorem focus_mem (s : State) (c : Nat) : (s.focus c).mem = s.mem := by unfold State.focus; split <;> rfl
@[simp] theorem focus_featCache (s : State) (c : Nat) : (s.focus c).featCache = s.featCache := by
  unfold State.focus; split <;> rfl

/-- Which context is current is no part of the machine's contexts. -/
@[simp] theorem focus_contexts (s : State) (c : Nat) : (s.focus c).contexts = s.contexts := by
  unfold State.focus
  split
  case h_1 x rest hd =>
    show s.contexts.take c ++ x :: rest = s.contexts
    rw [← hd, List.take_append_drop]
  case h_2 => rfl

theorem setProg_acted (s : State) (p : HostProg) : Acted s (s.setProg p) := acted_setMe id

theorem hostStep_inv {s t : State} (hs : s.Inv) (h : hostStep s = .next t) : t.Inv := by
  rcases hostStep_cases h with ⟨p, rfl⟩ | ⟨a, k, -, ha⟩
  · exact (setProg_acted s p).inv hs
  · exact hostAct_inv ((setProg_acted s k).inv hs) ha

theorem focus_inv {s : State} (hs : s.Inv) (c : Nat) : (s.focus c).Inv :=
  hs.congr (focus_cfg s c) (focus_mem s c) (focus_contexts s c) (focus_featCache s c)

/-- Settles O8: a step is at most a host step of one of the contexts, and every host act keeps the invariant. -/
theorem stepKeepsTheInvariant : Obligations.StepKeepsTheInvariant := by
  intro s t hs h
  obtain ⟨sched, hcases⟩ := step_cases h
  have hsched : State.Inv { s with sched := sched } := hs.congr rfl rfl rfl rfl
  rcases hcases with rfl | ⟨c, hc⟩
  · exact hsched
  · exact hostStep_inv (focus_inv hsched c) hc

/-! ### The start of a launch -/

theorem reset_inv : State.reset.Inv where
  config := by decide
  memory := rfl
  elements := rfl
  count := rfl
  quiet := fun c hc => by obtain rfl := List.mem_singleton.1 hc; exact reset_quiet .f64 _
  cache := rfl

/-- Launch memory is in canonical form and holds values of `T` (R80, R82). -/
theorem placeAll_wf_legal (t : Ty) (cells : List (Nat × Nat)) {m : Mem} (hw : m.wf = true) (hl : m.legal t = true) :
    (placeAll t cells m).wf = true ∧ (placeAll t cells m).legal t = true := by
  induction cells generalizing m with
  | nil => exact ⟨hw, hl⟩
  | cons c cells ih =>
    rw [placeAll]
    split
    · rename_i ha
      obtain ⟨h0, h64⟩ := isAddr_ofNat.1 ha
      exact ih (Mem.place_wf hw h0 h64) (Mem.place_legal (ofHost_legal t _) hl)
    · exact ih hw hl

theorem start_mem_contexts {l : Launch} {c : Context} (h : c ∈ l.start.contexts) :
    ∃ th, c = Context.reset l.cfg.ty.zero th := by
  rcases mem_contexts.1 h with h | rfl | h
  · cases h
  · exact ⟨_, rfl⟩
  · obtain ⟨n, -, rfl⟩ := List.mem_map.1 h
    exact ⟨_, rfl⟩

theorem Config.valid_nctx {c : Config} (h : c.valid = true) : 1 ≤ c.nctx := by
  simp only [Config.valid, Bool.and_eq_true, decide_eq_true_eq] at h
  exact h.2

theorem start_length {l : Launch} (h : l.cfg.valid = true) : l.start.contexts.length = l.cfg.nctx := by
  have := Config.valid_nctx h
  simp only [State.contexts, Launch.start, List.nil_append, List.length_cons, List.length_map, List.length_range]
  omega

theorem start_inv {l : Launch} (h : l.cfg.valid = true) : l.start.Inv where
  config := h
  memory := (placeAll_wf_legal l.cfg.ty l.memory (m := []) rfl rfl).1
  elements := (placeAll_wf_legal l.cfg.ty l.memory (m := []) rfl rfl).2
  count := start_length h
  quiet := fun c hc => by obtain ⟨th, rfl⟩ := start_mem_contexts hc; exact reset_quiet _ th
  cache := rfl

/-- Settles O7: every context of the start is `Context.reset`. -/
theorem invariantHoldsAtReset : Obligations.InvariantHoldsAtReset := by
  refine ⟨reset_inv, fun l hl => ⟨start_inv hl, rfl, start_length hl, fun c hc => ?_⟩⟩
  obtain ⟨th, rfl⟩ := start_mem_contexts hc
  exact reset_atReset _ th

/-! ### Contexts that can move -/

theorem ready_iff {s : State} {d : Nat} : s.ready d = true ↔ ∃ x, s.contexts[d]? = some x ∧ s.canMove x = true := by
  have hd : s.contexts[d]? = (s.contexts.drop d)[0]? := by rw [List.getElem?_drop, Nat.add_zero]
  rw [hd, State.ready]
  cases s.contexts.drop d <;> simp

/-- Every context but the current one is that of `before` or `after` with its number. -/
theorem getElem?_contexts_ne {s t : State} (hb : t.before = s.before) (ha : t.after = s.after) {d : Nat}
    (hd : d ≠ s.number) : t.contexts[d]? = s.contexts[d]? := by
  simp only [State.contexts, hb, ha, List.getElem?_append, State.number] at hd ⊢
  split
  · rfl
  · obtain ⟨e, he⟩ : ∃ e, d - s.before.length = e + 1 := ⟨d - s.before.length - 1, by omega⟩
    rw [he, List.getElem?_cons_succ, List.getElem?_cons_succ]

/-- A host act but a reset that has a step keeps it while the configuration and the posted tokens stay (R387). -/
theorem Acted.admits {s t : State} (h : Acted s t) {c : Context} {a : HostAct} (ha : a ≠ .reset)
    (hs : s.admits c a = true) : t.admits c a = true := by
  cases a with
  | rd reg => simpa only [State.admits, h.cfg] using hs
  | await k => exact h.tokens k hs
  | reset => exact absurd rfl ha
  | mov _ _ | cmd _ | place _ _ | post _ => rfl

theorem Acted.canMove {s t : State} (h : Acted s t) {c : Context} (hc : ∀ k, c.thread.prog ≠ .act .reset k)
    (hs : s.canMove c = true) : t.canMove c = true := by
  simp only [State.canMove, Bool.and_eq_true] at hs ⊢
  refine ⟨hs.1, ?_⟩
  cases hp : c.thread.prog with
  | done => rw [hp] at hs; cases hs.2
  | act a k =>
    rw [hp] at hs
    exact h.admits (by rintro rfl; exact hc k hp) hs.2
  | ifRead _ _ _ _ => rfl

/-- Settles O15, by `hostAct_acted`: the other contexts stay, and what lets them move stays. -/
theorem otherContextsAreUntouched : Obligations.OtherContextsAreUntouched := by
  intro a s t ha h
  have hact := hostAct_acted ha h
  refine ⟨hact.before, hact.after, fun d hd hr hx => ?_⟩
  obtain ⟨x, hget, hmove⟩ := ready_iff.1 hr
  refine ready_iff.2 ⟨x, ?_, hact.canMove (hx x · hget) hmove⟩
  rw [getElem?_contexts_ne hact.before hact.after hd, hget]

/-! ### The feature cache -/

/-- What a probe leaves in `FEAT_CACHE`: what was there, or the mask, with caching enabled, in place of 0 (R264). -/
theorem cacheStep_cases {c : Config} {w w' : Word32} (h : cacheStep c w w') :
    w' = w ∨ (c.featCacheEn = true ∧ w = 0 ∧ w' = (freshMask c).setWidth 32) := by
  rcases h with rfl | rfl
  · exact .inl rfl
  by_cases he : c.featCacheEn = true
  · by_cases hw : w = 0
    · subst hw; exact .inr ⟨he, rfl, by rw [probe_empty he]⟩
    · exact .inl (by rw [probe_filled he hw])
  · exact .inl (by rw [probe_uncached (Bool.not_eq_true _ ▸ he)])

theorem setWidth_mask_lt (m : Mask) : (m.setWidth 32).toNat < 64 := by
  rw [BitVec.toNat_setWidth]
  exact Nat.lt_of_le_of_lt (Nat.mod_le _ _) m.isLt

/-- Settles O16, by `cacheStep_cases`: the one write of `FEAT_CACHE` is a probe's. -/
theorem featCacheIsWrittenOnce : Obligations.FeatCacheIsWrittenOnce := by
  intro a s t ha h
  have hc := cacheStep_cases (hostAct_acted ha h).cache
  refine ⟨hc, fun hlt => ?_⟩
  rcases hc with hw | ⟨-, -, hw⟩ <;> rw [hw]
  · exact hlt
  · exact setWidth_mask_lt _

/-! ### The frame of a command -/

/-- Settles O20, by `exec_next`: a command is turned away, or leaves what `Ends` allows. -/
theorem commandKeepsItsFrame : Obligations.CommandKeepsItsFrame := by
  intro i s t h
  rcases exec_next h with ⟨d, hd, rfl⟩ | rfl
  · refine ⟨finish_sameArgs s d, finish_sameOthers s d, fun hw => ?_, fun hw => ?_, fun a ha => ?_, hd.settled.admitted,
      hd.settled.cache⟩
    · rw [finish_result, hd.result hw, Option.getD_none]
    · rw [finish_resRe, finish_resIm, hd.res hw]
      exact ⟨rfl, rfl⟩
    · exact hd.settled.outside a fun ⟨v, hv, hr⟩ => ha v hv hr
  · exact ⟨turnAway_sameArgs s, turnAway_sameOthers s, fun _ => rfl, fun _ => ⟨rfl, rfl⟩, fun _ _ => rfl, fun _ => rfl,
      .inl rfl⟩

/-! ### Registers by number -/

/-- A host write of an argument register, `ARG_SCALE` apart, is read back at 64 bits (R33–R38). -/
theorem readReg_writeReg_same (cfg : Config) (t : Ty) (c : Context) {reg : Nat} (v : Nat) (h4 : 4 ≤ reg) (hF : reg ≤ 0x0F)
    (h5 : reg ≠ 5) : readReg cfg (writeReg t c reg v) reg = some (v % 2 ^ 64) := by
  have hv : (BitVec.ofNat 64 v).toNat = v % 2 ^ 64 := BitVec.toNat_ofNat v 64
  obtain rfl | h6 : reg = 4 ∨ 6 ≤ reg := by omega
  · exact congrArg some hv
  · interval_cases reg <;> exact congrArg some hv

/-- A host write leaves every other register's read (R33). -/
theorem readReg_writeReg_ne (cfg : Config) (t : Ty) (c : Context) {reg reg' : Nat} (v : Nat) (h : reg' ≠ reg) :
    readReg cfg (writeReg t c reg v) reg' = readReg cfg c reg' := by
  unfold writeReg
  split
  case h_13 => rfl
  all_goals
    unfold readReg
    split
    all_goals simp at h ⊢

/-- A host write of a number that is no argument register's is ignored (R33). -/
theorem writeReg_ignored (t : Ty) (c : Context) {reg : Nat} (v : Nat) (h : reg < 4 ∨ 0x0F < reg) :
    writeReg t c reg v = c := by
  unfold writeReg
  split
  case h_13 => rfl
  all_goals omega

theorem readReg_unknown (cfg : Config) (c : Context) {reg : Nat} (h : 0x11 < reg) : readReg cfg c reg = some 0 := by
  unfold readReg
  split
  case h_19 => rfl
  all_goals omega

/-- A register that is no argument register has a value (R31). -/
theorem readReg_isSome (cfg : Config) (c : Context) {reg : Nat} (h : reg < 4 ∨ 0x0F < reg) :
    (readReg cfg c reg).isSome = true := by
  unfold readReg
  split
  all_goals simp at h ⊢

/-- Only an argument register can be UNWRITTEN (R31). -/
theorem argReg_of_unwritten {cfg : Config} {c : Context} {reg : Nat} (h : readReg cfg c reg = none) :
    4 ≤ reg ∧ reg ≤ 0x0F := by
  by_contra hreg
  have hsome := readReg_isSome cfg c (reg := reg) (by omega)
  rw [h] at hsome
  cases hsome

/-- A context whose host would read an UNWRITTEN register cannot move (R33). -/
theorem not_canMove_of_read_unwritten {s : State} {c : Context} {reg : Nat} {k : HostProg}
    (hp : c.thread.prog = .act (.rd reg) k) (h : readReg s.cfg c reg = none) : s.canMove c = false := by
  simp only [State.canMove, hp, State.admits, h, Option.isSome_none, Bool.and_false]

theorem hostAct_rd {s : State} {reg x : Nat} (h : readReg s.cfg s.me reg = some x) :
    hostAct (.rd reg) s = .next { s with
      me := { s.me with thread := { s.me.thread with seen := (reg, x) :: s.me.thread.seen } } } := by
  simp only [hostAct, h]

theorem hostAct_mov {s : State} {reg : Nat} (v : Nat) (h : reg ≠ 0) :
    hostAct (.mov reg v) s = .next { s with me := writeReg s.cfg.ty s.me reg v } := by
  simp only [hostAct, if_neg h]

theorem ready_number (s : State) : s.ready s.number = s.canMove s.me := by
  simp [State.ready, State.contexts, State.number]

/-- Settles O12, by the equations of `readReg` and `writeReg` above. -/
theorem hostRegisterMapIsKept : Obligations.HostRegisterMapIsKept := by
  intro s reg v
  refine ⟨hostAct_mov v, ?_, readReg_writeReg_same _ _ _ v, rfl, fun reg' => readReg_writeReg_ne _ _ _ v,
    writeReg_ignored _ _ v, readReg_unknown _ _, rfl, rfl, rfl, rfl, rfl, rfl, fun x => hostAct_rd, fun h => ?_⟩
  · rintro rfl; rfl
  · obtain ⟨h4, hF⟩ := argReg_of_unwritten h
    exact ⟨h4, hF, fun k hp => by rw [ready_number, not_canMove_of_read_unwritten hp h]⟩

/-! ### The register `CFG` -/

theorem flagNat_le (b : Bool) : Machine.flagNat b ≤ 1 := by cases b <;> decide

theorem Ty.field_le (t : Ty) : t.field ≤ 4 := by cases t <;> decide
theorem Arch.field_le (a : Arch) : a.field ≤ 2 := by cases a <;> decide

theorem Config.valid_lbuf_q {c : Config} (h : c.valid = true) : c.lbuf ≤ 30 ∧ c.q ≤ 15 := by
  simp only [Config.valid, Bool.and_eq_true, decide_eq_true_eq] at h
  omega

/-- The bits `[i, i + len)` of a word, as a number. -/
theorem extract_ofNat {n : Nat} (hn : n < 2 ^ 22) {i len x : Nat} (h : n / 2 ^ i % 2 ^ len = x) :
    ((BitVec.ofNat 32 n).extractLsb' i len).toNat = x := by
  rw [BitVec.extractLsb'_toNat, BitVec.toNat_ofNat, Nat.mod_eq_of_lt (hn.trans (by decide)), Nat.shiftRight_eq_div_pow, h]

/-- A bit of a word that is a flag. -/
theorem getLsbD_ofNat_flag {n : Nat} (hn : n < 2 ^ 22) {i : Nat} {b : Bool} (h : n / 2 ^ i % 2 = Machine.flagNat b) :
    (BitVec.ofNat 32 n).getLsbD i = b := by
  rw [BitVec.getLsbD, BitVec.toNat_ofNat, Nat.mod_eq_of_lt (hn.trans (by decide)), Nat.testBit_eq_decide_div_mod_eq, h]
  cases b <;> rfl

/-- The fields of `CFG` do not overlap, and end below bit 22 (R43). -/
theorem cfgWord_fields {c : Config} (h : c.valid = true) :
    (c.cfgWord.extractLsb' 0 5).toNat = c.lbuf ∧ (c.cfgWord.extractLsb' 5 5).toNat = c.q
    ∧ c.cfgWord.getLsbD 10 = c.potSimdEn ∧ c.cfgWord.getLsbD 11 = c.avxEn ∧ c.cfgWord.getLsbD 12 = c.avx512En
    ∧ c.cfgWord.getLsbD 13 = c.bluesteinEn ∧ c.cfgWord.getLsbD 14 = c.brevTableEn
    ∧ c.cfgWord.getLsbD 15 = c.featCacheEn
    ∧ (c.cfgWord.extractLsb' 16 3).toNat = c.ty.field ∧ (c.cfgWord.extractLsb' 19 2).toNat = c.arch.field
    ∧ c.cfgWord.getLsbD 21 = c.probeHook.isSome ∧ c.cfgWord.toNat < 2 ^ 22 := by
  obtain ⟨hl, hq⟩ := Config.valid_lbuf_q h
  have h10 := flagNat_le c.potSimdEn
  have h11 := flagNat_le c.avxEn
  have h12 := flagNat_le c.avx512En
  have h13 := flagNat_le c.bluesteinEn
  have h14 := flagNat_le c.brevTableEn
  have h15 := flagNat_le c.featCacheEn
  have h16 := Ty.field_le c.ty
  have h19 := Arch.field_le c.arch
  have h21 := flagNat_le c.probeHook.isSome
  obtain ⟨n, hw, hn⟩ : ∃ n, c.cfgWord = BitVec.ofNat 32 n ∧ n = c.lbuf + 2 ^ 5 * c.q + 2 ^ 10 * flagNat c.potSimdEn
      + 2 ^ 11 * flagNat c.avxEn + 2 ^ 12 * flagNat c.avx512En + 2 ^ 13 * flagNat c.bluesteinEn
      + 2 ^ 14 * flagNat c.brevTableEn + 2 ^ 15 * flagNat c.featCacheEn + 2 ^ 16 * c.ty.field + 2 ^ 19 * c.arch.field
      + 2 ^ 21 * flagNat c.probeHook.isSome :=
    ⟨_, by rw [Config.cfgWord, Nat.mod_eq_of_lt (by omega), Nat.mod_eq_of_lt (by omega)], rfl⟩
  have hlt : n < 2 ^ 22 := by omega
  rw [hw]
  refine ⟨extract_ofNat hlt ?_, extract_ofNat hlt ?_, getLsbD_ofNat_flag hlt ?_, getLsbD_ofNat_flag hlt ?_,
    getLsbD_ofNat_flag hlt ?_, getLsbD_ofNat_flag hlt ?_, getLsbD_ofNat_flag hlt ?_, getLsbD_ofNat_flag hlt ?_,
    extract_ofNat hlt ?_, extract_ofNat hlt ?_, getLsbD_ofNat_flag hlt ?_, ?_⟩
  case refine_12 => rw [BitVec.toNat_ofNat]; omega
  all_goals omega

/-! ### The configuration -/

theorem hostAct_cfg {a : HostAct} {s t : State} (h : hostAct a s = .next t) : t.cfg = s.cfg := by
  by_cases ha : a = .reset
  · subst ha; cases h; rfl
  · exact (hostAct_acted ha h).cfg

theorem hostStep_cfg {s t : State} (h : hostStep s = .next t) : t.cfg = s.cfg := by
  rcases hostStep_cases h with ⟨p, rfl⟩ | ⟨a, k, -, ha⟩
  · rfl
  · exact (hostAct_cfg ha).trans (setProg_cfg s k)

theorem step_cfg {s t : State} (h : step s = .next t) : t.cfg = s.cfg := by
  obtain ⟨sched, rfl | ⟨c, hc⟩⟩ := step_cases h
  · rfl
  · exact (hostStep_cfg hc).trans (focus_cfg _ c)

/-- Settles O13, by `cfgWord_fields` and `step_cfg`. -/
theorem cfgReportsTheBuild : Obligations.CfgReportsTheBuild :=
  ⟨fun _ => ⟨rfl, fun _ => rfl, fun _ => step_cfg⟩, fun _ => cfgWord_fields⟩

/-! ### UNWRITTEN registers -/

/-- The body of a command never faults with `UnwrittenRegister`: it reads no argument register. -/
def ReadsNoArg {α : Type} (r : Except Stop α) : Prop := r ≠ .error (.fault .unwrittenRegister)

theorem ReadsNoArg.ok {α : Type} (a : α) : ReadsNoArg (.ok a) := fun h => by cases h

theorem ReadsNoArg.bind {α β : Type} {x : Except Stop α} {f : α → Except Stop β} (h : ReadsNoArg x)
    (hf : ∀ a, ReadsNoArg (f a)) : ReadsNoArg (x.bind f) := fun he => by
  rcases bind_eq_error.1 he with he | ⟨a, -, he⟩
  · exact h he
  · exact hf a he

theorem ReadsNoArg.ite {α : Type} {p : Prop} [Decidable p] {x y : Except Stop α} (hx : ReadsNoArg x) (hy : ReadsNoArg y) :
    ReadsNoArg (if p then x else y) := by split <;> assumption

theorem invalidIf_readsNoArg (b : Bool) : ReadsNoArg (invalidIf b) := fun h => by cases (invalidIf_eq_error.1 h).2

theorem checkOverlap_readsNoArg (ss : List View) (dr di : View) : ReadsNoArg (checkOverlap ss dr di) := fun h => by
  cases (checkOverlap_eq_error.1 h).2

theorem liftWork_readsNoArg {r : Except Fault Work} (h : OnlyStuck r) : ReadsNoArg (liftWork r) := fun he => by
  cases liftWork_fault h he

theorem liftCount_readsNoArg {r : Except Fault (Nat × Work)} (h : OnlyStuck r) : ReadsNoArg (liftCount r) := by
  rcases r with f | x
  · rw [h f rfl]; exact fun he => by cases he
  · exact .ok _

theorem liftCode_readsNoArg {r : Except Fault (Code × Work)} (h : OnlyStuck r) : ReadsNoArg (liftCode r) := by
  rcases r with f | x
  · rw [h f rfl]; exact fun he => by cases he
  · exact .ok _

/-- Work that is done on a checked command. -/
theorem doneWork_readsNoArg {r : Except Fault Work} (h : OnlyStuck r) : ReadsNoArg ((liftWork r).bind doneOk) :=
  (liftWork_readsNoArg h).bind fun _ => .ok _

/-- The checks on a destination pair, then the rest (R302, R303). -/
theorem checkedPair_readsNoArg {α : Type} {bad : Bool} {dr di : View} {r : Except Stop α} (h : ReadsNoArg r) :
    ReadsNoArg ((invalidIf bad).bind fun _ => (checkDst dr di).bind fun _ => (checkOverlap [] dr di).bind fun _ => r) :=
  (invalidIf_readsNoArg _).bind fun _ => (invalidIf_readsNoArg _).bind fun _ => (checkOverlap_readsNoArg _ _ _).bind
    fun _ => h

/-- The body of a command faults with `UnwrittenRegister` exactly when one of these registers is UNWRITTEN (R31). -/
def FaultsOn {α : Type} (c : Context) (regs : List ArgReg) (r : Except Stop α) : Prop :=
  r = .error (.fault .unwrittenRegister) ↔ ∃ reg ∈ regs, c.argument reg = none

theorem ReadsNoArg.faultsOn {α : Type} {r : Except Stop α} (h : ReadsNoArg r) (c : Context) : FaultsOn c [] r :=
  ⟨fun he => absurd he h, fun ⟨_, hm, _⟩ => by cases hm⟩

/-- Reading a register, then the rest. -/
theorem FaultsOn.arg {α β : Type} {c : Context} {o : Option α} {f : α → Except Stop β} {reg : ArgReg}
    {regs : List ArgReg} {code : α → Nat} (h : ∀ x, FaultsOn c regs (f x)) (hreg : c.argument reg = o.map code := by rfl) :
    FaultsOn c (reg :: regs) ((arg o).bind f) := by
  simp only [FaultsOn, List.mem_cons, exists_eq_or_imp, hreg, Option.map_eq_none_iff]
  cases o with
  | none => exact ⟨fun _ => .inl rfl, fun _ => rfl⟩
  | some x => exact (h x).trans ⟨.inr, fun hp => hp.resolve_left (by simp)⟩

/-- Once the last register has been read. -/
theorem FaultsOn.bind {α β : Type} {c : Context} {regs : List ArgReg} {x : Except Stop α} {f : α → Except Stop β}
    (h : FaultsOn c regs x) (hf : ∀ a, ReadsNoArg (f a)) : FaultsOn c regs (x.bind f) := by
  refine Iff.trans ⟨fun he => ?_, fun he => ?_⟩ h
  · exact (bind_eq_error.1 he).resolve_right fun ⟨a, _, ha⟩ => hf a ha
  · rw [he]; rfl

section bodies
variable (c : Config) (me : Context) (w : Work) (σ : Dir) (p : Policy)

theorem dstPair_faultsOn : FaultsOn me [.dstRe, .dstIm, .dsRe, .dsIm] (dstPair me) :=
  .arg fun _ => .arg fun _ => .arg fun _ => .arg fun _ => (ReadsNoArg.ok _).faultsOn me

theorem splitArgs_faultsOn : FaultsOn me [.srcRe, .srcIm, .dstRe, .dstIm] (splitArgs me) :=
  .arg fun _ => .arg fun _ => .arg fun _ => .arg fun _ => (ReadsNoArg.ok _).faultsOn me

theorem interleavedArgs_faultsOn : FaultsOn me [.srcRe, .dstRe] (interleavedArgs me) :=
  .arg fun _ => .arg fun _ => (ReadsNoArg.ok _).faultsOn me

theorem stridedArgs_faultsOn :
    FaultsOn me [.srcRe, .srcIm, .dstRe, .dstIm, .ssRe, .ssIm, .dsRe, .dsIm] (stridedArgs me) :=
  .arg fun _ => .arg fun _ => .arg fun _ => .arg fun _ => .arg fun _ => .arg fun _ => .arg fun _ => .arg fun _ =>
    (ReadsNoArg.ok _).faultsOn me

theorem brvArgs_faultsOn : FaultsOn me [.srcRe, .ssRe, .dstRe, .dsRe] (brvArgs me) :=
  .arg fun _ => .arg fun _ => .arg fun _ => .arg fun _ => (ReadsNoArg.ok _).faultsOn me

/-- A transform reads its count, its scale, and what its shape reads (R301). -/
theorem runXform_faultsOn {shape : Context → Except Stop (Nat → Views)} {regs : List ArgReg}
    (h : FaultsOn me regs (shape me)) (fb : Bool) :
    FaultsOn me (.n :: .scale :: regs) (runXform c me w shape σ p fb) :=
  .arg fun _ => .arg fun _ => h.bind fun _ => .ite (.ok _)
    ((invalidIf_readsNoArg _).bind fun _ => (checkOverlap_readsNoArg _ _ _).bind fun _ =>
      liftCode_readsNoArg (transform_stuck _ _ _ _ _ _ _ _))

theorem runBrv_faultsOn (l : Nat) : FaultsOn me [.srcRe, .ssRe, .dstRe, .dsRe] (runBrv c me w l) :=
  (brvArgs_faultsOn me).bind fun _ => (invalidIf_readsNoArg _).bind fun _ =>
    .ite (doneWork_readsNoArg (bitRev_stuck _ _ _ _ _))
      (.ite (fun h => by cases h) (doneWork_readsNoArg (bitRev_stuck _ _ _ _ _)))

theorem runShuffle_faultsOn {shuffle : Int → Nat → Work → Except Fault Work}
    (h : ∀ b l w, OnlyStuck (shuffle b l w)) : FaultsOn me [.n, .dstRe] (runShuffle shuffle me w) :=
  .arg fun _ => .arg fun _ => ReadsNoArg.faultsOn
    (.ite (.ok _) ((invalidIf_readsNoArg _).bind fun _ => doneWork_readsNoArg (h _ _ _))) me

theorem runInPlace_faultsOn (l : Nat) (bad : Bool) {engine : View → View → Work → Except Fault Work}
    (h : ∀ vr vi w, OnlyStuck (engine vr vi w)) :
    FaultsOn me [.dstRe, .dstIm, .dsRe, .dsIm] (runInPlace me w l bad engine) :=
  (dstPair_faultsOn me).bind fun _ => checkedPair_readsNoArg (doneWork_readsNoArg (h _ _ _))

theorem runScl_faultsOn : FaultsOn me [.n, .scale, .dstRe, .dstIm, .dsRe, .dsIm] (runScl c me w) :=
  .arg fun _ => .arg fun _ => (dstPair_faultsOn me).bind fun _ =>
    .ite (.ok _) (checkedPair_readsNoArg (doneWork_readsNoArg (scaleViews_stuck _ _ _ _ _ _)))

theorem runTwg_faultsOn (bigN l : Nat) : FaultsOn me [.dstRe, .dstIm, .dsRe, .dsIm] (runTwg c me w σ bigN l) :=
  (dstPair_faultsOn me).bind fun _ => checkedPair_readsNoArg (doneWork_readsNoArg (storeCx_stuck _ _ _ _ _))

theorem runTwf_faultsOn : FaultsOn me [.n, .dstRe, .dstIm, .dsRe, .dsIm] (runTwf c me w σ) :=
  .arg fun _ => (dstPair_faultsOn me).bind fun _ =>
    .ite (.ok _) (checkedPair_readsNoArg (doneWork_readsNoArg (storeCx_stuck _ _ _ _ _)))

theorem runCxf_faultsOn : FaultsOn me [.p, .q] (runCxf c me w) :=
  .arg fun _ => .arg fun _ =>
    ReadsNoArg.faultsOn ((invalidIf_readsNoArg _).bind fun _ => .ok _) me

theorem runSel_faultsOn (l depth : Nat) : FaultsOn me [.dsRe, .dsIm] (runSel c me w p l depth) :=
  .arg fun _ => .arg fun _ =>
    ReadsNoArg.faultsOn ((invalidIf_readsNoArg _).bind fun _ => .ite (.ok _) (.ok _)) me

theorem runOmp_faultsOn (l depth : Nat) : FaultsOn me [.dstRe, .dstIm, .dsRe, .dsIm] (runOmp c me w σ p l depth) :=
  (dstPair_faultsOn me).bind fun _ => checkedPair_readsNoArg
    ((liftCount_readsNoArg (ompRun_stuck _ _ _ _ _ _ _ _)).bind fun _ => .ok _)

end bodies

/-- Settles O21: each body reads the registers of R115 in their order, and then no other. -/
theorem unwrittenRegisterFaults : Obligations.UnwrittenRegisterFaults := by
  intro i s
  have key : ∀ {r : Except Stop Done}, exec i s = s.complete r → FaultsOn s.me (argsRead i) r →
      (exec i s = .fault .unwrittenRegister ↔ ∃ reg ∈ argsRead i, s.me.argument reg = none) :=
    fun he hr => he ▸ complete_fault.trans hr
  cases i with
  | xfs σ p => exact key rfl (runXform_faultsOn _ _ _ σ p (splitArgs_faultsOn _) false)
  | xfi σ p => exact key rfl (runXform_faultsOn _ _ _ σ p (interleavedArgs_faultsOn _) false)
  | xft σ p => exact key rfl (runXform_faultsOn _ _ _ σ p (stridedArgs_faultsOn _) false)
  | blu σ p => exact key rfl (runXform_faultsOn _ _ _ σ p (stridedArgs_faultsOn _) true)
  | brv l => exact key rfl (runBrv_faultsOn _ _ _ l)
  | dil => exact key rfl (runShuffle_faultsOn _ _ (deinterleave_stuck _))
  | ilv => exact key rfl (runShuffle_faultsOn _ _ (interleave_stuck _))
  | pass σ d l => exact key rfl (runInPlace_faultsOn _ _ l _ fun _ _ _ => pass_stuck _ _ _ _ _ _ _)
  | r8 σ l => exact key rfl (runInPlace_faultsOn _ _ l _ fun _ _ _ => r8Kernel_stuck _ _ _ _ _ _)
  | mps σ p l depth => exact key rfl (runInPlace_faultsOn _ _ l _ fun _ _ _ => multipass_stuck _ _ _ _ _ _ _ _)
  | bfy σ p l => exact key rfl (runInPlace_faultsOn _ _ l _ fun _ _ _ => dbcF_stuck _ _ _ _ _ _ _)
  | scl => exact key rfl (runScl_faultsOn _ _ _)
  | twg σ bigN l => exact key rfl (runTwg_faultsOn _ _ _ σ bigN l)
  | twf σ => exact key rfl (runTwf_faultsOn _ _ _ σ)
  | cxm k => exact key (r := runCxm s.cfg s.work k) rfl (ReadsNoArg.faultsOn (.ok _) _)
  | cxf => exact key rfl (runCxf_faultsOn _ _ _)
  | prb => exact key (r := runPrb s.cfg s.work) rfl (ReadsNoArg.faultsOn (.ok _) _)
  | sel p l depth => exact key rfl (runSel_faultsOn _ _ _ p l depth)
  | omp σ p l depth => exact key rfl (runOmp_faultsOn _ _ _ σ p l depth)

end Sys2Proof.Machine

/-! SUPPORT. Proofs of the scope's statements: elements the host places (R82, R380), and the order between commands of
different contexts (R95, R387). -/

namespace Sys2Proof.Machine

/-! ### Placing an element -/

/-- What a placed element leaves at each integer address (R82). -/
theorem Mem.place_at {m : Mem} {a : Nat} (ha : isAddr a = true) (v : Elem) (b : Int) :
    (m.place a v).atAddr b = if b = a then some v else m.atAddr b := by
  simp only [Mem.atAddr]
  by_cases hb : isAddr b = true
  · have hpos := (isAddr_iff.1 hb).1
    rw [if_pos hb, if_pos hb, Mem.place_read]
    congr 1
    simp only [eq_iff_iff]
    omega
  · rw [if_neg hb, if_neg hb, if_neg (by rintro rfl; exact hb ha)]

/-- Settles O14, by `Mem.place_at`. -/
theorem placedElementIsHeld : Obligations.PlacedElementIsHeld := by
  intro s a v h0 h64
  have ha : isAddr a = true := isAddr_ofNat.2 ⟨h0, h64⟩
  refine ⟨{ s with mem := s.mem.place a (s.cfg.ty.ofHost v) }, ?_, rfl, ?_, fun b hb => ?_⟩
  · simp only [hostAct, ha, if_true]
  · rw [Mem.place_at ha, if_pos rfl]
  · rw [Mem.place_at ha, if_neg hb]

/-! ### Races -/

/-- A recorded command is unordered with what now runs: it is of another context, and later than all that context's
commands this one knows of (R387). -/
theorem orderedBefore_eq_false {me : Nat} {clock : List Nat} {r : CmdRecord} :
    orderedBefore me clock r = false ↔ r.ctx ≠ me ∧ clock.getD r.ctx 0 < r.seq := by
  simp only [orderedBefore, Bool.or_eq_false_iff, beq_eq_false_iff_ne, ne_eq, decide_eq_false_iff_not, not_le]

/-- Two commands conflict where one writes an address in a footprint of the other (R95, R379). -/
theorem conflicts_iff {f g : Footprint} : f.conflicts g = true ↔
    ∃ a, (InSome f.writes a ∧ InSome g.views a) ∨ (InSome g.writes a ∧ InSome f.views a) := by
  simp only [Footprint.conflicts, Bool.or_eq_true, anyMeet_iff, exists_or]

/-- There is a race exactly where some unordered command of the log conflicts (R95, R387). -/
theorem racesWith_ne_nil {me : Nat} {clock : List Nat} {f : Footprint} {log : List CmdRecord} :
    racesWith me clock f log ≠ [] ↔
      ∃ r ∈ log, r.ctx ≠ me ∧ clock.getD r.ctx 0 < r.seq ∧ f.conflicts r.fp = true := by
  simp only [racesWith, ne_eq, List.filter_eq_nil_iff, Bool.and_eq_true, Bool.not_eq_true', orderedBefore_eq_false,
    not_forall, not_not, exists_prop, and_assoc]

/-- A command counts all its views, whatever it came to (log 18). -/
theorem countedFootprint_views (i : Instr) (s t : State) :
    (countedFootprint i s (.next t)).views = (footprint i s.me).views := by
  simp only [countedFootprint]; split <;> rfl

/-- A command counts its destinations as written where it succeeded and made an access (log 18). -/
theorem inSome_countedFootprint_writes {i : Instr} {s t : State} {a : Int} :
    InSome (countedFootprint i s (.next t)).writes a ↔
      t.me.status = 0 ∧ idleOn i s = false ∧ InSome (footprint i s.me).writes a := by
  simp only [countedFootprint]
  split
  case isTrue h => exact ⟨fun hw => ⟨h.1, h.2, hw⟩, fun hw => hw.2.2⟩
  case isFalse h => exact ⟨fun ⟨_, hv, _⟩ => absurd hv List.not_mem_nil, fun hw => absurd ⟨hw.1, hw.2.1⟩ h⟩

/-- A command leaves the number of its context and the record of faults (R344). -/
theorem exec_number_faults {i : Instr} {s t : State} (h : exec i s = .next t) :
    t.number = s.number ∧ t.faults = s.faults := by
  rcases exec_next h with ⟨d, -, rfl⟩ | rfl <;> exact ⟨rfl, rfl⟩

/-- A race is recorded as the fault of the context of the later command (R344). -/
theorem raceHalt_faults (s t : State) (f : Footprint) (l : List CmdRecord) :
    (raceHalt s t f l).faults = { ctx := t.number, fault := .crossContextOverlap } :: t.faults := rfl

/-! ### Tokens -/

/-- Joining clocks is the maximum at each context (R387). -/
theorem joinClock_getD (c c' : List Nat) (d : Nat) : (joinClock c c').getD d 0 = max (c.getD d 0) (c'.getD d 0) := by
  induction c, c' using joinClock.induct generalizing d with
  | case1 l => simp [joinClock]
  | case2 l => cases l <;> simp [joinClock]
  | case3 x xs y ys ih =>
    cases d with
    | zero => rfl
    | succ d => simpa only [joinClock, List.getD_cons_succ] using ih d

/-- A posted clock is the poster's with its own commands counted (R387). -/
theorem postedClock_getD (me : Nat) (th : HostThread) (d : Nat) : (postedClock me th).getD d 0
    = if d = me then max (th.clock.getD d 0) th.issued else th.clock.getD d 0 := by
  have hown : (List.replicate me 0 ++ [th.issued]).getD d 0 = if d = me then th.issued else 0 := by
    rcases Nat.lt_trichotomy d me with h | rfl | h
    · simp [List.getElem?_append, h, Nat.ne_of_lt h]
    · simp
    · rw [if_neg (by omega), List.getD_eq_default]
      simpa using h
  rw [postedClock, joinClock_getD, hown]
  split
  · rfl
  · exact Nat.max_zero _

theorem tokenClock_cons_self (k : Nat) (c : List Nat) (tokens : List (Nat × List Nat)) :
    tokenClock ((k, c) :: tokens) k = some c := by
  simp [tokenClock]

/-- A context whose host would await a token that is not posted cannot move (R387). -/
theorem not_canMove_of_await_unposted {s : State} {c : Context} {k : Nat} {rest : HostProg}
    (hp : c.thread.prog = .act (.await k) rest) (h : tokenClock s.tokens k = none) : s.canMove c = false := by
  simp only [State.canMove, hp, State.admits, h, Option.isSome_none, Bool.and_false]

/-- Settles O17: a race is a conflict with an unordered command (`racesWith_ne_nil`), and clocks are joined at each context
(`joinClock_getD`). -/
theorem unorderedOverlapIsARace : Obligations.UnorderedOverlapIsARace := by
  refine ⟨fun i s t h => ?_, fun k s t h => ?_, fun k s t c hc h d => ?_, fun k s rest hk hp => ?_⟩
  · have hraces := racesWith_ne_nil (me := s.number) (clock := s.me.thread.clock)
      (f := countedFootprint i s (.next t)) (log := s.log)
    simp only [conflicts_iff, inSome_countedFootprint_writes, countedFootprint_views, and_assoc] at hraces
    obtain ⟨hnum, hfaults⟩ := exec_number_faults h
    by_cases hr : racesWith s.number s.me.thread.clock (countedFootprint i s (.next t)) s.log = []
    · exact ⟨_, recordCommand_next hr, fun hraced => absurd hr (hraces.2 hraced), fun _ => rfl⟩
    · refine ⟨_, recordCommand_race hr, fun _ => ⟨?_, rfl, rfl⟩, fun hn => absurd (hraces.1 hr) hn⟩
      rw [enter_faults, raceHalt_faults, hnum, hfaults]
  · cases h
    exact ⟨_, tokenClock_cons_self _ _ _, postedClock_getD _ _⟩
  · cases h
    simp only [hc, Option.getD_some, joinClock_getD]
  · rw [ready_number, not_canMove_of_await_unposted hp hk]

end Sys2Proof.Machine

/-! SUPPORT. Proofs of the scope's statements: a command whose checks pass is stuck at an address that is not admitted
(R82, R345). An operation accesses an address where it ends only if the address is admitted (`Needs`); what runs before it
admits no address (`KeepsAdmitted`). -/

namespace Sys2Proof.Machine

/-! ### Accessing an address -/

/-- The operation accesses `a`: it ends only where `a` is admitted (R82). -/
def Needs {α : Type} (a : Int) (op : Work → Except Fault α) : Prop :=
  ∀ w x, op w = .ok x → (w.mem.atAddr a).isSome = true

/-- Where the operation ends, the same addresses are admitted as before. -/
def KeepsAdmitted (op : Work → Except Fault Work) : Prop := ∀ w w', op w = .ok w' → SameAdmitted w.mem w'.mem

/-- `a` is the address of position `k` of one of a pair of streams. -/
def AtPosition (vr vi : View) (k : Nat) (a : Int) : Prop := a = vr.addr k ∨ a = vi.addr k

theorem Only.keepsAdmitted {c : Config} {P : Int → Prop} {op : Work → Except Fault Work} (h : Only c P op) :
    KeepsAdmitted op := fun w w' hw => Mem.admitted_of_keys (h w w' hw).keys

/-- What runs first accesses the address. -/
theorem Needs.bind {α β : Type} {a : Int} {op : Work → Except Fault α} (h : Needs a op) (f : α → Except Fault β) :
    Needs a (fun w => (op w).bind f) := fun w _ hw =>
  let ⟨x, hx, _⟩ := bind_eq_ok.1 hw
  h w x hx

/-- What runs second accesses the address. -/
theorem Needs.after {α : Type} {a : Int} {op : Work → Except Fault Work} {op' : Work → Except Fault α}
    (h' : Needs a op') (h : KeepsAdmitted op) : Needs a (fun w => (op w).bind op') := fun w _ hw => by
  obtain ⟨w1, h1, h2⟩ := bind_eq_ok.1 hw
  rw [← h w w1 h1 a]
  exact h' w1 _ h2

theorem KeepsAdmitted.bind {op op' : Work → Except Fault Work} (h : KeepsAdmitted op) (h' : KeepsAdmitted op') :
    KeepsAdmitted (fun w => (op w).bind op') := fun w w' hw a => by
  obtain ⟨w1, h1, h2⟩ := bind_eq_ok.1 hw
  exact (h' w1 w' h2 a).trans (h w w1 h1 a)

theorem KeepsAdmitted.forUp {n : Nat} {f : Nat → Work → Except Fault Work} (h : ∀ k, k < n → KeepsAdmitted (f k)) :
    KeepsAdmitted (forUp n f) := by
  induction n with
  | zero => intro w w' hw; cases hw; exact fun _ => rfl
  | succ n ih => exact (ih fun k hk => h k (by omega)).bind (h n (by omega))

/-- A loop accesses what one of its turns accesses. -/
theorem Needs.forUp {a : Int} {n k : Nat} {f : Nat → Work → Except Fault Work} (h : Needs a (f k)) (hk : k < n)
    (hkeep : ∀ j, j < n → KeepsAdmitted (f j)) : Needs a (forUp n f) := by
  induction n with
  | zero => omega
  | succ n ih =>
    obtain rfl | hlt : k = n ∨ k < n := by omega
    · exact h.after (.forUp fun j hj => hkeep j (by omega))
    · exact (ih hlt fun j hj => hkeep j (by omega)).bind _

/-- What can only be stuck, and accesses an address that is not admitted, is stuck (R345). -/
theorem Needs.stuck {α : Type} {a : Int} {op : Work → Except Fault α} (h : Needs a op) {w : Work}
    (hs : OnlyStuck (op w)) (ha : w.mem.atAddr a = none) : op w = .error .stuck := by
  cases hr : op w with
  | ok x =>
    have := h w x hr
    rw [ha] at this
    cases this
  | error f => rw [hs f hr]

/-! ### Single accesses -/

theorem memRead_needs (a : Int) : Needs a (memRead a) := fun w x h => by
  rw [memRead_eq_ok.1 h]; rfl

theorem memWrite_needs (a : Int) (v : Elem) : Needs a (memWrite a v) := fun w x h => by
  obtain ⟨m, hm, -⟩ := memWrite_eq_ok.1 h
  exact Mem.setAddr_isSome_at hm

theorem srcRead_needs (t : Ty) {v : View} (hb : v.base ≠ 0) (i : Nat) : Needs (v.addr i) (srcRead t v i) := fun w x h => by
  rw [srcRead, View.isNull_false hb] at h
  exact memRead_needs _ w x h

theorem dstWrite_keepsAdmitted (v : View) (i : Nat) (x : Elem) : KeepsAdmitted (dstWrite v i x) := fun w w' h => by
  obtain ⟨m, hm, rfl⟩ := memWrite_eq_ok.1 h
  exact Mem.admitted_of_keys (Mem.setAddr_keys hm)

theorem cxRead_needs {vr vi : View} {k : Nat} {a : Int} (ha : AtPosition vr vi k a) : Needs a (cxRead vr vi k) :=
  fun w x h => by
    obtain ⟨y, hy, h⟩ := bind_eq_ok.1 h
    obtain ⟨z, hz, -⟩ := bind_eq_ok.1 h
    rcases ha with rfl | rfl
    · exact memRead_needs _ w y hy
    · exact memRead_needs _ w z hz

theorem cxWrite_needs {vr vi : View} {k : Nat} {a : Int} (ha : AtPosition vr vi k a) (z : Cx) :
    Needs a (cxWrite vr vi k z) := by
  rcases ha with rfl | rfl
  · exact (memWrite_needs _ z.re).bind _
  · exact (memWrite_needs _ z.im).after (dstWrite_keepsAdmitted vr k z.re)

theorem cxWrite_keepsAdmitted (vr vi : View) (k : Nat) (z : Cx) : KeepsAdmitted (cxWrite vr vi k z) :=
  (dstWrite_keepsAdmitted vr k z.re).bind (dstWrite_keepsAdmitted vi k z.im)

/-! ### Lists of accesses -/

theorem readFrom_needs (t : Ty) {v : View} (hb : v.base ≠ 0) {i j len : Nat} (hi : i ≤ j) (hj : j < i + len) :
    Needs (v.addr j) (fun w => readFrom t v w i len) := by
  intro w xs h
  induction len generalizing i xs with
  | zero => omega
  | succ len ih =>
    obtain ⟨x, hx, h⟩ := bind_eq_ok.1 h
    obtain ⟨ys, hys, -⟩ := bind_eq_ok.1 h
    obtain rfl | hlt : i = j ∨ i < j := by omega
    · exact srcRead_needs t hb i w x hx
    · exact ih hlt (by omega) ys hys

theorem storeAt_needs (v : View) (p : Nat → Nat) {xs : List Elem} {i j : Nat} (hi : i ≤ j) (hj : j < i + xs.length) :
    Needs (v.addr (p j)) (storeAt v p xs i) := by
  induction xs generalizing i with
  | nil => simp only [List.length_nil] at hj; omega
  | cons x xs ih =>
    rw [List.length_cons] at hj
    obtain rfl | hlt : i = j ∨ i < j := by omega
    · exact (memWrite_needs _ x).bind _
    · exact (ih hlt (by omega)).after (dstWrite_keepsAdmitted v (p i) x)

theorem storeCx_needs {vr vi : View} {zs : List Cx} {k j : Nat} {a : Int} (ha : AtPosition vr vi j a) (hk : k ≤ j)
    (hj : j < k + zs.length) : Needs a (storeCx vr vi zs k) := by
  induction zs generalizing k with
  | nil => simp only [List.length_nil] at hj; omega
  | cons z zs ih =>
    rw [List.length_cons] at hj
    obtain rfl | hlt : k = j ∨ k < j := by omega
    · exact (cxWrite_needs ha z).bind _
    · exact (ih hlt (by omega)).after (cxWrite_keepsAdmitted vr vi k z)

theorem storeCx_keepsAdmitted (vr vi : View) (zs : List Cx) (k : Nat) : KeepsAdmitted (storeCx vr vi zs k) := by
  induction zs generalizing k with
  | nil => intro w w' h; cases h; exact fun _ => rfl
  | cons z zs ih => exact (cxWrite_keepsAdmitted vr vi k z).bind (ih (k + 1))

/-! ### Bit reversal -/

/-- The bit reversal writes every position of its destination, fixed points too (log 35). -/
theorem bitRev_needs_dst (t : Ty) (src dst : View) {l i : Nat} (hi : i < 2 ^ l) :
    Needs (dst.addr i) (bitRev t src dst l) := fun w w' h => by
  obtain ⟨xs, hxs, h⟩ := bind_eq_ok.1 h
  have hw := storeAt_needs dst (fun j => rev j l) (xs := xs) (Nat.zero_le (rev i l))
    (by rw [readFrom_length hxs, Nat.zero_add]; exact rev_lt i l)
  rw [rev_rev hi] at hw
  exact hw w w' h

/-- The bit reversal reads every position of a source that is not null (R190). -/
theorem bitRev_needs_src (t : Ty) {src : View} (dst : View) (hb : src.base ≠ 0) {l i : Nat} (hi : i < 2 ^ l) :
    Needs (src.addr i) (bitRev t src dst l) := fun w w' h => by
  obtain ⟨xs, hxs, -⟩ := bind_eq_ok.1 h
  exact readFrom_needs t hb (Nat.zero_le i) (by omega) w xs hxs

theorem bitRev_keepsAdmitted (t : Ty) (src dst : View) (l : Nat) : KeepsAdmitted (bitRev t src dst l) :=
  (bitRev_only { Config.standard with ty := t } src dst l).keepsAdmitted

/-- The reversal of the whole region comes first in `DIL` (R201). -/
theorem deinterleave_needs (t : Ty) (b : Int) {l i : Nat} (hi : i < 2 * 2 ^ l) : Needs (b + i) (deinterleave t b l) := by
  have hwhole := bitRev_needs_dst t (unitView b (2 * 2 ^ l)) (unitView b (2 * 2 ^ l)) (l := l + 1) (i := i)
    (by rw [pow_succ]; omega)
  rw [unitView_addr] at hwhole
  exact hwhole.bind _

/-- The reversal of the whole region comes last in `ILV` (R202). -/
theorem interleave_needs (t : Ty) (b : Int) {l i : Nat} (hi : i < 2 * 2 ^ l) : Needs (b + i) (interleave t b l) := by
  have hwhole := bitRev_needs_dst t (unitView b (2 * 2 ^ l)) (unitView b (2 * 2 ^ l)) (l := l + 1) (i := i)
    (by rw [pow_succ]; omega)
  rw [unitView_addr] at hwhole
  exact (hwhole.after (bitRev_keepsAdmitted t _ _ l)).after (bitRev_keepsAdmitted t _ _ l)

/-! ### The radix-2 pass -/

theorem bf_needs (t : Ty) {vr vi : View} {lo hi : Nat} {a : Int} (ha : AtPosition vr vi lo a ∨ AtPosition vr vi hi a)
    (tw : Cx) : Needs a (bf t vr vi lo hi tw) := fun w w' h => by
  obtain ⟨x, hx, h⟩ := bind_eq_ok.1 h
  obtain ⟨y, hy, -⟩ := bind_eq_ok.1 h
  rcases ha with ha | ha
  · exact cxRead_needs ha w x hx
  · exact cxRead_needs ha w y hy

theorem bf_keepsAdmitted (t : Ty) (vr vi : View) (lo hi : Nat) (tw : Cx) : KeepsAdmitted (bf t vr vi lo hi tw) :=
  (bf_only (c := { Config.standard with ty := t }) (P := fun _ => True) trivial trivial trivial trivial tw).keepsAdmitted

/-- Every position is one of the two of some butterfly of pass `d` (R222). -/
theorem exists_butterfly {vr vi : View} {lt d i : Nat} (h1 : 1 ≤ d) (hd : d ≤ lt) (hi : i < 2 ^ lt) {a : Int}
    (ha : AtPosition vr vi i a) : ∃ b k, b < 2 ^ (lt - d) ∧ k < 2 ^ (d - 1)
      ∧ (AtPosition vr vi (b * 2 ^ d + k) a ∨ AtPosition vr vi (b * 2 ^ d + k + 2 ^ (d - 1)) a) := by
  have hpow : 2 ^ d = 2 * 2 ^ (d - 1) := by rw [← pow_succ', Nat.sub_add_cancel h1]
  have hb : i / 2 ^ d < 2 ^ (lt - d) := by
    rw [Nat.div_lt_iff_lt_mul (Nat.two_pow_pos _), ← pow_add, Nat.sub_add_cancel hd]; exact hi
  have hx := Nat.mod_lt i (Nat.two_pow_pos d)
  have hdm := Nat.div_add_mod' i (2 ^ d)
  by_cases hlo : i % 2 ^ d < 2 ^ (d - 1)
  · exact ⟨i / 2 ^ d, i % 2 ^ d, hb, hlo, .inl (by rwa [hdm])⟩
  · have hpos : i / 2 ^ d * 2 ^ d + (i % 2 ^ d - 2 ^ (d - 1)) + 2 ^ (d - 1) = i := by omega
    exact ⟨i / 2 ^ d, i % 2 ^ d - 2 ^ (d - 1), hb, by omega, .inr (by rwa [hpos])⟩

theorem passFlat_needs (c : Config) {vr vi : View} {lt d i : Nat} (σ : Dir) (h1 : 1 ≤ d) (hd : d ≤ lt) (hi : i < 2 ^ lt)
    {a : Int} (ha : AtPosition vr vi i a) : Needs a (passFlat c vr vi lt d σ) := by
  obtain ⟨b, k, hb, hk, hbk⟩ := exists_butterfly h1 hd hi ha
  have hbf : ∀ tw, Needs a (bf c.ty vr vi (b * 2 ^ d + k) (b * 2 ^ d + k + 2 ^ (d - 1)) tw) :=
    bf_needs c.ty hbk
  have hturn : ∀ b k, KeepsAdmitted fun w => bf c.ty vr vi (b * 2 ^ d + k) (b * 2 ^ d + k + 2 ^ (d - 1)) (w.twbAt k) w :=
    fun b k w => bf_keepsAdmitted _ _ _ _ _ _ w
  have hblock : Needs a (forUp (2 ^ (d - 1)) fun k w =>
      bf c.ty vr vi (b * 2 ^ d + k) (b * 2 ^ d + k + 2 ^ (d - 1)) (w.twbAt k) w) :=
    .forUp (fun w => hbf _ w) hk fun k _ => hturn b k
  exact fun w => (hblock.forUp hb fun b _ => .forUp fun k _ => hturn b k) (w.setTwb _)

/-- The butterflies of one chunk of a block, then the multiplier pair is taken on (R225). -/
def blockChunk (c : Config) (vr vi : View) (d b q : Nat) (w : Work) : Except Fault Work :=
  (forUp (2 ^ (c.lbuf - 1)) (fun r w =>
      bf c.ty vr vi (b * 2 ^ d + q * 2 ^ (c.lbuf - 1) + r) (b * 2 ^ d + q * 2 ^ (c.lbuf - 1) + r + 2 ^ (d - 1))
        (blockTwiddle c.ty (w.twbAt r) w.mulAt) w) w).bind
    fun w => .ok (w.setMul (advanceMul c.ty w.mulAt w.stpAt))

theorem passBlock_eq (c : Config) (vr vi : View) (lt d : Nat) (σ : Dir) (w : Work) : passBlock c vr vi lt d σ w
    = forUp (2 ^ (lt - d)) (fun b w => forUp (2 ^ (d - 1) / 2 ^ (c.lbuf - 1)) (blockChunk c vr vi d b)
        (w.setMul ⟨c.ty.one, c.ty.zero⟩))
      ((w.setTwb (twiddleGen c d (c.lbuf - 1) σ)).setStp (stepFactor c d σ)) := rfl

theorem blockChunk_keepsAdmitted (c : Config) (vr vi : View) (d b q : Nat) : KeepsAdmitted (blockChunk c vr vi d b q) :=
  (KeepsAdmitted.forUp fun _ _ w => bf_keepsAdmitted _ _ _ _ _ _ w).bind fun w w' h => by cases h; exact fun _ => rfl

theorem blockChunk_needs (c : Config) {vr vi : View} {d b q r : Nat} (hr : r < 2 ^ (c.lbuf - 1)) {a : Int}
    (ha : AtPosition vr vi (b * 2 ^ d + q * 2 ^ (c.lbuf - 1) + r) a
      ∨ AtPosition vr vi (b * 2 ^ d + q * 2 ^ (c.lbuf - 1) + r + 2 ^ (d - 1)) a) : Needs a (blockChunk c vr vi d b q) :=
  Needs.bind (.forUp (k := r) (fun w => bf_needs c.ty ha _ w) hr fun _ _ w => bf_keepsAdmitted _ _ _ _ _ _ w) _

theorem passBlock_needs (c : Config) {vr vi : View} {lt d i : Nat} (σ : Dir) (h1 : 1 ≤ d) (hb : c.lbuf < d) (hd : d ≤ lt)
    (hi : i < 2 ^ lt) {a : Int} (ha : AtPosition vr vi i a) : Needs a (passBlock c vr vi lt d σ) := by
  obtain ⟨b, k, hbl, hk, hbk⟩ := exists_butterfly h1 hd hi ha
  have hq : k / 2 ^ (c.lbuf - 1) < 2 ^ (d - 1) / 2 ^ (c.lbuf - 1) :=
    Nat.div_lt_div_of_lt_of_dvd (Nat.pow_dvd_pow 2 (by omega)) hk
  have hpos : b * 2 ^ d + k / 2 ^ (c.lbuf - 1) * 2 ^ (c.lbuf - 1) + k % 2 ^ (c.lbuf - 1) = b * 2 ^ d + k := by
    rw [Nat.add_assoc, Nat.div_add_mod']
  have hchunk : Needs a (blockChunk c vr vi d b (k / 2 ^ (c.lbuf - 1))) :=
    blockChunk_needs c (Nat.mod_lt k (Nat.two_pow_pos _)) (by rwa [hpos])
  have hblocks : Needs a (forUp (2 ^ (lt - d)) fun b w => forUp (2 ^ (d - 1) / 2 ^ (c.lbuf - 1))
      (blockChunk c vr vi d b) (w.setMul ⟨c.ty.one, c.ty.zero⟩)) :=
    .forUp (fun w => (hchunk.forUp hq fun q _ => blockChunk_keepsAdmitted c vr vi d b q) (w.setMul _)) hbl
      fun b _ w => (KeepsAdmitted.forUp fun q _ => blockChunk_keepsAdmitted c vr vi d b q) (w.setMul _)
  intro w w' h
  rw [passBlock_eq] at h
  exact hblocks ((w.setTwb _).setStp _) w' h

/-- A pass accesses every position of its pair (R222). -/
theorem pass_needs (c : Config) {vr vi : View} {lt d i : Nat} (σ : Dir) (h1 : 1 ≤ d) (hd : d ≤ lt) (hi : i < 2 ^ lt)
    {a : Int} (ha : AtPosition vr vi i a) : Needs a (pass c vr vi lt d σ) := fun w w' h => by
  rw [pass] at h
  split at h
  · exact passFlat_needs c σ h1 hd hi ha w w' h
  · exact passBlock_needs c σ h1 (by omega) hd hi ha w w' h

/-! ### The radix-8 kernel -/

/-- A group of the radix-8 kernel that ends has stored its eight values (R226, R227). -/
theorem r8Group_stores {t : Ty} {σ : Dir} {vr vi : View} {g : Nat} {w w' : Work} (h : r8Group t σ vr vi g w = .ok w') :
    ∃ zs, zs.length = 8 ∧ storeCx vr vi zs (8 * g) w = .ok w' := by
  rw [r8Group] at h
  obtain ⟨a0, -, h⟩ := bind_eq_ok.1 h
  obtain ⟨a1, -, h⟩ := bind_eq_ok.1 h
  obtain ⟨a2, -, h⟩ := bind_eq_ok.1 h
  obtain ⟨a3, -, h⟩ := bind_eq_ok.1 h
  obtain ⟨a4, -, h⟩ := bind_eq_ok.1 h
  obtain ⟨a5, -, h⟩ := bind_eq_ok.1 h
  obtain ⟨a6, -, h⟩ := bind_eq_ok.1 h
  obtain ⟨a7, -, h⟩ := bind_eq_ok.1 h
  exact ⟨_, r8Values_length t σ a0 a1 a2 a3 a4 a5 a6 a7, h⟩

/-- The radix-8 kernel accesses every position of its pair (R228). -/
theorem r8Kernel_needs (t : Ty) {vr vi : View} {lt i : Nat} (σ : Dir) (hl : r8Min ≤ lt) (hi : i < 2 ^ lt) {a : Int}
    (ha : AtPosition vr vi i a) : Needs a (r8Kernel t vr vi lt σ) := by
  have h8 : 2 ^ lt = 2 ^ (lt - 3) * 8 := by
    rw [show 8 = 2 ^ 3 from rfl, ← pow_add, Nat.sub_add_cancel hl]
  refine Needs.forUp (k := i / 8) (fun w w' h => ?_) (by omega) fun g _ w w' h => ?_
  · obtain ⟨zs, hlen, h⟩ := r8Group_stores h
    exact storeCx_needs ha (by omega) (by omega) w w' h
  · obtain ⟨zs, -, h⟩ := r8Group_stores h
    exact storeCx_keepsAdmitted vr vi zs _ w w' h

/-! ### The multipass and the schedule -/

/-- The optimized multipass reports the count it selects (R271). -/
theorem ompRun_count {c : Config} {vr vi : View} {l depth : Nat} {σ : Dir} {p : Policy} {w : Work} {r : Nat × Work}
    (h : ompRun c vr vi l depth σ p w = .ok r) : r.1 = ompCount c vr vi l depth p w := by
  simp only [ompRun, ompCount] at h ⊢
  split at h
  case isTrue hs => cases h; rw [if_pos hs]
  case isFalse hs =>
    rw [if_neg hs]
    split at h
    case isTrue hk => cases h; exact hk.symm
    case isFalse =>
      split at h
      all_goals
        obtain ⟨w', -, h⟩ := bind_eq_ok.1 h
        cases h
        rfl

/-- An optimized multipass that takes a pass accesses every position of its pair (R271). -/
theorem ompRun_admitted {c : Config} {vr vi : View} {l depth i : Nat} {σ : Dir} {p : Policy} {w : Work} {r : Nat × Work}
    (hd : depth ≤ l) (hi : i < 2 ^ l) {a : Int} (ha : AtPosition vr vi i a)
    (h : ompRun c vr vi l depth σ p w = .ok r) (hr : r.1 ≠ 0) : (w.mem.atAddr a).isSome = true := by
  have hle := selCount_le c.lbuf l depth (effMask c p w).1
  rw [← effMask_mem c p w]
  rw [ompRun] at h
  split at h
  case isTrue => cases h; exact absurd rfl hr
  case isFalse =>
    simp only [] at h
    split at h
    case isTrue => cases h; exact absurd rfl hr
    case isFalse hk =>
      split at h
      case isTrue h8 =>
        obtain ⟨hdl, hmin⟩ := r8First_iff.1 h8
        exact (((r8Kernel_needs c.ty σ (hdl ▸ hmin) hi ha).bind _).bind _).bind _ _ _ h
      case isFalse =>
        refine (Needs.forUp (k := 0) ?_ (by omega) fun j hj => ?_).bind _ _ _ h
        · exact (pass_needs c σ (by omega) (by omega) hi ha).bind _
        · exact (vecPass_only σ (by omega) (by omega)).keepsAdmitted

theorem passesFrom_needs (c : Config) {vr vi : View} {lt d0 i : Nat} (σ : Dir) (h1 : 1 ≤ d0) (hd : d0 ≤ lt)
    (hi : i < 2 ^ lt) {a : Int} (ha : AtPosition vr vi i a) : Needs a (passesFrom c vr vi lt d0 σ) :=
  Needs.forUp (k := 0) (pass_needs c σ (by omega) (by omega) hi ha) (by omega) fun j hj =>
    (pass_only σ (by omega) (by omega)).keepsAdmitted

/-- A multipass of some depth accesses every position of its pair: by the SIMD layer, or else by its own passes (R229). -/
theorem multipass_needs (c : Config) {vr vi : View} {lt depth i : Nat} (σ : Dir) (p : Policy) (h0 : depth ≠ 0)
    (hd : depth ≤ lt) (hi : i < 2 ^ lt) {a : Int} (ha : AtPosition vr vi i a) :
    Needs a (multipass c vr vi lt depth σ p) := fun w w' h => by
  rw [multipass, if_neg h0] at h
  obtain ⟨r, hr, h⟩ := bind_eq_ok.1 h
  by_cases hk : r.1 = 0
  · rw [← Mem.admitted_of_keys (ompRun_moved hd hr).keys a]
    simp only [hk, Nat.add_zero] at h
    split at h
    case isTrue h8 => exact (r8Kernel_needs c.ty σ (h8.2.2.trans hd) hi ha).bind _ _ _ h
    case isFalse => exact passesFrom_needs c σ (by omega) (by omega) hi ha _ _ h
  · exact ompRun_admitted hd hi ha hr hk

/-- The schedule of more than one element ends with a multipass of the whole pair (R230). -/
theorem dbcF_needs (c : Config) {vr vi : View} {l i : Nat} (σ : Dir) (p : Policy) (h0 : l ≠ 0) (hr : vr.count = 2 ^ l)
    (hc : vi.count = 2 ^ l) (hi : i < 2 ^ l) {a : Int} (ha : AtPosition vr vi i a) : Needs a (dbcF c σ p l vr vi) := by
  obtain ⟨l, rfl⟩ := Nat.exists_eq_succ_of_ne_zero h0
  have hpow : 2 ^ (l + 1) = 2 * 2 ^ l := pow_succ' 2 l
  have hlo : KeepsAdmitted (dbcF c σ p l vr.lo vi.lo) :=
    (dbcF_only σ p (by rw [lo_count]; omega) (by rw [lo_count]; omega)).keepsAdmitted
  have hhi : KeepsAdmitted (dbcF c σ p l vr.hi vi.hi) :=
    (dbcF_only σ p (by rw [hi_count]; omega) (by rw [hi_count]; omega)).keepsAdmitted
  intro w w' h
  rw [dbcF] at h
  split at h
  · exact (multipass_needs c σ p (by omega) (by omega) hi ha).after (hlo.bind hhi) w w' h
  · exact multipass_needs c σ p (by omega) (by omega) hi ha w w' h

/-- The scaling by a scale that is not `ONE` accesses every position of its pair (R232). -/
theorem scaleViews_needs (t : Ty) {vr vi : View} {n i : Nat} {scale : Elem} (h1 : t.isOne scale = false) (hi : i < n)
    {a : Int} (ha : AtPosition vr vi i a) : Needs a (scaleViews t vr vi n scale) := by
  have hneeds : ∀ v k, Needs (View.addr v k) (scaleOne t v k scale) := fun v k => fun w w' h => by
    obtain ⟨x, hx, -⟩ := bind_eq_ok.1 h
    exact memRead_needs _ w x hx
  have hkeep : ∀ v k, KeepsAdmitted (scaleOne t v k scale) := fun v k =>
    (scaleOne_only (c := { Config.standard with ty := t }) (P := fun _ => True) trivial scale).keepsAdmitted
  have hturn : Needs a (fun w => (scaleOne t vr i scale w).bind (scaleOne t vi i scale)) := by
    rcases ha with rfl | rfl
    · exact (hneeds vr i).bind _
    · exact (hneeds vi i).after (hkeep vr i)
  intro w w' h
  rw [scaleViews, h1] at h
  exact hturn.forUp hi (fun k _ => (hkeep vr k).bind (hkeep vi k)) w w' h

/-! ### The transforms -/

theorem Views.mem_list {vs : Views} {v : View} : v ∈ vs.list ↔ (v = vs.sr ∨ v = vs.si) ∨ v = vs.dr ∨ v = vs.di := by
  simp only [Views.list, List.mem_cons, List.not_mem_nil, or_false, or_assoc]

/-- `POT_PERMUTE` reads both sources that are not null and writes both destinations (R310). -/
theorem potPermute_needs (t : Ty) {vs : Views} {v : View} {l i : Nat} (hv : v ∈ vs.list) (hb : v.base ≠ 0)
    (hi : i < 2 ^ l) :
    Needs (v.addr i) (potPermute t vs l) := by
  have hfirst := bitRev_keepsAdmitted t vs.sr vs.dr l
  have hboth : Needs (v.addr i) fun w => (bitRev t vs.sr vs.dr l w).bind (bitRev t vs.si vs.di l) := by
    rcases Views.mem_list.1 hv with (rfl | rfl) | rfl | rfl
    · exact (bitRev_needs_src t vs.dr hb hi).bind _
    · exact (bitRev_needs_src t vs.di hb hi).after hfirst
    · exact (bitRev_needs_dst t vs.sr vs.dr hi).bind _
    · exact (bitRev_needs_dst t vs.si vs.di hi).after hfirst
  exact fun w => hboth (w.gotoPot .potPermute)

theorem potPipeline_needs (c : Config) {vs : Views} {v : View} {l i : Nat} (σ : Dir) (scale : Elem) (p : Policy)
    (hv : v ∈ vs.list) (hb : v.base ≠ 0)
    (hi : i < 2 ^ l) : Needs (v.addr i) (potPipeline c vs l σ scale p) :=
  (potPermute_needs c.ty hv hb hi).bind _

/-- A turn of the premultiplication reads both sources (R319). -/
theorem premulOne_needs (t : Ty) {sr si v : View} (z : Scratch) (m n : Nat) (invM : Elem) {k : Nat}
    (hv : v = sr ∨ v = si) (hb : v.base ≠ 0) : Needs (v.addr k) (premulOne t sr si z m n invM k) := fun w w' h => by
  obtain ⟨x, hx, h⟩ := bind_eq_ok.1 h
  obtain ⟨y, hy, -⟩ := bind_eq_ok.1 h
  rcases hv with rfl | rfl
  · exact srcRead_needs t hb k w x hx
  · exact srcRead_needs t hb k w y hy

/-- `BS_PREMUL` reads every position of both sources (R319). -/
theorem bsPremul_needs (c : Config) {vs : Views} {v : View} {b lm n k : Nat} (σ : Dir) (hm : 2 * n ≤ 2 ^ lm + 1)
    (hv : v = vs.sr ∨ v = vs.si) (hb : v.base ≠ 0) (hk : k < n) :
    Needs (v.addr k) (bsPremul c vs (scratchAt b (2 ^ lm) n) lm n σ) := by
  have hloop : Needs (v.addr k) (forUp n (premulOne c.ty vs.sr vs.si (scratchAt b (2 ^ lm) n) (2 ^ lm) n
      (c.ty.invPow2 lm))) :=
    (premulOne_needs c.ty _ _ n _ hv hb).forUp hk fun j hj => (premulOne_only hj hm _).keepsAdmitted
  exact fun w => ((hloop.bind _).after (storeCx_keepsAdmitted _ _ _ 0)) (w.goto .bsPremul)

/-- `BS_POSTMUL` writes every position of both destinations (R324). -/
theorem bsPostmul_needs (t : Ty) (z : Scratch) {dr di : View} {n k : Nat} (hk : k < n) {a : Int}
    (ha : AtPosition dr di k a) : Needs a (bsPostmul t z dr di n) := by
  have hturn : ∀ {j w w'}, ((cxRead z.ar z.ai j w).bind fun x => (cxRead z.tr z.ti (chirpIndex n j) w).bind fun tw =>
      cxWrite dr di j (cmul t x tw) w) = .ok w' → ∃ y, cxWrite dr di j y w = .ok w' := fun h => by
    obtain ⟨x, -, h⟩ := bind_eq_ok.1 h
    obtain ⟨tw, -, h⟩ := bind_eq_ok.1 h
    exact ⟨_, h⟩
  refine fun w => Needs.forUp (k := k) (fun w w' h => ?_) hk (fun j _ w w' h => ?_) (w.goto .bsPostmul)
  · obtain ⟨y, h⟩ := hturn h
    exact cxWrite_needs ha y w w' h
  · obtain ⟨y, h⟩ := hturn h
    exact cxWrite_keepsAdmitted dr di j y w w' h

/-- The Bluestein pipeline reads both sources first and writes both destinations last (R319, R324). -/
theorem bsCore_needs (c : Config) {vs : Views} {v : View} {b n k : Nat} (σ : Dir) (scale : Elem) (p : Policy)
    (hv : v ∈ vs.list) (hb : v.base ≠ 0) (hk : k < n) : Needs (v.addr k)
      (bsCore c vs (scratchAt b (2 ^ clog2 (2 * n - 1)) n) (clog2 (2 * n - 1)) n σ scale p) := by
  have hm : 2 * n ≤ 2 ^ clog2 (2 * n - 1) + 1 := by have := le_two_pow_clog2 (2 * n - 1); omega
  have hpre := (bsPremul_only (c := c) (v := vs) (b := b) σ (by omega) hm).keepsAdmitted
  have hfft : ∀ vr vi τ s f, vr.count = 2 ^ clog2 (2 * n - 1) → vi.count = 2 ^ clog2 (2 * n - 1) →
      KeepsAdmitted fun w => potPipeline c (inPlace vr vi) (clog2 (2 * n - 1)) τ s p (w.goto f) :=
    fun vr vi τ s f hr hi w => (potPipeline_only (v := inPlace vr vi) τ s p hr hi).keepsAdmitted (w.goto f)
  have hpoint := (bsPointwise_only (c := c) (b := b) (m := 2 ^ clog2 (2 * n - 1)) (n := n)).keepsAdmitted
  have hdst : AtPosition vs.dr vs.di k (v.addr k) → Needs (v.addr k)
      (bsCore c vs (scratchAt b (2 ^ clog2 (2 * n - 1)) n) (clog2 (2 * n - 1)) n σ scale p) := fun ha =>
    (((((bsPostmul_needs c.ty _ hk ha).after (hfft _ _ _ _ _ rfl rfl)).after hpoint).after (hfft _ _ _ _ _ rfl rfl)).after
      (hfft _ _ _ _ _ rfl rfl)).after hpre
  rcases Views.mem_list.1 hv with hv | rfl | rfl
  · exact (bsPremul_needs c σ hm hv hb hk).bind _
  · exact hdst (.inl rfl)
  · exact hdst (.inr rfl)

/-- The scratch granted to a request admits no address of the request's views (R90). -/
theorem not_inScratch_of_clear {vs : List View} {b len : Nat} (hc : clearOf vs b len = true) (h0 : 0 < b) {v : View}
    (hv : v ∈ vs) (hb : v.base ≠ 0) {k : Nat} (hk : k < v.count) : ¬ InScratch b len (v.addr k) := fun ⟨hlo, hhi⟩ => by
  have hmeets : v.meets (unitView b len) = true :=
    View.meets_iff.2 ⟨hb, by rw [unitView_base]; omega, k, (v.addr k - b).toNat, hk, by rw [unitView_count]; omega,
      by rw [unitView_addr]; omega⟩
  have hclear := List.all_eq_true.1 hc v hv
  rw [show v.meets { base := b, stride := 1, count := len } = true from hmeets] at hclear
  cases hclear

/-- A transform, with a draw that is not null where it needs scratch, is stuck at an address of a view that is not null
and not admitted: in the pipeline, or because the draw breaks the contract (R82, R386). -/
theorem transform_unadmitted {c : Config} {vs : Views} {v : View} {n k : Nat} {σ : Dir} {scale : Elem} {p : Policy}
    {fb : Bool} {w : Work} (hv : v ∈ vs.list) (hb : v.base ≠ 0) (hcount : v.count = n) (hk : k < n)
    (ha : w.mem.atAddr (v.addr k) = none) (hdraw : takesBluestein n fb = true → ∃ b rest, w.allocs = some b :: rest) :
    transform c vs n σ scale p fb w = .error .stuck := by
  cases ht : takesBluestein n fb with
  | false =>
    obtain ⟨-, hpow⟩ := takesBluestein_false ht
    have hstuck := (potPipeline_needs c σ scale p hv hb (by rwa [hpow])).stuck (w := w.goto .dispatch)
      (potPipeline_stuck _ _ _ _ _ _ _) ha
    simp only [transform, ht, hstuck]
    rfl
  | true =>
    obtain ⟨b, rest, hal⟩ := hdraw ht
    cases hl : allocLawful c vs.list w.mem b (scratchLen (clog2 (2 * n - 1)) n) with
    | false => exact transform_unlawful ht hal hl
    | true =>
      obtain ⟨h0, hend, -, -, hclear⟩ := allocLawful_iff.1 hl
      have hgrant : bsAlloc c vs n (w.goto .dispatch) = _ :=
        alloc_of_lawful (w := (w.goto .dispatch).goto .bsAlloc) hal hl
      have hout := not_inScratch_of_clear hclear h0 hv hb (hcount ▸ hk)
      have hstuck := (bsCore_needs c (b := b) σ scale p hv hb hk).stuck
        (w := allocGrant c (scratchLen (clog2 (2 * n - 1)) n) b ((w.goto .dispatch).goto .bsAlloc))
        (bsCore_stuck _ _ _ _ _ _ _ _ _) (by rw [allocGrant, Mem.grant_at h0 hend, if_neg hout]; exact ha)
      simp only [transform, ht, if_true, bluestein, hgrant, bind_ok, hstuck]
      rfl

/-! ### Checks that pass -/

/-- The bit reversal of `BRV`, its checks passed (R200). -/
theorem runBrv_checked {c : Config} {me : Context} {w : Work} {l : Nat} {sb ss db ds : Word64}
    (hsb : me.argSrcRe = some sb) (hss : me.argSsRe = some ss) (hdb : me.argDstRe = some db)
    (hds : me.argDsRe = some ds) (hl : l ≤ 31) (hdb0 : db ≠ 0) (hds0 : ds ≠ 0)
    (hap : sb = 0 ∨ viewOf sb ss (2 ^ l) = viewOf db ds (2 ^ l) ∨ (viewOf sb ss (2 ^ l)).Apart (viewOf db ds (2 ^ l)))
    (hst : sb = 0 ∨ sb ≠ db ∨ ss = ds) :
    runBrv c me w l = (liftWork (bitRev c.ty (viewOf sb ss (2 ^ l)) (viewOf db ds (2 ^ l)) l w)).bind doneOk := by
  have hbase : (viewOf db ds (2 ^ l)).base ≠ 0 := fun h => hdb0 (addrOf_eq_zero.1 h)
  have hbad : brvBad l (viewOf sb ss (2 ^ l)) (viewOf db ds (2 ^ l)) = false := by
    have hstride : strideOf ds ≠ 0 := fun h => hds0 (strideOf_inj.1 (h.trans rfl))
    simp only [brvBad, Bool.or_eq_false_iff, decide_eq_false_iff_not, View.isNull_false hbase]
    refine ⟨⟨⟨by simp only [log2nMax]; omega, trivial⟩, by simpa [viewOf] using hstride⟩, ?_⟩
    rcases hst with rfl | h | rfl
    · rfl
    · have : (addrOf sb == addrOf db) = false := by simpa [addrOf_inj] using h
      simp only [viewOf, this, Bool.and_false, Bool.false_and]
    · simp only [viewOf, bne_self_eq_false, Bool.and_false]
  have hargs : brvArgs me = .ok fun n => (viewOf sb ss n, viewOf db ds n) := by
    simp only [brvArgs, hsb, hss, hdb, hds, arg, bind_ok]
  simp only [runBrv, hargs, bind_ok, hbad, invalidIf, Bool.false_eq_true, if_false]
  by_cases heq : viewOf sb ss (2 ^ l) = viewOf db ds (2 ^ l)
  · rw [if_pos heq, heq]; rfl
  · have hmeets : (viewOf sb ss (2 ^ l)).meets (viewOf db ds (2 ^ l)) = false := by
      rcases hap with rfl | h | h
      · rfl
      · exact absurd h heq
      · rw [Bool.eq_false_iff, Ne, View.meets_iff]
        rintro ⟨-, -, i, j, hi, hj, he⟩
        exact h i j hi hj he
    rw [if_neg heq, hmeets]
    rfl

theorem passBad_eq_false {d l : Nat} : passBad d l = false ↔ ¬ (d < 1 ∨ l < d ∨ 31 < l) := by
  simp [passBad, log2nMax, and_assoc]

theorem multipassBad_eq_false {l depth : Nat} : multipassBad l depth = false ↔ ¬ (l < depth ∨ 31 < l) := by
  simp [multipassBad, log2nMax]

/-- The checks on a destination pair, passed (R302, R303). -/
theorem checkedPair_eq {α : Type} {bad : Bool} {dr di : View} (hb : bad = false) (hd : ¬ DstRejected dr di)
    (hap : dr.Apart di) (r : Except Stop α) :
    ((invalidIf bad).bind fun _ => (checkDst dr di).bind fun _ => (checkOverlap [] dr di).bind fun _ => r) = r := by
  have hdst : dstBad dr di = false := by rwa [← Bool.not_eq_true, ← dstRejected_iff]
  obtain ⟨hr, hi, -⟩ := dstBad_false.1 hdst
  have hover : overlapBad [] dr di = false := (View.meets_false hr hi).2 hap
  rw [invalidIf_eq_ok (u := ()) |>.2 hb, bind_ok, checkDst, invalidIf_eq_ok (u := ()) |>.2 hdst, bind_ok,
    checkOverlap_eq_ok (u := ()) |>.2 hover, bind_ok]

/-- The registers a request is made of (R291). -/
theorem requestFrom_eq_some {shape : Context → Except Stop (Nat → Views)} {fb : Bool} {c : Context} {r : Request}
    (h : requestFrom shape fb c = some r) : ∃ n scale views, c.argN = some n ∧ c.argScale = some scale
      ∧ shape c = .ok views ∧ r = { n := n.toNat, scale := scale, views := views n.toNat, forceBS := fb } := by
  unfold requestFrom at h
  split at h
  case h_1 n scale views hn hscale hshape => cases h; exact ⟨n, scale, views, hn, hscale, hshape, rfl⟩
  case h_2 => cases h

/-- A transform request that passes its checks runs its pipeline (R301–R303). -/
theorem runXform_checked {c : Config} {me : Context} {w : Work} {shape : Context → Except Stop (Nat → Views)} {σ : Dir}
    {p : Policy} {fb : Bool} {r : Request} (hr : requestFrom shape fb me = some r) (h0 : r.n ≠ 0)
    (hbad : ¬ RequestRejected c r) (hover : ¬ RequestOverlaps r) : runXform c me w shape σ p fb
      = liftCode (transform c r.views r.n σ r.scale p r.forceBS (w.goto .validate)) := by
  rw [requestRejected_iff, Bool.not_eq_true] at hbad
  rw [requestOverlaps_iff, Bool.not_eq_true] at hover
  obtain ⟨n, scale, views, hn, hscale, hshape, rfl⟩ := requestFrom_eq_some hr
  simp only [runXform, hn, hscale, hshape, arg, bind_ok, if_neg h0, (invalidIf_eq_ok (u := ())).2 hbad,
    (checkOverlap_eq_ok (u := ())).2 hover]

/-- A command with a request is a transform of one of the three shapes (R330–R333). -/
theorem exec_request {i : Instr} {s : State} {r : Request} (h : requestOf i s.me = some r) :
    ∃ shape σ p fb, requestFrom shape fb s.me = some r ∧ exec i s = s.complete (runXform s.cfg s.me s.work shape σ p fb)
      ∧ ∀ views, shape s.me = .ok views →
        splitArgs s.me = .ok views ∨ interleavedArgs s.me = .ok views ∨ stridedArgs s.me = .ok views := by
  cases i with
  | xfs σ p => exact ⟨_, σ, p, _, h, rfl, fun _ => .inl⟩
  | xfi σ p => exact ⟨_, σ, p, _, h, rfl, fun _ hv => .inr (.inl hv)⟩
  | xft σ p => exact ⟨_, σ, p, _, h, rfl, fun _ hv => .inr (.inr hv)⟩
  | blu σ p => exact ⟨_, σ, p, _, h, rfl, fun _ hv => .inr (.inr hv)⟩
  | brv _ | dil | ilv | pass _ _ _ | r8 _ _ | mps _ _ _ _ | bfy _ _ _ | scl | twg _ _ _ | twf _ | cxm _ | cxf | prb
  | sel _ _ _ | omp _ _ _ _ => cases h

/-! ### A destination pair with an address that is not admitted -/

/-- The destination pair of the current context, `n` elements each, passes its checks, and its position `k` has an address
`a` that is not admitted. -/
structure PairUnadmitted (s : State) (views : Nat → View × View) (n k : Nat) (a : Int) : Prop where
  reads : dstPair s.me = .ok views
  accepted : ¬ DstRejected (views n).1 (views n).2
  apart : (views n).1.Apart (views n).2
  inRange : k < n
  position : AtPosition (views n).1 (views n).2 k a
  unadmitted : s.mem.atAddr a = none

section pair
variable {s : State} {views : Nat → View × View} {n k l : Nat} {a : Int}

/-- Work on the pair that accesses the address, after the checks. -/
theorem PairUnadmitted.checked_stuck (h : PairUnadmitted s views n k a) {bad : Bool} (hb : bad = false)
    {op : Work → Except Fault Work} (hs : OnlyStuck (op s.work)) (hn : Needs a op) :
    ((invalidIf bad).bind fun _ => (checkDst (views n).1 (views n).2).bind fun _ =>
      (checkOverlap [] (views n).1 (views n).2).bind fun _ => (liftWork (op s.work)).bind doneOk)
      = .error (.fault .stuck) := by
  rw [checkedPair_eq hb h.accepted h.apart, hn.stuck hs h.unadmitted]
  rfl

theorem PairUnadmitted.runInPlace_stuck (h : PairUnadmitted s views (2 ^ l) k a) {bad : Bool} (hb : bad = false)
    {engine : View → View → Work → Except Fault Work} (hs : ∀ vr vi w, OnlyStuck (engine vr vi w))
    (hn : Needs a (engine (views (2 ^ l)).1 (views (2 ^ l)).2)) :
    runInPlace s.me s.work l bad engine = .error (.fault .stuck) := by
  rw [runInPlace, h.reads, bind_ok]
  exact h.checked_stuck hb (hs _ _ _) hn

theorem PairUnadmitted.runTwg_stuck {σ : Dir} {bigN : Nat} (h : PairUnadmitted s views (2 ^ l) k a) (hN : l ≤ bigN)
    (hl : l ≤ s.cfg.lbuf) : runTwg s.cfg s.me s.work σ bigN l = .error (.fault .stuck) := by
  rw [runTwg, h.reads, bind_ok]
  refine h.checked_stuck (by simp [hN, hl]) (storeCx_stuck _ _ _ _ _) (storeCx_needs h.position (Nat.zero_le k) ?_)
  rw [twiddleGen_length, Nat.zero_add]
  exact h.inRange

theorem PairUnadmitted.runTwf_stuck {σ : Dir} {m : Word64} (h : PairUnadmitted s views (2 * m.toNat) k a)
    (hm : s.me.argN = some m) (hle : m.toNat ≤ 2 ^ 30) : runTwf s.cfg s.me s.work σ = .error (.fault .stuck) := by
  have hpos := h.inRange
  have h0 : m.toNat ≠ 0 := by omega
  simp only [runTwf, hm, arg, bind_ok, h.reads, if_neg h0]
  refine h.checked_stuck (decide_eq_false (Nat.not_lt.2 hle)) (storeCx_stuck _ _ _ _ _)
    (storeCx_needs h.position (Nat.zero_le k) ?_)
  rw [fracTwiddles_length _ _ (by omega), Nat.zero_add]
  exact hpos

theorem PairUnadmitted.runScl_stuck {m : Word64} {scale : Elem} (h : PairUnadmitted s views m.toNat k a)
    (hm : s.me.argN = some m) (hscale : s.me.argScale = some scale) (h1 : s.cfg.ty.isOne scale = false)
    (hle : m.toNat ≤ 2 ^ 31) : runScl s.cfg s.me s.work = .error (.fault .stuck) := by
  have h0 : m.toNat ≠ 0 := by have := h.inRange; omega
  simp only [runScl, hm, hscale, arg, bind_ok, h.reads, if_neg h0]
  exact h.checked_stuck (decide_eq_false (Nat.not_lt.2 hle)) (scaleViews_stuck _ _ _ _ _ _)
    (scaleViews_needs _ h1 h.inRange h.position)

theorem PairUnadmitted.runOmp_stuck {σ : Dir} {p : Policy} {depth : Nat} (h : PairUnadmitted s views (2 ^ l) k a)
    (hbad : ¬ (l < depth ∨ 31 < l)) (hcount : ompCount s.cfg (views (2 ^ l)).1 (views (2 ^ l)).2 l depth p s.work ≠ 0) :
    runOmp s.cfg s.me s.work σ p l depth = .error (.fault .stuck) := by
  have hrun : ompRun s.cfg (views (2 ^ l)).1 (views (2 ^ l)).2 l depth σ p s.work = .error .stuck := by
    cases hr : ompRun s.cfg (views (2 ^ l)).1 (views (2 ^ l)).2 l depth σ p s.work with
    | ok r =>
      have hadm := ompRun_admitted (by omega) h.inRange h.position hr (by rwa [ompRun_count hr])
      rw [work_mem, h.unadmitted] at hadm
      cases hadm
    | error f => rw [ompRun_stuck _ _ _ _ _ _ _ _ f hr]
  rw [runOmp, h.reads, bind_ok]
  refine (checkedPair_eq (multipassBad_eq_false.2 hbad) h.accepted h.apart _).trans ?_
  rw [hrun]
  rfl

end pair

/-! ### The statement -/

/-- `BRV` reads its source and writes its destination (R200). -/
theorem brv_unadmitted {l : Nat} {s : State} {sb ss db ds : Word64}
    (hsb : s.me.argSrcRe = some sb) (hss : s.me.argSsRe = some ss) (hdb : s.me.argDstRe = some db)
    (hds : s.me.argDsRe = some ds) (hl : l ≤ 31) (hdb0 : db ≠ 0) (hds0 : ds ≠ 0)
    (hap : sb = 0 ∨ viewOf sb ss (2 ^ l) = viewOf db ds (2 ^ l) ∨ (viewOf sb ss (2 ^ l)).Apart (viewOf db ds (2 ^ l)))
    (hst : sb = 0 ∨ sb ≠ db ∨ ss = ds) {i : Nat} (hi : i < 2 ^ l)
    (ha : s.mem.atAddr ((viewOf db ds (2 ^ l)).addr i) = none
      ∨ sb ≠ 0 ∧ s.mem.atAddr ((viewOf sb ss (2 ^ l)).addr i) = none) : exec (.brv l) s = .fault .stuck := by
  have hstuck : bitRev s.cfg.ty (viewOf sb ss (2 ^ l)) (viewOf db ds (2 ^ l)) l s.work = .error .stuck := by
    rcases ha with ha | ⟨hsb0, ha⟩
    · exact (bitRev_needs_dst _ _ _ hi).stuck (bitRev_stuck _ _ _ _ _) ha
    · exact (bitRev_needs_src _ _ (fun h => hsb0 (addrOf_eq_zero.1 h)) hi).stuck (bitRev_stuck _ _ _ _ _) ha
  refine complete_fault.2 ?_
  rw [runBrv_checked hsb hss hdb hds hl hdb0 hds0 hap hst, hstuck]
  rfl

/-- A shuffle that accesses every address of its region is stuck where one is not admitted (R201, R202). -/
theorem runShuffle_unadmitted {shuffle : Int → Nat → Work → Except Fault Work} {s : State} {n b : Word64}
    (hn : s.me.argN = some n) (hb : s.me.argDstRe = some b) (hb0 : b ≠ 0) (hp : isPow2 n.toNat = true)
    (hle : n.toNat ≤ 2 ^ 30) {i : Nat} (hi : i < 2 * n.toNat) (ha : s.mem.atAddr (addrOf b + i) = none)
    (hs : ∀ b l w, OnlyStuck (shuffle b l w)) (hneeds : ∀ b l, i < 2 * 2 ^ l → Needs (b + i) (shuffle b l)) :
    runShuffle shuffle s.me s.work = .error (.fault .stuck) := by
  obtain ⟨h0, hpow⟩ := isPow2_iff.1 hp
  have hbase : (addrOf b == 0) = false := by simpa [addrOf_eq_zero] using hb0
  have hbad : dilBad n.toNat (addrOf b) = false := by
    simp only [dilBad, hp, hbase, Bool.not_true, Bool.false_or, Bool.or_false]
    exact decide_eq_false (Nat.not_lt.2 hle)
  have hstuck := (hneeds (addrOf b) (Nat.log2 n.toNat) (by rwa [hpow])).stuck (w := s.work) (hs _ _ _) ha
  simp only [runShuffle, hn, hb, arg, bind_ok, if_neg h0, (invalidIf_eq_ok (u := ())).2 hbad, hstuck]
  rfl

/-- The commands on a destination pair, where they make an access (R176, R177, R240–R244, R278). -/
theorem pair_unadmitted {i : Instr} {s : State} {n k : Nat} {bad : Prop} {a : Int} {views : Nat → View × View}
    (hw : pairWork i s.cfg.lbuf s.me = some (n, bad)) (hbad : ¬ bad) (hargs : argsWritten i s.me)
    (hidle : idleOn i s = false) (h : PairUnadmitted s views n k a) : exec i s = .fault .stuck := by
  cases i with
  | pass σ d l =>
    cases hw
    exact complete_fault.2 (h.runInPlace_stuck (passBad_eq_false.2 hbad) (fun _ _ _ => pass_stuck _ _ _ _ _ _ _)
      (pass_needs _ σ (by omega) (by omega) h.inRange h.position))
  | r8 σ l =>
    cases hw
    exact complete_fault.2 (h.runInPlace_stuck (by simpa [r8Min, log2nMax] using hbad)
      (fun _ _ _ => r8Kernel_stuck _ _ _ _ _ _) (r8Kernel_needs _ σ (by simp only [r8Min]; omega) h.inRange h.position))
  | mps σ p l depth =>
    cases hw
    exact complete_fault.2 (h.runInPlace_stuck (multipassBad_eq_false.2 hbad) (fun _ _ _ => multipass_stuck _ _ _ _ _ _ _ _)
      (multipass_needs _ σ p (by simpa [idleOn] using hidle) (by omega) h.inRange h.position))
  | bfy σ p l =>
    cases hw
    obtain ⟨hr, hi⟩ := dstPair_counts h.reads (2 ^ l)
    exact complete_fault.2 (h.runInPlace_stuck (decide_eq_false hbad) (fun _ _ _ => dbcF_stuck _ _ _ _ _ _ _)
      (dbcF_needs _ σ p (by simpa [idleOn] using hidle) hr hi h.inRange h.position))
  | scl =>
    obtain ⟨m, hm, he⟩ := Option.map_eq_some_iff.1 hw
    cases he
    have hwritten : (s.me.argument .scale).isSome = true := hargs .scale (by simp [argsRead])
    obtain ⟨scale, hscale⟩ : ∃ scale, s.me.argScale = some scale := by
      simpa [Context.argument, Option.isSome_iff_exists] using hwritten
    have h1 : s.cfg.ty.isOne scale = false := by simpa [idleOn, hscale] using hidle
    exact complete_fault.2 (h.runScl_stuck hm hscale h1 (Nat.not_lt.1 hbad))
  | twg σ bigN l =>
    cases hw
    exact complete_fault.2 (h.runTwg_stuck (by omega) (by omega))
  | twf σ =>
    obtain ⟨m, hm, he⟩ := Option.map_eq_some_iff.1 hw
    cases he
    exact complete_fault.2 (h.runTwf_stuck hm (Nat.not_lt.1 hbad))
  | omp σ p l depth =>
    cases hw
    have hcount : ompCount s.cfg (views (2 ^ l)).1 (views (2 ^ l)).2 l depth p s.work ≠ 0 := by
      simpa [idleOn, h.reads] using hidle
    exact complete_fault.2 (h.runOmp_stuck hbad hcount)
  | xfs _ _ | xfi _ _ | xft _ _ | blu _ _ | brv _ | dil | ilv | cxm _ | cxf | prb | sel _ _ _ => cases hw

/-- A transform that passes its checks, with a draw that is not null where it needs scratch (R302, R345). -/
theorem request_unadmitted {i : Instr} {s : State} {r : Request} (hr : requestOf i s.me = some r)
    (hbad : ¬ RequestRejected s.cfg r) (hover : ¬ RequestOverlaps r)
    (hdraw : takesBluestein r.n r.forceBS = true → ∃ b rest, s.allocs = some b :: rest) {v : View}
    (hv : v ∈ r.views.list) (hb : v.base ≠ 0) {k : Nat} (hk : k < r.n) (ha : s.mem.atAddr (v.addr k) = none) :
    exec i s = .fault .stuck := by
  obtain ⟨shape, σ, p, fb, hfrom, hexec, hshape⟩ := exec_request hr
  have hcount : v.count = r.n := by
    obtain ⟨n, scale, views, -, -, hviews, rfl⟩ := requestFrom_eq_some hfrom
    obtain ⟨h1, h2, h3, h4⟩ := shape_counts (hshape views hviews) n.toNat
    rcases Views.mem_list.1 hv with (rfl | rfl) | rfl | rfl <;> assumption
  have hstuck := transform_unadmitted (c := s.cfg) (σ := σ) (scale := r.scale) (p := p) (w := s.work.goto .validate)
    hv hb hcount hk ha hdraw
  rw [hexec, complete_fault, runXform_checked hfrom (by omega) hbad hover, hstuck]
  rfl

/-- Settles O24: each command accesses every address of its views (`Needs`), so it does not end where one is not admitted,
and its work can fail only by being stuck (`OnlyStuck`). -/
theorem unadmittedAccessIsStuck : Obligations.UnadmittedAccessIsStuck := by
  refine ⟨?_, ?_, ?_, ?_⟩
  · rintro l s sb ss db ds hsb hss hdb hds hl hdb0 hds0 hap hst ⟨i, hi, ha⟩
    exact brv_unadmitted hsb hss hdb hds hl hdb0 hds0 hap hst hi ha
  · rintro s n b hn hb hb0 hp hle ⟨i, hi, ha⟩
    exact ⟨complete_fault.2 (runShuffle_unadmitted hn hb hb0 hp hle hi ha (deinterleave_stuck _)
        fun b _ => deinterleave_needs _ b),
      complete_fault.2 (runShuffle_unadmitted hn hb hb0 hp hle hi ha (interleave_stuck _)
        fun b _ => interleave_needs _ b)⟩
  · rintro i s n bad dre dim sre sim hw hargs hp hbad hd hap hidle ⟨k, hk, ha⟩
    obtain ⟨a, hat, ha⟩ : ∃ a, AtPosition (viewOf dre sre n) (viewOf dim sim n) k a ∧ s.mem.atAddr a = none :=
      ha.elim (fun ha => ⟨_, .inl rfl, ha⟩) fun ha => ⟨_, .inr rfl, ha⟩
    exact pair_unadmitted hw hbad hargs hidle
      ⟨dstPair_eq_ok.2 ⟨dre, dim, sre, sim, hp, rfl⟩, hd, hap, hk, hat, ha⟩
  · rintro i s r hr hbad hover hdraw ⟨v, hv, hb, k, hk, ha⟩
    exact request_unadmitted hr hbad hover hdraw hv hb hk ha

end Sys2Proof.Machine

/-! SUPPORT. Proofs of the scope's statements: the encoding of commands (R110–R114, R119) and illegal words (R116). -/

namespace Sys2Proof

/-! ### The opcode map -/

theorem rows_op_inj {r r' : Row} (h : r ∈ rows) (h' : r' ∈ rows) (ho : r.op = r'.op) : r = r' := by
  have key : ∀ r ∈ rows, ∀ r' ∈ rows, r.op = r'.op → r = r' := by decide
  exact key r h r' h' ho

theorem rows_op_pos_lt {r : Row} (h : r ∈ rows) : 0 < r.op ∧ r.op < 256 := by
  have key : ∀ r ∈ rows, 0 < r.op ∧ r.op < 256 := by decide
  exact key r h

theorem rowOf_eq_some {op : Nat} {r : Row} : rowOf op = some r ↔ r ∈ rows ∧ r.op = op := by
  have found : ∀ {r'}, rowOf op = some r' → r' ∈ rows ∧ r'.op = op := fun h =>
    ⟨List.mem_of_find?_eq_some h, by simpa using List.find?_some h⟩
  refine ⟨found, fun ⟨hm, ho⟩ => ?_⟩
  obtain ⟨r', hr'⟩ : ∃ r', rowOf op = some r' :=
    Option.isSome_iff_exists.1 (List.find?_isSome.2 ⟨r, hm, by simpa using ho⟩)
  obtain ⟨hm', ho'⟩ := found hr'
  rw [hr', rows_op_inj hm' hm (ho'.trans ho.symm)]

/-- Every opcode of the map names a command (R114). -/
theorem exists_build {r : Row} (h : r ∈ rows) (d : Dir) (p : Policy) (a b : Nat) : ∃ i, build r.op d p a b = some i := by
  have key : ∀ r ∈ rows, ∃ i, build r.op d p a b = some i := by simp [rows, build]
  exact key r h

/-! ### Fields of a word -/

/-- Each field of a word fits its place (R110). -/
theorem fieldsOf_lt (w : Word32) : (fieldsOf w).op < 256 ∧ (fieldsOf w).dir < 2 ∧ (fieldsOf w).bit9 < 2
    ∧ (fieldsOf w).vsel < 4 ∧ (fieldsOf w).vw < 16 ∧ (fieldsOf w).a < 32 ∧ (fieldsOf w).b < 32 ∧ (fieldsOf w).top < 64 := by
  have hw := w.isLt
  simp only [fieldsOf]
  omega

/-- The number that fields make, each above the ones before it (R110). -/
def Fields.value (f : Fields) : Nat :=
  f.op + 2 ^ 8 * (f.dir + 2 ^ 1 * (f.bit9 + 2 ^ 1 * (f.vsel + 2 ^ 2 * (f.vw + 2 ^ 4 * (f.a
    + 2 ^ 5 * (f.b + 2 ^ 5 * f.top))))))

theorem toNat_eq_value (w : Word32) : w.toNat = (fieldsOf w).value := by
  simp only [fieldsOf, Fields.value]
  omega

theorem Fields.word_eq_ofNat_value (f : Fields) : f.word = BitVec.ofNat 32 f.value := by
  rw [Fields.word, Fields.value]
  congr 1
  omega

/-- The fields of a word make it up (R110). -/
theorem word_fieldsOf (w : Word32) : (fieldsOf w).word = w := by
  rw [Fields.word_eq_ofNat_value, ← toNat_eq_value, BitVec.ofNat_toNat, BitVec.setWidth_eq]

/-! ### What decodes -/

theorem decodeFields_eq_ok {f : Fields} {i : Instr} : decodeFields f = .ok i ↔
    ∃ r ∈ rows, r.op = f.op ∧ r.zerosHold f = true
      ∧ ∃ pol, policyOf f.vsel f.vw = some pol ∧ build f.op (dirOf f.dir) pol f.a f.b = some i := by
  constructor
  · intro h
    rw [decodeFields] at h
    split at h
    · cases h
    · rename_i r hr
      obtain ⟨hm, ho⟩ := rowOf_eq_some.1 hr
      split at h
      · rename_i hz
        split at h
        · cases h
        · rename_i pol hp
          split at h
          · rename_i i' hb
            cases h
            exact ⟨r, hm, ho, hz, pol, hp, hb⟩
          · cases h
      · cases h
  · rintro ⟨r, hm, ho, hz, pol, hp, hb⟩
    simp only [decodeFields, rowOf_eq_some.2 ⟨hm, ho⟩, hz, hp, hb, if_true]

/-- A word decodes as its fields do: the all-zero word's opcode is not in the map. -/
theorem decode_eq_ok {w : Word32} {i : Instr} : decode w = .ok i ↔ decodeFields (fieldsOf w) = .ok i := by
  rw [decode]
  split
  · rename_i h0
    subst h0
    exact ⟨nofun, nofun⟩
  · exact Iff.rfl

theorem Row.zerosHold_iff {r : Row} {f : Fields} : r.zerosHold f = true ↔
    f.bit9 = 0 ∧ f.top = 0 ∧ (r.dir = true ∨ f.dir = 0)
    ∧ (r.vec = true ∨ f.vsel = 0 ∧ f.vw = 0) ∧ (r.a = true ∨ f.a = 0) ∧ (r.b = true ∨ f.b = 0) := by
  simp [Row.zerosHold, and_assoc]

/-! ### A command and its fields -/

@[simp] theorem dirOf_field (d : Dir) : dirOf d.field = d := by cases d <;> rfl

theorem field_dirOf {v : Nat} (h : v < 2) : (dirOf v).field = v := by
  interval_cases v <;> rfl

theorem eq_fieldsWith {f : Fields} (h9 : f.bit9 = 0) (htop : f.top = 0) :
    f = fieldsWith f.op f.dir f.vsel f.vw f.a f.b := by
  cases f
  cases h9
  cases htop
  rfl

theorem widthOf_eq_some {v : Nat} {x : Width} : widthOf v = some x ↔ v = x.field := by
  constructor
  · intro h
    unfold widthOf at h
    split at h <;> cases h <;> rfl
  · rintro rfl
    cases x <;> rfl

/-- A `VSEL`/`VW` pair is that of the policy it names (R112). -/
theorem policyOf_eq_some {vsel vw : Nat} {p : Policy} : policyOf vsel vw = some p ↔ vsel = p.vsel ∧ vw = p.vw := by
  constructor
  · intro h
    unfold policyOf at h
    split at h
    · split at h <;> cases h
      exact ⟨rfl, ‹_›⟩
    · split at h <;> cases h
      exact ⟨rfl, ‹_›⟩
    · obtain ⟨x, hx, rfl⟩ := Option.map_eq_some_iff.1 h
      exact ⟨rfl, widthOf_eq_some.1 hx⟩
    · cases h
  · rintro ⟨rfl, rfl⟩
    cases p with
    | auto => rfl
    | scalar => rfl
    | force x => exact Option.map_eq_some_iff.2 ⟨x, widthOf_eq_some.2 rfl, rfl⟩

/-- A command is built from the opcode, direction, policy and operands that its fields hold (R114). -/
theorem fields_build (i : Instr) : ∃ op d p a b,
    i.fields = fieldsWith op d.field p.vsel p.vw a b ∧ build op d p a b = some i := by
  cases i with
  | xfs d p => exact ⟨_, d, p, _, _, rfl, rfl⟩
  | xfi d p => exact ⟨_, d, p, _, _, rfl, rfl⟩
  | xft d p => exact ⟨_, d, p, _, _, rfl, rfl⟩
  | blu d p => exact ⟨_, d, p, _, _, rfl, rfl⟩
  | brv l => exact ⟨_, .forward, .auto, _, _, rfl, rfl⟩
  | dil => exact ⟨_, .forward, .auto, _, _, rfl, rfl⟩
  | ilv => exact ⟨_, .forward, .auto, _, _, rfl, rfl⟩
  | pass d k l => exact ⟨_, d, .auto, _, _, rfl, rfl⟩
  | r8 d l => exact ⟨_, d, .auto, _, _, rfl, rfl⟩
  | mps d p l k => exact ⟨_, d, p, _, _, rfl, rfl⟩
  | bfy d p l => exact ⟨_, d, p, _, _, rfl, rfl⟩
  | scl => exact ⟨_, .forward, .auto, _, _, rfl, rfl⟩
  | twg d n l => exact ⟨_, d, .auto, _, _, rfl, rfl⟩
  | twf d => exact ⟨_, d, .auto, _, _, rfl, rfl⟩
  | cxm k => exact ⟨_, .forward, .auto, _, _, rfl, rfl⟩
  | cxf => exact ⟨_, .forward, .auto, _, _, rfl, rfl⟩
  | prb => exact ⟨_, .forward, .auto, _, _, rfl, rfl⟩
  | sel p l k => exact ⟨_, .forward, p, _, _, rfl, rfl⟩
  | omp d p l k => exact ⟨_, d, p, _, _, rfl, rfl⟩

/-- The fields a row does not use are zero, so a command built from fields has these fields (R114). -/
theorem fields_of_build {r : Row} (hm : r ∈ rows) {d : Dir} {p : Policy} {a b : Nat} {i : Instr}
    (hz : r.zerosHold (fieldsWith r.op d.field p.vsel p.vw a b) = true) (hb : build r.op d p a b = some i) :
    i.fields = fieldsWith r.op d.field p.vsel p.vw a b := by
  simp only [rows, List.mem_cons, List.not_mem_nil, or_false] at hm
  rcases hm with rfl | rfl | rfl | rfl | rfl | rfl | rfl | rfl | rfl | rfl | rfl | rfl | rfl | rfl | rfl | rfl | rfl | rfl
    | rfl
  all_goals
    obtain rfl := Option.some.inj hb
    simp_all [Row.zerosHold, Instr.fields, fieldsWith]

theorem wellFormed_of_build {op : Nat} {d : Dir} {p : Policy} {a b : Nat} {i : Instr} (ha : a < 32) (hb : b < 32)
    (h : build op d p a b = some i) : i.wellFormed = true := by
  unfold build at h
  split at h <;> cases h <;> simp [Instr.wellFormed, fitsField, ha, hb]

/-! ### Round trips -/

/-- A well-formed command's fields are read back from its word, and meet the row of its opcode (R110, R114). -/
theorem encodingFits (i : Instr) : Laws.EncodingFits.Statement i := by
  cases i with
  | xfs d p => exact Laws.EncodingFits.xfs d p
  | xfi d p => exact Laws.EncodingFits.xfi d p
  | xft d p => exact Laws.EncodingFits.xft d p
  | blu d p => exact Laws.EncodingFits.blu d p
  | brv l => exact Laws.EncodingFits.brv l
  | dil => exact Laws.EncodingFits.dil
  | ilv => exact Laws.EncodingFits.ilv
  | pass d k l => exact Laws.EncodingFits.pass d k l
  | r8 d l => exact Laws.EncodingFits.r8 d l
  | mps d p l k => exact Laws.EncodingFits.mps d p l k
  | bfy d p l => exact Laws.EncodingFits.bfy d p l
  | scl => exact Laws.EncodingFits.scl
  | twg d n l => exact Laws.EncodingFits.twg d n l
  | twf d => exact Laws.EncodingFits.twf d
  | cxm k => exact Laws.EncodingFits.cxm k
  | cxf => exact Laws.EncodingFits.cxf
  | prb => exact Laws.EncodingFits.prb
  | sel p l k => exact Laws.EncodingFits.sel p l k
  | omp d p l k => exact Laws.EncodingFits.omp d p l k

/-- Settles O2: a well-formed command's fields are read back from its word (`encodingFits`), and they build the command
(`fields_build`). -/
theorem decodeOfEncodeIsTheCommand : Obligations.DecodeOfEncodeIsTheCommand := by
  intro i hi
  obtain ⟨hfields, r, hr, hz⟩ := encodingFits i hi
  obtain ⟨hm, ho⟩ := rowOf_eq_some.1 hr
  obtain ⟨op, d, p, a, b, hf, hb⟩ := fields_build i
  rw [decode_eq_ok, hfields, decodeFields_eq_ok]
  refine ⟨r, hm, ho, hz, p, ?_⟩
  rw [hf]
  exact ⟨policyOf_eq_some.2 ⟨rfl, rfl⟩, by simpa [fieldsWith] using hb⟩

/-- Settles O3: the fields of a legal word are those of the command built from them (`fields_of_build`), and the fields of
a word make it up (`word_fieldsOf`). -/
theorem encodeOfDecodeIsTheWord : Obligations.EncodeOfDecodeIsTheWord := by
  intro w i h
  obtain ⟨r, hm, ho, hz, p, hp, hb⟩ := decodeFields_eq_ok.1 (decode_eq_ok.1 h)
  obtain ⟨-, hdir, -, -, -, ha, hbb, -⟩ := fieldsOf_lt w
  have hf : fieldsOf w = fieldsWith r.op (dirOf (fieldsOf w).dir).field p.vsel p.vw (fieldsOf w).a (fieldsOf w).b := by
    obtain ⟨hvsel, hvw⟩ := policyOf_eq_some.1 hp
    obtain ⟨h9, htop, -⟩ := Row.zerosHold_iff.1 hz
    rw [ho, field_dirOf hdir, ← hvsel, ← hvw]
    exact eq_fieldsWith h9 htop
  refine ⟨wellFormed_of_build ha hbb hb, ?_⟩
  rw [← ho] at hb
  rw [hf] at hz
  rw [encode, fields_of_build hm hz hb, ← hf, word_fieldsOf]

theorem decode_of_encode_eq {w : Word32} {i : Instr} (hi : i.wellFormed = true) (hw : encode i = w) : decode w = .ok i :=
  hw ▸ decodeOfEncodeIsTheCommand i hi

/-- Settles O1: each word is that of the command it stands for. -/
theorem decodesWordsTheSpecSpells : Obligations.DecodesWordsTheSpecSpells := by
  refine ⟨?_, ?_, ?_, ?_, ?_, ?_, ?_, ?_, ?_, ?_, ?_, ?_, ?_, ?_, ?_, ?_, ?_, ?_, ?_, ?_⟩
  all_goals exact decode_of_encode_eq rfl rfl

/-! ### Masks and matches -/

/-- What a row's mask leaves of a field: nothing of one the row uses (R114). -/
def masked (used : Bool) (x : Nat) : Nat := if used then 0 else x

/-- What a row's mask leaves of a word's fields (R114). -/
def Row.select (r : Row) (f : Fields) : Fields :=
  { f with
    dir := masked r.dir f.dir, vsel := masked r.vec f.vsel, vw := masked r.vec f.vw
    a := masked r.a f.a, b := masked r.b f.b }

/-- The fields of the word whose bits are all one (R110). -/
def Fields.ones : Fields :=
  { op := 2 ^ 8 - 1, dir := 2 ^ 1 - 1, bit9 := 2 ^ 1 - 1, vsel := 2 ^ 2 - 1, vw := 2 ^ 4 - 1, a := 2 ^ 5 - 1, b := 2 ^ 5 - 1
    top := 2 ^ 6 - 1 }

/-- Masks of adjacent fields act on each field by itself. -/
theorem land_adjacent {k a c : Nat} (ha : a < 2 ^ k) (hc : c < 2 ^ k) (b d : Nat) :
    (a + 2 ^ k * b) &&& (c + 2 ^ k * d) = (a &&& c) + 2 ^ k * (b &&& d) := by
  have hlow : ∀ {x y : Nat}, x < 2 ^ k → (x + 2 ^ k * y) % 2 ^ k = x := fun h => by
    rw [Nat.add_mul_mod_self_left, Nat.mod_eq_of_lt h]
  have hhigh : ∀ {x y : Nat}, x < 2 ^ k → (x + 2 ^ k * y) / 2 ^ k = y := fun h => by
    rw [Nat.add_mul_div_left _ _ (Nat.two_pow_pos k), Nat.div_eq_of_lt h, Nat.zero_add]
  rw [← Nat.mod_add_div ((a + 2 ^ k * b) &&& (c + 2 ^ k * d)) (2 ^ k), Nat.and_mod_two_pow, Nat.and_div_two_pow,
    hlow ha, hlow hc, hhigh ha, hhigh hc]

/-- A field under all its bits is the field, and under none it is zero. -/
theorem land_masked {k x : Nat} (hx : x < 2 ^ k) (used : Bool) : x &&& masked used (2 ^ k - 1) = masked used x := by
  cases used with
  | true => exact Nat.and_zero x
  | false => exact Nat.and_two_pow_sub_one_of_lt_two_pow hx

theorem masked_lt {k x : Nat} (hx : x < 2 ^ k) (used : Bool) : masked used x < 2 ^ k := by
  cases used with
  | true => exact Nat.two_pow_pos k
  | false => exact hx

/-- A row's mask has every bit of the fields it does not use. -/
theorem mask_toNat (r : Row) : r.mask.toNat = (r.select .ones).value := by
  obtain ⟨op, dir, vec, a, b⟩ := r
  simp only [Row.mask, Row.select, Fields.ones, Fields.value, masked, BitVec.toNat_ofNat]
  cases dir <;> cases vec <;> cases a <;> cases b <;> simp

/-- A word under a row's mask: its opcode and its must-be-zero fields (R114). -/
theorem land_mask_toNat (r : Row) (w : Word32) : (w &&& r.mask).toNat = (r.select (fieldsOf w)).value := by
  obtain ⟨hop, hdir, h9, hvsel, hvw, ha, hb, htop⟩ := fieldsOf_lt w
  have ones : ∀ {k : Nat}, 2 ^ k - 1 < 2 ^ k := fun {k} => Nat.sub_lt (Nat.two_pow_pos k) Nat.one_pos
  rw [BitVec.toNat_and, toNat_eq_value, mask_toNat]
  simp only [Fields.value, Row.select, Fields.ones]
  rw [land_adjacent hop ones, land_adjacent hdir (masked_lt ones _), land_adjacent h9 ones,
    land_adjacent hvsel (masked_lt ones _), land_adjacent hvw (masked_lt ones _), land_adjacent ha (masked_lt ones _),
    land_adjacent hb (masked_lt ones _), land_masked hdir, land_masked hvsel, land_masked hvw, land_masked ha,
    land_masked hb, Nat.and_two_pow_sub_one_of_lt_two_pow hop, Nat.and_two_pow_sub_one_of_lt_two_pow h9,
    Nat.and_two_pow_sub_one_of_lt_two_pow htop]

theorem masked_eq_zero {used : Bool} {x : Nat} : masked used x = 0 ↔ used = true ∨ x = 0 := by
  cases used <;> simp [masked]

/-- The mask and match of a row test its opcode and its must-be-zero fields (R114). -/
theorem land_mask_eq_pattern {r : Row} (hm : r ∈ rows) {w : Word32} :
    w &&& r.mask = r.pattern ↔ r.op = (fieldsOf w).op ∧ r.zerosHold (fieldsOf w) = true := by
  have hr := (rows_op_pos_lt hm).2
  have hw := (fieldsOf_lt w).1
  have hpat : r.pattern.toNat = r.op := by
    rw [Row.pattern, BitVec.toNat_ofNat]
    omega
  have hvec : r.vec = true ∨ (fieldsOf w).vsel = 0 ∧ (fieldsOf w).vw = 0 ↔
      masked r.vec (fieldsOf w).vsel = 0 ∧ masked r.vec (fieldsOf w).vw = 0 := by
    rw [masked_eq_zero, masked_eq_zero, or_and_left]
  rw [← BitVec.toNat_inj, land_mask_toNat, hpat, Row.zerosHold_iff, hvec, ← masked_eq_zero, ← masked_eq_zero,
    ← masked_eq_zero]
  simp only [Fields.value, Row.select]
  omega

/-- A word is legal where it meets a row and its policy pair is legal (R112, R114). -/
theorem exists_decode_iff {w : Word32} : (∃ i, decode w = .ok i) ↔
    ∃ r ∈ rows, w &&& r.mask = r.pattern ∧ (policyOf (fieldsOf w).vsel (fieldsOf w).vw).isSome = true := by
  constructor
  · rintro ⟨i, h⟩
    obtain ⟨r, hm, ho, hz, p, hp, -⟩ := decodeFields_eq_ok.1 (decode_eq_ok.1 h)
    exact ⟨r, hm, (land_mask_eq_pattern hm).2 ⟨ho, hz⟩, Option.isSome_of_eq_some hp⟩
  · rintro ⟨r, hm, hw, hs⟩
    obtain ⟨ho, hz⟩ := (land_mask_eq_pattern hm).1 hw
    obtain ⟨p, hp⟩ := Option.isSome_iff_exists.1 hs
    obtain ⟨i, hb⟩ := exists_build hm (dirOf (fieldsOf w).dir) p (fieldsOf w).a (fieldsOf w).b
    exact ⟨i, decode_eq_ok.2 (decodeFields_eq_ok.2 ⟨r, hm, ho, hz, p, hp, ho ▸ hb⟩)⟩

/-- Settles O4, by `exists_decode_iff`; the row a word meets is that of its opcode (`land_mask_eq_pattern`). -/
theorem legalWordsMatchOneRow : Obligations.LegalWordsMatchOneRow := by
  intro w
  refine ⟨exists_decode_iff, fun r hr r' hr' h h' => ?_⟩
  exact rows_op_inj hr hr' (((land_mask_eq_pattern hr).1 h).1.trans ((land_mask_eq_pattern hr').1 h').1.symm)

/-! ### Illegal words -/

theorem exists_error_iff {ε α : Type} {x : Except ε α} : (∃ e, x = .error e) ↔ ¬ ∃ a, x = .ok a := by
  cases x <;> simp

/-- Settles O5: a word is illegal where `exists_decode_iff` fails, and it is turned away. -/
theorem illegalWordChangesStatusAlone : Obligations.IllegalWordChangesStatusAlone := by
  intro w
  refine ⟨?_, fun e s h => ?_⟩
  · rw [exists_error_iff, exists_decode_iff]
    constructor
    · intro h
      by_cases hop : ∃ r ∈ rows, r.op = (fieldsOf w).op
      · obtain ⟨r, hm, ho⟩ := hop
        by_cases hw : w &&& r.mask = r.pattern
        · exact .inr (.inr (.inr (Option.not_isSome_iff_eq_none.1 fun hs => h ⟨r, hm, hw, hs⟩)))
        · exact .inr (.inr (.inl ⟨r, hm, ho, hw⟩))
      · exact .inr (.inl fun r hm ho => hop ⟨r, hm, ho⟩)
    · rintro h ⟨r, hm, hw, hs⟩
      have ho := ((land_mask_eq_pattern hm).1 hw).1
      rcases h with rfl | h | ⟨r', hm', ho', hw'⟩ | h
      · exact (rows_op_pos_lt hm).1.ne' ho
      · exact h r hm ho
      · exact hw' (rows_op_inj hm hm' (ho.trans ho'.symm) ▸ hw)
      · rw [h] at hs
        cases hs
  · simp only [Machine.issue, h]
    rfl

end Sys2Proof

/-! SUPPORT. Proofs of the scope's statements: the argument registers a command does not read (R115). -/

namespace Sys2Proof.Machine

/-! ### The body of a command -/

/-- What a command hands to its completion, from the build, the argument registers and the work it starts with (R340). -/
def commandBody (i : Instr) (c : Config) (me : Context) (w : Work) : Except Stop Done :=
  match i with
  | .xfs σ p => runXform c me w splitArgs σ p false
  | .xfi σ p => runXform c me w interleavedArgs σ p false
  | .xft σ p => runXform c me w stridedArgs σ p false
  | .blu σ p => runXform c me w stridedArgs σ p true
  | .brv l => runBrv c me w l
  | .dil => runShuffle (deinterleave c.ty) me w
  | .ilv => runShuffle (interleave c.ty) me w
  | .pass σ d l => runInPlace me w l (passBad d l) fun vr vi => pass c vr vi l d σ
  | .r8 σ l => runInPlace me w l (decide (l < r8Min) || decide (log2nMax < l)) fun vr vi => r8Kernel c.ty vr vi l σ
  | .mps σ p l depth => runInPlace me w l (multipassBad l depth) fun vr vi => multipass c vr vi l depth σ p
  | .bfy σ p l => runInPlace me w l (decide (log2nMax < l)) fun vr vi => dbcF c σ p l vr vi
  | .scl => runScl c me w
  | .twg σ bigN l => runTwg c me w σ bigN l
  | .twf σ => runTwf c me w σ
  | .cxm k => runCxm c w k
  | .cxf => runCxf c me w
  | .prb => runPrb c w
  | .sel p l depth => runSel c me w p l depth
  | .omp σ p l depth => runOmp c me w σ p l depth

theorem exec_eq_complete (i : Instr) (s : State) : exec i s = s.complete (commandBody i s.cfg s.me s.work) := by
  cases i <;> rfl

/-- The two contexts hold the same in a register (R31). -/
def SameRegister (c d : Context) : ArgReg → Prop
  | .n => d.argN = c.argN
  | .scale => d.argScale = c.argScale
  | .srcRe => d.argSrcRe = c.argSrcRe
  | .srcIm => d.argSrcIm = c.argSrcIm
  | .dstRe => d.argDstRe = c.argDstRe
  | .dstIm => d.argDstIm = c.argDstIm
  | .ssRe => d.argSsRe = c.argSsRe
  | .ssIm => d.argSsIm = c.argSsIm
  | .dsRe => d.argDsRe = c.argDsRe
  | .dsIm => d.argDsIm = c.argDsIm
  | .p => d.argP = c.argP
  | .q => d.argQ = c.argQ

theorem sameRegister_of_argument {c d : Context} {r : ArgReg} (h : d.argument r = c.argument r) : SameRegister c d r := by
  have word : ∀ {x y : Option Word64}, x.map BitVec.toNat = y.map BitVec.toNat → x = y := fun h =>
    Option.map_injective (fun _ _ => BitVec.eq_of_toNat_eq) h
  have elem : ∀ {x y : Option Elem}, x.map Elem.code = y.map Elem.code → x = y := fun h =>
    Option.map_injective (fun ⟨_⟩ ⟨_⟩ h => congrArg Elem.mk h) h
  cases r with
  | scale => exact elem h
  | _ => exact word h

/-- A body depends on the registers of R115 alone. -/
theorem commandBody_congr {i : Instr} {me d : Context} (h : ∀ r ∈ argsRead i, d.argument r = me.argument r) (c : Config)
    (w : Work) : commandBody i c d w = commandBody i c me w := by
  replace h := fun r hr => sameRegister_of_argument (h r hr)
  cases i
  all_goals simp only [argsRead, List.forall_mem_cons, SameRegister] at h
  case xfs | xfi | xft | blu => simp only [commandBody, runXform, splitArgs, interleavedArgs, stridedArgs, h]
  case brv => simp only [commandBody, runBrv, brvArgs, h]
  case dil | ilv => simp only [commandBody, runShuffle, h]
  case pass | r8 | mps | bfy => simp only [commandBody, runInPlace, dstPair, h]
  case scl => simp only [commandBody, runScl, dstPair, h]
  case twg => simp only [commandBody, runTwg, dstPair, h]
  case twf => simp only [commandBody, runTwf, dstPair, h]
  case cxm | prb => rfl
  case cxf => simp only [commandBody, runCxf, h]
  case sel => simp only [commandBody, runSel, h]
  case omp => simp only [commandBody, runOmp, dstPair, h]

/-- A command that completes hands over every result register it writes (R40, R41). -/
theorem commandBody_results {i : Instr} {c : Config} {me : Context} {w : Work} {d : Done}
    (h : commandBody i c me w = .ok d) :
    (writesResult i = true → d.result.isSome = true) ∧ (writesRes i = true → d.res.isSome = true) := by
  cases i with
  | cxm k => cases h; exact ⟨nofun, fun _ => rfl⟩
  | cxf =>
    obtain ⟨p, -, h⟩ := bind_eq_ok.1 h
    obtain ⟨q, -, h⟩ := bind_eq_ok.1 h
    obtain ⟨-, -, h⟩ := bind_eq_ok.1 h
    cases h
    exact ⟨nofun, fun _ => rfl⟩
  | prb => cases h; exact ⟨fun _ => rfl, nofun⟩
  | sel p l depth =>
    obtain ⟨sre, -, h⟩ := bind_eq_ok.1 h
    obtain ⟨sim, -, h⟩ := bind_eq_ok.1 h
    obtain ⟨-, -, h⟩ := bind_eq_ok.1 h
    split at h <;> cases h <;> exact ⟨fun _ => rfl, nofun⟩
  | omp σ p l depth =>
    obtain ⟨views, -, h⟩ := bind_eq_ok.1 h
    obtain ⟨-, -, h⟩ := bind_eq_ok.1 h
    obtain ⟨-, -, h⟩ := bind_eq_ok.1 h
    obtain ⟨-, -, h⟩ := bind_eq_ok.1 h
    obtain ⟨r, -, h⟩ := bind_eq_ok.1 h
    cases h
    exact ⟨fun _ => rfl, nofun⟩
  | _ => exact ⟨nofun, nofun⟩

/-- Settles O22: both contexts run the same body on the same work (`commandBody_congr`), and what a result register held
before shows only where the body hands over no value (`commandBody_results`). -/
theorem unlistedRegistersDoNotMatter : Obligations.UnlistedRegistersDoNotMatter := by
  intro i s d hfsm hbase htrans hargs
  have hwork : State.work { s with me := d } = s.work := by
    simp only [State.work, hfsm, hbase, htrans]
  have hexec : exec i { s with me := d } = State.complete { s with me := d } (commandBody i s.cfg s.me s.work) := by
    rw [exec_eq_complete, hwork, commandBody_congr hargs]
  rw [hexec, exec_eq_complete]
  refine ⟨fun f hf => complete_fault.2 (complete_fault.1 hf), fun t ht => ?_⟩
  rcases complete_next.1 ht with ⟨e, he, rfl⟩ | ⟨he, rfl⟩
  · refine ⟨_, complete_next.2 (.inl ⟨e, he, rfl⟩), rfl, rfl, rfl, fun hi _ => ?_, fun hi _ => ?_⟩
    · obtain ⟨x, hx⟩ := Option.isSome_iff_exists.1 ((commandBody_results he).1 hi)
      rw [finish_result, finish_result, hx, Option.getD_some, Option.getD_some]
    · obtain ⟨z, hz⟩ := Option.isSome_iff_exists.1 ((commandBody_results he).2 hi)
      rw [finish_resRe, finish_resRe, finish_resIm, finish_resIm, hz]
      exact ⟨rfl, rfl⟩
  · have hcode : s.turnAway.me.status ≠ 0 := by
      rw [turnAway_status]
      decide
    exact ⟨_, complete_next.2 (.inr ⟨he, rfl⟩), rfl, rfl, rfl, fun _ h0 => absurd h0 hcode,
      fun _ h0 => absurd h0 hcode⟩

end Sys2Proof.Machine

/-! SUPPORT. Proofs of the scope's statements: the scalar family, `CXM` and `CXF` (R148–R155). -/

namespace Sys2Proof.Machine

/-! ### A command that hands over `RES_*` alone -/

/-- A command that hands back the work it started with and a complex value writes `STATUS` and `RES_*`, and leaves the
sequencer idle (R41, R350). -/
theorem finish_work_res (s : State) (z : Cx) :
    s.finish { code := .ok, work := s.work, result := none, res := some z } = { s with
      me := { s.me with status := 0, resRe := z.re, resIm := z.im, fsm := .idle, bsBase := 0,
                        trans := Transient.dropped } } := rfl

/-- Settles O26: `CXM` makes no check, and hands over the primitive's value. -/
theorem cxmLeavesThePrimitive : Obligations.CxmLeavesThePrimitive :=
  fun k s => congrArg Host.Outcome.next (finish_work_res s (cexpm1 s.cfg k))

/-- The one check of `CXF` is on the denominator (R155). -/
theorem runCxf_written {me : Context} {p q : Word64} (hp : me.argP = some p) (hq : me.argQ = some q) (c : Config)
    (w : Work) : runCxf c me w = (invalidIf (q == 0)).bind fun _ =>
      .ok { code := .ok, work := w, result := none, res := some (cexpm1Frac c p.toNat q.toNat) } := by
  rw [runCxf, bind_of_ok (arg_eq_ok.2 hp), bind_of_ok (arg_eq_ok.2 hq)]

/-- Settles O28, by the check on the denominator (`runCxf_written`). -/
theorem cxfLeavesTheFraction : Obligations.CxfLeavesTheFraction := by
  intro s p q hp hq
  simp only [exec, execCxf, runCxf_written hp hq]
  constructor
  · intro h0
    rw [bind_of_ok ((invalidIf_eq_ok (u := ())).2 (beq_eq_false_iff_ne.2 h0)), State.complete, finish_work_res]
  · rintro rfl
    exact congrArg Host.Outcome.next (turnAway_eq s)

/-! ### The ROM `CXTAB` -/

/-- The entry of a list at a position it has. -/
theorem entryAt_of_getElem? {l : List (Nat × Nat)} {i : Nat} {e : Nat × Nat} (h : l[i]? = some e) :
    entryAt l i = ⟨⟨e.1⟩, ⟨e.2⟩⟩ := by
  rw [entryAt, List.getD_eq_getElem?_getD, h, Option.getD_some]

/-- The table of R150 for an IEEE type, as encodings: `0`, `−2`, `−1 + i` and the listed entries. -/
def romEncodings : Ty → List (Nat × Nat)
  | .f64 => (0, 0) :: (0xC000000000000000, 0) :: (0xBFF0000000000000, 0x3FF0000000000000) :: cxtab64
  | .f32 => (0, 0) :: (0xC0000000, 0) :: (0xBF800000, 0x3F800000) :: cxtab32
  | _ => []

/-- Entries 0, 1 and 2 by the type's own arithmetic (R150): no operand of `−1 ⊖ 1` is a NaN, so the free value of the
subtraction (R141) does not show. -/
theorem cxtab_exact_entries : ∀ t ∈ [Ty.f64, Ty.f32], ∀ k < 3, cxtab t k = entryAt (romEncodings t) k := by
  decide +kernel

/-- The ROM holds the table of R150. -/
theorem cxtab_of_romEncodings {t : Ty} {k : Nat} {e : Nat × Nat} (h : (romEncodings t)[k]? = some e) :
    cxtab t k = ⟨⟨e.1⟩, ⟨e.2⟩⟩ := by
  cases t with
  | f64 | f32 =>
    match k, h with
    | 0, h | 1, h | 2, h => exact (cxtab_exact_entries _ (by decide) _ (by decide)).trans (entryAt_of_getElem? h)
    | k + 3, h => exact entryAt_of_getElem? h
  | fext | mp | fix => cases h

theorem romEncodings_length_le (t : Ty) : (romEncodings t).length ≤ cxtabLen := by
  cases t <;> decide

/-- Below the ROM's length a default `cexpm1` reads the ROM (R150). -/
theorem cexpm1_eq_cxtab {c : Config} {k : Nat} (hc : c.cexpm1 ≠ .custom) (hk : k < cxtabLen) :
    cexpm1 c k = cxtab c.ty k := by
  cases h : c.cexpm1 with
  | conforming | nearest => simp only [cexpm1, h, cexpm1Default, if_pos hk]
  | custom => exact absurd h hc

/-- `CXM` leaves the table's entry, whichever IEEE type the build has. -/
theorem cxm_leaves_romEncoding {s : State} {k : Nat} {e : Nat × Nat} (hc : s.cfg.cexpm1 ≠ .custom)
    (h : (romEncodings s.cfg.ty)[k]? = some e) :
    ∃ t, exec (.cxm k) s = .next t ∧ t.me.status = 0 ∧ t.me.resRe = ⟨e.1⟩ ∧ t.me.resIm = ⟨e.2⟩ := by
  have hk : k < cxtabLen := (List.getElem?_eq_some_iff.1 h).1.trans_le (romEncodings_length_le _)
  have hz : cexpm1 s.cfg k = ⟨⟨e.1⟩, ⟨e.2⟩⟩ := (cexpm1_eq_cxtab hc hk).trans (cxtab_of_romEncodings h)
  exact ⟨_, cxmLeavesThePrimitive k s, rfl, congrArg Cx.re hz, congrArg Cx.im hz⟩

/-- Settles O27: the statement's two lists are `romEncodings` of the two types. -/
theorem cxmReadsTheTable : Obligations.CxmReadsTheTable :=
  fun _ _ hc => ⟨fun ht _ he => cxm_leaves_romEncoding hc (ht ▸ he), fun ht _ he => cxm_leaves_romEncoding hc (ht ▸ he)⟩

/-! ### Quarter turns -/

/-- At `p/q = j/4` a default `cexpm1_frac` takes the exact value (R152). -/
theorem cexpm1Frac_eq_quarterTurn {c : Config} {p q j : Nat} (hc : c.cexpm1Frac ≠ .custom) (hq : 0 < q)
    (h : 4 * p = j * q) : cexpm1Frac c p q = quarterTurn c.ty j := by
  have hstd : ∀ prim, cexpm1FracStd c.ty prim p q = quarterTurn c.ty j := fun prim => by
    rw [cexpm1FracStd, h, if_pos (Nat.mul_mod_left j q), Nat.mul_div_cancel j hq]
  cases hp : c.cexpm1Frac with
  | conforming | nearest => simp only [cexpm1Frac, hp, hstd]
  | custom => exact absurd hp hc

/-- Settles O29: what `CXF` leaves (`cxfLeavesTheFraction`) is the value at `j` quarter turns. -/
theorem quarterTurnsAreExact : Obligations.QuarterTurnsAreExact := by
  intro s p q j hc hp hq h0 hj
  have hpos : 0 < q.toNat := BitVec.toNat_pos_of_ne_zero h0
  refine ⟨_, (cxfLeavesTheFraction s p q hp hq).1 h0, ?_⟩
  simp only [cexpm1Frac_eq_quarterTurn hc hpos hj]
  refine ⟨fun hmod => ?_, fun hmod => ?_, fun hmod => ?_, fun hmod => ?_⟩
  all_goals simp only [quarterTurn, hmod, minusTwo, and_self]

end Sys2Proof.Machine

/-! SUPPORT. Proofs of the scope's statements: the entries of the twiddle generators, and the commands `TWG` and `TWF`
(R171, R175–R177). -/

namespace Sys2Proof.Machine

/-! ### Tables that double -/

/-- An entry of a mapped table, wherever the table has it. -/
theorem getD_map_of_lt {α β : Type} [Inhabited α] [Inhabited β] (F : α → β) {l : List α} {j : Nat} (hj : j < l.length) :
    (l.map F).getD j default = F (l.getD j default) := by
  rw [List.getD_eq_getElem _ _ (by simpa using hj), List.getD_eq_getElem _ _ hj, List.getElem_map]

/-- The new half of a table that doubles is the old one, mapped. -/
theorem getD_append_map {l : List Cx} (F : Cx → Cx) {j : Nat} (hj : j < l.length) :
    (l ++ l.map F).getD (l.length + j) default = F (l.getD j default) := by
  rw [List.getD_append_right _ _ _ _ (Nat.le_add_right _ _), Nat.add_sub_cancel_left, getD_map_of_lt F hj]

/-- Cutting a table keeps the entries below the cut. -/
theorem getD_take {l : List Cx} {j m : Nat} (hj : j < m) : (l.take m).getD j default = l.getD j default := by
  simp only [List.getD_eq_getElem?_getD, List.getElem?_take_of_lt hj]

/-! ### `TwiddleGen` -/

section twiddleGen
variable (c : Config) (bigN : Nat) (σ : Dir)

/-- A step fills the entries from `2^i` on from those below (R171). -/
theorem twiddleRaw_succ_getD_high {i j : Nat} (hj : j < 2 ^ i) :
    (twiddleRaw c bigN σ (i + 1)).getD (2 ^ i + j) default
      = twStep c.ty (dirz c.ty (cexpm1 c (bigN - i)) σ) ((twiddleRaw c bigN σ i).getD j default) := by
  have hlen := twiddleRaw_length c bigN σ i
  have h := getD_append_map (twStep c.ty (dirz c.ty (cexpm1 c (bigN - i)) σ)) (hj.trans_eq hlen.symm)
  rwa [hlen] at h

/-- No step changes the entries below (R172). -/
theorem twiddleRaw_getD_of_le {i l j : Nat} (hil : i ≤ l) (hj : j < 2 ^ i) :
    (twiddleRaw c bigN σ l).getD j default = (twiddleRaw c bigN σ i).getD j default := by
  induction l, hil using Nat.le_induction with
  | base => rfl
  | succ l hil ih =>
    have hlt : j < (twiddleRaw c bigN σ l).length := by
      rw [twiddleRaw_length]
      exact hj.trans_le (Nat.pow_le_pow_right Nat.two_pos hil)
    rw [twiddleRaw, List.getD_append _ _ _ _ hlt, ih]

/-- The recurrence of R171, on the entries of the finished `−1` form. -/
theorem twiddleRaw_getD_two_pow_add {l i j : Nat} (hi : i < l) (hj : j < 2 ^ i) :
    (twiddleRaw c bigN σ l).getD (2 ^ i + j) default
      = twStep c.ty (dirz c.ty (cexpm1 c (bigN - i)) σ) ((twiddleRaw c bigN σ l).getD j default) := by
  rw [twiddleRaw_getD_of_le c bigN σ hi (show 2 ^ i + j < 2 ^ (i + 1) by rw [pow_succ]; omega),
    twiddleRaw_succ_getD_high c bigN σ hj, twiddleRaw_getD_of_le c bigN σ hi.le hj]

end twiddleGen

/-- Settles O30, by the recurrence on the entries (`twiddleRaw_getD_two_pow_add`). -/
theorem twiddleGenDoubles : Obligations.TwiddleGenDoubles := by
  intro c bigN l σ _
  refine ⟨twiddleGen_length c bigN l σ, twiddleRaw_getD_of_le c bigN σ (Nat.zero_le l) Nat.one_pos, ?_, ?_⟩
  · intro i j hi hj
    simp only [twiddleRaw_getD_two_pow_add c bigN σ hi hj, twStep, and_self]
  · intro k hk
    exact getD_map_of_lt (addOne c.ty) (hk.trans_eq (twiddleRaw_length c bigN σ l).symm)

/-! ### `FracTwiddles` -/

section fracTwiddles
variable (c : Config) (n : Nat) (σ : Dir)

/-- A doubling fills the entries from `2^k` up to the middle from those below (R175). -/
theorem fracRaw_succ_getD_high {k j : Nat} (hj : j < 2 ^ k) (hn : 2 ^ k + j ≤ n / 2) :
    (fracRaw c n σ (k + 1)).getD (2 ^ k + j) default
      = twStep c.ty (dirz c.ty (cexpm1Frac c (2 ^ k) (2 * n)) σ) ((fracRaw c n σ k).getD j default) := by
  have hlen : (fracRaw c n σ k).length = 2 ^ k := by rw [fracRaw_length]; omega
  have h := getD_append_map (twStep c.ty (dirz c.ty (cexpm1Frac c (2 ^ k) (2 * n)) σ)) (hj.trans_eq hlen.symm)
  rw [hlen] at h
  rw [fracRaw, getD_take (by omega), h]

/-- No doubling changes the entries below (R175). -/
theorem fracRaw_getD_of_le {k m j : Nat} (hkm : k ≤ m) (hj : j < 2 ^ k) (hn : j ≤ n / 2) :
    (fracRaw c n σ m).getD j default = (fracRaw c n σ k).getD j default := by
  induction m, hkm using Nat.le_induction with
  | base => rfl
  | succ m hkm ih =>
    have hpow : 2 ^ k ≤ 2 ^ m := Nat.pow_le_pow_right Nat.two_pos hkm
    have hlt : j < (fracRaw c n σ m).length := by rw [fracRaw_length]; omega
    rw [fracRaw, getD_take (by omega), List.getD_append _ _ _ _ hlt, ih]

/-- There is a doubling for every power of two up to the middle (R175). -/
theorem lt_doublings {k m : Nat} (h : 2 ^ k ≤ m) : k < doublings m := by
  have h0 : m ≠ 0 := by have := Nat.two_pow_pos k; omega
  rw [doublings, if_neg h0]
  exact Nat.lt_succ_of_le ((Nat.le_log2 h0).2 h)

/-- The recurrence of R175, on the entries of the finished `−1` form. -/
theorem fracRaw_getD_two_pow_add {k j m : Nat} (hk : k < m) (hj : j < 2 ^ k) (hn : 2 ^ k + j ≤ n / 2) :
    (fracRaw c n σ m).getD (2 ^ k + j) default
      = twStep c.ty (dirz c.ty (cexpm1Frac c (2 ^ k) (2 * n)) σ) ((fracRaw c n σ m).getD j default) := by
  rw [fracRaw_getD_of_le c n σ hk (show 2 ^ k + j < 2 ^ (k + 1) by rw [pow_succ]; omega) hn,
    fracRaw_succ_getD_high c n σ hj hn, fracRaw_getD_of_le c n σ hk.le hj (by omega)]

variable {n}

/-- Entries of the first half are those of `fracHalf` (R175). -/
theorem fracTwiddles_getD_low (hn : 1 ≤ n) {j : Nat} (hj : j < n) :
    (fracTwiddles c n σ).getD j default = (fracHalf c n σ).getD j default :=
  List.getD_append _ _ _ _ (hj.trans_eq (fracHalf_length c σ hn).symm)

/-- Entries up to the middle leave the `−1` form (R175). -/
theorem fracHalf_getD_first {j : Nat} (hj : j ≤ n / 2) :
    (fracHalf c n σ).getD j default = addOne c.ty ((fracRaw c n σ (doublings (n / 2))).getD j default) := by
  have hlt : j < (fracFirst c n σ).length := by rw [fracFirst_length]; omega
  rw [fracHalf, List.getD_append _ _ _ _ hlt, fracFirst, getD_map_of_lt]
  simpa [fracFirst] using hlt

/-- Entries past the middle mirror those before it (R175). -/
theorem fracHalf_getD_second {j : Nat} (hj : n / 2 < j) (hjn : j < n) :
    (fracHalf c n σ).getD j default = negRe c.ty ((fracHalf c n σ).getD (n - j) default) := by
  have hlen := fracFirst_length c n σ
  have hmirror : (fracHalf c n σ).getD (n - j) default = (fracFirst c n σ).getD (n - j) default :=
    List.getD_append _ _ _ _ (by omega)
  have hidx : n - (n / 2 + 1 + (j - (n / 2 + 1))) = n - j := by omega
  have hrange : j - (n / 2 + 1) < (List.range (n - 1 - n / 2)).length := by rw [List.length_range]; omega
  rw [hmirror, fracHalf, List.getD_append_right _ _ _ _ (by omega), hlen, getD_map_of_lt _ hrange,
    List.getD_eq_getElem _ _ hrange, List.getElem_range, hidx]

/-- Entries of the second half negate those of the first (R175). -/
theorem fracTwiddles_getD_high (hn : 1 ≤ n) {j : Nat} (hj : n ≤ j) (hjn : j < 2 * n) :
    (fracTwiddles c n σ).getD j default = negBoth c.ty ((fracTwiddles c n σ).getD (j - n) default) := by
  have hlen := fracHalf_length c σ hn
  have h := getD_append_map (negBoth c.ty) (l := fracHalf c n σ) (j := j - n) (by omega)
  rw [hlen, Nat.add_sub_cancel' hj] at h
  rw [fracTwiddles_getD_low c σ hn (show j - n < n by omega), ← h, fracTwiddles]

end fracTwiddles

/-- Settles O31, by the three fills: the recurrence, the mirrored quadrant and the negated half. -/
theorem fracTwiddlesFillQuadrants : Obligations.FracTwiddlesFillQuadrants := by
  intro c n σ hn
  refine ⟨fracTwiddles_length c σ hn, fracRaw_getD_of_le c n σ (Nat.zero_le _) Nat.one_pos (Nat.zero_le _), ?_, ?_, ?_, ?_⟩
  · intro k j hk hj hkj
    simp only [fracRaw_getD_two_pow_add c n σ (lt_doublings hk) hj hkj, twStep, and_self]
  · intro j hj
    exact (fracTwiddles_getD_low c σ hn (by omega)).trans (fracHalf_getD_first c σ hj)
  · intro j hj hjn
    simp only [fracTwiddles_getD_low c σ hn hjn, fracTwiddles_getD_low c σ hn (show n - j < n by omega)]
    exact fracHalf_getD_second c σ hj hjn
  · intro j hj hjn
    exact fracTwiddles_getD_high c σ hn hj hjn

/-! ### The commands `TWG` and `TWF` -/

/-- A command that stores a table at a ready destination pair, entry `k` at position `k`, passes the checks on the pair and
ends with the table there and nothing else changed (R86, R176, R177). -/
theorem PairReady.stores_table {s : State} {vr vi : View} {zs : List Cx} {n : Nat} {bad : Bool} (hp : PairReady s.mem vr vi)
    (hb : bad = false) (hr : vr.count = n) (hi : vi.count = n) (hz : zs.length = n) :
    ∃ t, s.complete ((invalidIf bad).bind fun _ => (checkDst vr vi).bind fun _ => (checkOverlap [] vr vi).bind fun _ =>
        (liftWork (storeCx vr vi zs 0 s.work)).bind doneOk) = .next t
      ∧ State.Wrote s t [vr, vi] ∧ s.sameDraws t ∧ Holds t.mem vr vi n fun k => zs.getD k default := by
  have hdst : ¬ DstRejected vr vi := by
    rw [dstRejected_iff, Bool.not_eq_true, dstBad_false]
    exact ⟨hp.baseRe, hp.baseIm, hp.strideRe, hp.strideIm, hp.bases⟩
  have hold : Holds s.work.mem vr vi n (streamOf s.mem vr vi) :=
    .of_admitted (fun i h => hp.hereRe i (by omega)) (fun i h => hp.hereIm i (by omega))
  obtain ⟨m, hm, hvals, hout⟩ := storeCx_holds (hp.pair hr hi) hold (zs := zs) (k := 0) (by omega)
  refine ⟨s.finish { code := .ok, work := { s.work with mem := m }, result := none, res := none }, ?_,
    ⟨rfl, fun a ha => hout a ?_, storeCx_keepsAdmitted _ _ _ _ _ _ hm⟩, ⟨rfl, rfl, rfl⟩,
    hvals.congr fun k hk => if_pos (by omega)⟩
  · rw [checkedPair_eq hb hdst hp.apart, hm]
    rfl
  · rintro ⟨i, hlt, h | h⟩
    · exact ha vr (by simp) ⟨i, by omega, h⟩
    · exact ha vi (by simp) ⟨i, by omega, h⟩

/-- Settles O32: with the operands in range, `TWG` is the checks on its pair and the store of its table. -/
theorem twgStoresTheTwiddles : Obligations.TwgStoresTheTwiddles := by
  intro dir bigN l s dre dim sre sim hpair hN hl hp
  have hrange : (decide (bigN < l) || decide (s.cfg.lbuf < l)) = false := by simp [hN, hl]
  obtain ⟨t, ht, hdone⟩ := hp.stores_table hrange rfl rfl (twiddleGen_length s.cfg bigN l dir)
  refine ⟨t, ?_, hdone⟩
  rw [← ht]
  exact congrArg s.complete (bind_of_ok (dstPair_eq_ok.2 ⟨dre, dim, sre, sim, hpair, rfl⟩) _)

/-- Settles O33: as for `TWG`, with the count read from its register. -/
theorem twfStoresTheTwiddles : Obligations.TwfStoresTheTwiddles := by
  intro dir s n dre dim sre sim hn hpair h0 hle hp
  have hpos : 1 ≤ n.toNat := BitVec.toNat_pos_of_ne_zero h0
  have hrange : decide (2 ^ (log2nMax - 1) < n.toNat) = false := decide_eq_false (Nat.not_lt.2 hle)
  obtain ⟨t, ht, hdone⟩ := hp.stores_table hrange rfl rfl (fracTwiddles_length s.cfg dir hpos)
  refine ⟨t, ?_, hdone⟩
  rw [← ht, exec, execTwf, runTwf, bind_of_ok (arg_eq_ok.2 hn),
    bind_of_ok (dstPair_eq_ok.2 ⟨dre, dim, sre, sim, hpair, rfl⟩)]
  exact congrArg s.complete (if_neg (Nat.pos_iff_ne_zero.1 hpos))

end Sys2Proof.Machine

/-! SUPPORT. Proofs of the scope's statements: the vector kernels, lane by lane, write the scalar rules' values (R267–R270). -/

namespace Sys2Proof.Machine

/-! ### Lane-wise arithmetic -/

/-- The complex vector with one lane for each entry of a list, the lane of `x` holding `f x` (R48). -/
def lanes {α : Type} (l : List α) (f : α → Cx) : VCx := { re := l.map fun x => (f x).re, im := l.map fun x => (f x).im }

section lanes
variable {α : Type} (t : Ty) (σ : Dir) (l : List α)

theorem vfill_length_map (f : α → Elem) (x : Elem) : vfill (l.map f).length x = l.map fun _ => x := by
  rw [vfill, List.length_map, List.map_const']

@[simp] theorem vadd_map (f g : α → Elem) : vadd t (l.map f) (l.map g) = l.map fun x => t.add (f x) (g x) := by
  rw [vadd, List.zipWith_map, List.zipWith_self]

@[simp] theorem vsub_map (f g : α → Elem) : vsub t (l.map f) (l.map g) = l.map fun x => t.sub (f x) (g x) := by
  rw [vsub, List.zipWith_map, List.zipWith_self]

@[simp] theorem vmul_map (f g : α → Elem) : vmul t (l.map f) (l.map g) = l.map fun x => t.mul (f x) (g x) := by
  rw [vmul, List.zipWith_map, List.zipWith_self]

@[simp] theorem vneg_map (f : α → Elem) : vneg t (l.map f) = l.map fun x => t.neg (f x) := List.map_map

@[simp] theorem vcadd_lanes (f g : α → Cx) : vcadd t (lanes l f) (lanes l g) = lanes l fun x => cadd t (f x) (g x) := by
  simp only [vcadd, lanes, vadd_map, cadd]

@[simp] theorem vcsub_lanes (f g : α → Cx) : vcsub t (lanes l f) (lanes l g) = lanes l fun x => csub t (f x) (g x) := by
  simp only [vcsub, lanes, vsub_map, csub]

@[simp] theorem vmulSigmaI_lanes (f : α → Cx) : vmulSigmaI t (lanes l f) σ = lanes l fun x => mulSigmaI t (f x) σ := by
  cases σ <;> simp only [vmulSigmaI, lanes, vneg_map, mulSigmaI]

/-- Stages 1 and 2 of the radix-8 kernel, lane by lane (R226). -/
theorem vr8Four_lanes (a0 a1 a2 a3 : α → Cx) : vr8Four t σ (lanes l a0) (lanes l a1) (lanes l a2) (lanes l a3)
    = (lanes l fun x => (r8Four t σ (a0 x) (a1 x) (a2 x) (a3 x)).1,
       lanes l fun x => (r8Four t σ (a0 x) (a1 x) (a2 x) (a3 x)).2.1,
       lanes l fun x => (r8Four t σ (a0 x) (a1 x) (a2 x) (a3 x)).2.2.1,
       lanes l fun x => (r8Four t σ (a0 x) (a1 x) (a2 x) (a3 x)).2.2.2) := by
  simp only [vr8Four, vcadd_lanes, vcsub_lanes, vmulSigmaI_lanes, r8Four, r8Pair]

/-- The turns of stage 3, lane by lane (R227). -/
theorem vr8Turn_lanes (x5 x7 : α → Cx) : vr8Turn t σ (lanes l x5) (lanes l x7)
    = (lanes l fun x => r8T1 t σ (x5 x), lanes l fun x => r8T3 t σ (x7 x)) := by
  cases σ <;> simp only [vr8Turn, lanes, vfill_length_map, vadd_map, vsub_map, vmul_map, vneg_map, r8T1, r8T3]

/-- The radix-8 kernel, lane by lane: position `p` of its results (R226, R227). -/
theorem vr8Values_lanes (a0 a1 a2 a3 a4 a5 a6 a7 : α → Cx) :
    vr8Values t σ (lanes l a0) (lanes l a1) (lanes l a2) (lanes l a3) (lanes l a4) (lanes l a5) (lanes l a6) (lanes l a7)
      = (List.range' 0 8).map fun p => lanes l fun x =>
          (r8Values t σ (a0 x) (a1 x) (a2 x) (a3 x) (a4 x) (a5 x) (a6 x) (a7 x)).getD p default := by
  simp only [vr8Values, vr8Four_lanes, vr8Turn_lanes, vmulSigmaI_lanes, vcadd_lanes, vcsub_lanes]
  rfl

/-- The two results of a butterfly, lane by lane (R220, R146). -/
theorem vbutterfly_lanes (a b w : α → Cx) :
    vbutterfly t (lanes l a).re (lanes l a).im (lanes l b).re (lanes l b).im (lanes l w).re (lanes l w).im
      = [(lanes l fun x => cadd t (a x) (cmul t (b x) (w x))).re, (lanes l fun x => cadd t (a x) (cmul t (b x) (w x))).im,
         (lanes l fun x => csub t (a x) (cmul t (b x) (w x))).re, (lanes l fun x => csub t (a x) (cmul t (b x) (w x))).im] := by
  simp only [vbutterfly, lanes, vadd_map, vsub_map, vmul_map, cadd, csub, cmul]

/-- One register of the twiddle expansion, lane by lane (R171, R270). -/
theorem vecAdvance_lanes (w : Cx) (f : α → Cx) : vecAdvance t w (lanes l f) = lanes l fun x => twStep t w (f x) := by
  simp only [vecAdvance, lanes, vfill_length_map, vadd_map, vsub_map, vmul_map, twStep]

end lanes

/-! ### The vectorized twiddle expansion -/

/-- The registers of a table, one after the other, are the table as far as they reach. -/
theorem flatMap_chunks {α : Type} (l : List α) (vw k : Nat) :
    ((List.range k).flatMap fun g => (l.drop (g * vw)).take vw) = l.take (k * vw) := by
  induction k with
  | zero => simp
  | succ k ih => rw [List.range_succ, List.flatMap_append, ih, Nat.succ_mul, List.take_add]; simp

/-- Rounded up, there are registers enough for every entry. -/
theorem le_ceil_mul {vw : Nat} (hvw : 1 ≤ vw) (m : Nat) : m ≤ (m + vw - 1) / vw * vw := by
  have h := Nat.div_add_mod (m + vw - 1) vw
  have hmod := Nat.mod_lt (m + vw - 1) hvw
  rw [Nat.mul_comm] at h
  omega

/-- Every register of the table starts inside it. -/
theorem mul_lt_of_lt_ceil {vw m q : Nat} (hvw : 1 ≤ vw) (hq : q < (m + vw - 1) / vw) : q * vw < m := by
  have h := (Nat.le_div_iff_mul_le hvw).1 (Nat.succ_le_of_lt hq)
  rw [Nat.succ_mul] at h
  omega

theorem chunk_lanes (l : List Cx) (vw g : Nat) : (lanes l id).chunk vw g = lanes ((l.drop (g * vw)).take vw) id := by
  simp only [VCx.chunk, lanes, List.map_take, List.map_drop]

/-- A step of the expansion advances every entry, whatever the number of lanes (R171, R270). -/
theorem vecExpandStep_lanes (t : Ty) (w : Cx) {vw : Nat} (hvw : 1 ≤ vw) (l : List Cx) :
    vecExpandStep t w vw (lanes l id) = lanes (l.map (twStep t w)) id := by
  have hre : (lanes l id).re.length = l.length := List.length_map _
  have hall := flatMap_chunks l vw ((l.length + vw - 1) / vw)
  rw [List.take_of_length_le (le_ceil_mul hvw _)] at hall
  have hmap : ∀ f : Cx → Elem, (List.range ((l.length + vw - 1) / vw)).flatMap
      (fun g => ((l.drop (g * vw)).take vw).map f) = l.map f := fun f => by
    rw [← List.map_flatMap, hall]
  simp only [vecExpandStep, hre, chunk_lanes, vecAdvance_lanes, List.flatMap_map]
  simp only [lanes, hmap, List.map_map]
  rfl

theorem vecTwiddleRaw_eq_lanes (c : Config) {vw : Nat} (hvw : 1 ≤ vw) (bigN : Nat) (σ : Dir) (i : Nat) :
    vecTwiddleRaw c vw bigN σ i = lanes (twiddleRaw c bigN σ i) id := by
  induction i with
  | zero => rfl
  | succ i ih =>
    simp only [vecTwiddleRaw, ih, vecExpandStep_lanes _ _ hvw, twiddleRaw]
    simp only [lanes, List.map_append]

/-- The vectorized expansion gives `TwiddleGen`, whatever the number of lanes (R270). -/
theorem vecTwiddleGen_eq_lanes (c : Config) {vw : Nat} (hvw : 1 ≤ vw) (bigN l : Nat) (σ : Dir) :
    vecTwiddleGen c vw bigN l σ = lanes (twiddleGen c bigN l σ) id := by
  simp only [vecTwiddleGen, vecTwiddleRaw_eq_lanes c hvw, twiddleGen]
  simp only [lanes, vfill_length_map, vadd_map, List.map_map]
  rfl

/-! ### What a run leaves in memory -/

/-- From `m` to `m'`, the streams of a pair became `g`, and nothing else changed. -/
structure Leaves (vr vi : View) (n : Nat) (g : Stream) (m m' : Mem) : Prop where
  holds : Holds m' vr vi n g
  outside : ∀ a, ¬ Touch vr vi n a → m'.atAddr a = m.atAddr a
  keys : m'.keys = m.keys

section leaves
variable {vr vi : View} {n : Nat} {f g : Stream} {m m1 m2 : Mem}

theorem Leaves.refl (h : Holds m vr vi n f) : Leaves vr vi n f m m := ⟨h, fun _ _ => rfl, rfl⟩

theorem Leaves.congr (h : Leaves vr vi n f m m1) (hfg : ∀ i, i < n → f i = g i) : Leaves vr vi n g m m1 :=
  ⟨h.holds.congr hfg, h.outside, h.keys⟩

theorem Leaves.trans (h : Leaves vr vi n f m m1) (h' : Leaves vr vi n g m1 m2) : Leaves vr vi n g m m2 :=
  ⟨h'.holds, fun a ha => (h'.outside a ha).trans (h.outside a ha), h'.keys.trans h.keys⟩

theorem Leaves.of_moved {c : Config} {w w' : Work} (h : Holds w'.mem vr vi n g) (hm : Moved c (Touch vr vi n) w w') :
    Leaves vr vi n g w.mem w'.mem := ⟨h, hm.outside, hm.keys⟩

/-- What a pair's streams became decides the whole memory. -/
theorem Leaves.unique (hw : m.wf = true) (h1 : Leaves vr vi n g m m1) (h2 : Leaves vr vi n g m m2) : m1 = m2 := by
  refine Mem.wf_ext_at (Mem.wf_of_keys h1.keys hw) (Mem.wf_of_keys h2.keys hw) fun a => ?_
  by_cases ha : Touch vr vi n a
  · obtain ⟨i, hi, rfl | rfl⟩ := ha
    · rw [h1.holds.1 i hi, h2.holds.1 i hi]
    · rw [h1.holds.2 i hi, h2.holds.2 i hi]
  · rw [h1.outside a ha, h2.outside a ha]

end leaves

/-! ### Lanes at positions -/

/-- A stream that takes `y q` at position `π q` for the `k` numbers `q` from `q0` on; `ρ` finds the number of a position. -/
def spreadV {α : Type} (π ρ : Nat → Nat) (q0 k : Nat) (y f : Nat → α) : Nat → α := fun i =>
  if π (ρ i) = i ∧ q0 ≤ ρ i ∧ ρ i < q0 + k then y (ρ i) else f i

theorem spreadV_map {α β : Type} (F : α → β) (π ρ : Nat → Nat) (q0 k : Nat) (y f : Nat → α) (i : Nat) :
    F (spreadV π ρ q0 k y f i) = spreadV π ρ q0 k (fun q => F (y q)) (fun i => F (f i)) i := apply_ite F _ _ _

/-- Writing one more element in front. -/
theorem spreadV_update {α : Type} {π ρ : Nat → Nat} (hρ : ∀ q, ρ (π q) = q) (q0 k : Nat) (y f : Nat → α) :
    spreadV π ρ (q0 + 1) k y (Function.update f (π q0) (y q0)) = spreadV π ρ q0 (k + 1) y f := by
  funext i
  simp only [spreadV, Function.update_apply]
  by_cases hi : i = π q0
  · subst hi
    simp [hρ]
  · have hne : π (ρ i) = i → ρ i ≠ q0 := fun h h0 => hi (by rw [← h, h0])
    by_cases hπ : π (ρ i) = i
    · have := hne hπ
      simp only [hπ, true_and, if_neg hi]
      congr 1
      simp only [eq_iff_iff]; omega
    · simp only [hπ, false_and, if_false, if_neg hi]

/-- A run of elements stored at positions that are apart (R84). -/
theorem storeAt_holds {v : View} {n : Nat} {f : Nat → Elem} {π ρ : Nat → Nat} (hs : v.stride ≠ 0) (hρ : ∀ q, ρ (π q) = q)
    {w : Work} (h : HoldsAt w.mem v n f) (y : Nat → Elem) {q0 k : Nat} (hk : ∀ q, q0 ≤ q → q < q0 + k → π q < n) :
    ∃ m', storeAt v π ((List.range' q0 k).map y) q0 w = .ok { w with mem := m' }
      ∧ HoldsAt m' v n (spreadV π ρ q0 k y f) := by
  induction k generalizing q0 w f with
  | zero => exact ⟨w.mem, rfl, h.congr fun i _ => (if_neg (by omega)).symm⟩
  | succ k ih =>
    obtain ⟨m1, h1, hh, -⟩ := dstWrite_holds hs h (hk q0 (by omega) (by omega)) (y q0)
    obtain ⟨m2, h2, hh2⟩ := ih (w := { w with mem := m1 }) hh (q0 := q0 + 1) fun q hq hq' => hk q (by omega) (by omega)
    refine ⟨m2, ?_, spreadV_update hρ q0 k y f ▸ hh2⟩
    rw [List.range'_succ, List.map_cons, storeAt, h1]
    exact h2

/-- A complex vector stored at positions that are apart, its real parts first (R84). -/
theorem storeAt_lanes {vr vi : View} {n : Nat} {f : Stream} {π ρ : Nat → Nat} (hp : Pair vr vi n)
    (hρ : ∀ q, ρ (π q) = q) {w : Work} (h : Holds w.mem vr vi n f) (y : Stream) {q0 k : Nat}
    (hk : ∀ q, q0 ≤ q → q < q0 + k → π q < n) :
    ∃ m1 m2, storeAt vr π (lanes (List.range' q0 k) y).re q0 w = .ok { w with mem := m1 }
      ∧ storeAt vi π (lanes (List.range' q0 k) y).im q0 { w with mem := m1 } = .ok { w with mem := m2 }
      ∧ Leaves vr vi n (spreadV π ρ q0 k y f) w.mem m2 := by
  have hlen : ∀ (v : View) (x : Nat → Elem) (j : Nat), q0 ≤ j → j < q0 + ((List.range' q0 k).map x).length →
      TouchOne v n (v.addr (π j)) := fun v x j hj hj' =>
    ⟨π j, hk j hj (by simpa using hj'), rfl⟩
  obtain ⟨m1, h1, hr1⟩ := storeAt_holds hp.strideRe hρ h.1 (fun q => (y q).re) hk
  obtain ⟨ho1, hk1, -⟩ := storeAt_ends (c := Config.standard) (L := False) (hlen vr _) (fun hf => hf.elim) h1
  have hi1 : HoldsAt m1 vi n (fun i => (f i).im) :=
    h.2.of_same fun i hi => ho1 _ fun ⟨j, hj, he⟩ => hp.apart j i hj hi he
  obtain ⟨m2, h2, hi2⟩ := storeAt_holds (w := { w with mem := m1 }) hp.strideIm hρ hi1 (fun q => (y q).im) hk
  obtain ⟨ho2, hk2, -⟩ := storeAt_ends (c := Config.standard) (L := False) (hlen vi _) (fun hf => hf.elim) h2
  have hr2 := hr1.of_same fun i hi => ho2 _ fun ⟨j, hj, he⟩ => hp.apart i j hi hj he.symm
  exact ⟨m1, m2, h1, h2, ⟨hr2.congr fun i _ => (spreadV_map Cx.re π ρ q0 k y f i).symm,
    hi2.congr fun i _ => (spreadV_map Cx.im π ρ q0 k y f i).symm⟩,
    fun a ha => (ho2 a fun ht => ha (.of_im ht)).trans (ho1 a fun ht => ha (.of_re ht)), hk2.trans hk1⟩

/-! ### A vector group of a pass -/

theorem vload_holds {v : View} {n : Nat} {f : Nat → Elem} {w : Work} (h : HoldsAt w.mem v n f) {q d k : Nat}
    (hk : q + d + k ≤ n) : vload v w (q + d) k = .ok ((List.range' q k).map fun j => f (j + d)) := by
  induction k generalizing q with
  | zero => rfl
  | succ k ih =>
    rw [vload, dstRead_holds h (by omega), bind_ok, Nat.add_right_comm, ih (by omega), bind_ok, List.range'_succ, List.map_cons]

/-- `vstore` is a run of stores at consecutive positions (R268). -/
theorem vstore_eq_storeAt (v : View) (xs : List Elem) (q d : Nat) : vstore v xs (q + d) = storeAt v (· + d) xs q := by
  induction xs generalizing q with
  | nil => rfl
  | cons x xs ih => funext w; rw [vstore, storeAt, Nat.add_right_comm, ih]

/-- A list as the values of its own entries, numbered from `q0`. -/
theorem map_getD_range' {β : Type} (F : Cx → β) (l : List Cx) (q0 : Nat) :
    l.map F = (List.range' q0 l.length).map fun q => F (l.getD (q - q0) default) := by
  refine List.ext_getElem (by simp) fun i hi _ => ?_
  simp only [List.length_map] at hi
  simp only [List.getElem_map, List.getElem_range', Nat.one_mul, Nat.add_sub_cancel_left, List.getD_eq_getElem _ _ hi]

/-- The sum of the pair at positions `q` and `q + h`, its twiddle counted from `lo` (R220). -/
def pairSum (t : Ty) (lo h : Nat) (tw : List Cx) (f : Stream) : Stream := fun q =>
  cadd t (f q) (cmul t (f (q + h)) (tw.getD (q - lo) default))

/-- The difference of the pair at positions `q` and `q + h`, its twiddle counted from `lo` (R220). -/
def pairDiff (t : Ty) (lo h : Nat) (tw : List Cx) (f : Stream) : Stream := fun q =>
  csub t (f q) (cmul t (f (q + h)) (tw.getD (q - lo) default))

/-- A pair of streams after the butterflies of `k` consecutive pairs from position `lo` on (R220, R269). -/
def groupV (t : Ty) (lo h : Nat) (tw : List Cx) (k : Nat) (f : Stream) : Stream := fun i =>
  if lo + h ≤ i ∧ i < lo + h + k then pairDiff t lo h tw f (i - h)
  else if lo ≤ i ∧ i < lo + k then pairSum t lo h tw f i
  else f i

/-- The registers of a group: its sums, then its differences (R48, R269). -/
def pairRegs (t : Ty) (lo h k : Nat) (tw : List Cx) (f : Stream) : List (List Elem) :=
  let sums := lanes (List.range' lo k) (pairSum t lo h tw f)
  let diffs := lanes (List.range' lo k) (pairDiff t lo h tw f)
  [sums.re, sums.im, diffs.re, diffs.im]

/-- Fill the vector registers (R48). -/
def Work.setVreg (w : Work) (regs : List (List Elem)) : Work :=
  { w with trans := { w.trans with vreg := regs } }

section group
variable {t : Ty} {vr vi : View} {n vw lo h : Nat} {tw : List Cx} {f : Stream} {w : Work}

/-- One more butterfly extends the group by its next pair. -/
theorem bfV_groupV {k : Nat} (hk : k < h) (f : Stream) :
    bfV t (lo + k) (lo + k + h) (tw.getD k default) (groupV t lo h tw k f) = groupV t lo h tw (k + 1) f := by
  have hlo : groupV t lo h tw k f (lo + k) = f (lo + k) := by rw [groupV, if_neg (by omega), if_neg (by omega)]
  have hhi : groupV t lo h tw k f (lo + k + h) = f (lo + k + h) := by rw [groupV, if_neg (by omega), if_neg (by omega)]
  funext i
  rw [bfV, hlo, hhi, Function.update_apply, Function.update_apply]
  by_cases h1 : i = lo + k + h
  · rw [if_pos h1, groupV, if_pos (by omega), h1, Nat.add_sub_cancel, pairDiff, Nat.add_sub_cancel_left]
  · rw [if_neg h1]
    by_cases h2 : i = lo + k
    · rw [if_pos h2, groupV, if_neg (by omega), if_pos (by omega), h2, pairSum, Nat.add_sub_cancel_left]
    · have hd : (lo + h ≤ i ∧ i < lo + h + k) = (lo + h ≤ i ∧ i < lo + h + (k + 1)) := by
        simp only [eq_iff_iff]; omega
      have hs : (lo ≤ i ∧ i < lo + k) = (lo ≤ i ∧ i < lo + (k + 1)) := by simp only [eq_iff_iff]; omega
      simp only [if_neg h2, groupV, hd, hs]

/-- The scalar butterflies of a group, one after the other (R220). -/
theorem butterflies_leave (hp : Pair vr vi n) (hf : Holds w.mem vr vi n f) (hvw : vw ≤ h) (hn : lo + h + vw ≤ n) :
    ∃ w', forUp vw (fun k => bf t vr vi (lo + k) (lo + k + h) (tw.getD k default)) w = .ok w'
      ∧ Leaves vr vi n (groupV t lo h tw vw f) w.mem w'.mem := by
  refine forUp_total (I := fun k w' => Leaves vr vi n (groupV t lo h tw k f) w.mem w'.mem) ?_ fun k hk w1 h1 => ?_
  · exact (Leaves.refl hf).congr fun i _ => by rw [groupV, if_neg (by omega), if_neg (by omega)]
  · have hlo : lo + k < n := by omega
    have hhi : lo + k + h < n := by omega
    obtain ⟨m', hw, hh⟩ := bf_holds (t := t) hp h1.holds hlo hhi (tw.getD k default)
    have hm := bf_only (c := { Config.standard with ty := t }) (touch_re hlo) (touch_im hlo) (touch_re hhi) (touch_im hhi)
      (tw.getD k default) _ _ hw
    rw [bfV_groupV (by omega)] at hh
    exact ⟨_, hw, h1.trans (.of_moved hh hm)⟩

/-- The vector group reads both halves, and stores what it computed from them (R268, R269). -/
theorem vecGroup_loaded (hf : Holds w.mem vr vi n f) (htw : tw.length = vw) (hn : lo + h + vw ≤ n) :
    let w0 := w.setVreg (pairRegs t lo h vw tw f)
    vecGroup t vr vi vw lo h tw w = (vstore vr (w0.trans.vreg.getD 0 []) lo w0).bind fun w =>
      (vstore vi (w.trans.vreg.getD 1 []) lo w).bind fun w => (vstore vr (w.trans.vreg.getD 2 []) (lo + h) w).bind fun w =>
      vstore vi (w.trans.vreg.getD 3 []) (lo + h) w := by
  have hlr : vload vr w lo vw = .ok (lanes (List.range' lo vw) f).re := vload_holds hf.1 (d := 0) (by omega)
  have hli : vload vi w lo vw = .ok (lanes (List.range' lo vw) f).im := vload_holds hf.2 (d := 0) (by omega)
  have hhr : vload vr w (lo + h) vw = .ok (lanes (List.range' lo vw) fun q => f (q + h)).re := vload_holds hf.1 hn
  have hhi : vload vi w (lo + h) vw = .ok (lanes (List.range' lo vw) fun q => f (q + h)).im := vload_holds hf.2 hn
  have hwr := map_getD_range' Cx.re tw lo
  have hwi := map_getD_range' Cx.im tw lo
  rw [htw] at hwr hwi
  have hregs := vbutterfly_lanes t (List.range' lo vw) f (fun q => f (q + h)) fun q => tw.getD (q - lo) default
  simp only [lanes] at hregs
  rw [← hwr, ← hwi] at hregs
  simp only [vecGroup, hlr, hli, hhr, hhi, bind_ok]
  simp only [lanes, hregs]
  rfl

/-- The vector group ends, and its sums and differences are at their positions (R269). -/
theorem vecGroup_leaves (hp : Pair vr vi n) (hf : Holds w.mem vr vi n f) (htw : tw.length = vw) (hn : lo + h + vw ≤ n) :
    ∃ w', vecGroup t vr vi vw lo h tw w = .ok w' ∧ Leaves vr vi n (groupV t lo h tw vw f) w.mem w'.mem := by
  obtain ⟨m1, m2, s1, s2, hl⟩ := storeAt_lanes (π := (· + 0)) (ρ := (· - 0)) hp (fun _ => rfl)
    (w := w.setVreg (pairRegs t lo h vw tw f)) hf (pairSum t lo h tw f) (q0 := lo) (k := vw) (by omega)
  obtain ⟨m3, m4, s3, s4, hl'⟩ := storeAt_lanes (π := (· + h)) (ρ := (· - h)) hp (fun q => Nat.add_sub_cancel q h)
    (w := { w.setVreg (pairRegs t lo h vw tw f) with mem := m2 }) hl.holds (pairDiff t lo h tw f) (q0 := lo) (k := vw)
    (by omega)
  rw [← vstore_eq_storeAt] at s1 s2 s3 s4
  refine ⟨_, (vecGroup_loaded hf htw hn).trans ((bind_of_ok s1 _).trans ((bind_of_ok s2 _).trans
    ((bind_of_ok s3 _).trans s4))), (hl.trans hl').congr fun i _ => ?_⟩
  have hd : (i - h + h = i ∧ lo ≤ i - h ∧ i - h < lo + vw) = (lo + h ≤ i ∧ i < lo + h + vw) := by
    simp only [eq_iff_iff]; omega
  simp only [spreadV, groupV, hd, Nat.add_zero, Nat.sub_zero, true_and]

/-- A vector group leaves the memory its scalar butterflies leave (R267, R269). -/
theorem vecGroup_eq_butterflies (hp : Pair vr vi n) (hf : Holds w.mem vr vi n f) (hw : w.mem.wf = true)
    (htw : tw.length = vw) (hvw : vw ≤ h) (hn : lo + h + vw ≤ n) : ∃ w1 w2, vecGroup t vr vi vw lo h tw w = .ok w1
      ∧ forUp vw (fun k => bf t vr vi (lo + k) (lo + k + h) (tw.getD k default)) w = .ok w2 ∧ w1.mem = w2.mem := by
  obtain ⟨w1, h1, hl1⟩ := vecGroup_leaves (t := t) hp hf htw hn
  obtain ⟨w2, h2, hl2⟩ := butterflies_leave (t := t) (tw := tw) hp hf hvw hn
  exact ⟨w1, w2, h1, h2, hl1.unique hw hl2⟩

end group

/-! ### The vector radix-8 terminal -/

theorem vgather_holds {v : View} {n : Nat} {f : Nat → Elem} {w : Work} (h : HoldsAt w.mem v n f) {q p k : Nat}
    (hp : p < 8) (hk : 8 * (q + k) ≤ n) : vgather v w (8 * q + p) k = .ok ((List.range' q k).map fun g => f (8 * g + p)) := by
  induction k generalizing q with
  | zero => rfl
  | succ k ih =>
    have hnext : 8 * q + p + 8 = 8 * (q + 1) + p := by omega
    rw [vgather, dstRead_holds h (by omega), bind_ok, hnext, ih (by omega), bind_ok, List.range'_succ, List.map_cons]

/-- `vscatter` is a run of stores at one position of consecutive groups. -/
theorem vscatter_eq_storeAt (v : View) (xs : List Elem) (q p : Nat) :
    vscatter v xs (8 * q + p) = storeAt v (fun g => 8 * g + p) xs q := by
  induction xs generalizing q with
  | nil => rfl
  | cons x xs ih =>
    have hnext : 8 * q + p + 8 = 8 * (q + 1) + p := by omega
    funext w
    rw [vscatter, storeAt, hnext, ih]

/-- A pair of streams with the positions below `p` of the `k` groups from `q` on taken from `y` (log 34). -/
def groupsV (q k p : Nat) (y : Nat → Stream) (f : Stream) : Stream := fun i =>
  if q ≤ i / 8 ∧ i / 8 < q + k ∧ i % 8 < p then y (i % 8) (i / 8) else f i

section terminal
variable {t : Ty} {σ : Dir} {vr vi : View} {n q k : Nat} {f : Stream} {w : Work}

/-- Position `p` of every group of a turn, read into one register (R268). -/
theorem vgroupRead_holds (hf : Holds w.mem vr vi n f) (hk : 8 * (q + k) ≤ n) {p : Nat} (hp : p < 8) :
    vgroupRead vr vi k q p w = .ok (lanes (List.range' q k) fun g => f (8 * g + p)) := by
  rw [vgroupRead, vgather_holds hf.1 hp hk, bind_ok, vgather_holds hf.2 hp hk, bind_ok]
  rfl

/-- Position `p` of every group of a turn, stored from one register (R268). -/
theorem vscatter_leaves (hp : Pair vr vi n) {y : Nat → Stream} {p : Nat} (hf : Holds w.mem vr vi n (groupsV q k p y f))
    (hk : 8 * (q + k) ≤ n) (hp8 : p < 8) : ∃ w',
      ((vscatter vr (lanes (List.range' q k) (y p)).re (8 * q + p) w).bind
        (vscatter vi (lanes (List.range' q k) (y p)).im (8 * q + p))) = .ok w'
      ∧ Leaves vr vi n (groupsV q k (p + 1) y f) w.mem w'.mem := by
  obtain ⟨m1, m2, s1, s2, hl⟩ := storeAt_lanes (π := fun g => 8 * g + p) (ρ := (· / 8)) hp (by omega) hf (y p) (q0 := q)
    (k := k) (by omega)
  rw [← vscatter_eq_storeAt] at s1 s2
  refine ⟨_, (bind_of_ok s1 _).trans s2, hl.congr fun i _ => ?_⟩
  by_cases hi : i % 8 = p
  · have hpos : 8 * (i / 8) + p = i := by omega
    simp only [spreadV, groupsV, hpos, hi, true_and, lt_irrefl, and_false, if_false, Nat.lt_succ_self, and_true]
  · have hpos : 8 * (i / 8) + p ≠ i := by omega
    have hlt : i % 8 < p ↔ i % 8 < p + 1 := by omega
    simp only [spreadV, groupsV, hpos, false_and, if_false, hlt]

/-- The registers of a turn, one position after the other. -/
theorem vgroupStore_leaves (hp : Pair vr vi n) {y : Nat → Stream} (hk : 8 * (q + k) ≤ n) {p r : Nat} (hr : p + r ≤ 8)
    (hf : Holds w.mem vr vi n (groupsV q k p y f)) :
    ∃ w', vgroupStore vr vi ((List.range' p r).map fun j => lanes (List.range' q k) (y j)) (8 * q + p) w = .ok w'
      ∧ Leaves vr vi n (groupsV q k (p + r) y f) w.mem w'.mem := by
  induction r generalizing p w with
  | zero => exact ⟨w, rfl, .refl hf⟩
  | succ r ih =>
    obtain ⟨w1, h1, hl1⟩ := vscatter_leaves hp hf hk (by omega)
    obtain ⟨w2, h2, hl2⟩ := ih (p := p + 1) (by omega) hl1.holds
    rw [Nat.add_right_comm, Nat.add_assoc] at hl2
    exact ⟨w2, (bind_of_ok h1 _).trans h2, hl1.trans hl2⟩

/-- What the kernel leaves at position `p` of each group (R226, R227). -/
def groupResults (t : Ty) (σ : Dir) (f : Stream) (p : Nat) : Stream := fun g =>
  (r8Values t σ (f (8 * g)) (f (8 * g + 1)) (f (8 * g + 2)) (f (8 * g + 3)) (f (8 * g + 4)) (f (8 * g + 5)) (f (8 * g + 6))
    (f (8 * g + 7))).getD p default

/-- The registers of a turn: the results at each position of its groups, real and imaginary (R48, R270). -/
def turnRegs (t : Ty) (σ : Dir) (q k : Nat) (f : Stream) : List (List Elem) :=
  ((List.range' 0 8).map fun p => lanes (List.range' q k) (groupResults t σ f p)).flatMap fun z => [z.re, z.im]

theorem r8PartV_of_le {g : Nat} (hg : q ≤ g) {p : Nat} (hp : p < 8) : r8PartV t σ q f (8 * g + p) = f (8 * g + p) :=
  if_neg (by omega)

/-- Groups the kernel has not reached give their results from what they held at the start. -/
theorem groupResults_r8PartV {i : Nat} (hi : q ≤ i / 8) :
    groupResults t σ (r8PartV t σ q f) (i % 8) (i / 8) = r8V t σ f i := by
  have h0 := r8PartV_of_le (t := t) (σ := σ) (f := f) hi (show 0 < 8 by omega)
  have he : ∀ p < 8, r8PartV t σ q f (8 * (i / 8) + p) = f (8 * (i / 8) + p) := fun p => r8PartV_of_le hi
  rw [Nat.add_zero] at h0
  simp only [groupResults, r8V, h0, he 1 (by omega), he 2 (by omega), he 3 (by omega), he 4 (by omega), he 5 (by omega),
    he 6 (by omega), he 7 (by omega)]

/-- A turn of the vector terminal takes its groups through the kernel (R228, R270). -/
theorem vecR8Groups_leaves (hp : Pair vr vi n) (hf : Holds w.mem vr vi n (r8PartV t σ q f)) (hk : 8 * (q + k) ≤ n) :
    ∃ w', vecR8Groups t σ vr vi k q w = .ok w' ∧ Leaves vr vi n (r8PartV t σ (q + k) f) w.mem w'.mem := by
  obtain ⟨w', hw, hl⟩ := vgroupStore_leaves (y := groupResults t σ (r8PartV t σ q f)) (w := w.setVreg (turnRegs t σ q k
    (r8PartV t σ q f))) hp hk (p := 0) (r := 8) (by omega) (hf.congr fun i _ => (if_neg (by omega)).symm)
  have hr : ∀ p < 8, vgroupRead vr vi k q p w = .ok (lanes (List.range' q k) fun g => r8PartV t σ q f (8 * g + p)) :=
    fun p => vgroupRead_holds hf hk
  refine ⟨w', ?_, hl.congr fun i _ => ?_⟩
  · simp only [vecR8Groups, hr 0 (by omega), hr 1 (by omega), hr 2 (by omega), hr 3 (by omega), hr 4 (by omega),
      hr 5 (by omega), hr 6 (by omega), hr 7 (by omega), bind_ok, vr8Values_lanes]
    exact hw
  · have h8 : i % 8 < 0 + 8 := by omega
    by_cases hi : q ≤ i / 8
    · have hlt : ¬ i / 8 < q := by omega
      simp only [groupsV, hi, h8, true_and, and_true, groupResults_r8PartV hi, r8PartV, hlt, if_false]
    · have hlt : i / 8 < q := by omega
      have hlt' : i / 8 < q + k := by omega
      simp only [groupsV, hi, false_and, if_false, r8PartV, hlt, hlt', if_true]

/-- The vector terminal leaves every group taken through the kernel, whatever the number of lanes (R228, R270). -/
theorem vecR8Lanes_leaves {vw lt : Nat} (hp : Pair vr vi (2 ^ lt)) (hf : Holds w.mem vr vi (2 ^ lt) f) (hvw : 1 ≤ vw)
    (hlt : r8Min ≤ lt) : ∃ w', vecR8Lanes t σ vr vi vw lt w = .ok w'
      ∧ Leaves vr vi (2 ^ lt) (r8V t σ f) w.mem w'.mem := by
  have h8 : 8 * (2 ^ lt / 8) = 2 ^ lt := Nat.mul_div_cancel' (pow_dvd_pow 2 hlt)
  have hturn : ∀ q < (2 ^ lt / 8 + vw - 1) / vw, ∀ w1,
      Leaves vr vi (2 ^ lt) (r8PartV t σ (min (q * vw) (2 ^ lt / 8)) f) w.mem w1.mem →
      ∃ w2, vecR8Groups t σ vr vi (min vw (2 ^ lt / 8 - q * vw)) (q * vw) w1 = .ok w2
        ∧ Leaves vr vi (2 ^ lt) (r8PartV t σ (min ((q + 1) * vw) (2 ^ lt / 8)) f) w.mem w2.mem := by
    intro q hq w1 h1
    have hstart := mul_lt_of_lt_ceil hvw hq
    have hnext : q * vw + min vw (2 ^ lt / 8 - q * vw) = min ((q + 1) * vw) (2 ^ lt / 8) := by
      rw [Nat.add_mul]; omega
    rw [Nat.min_eq_left hstart.le] at h1
    obtain ⟨w2, h2, hl2⟩ := vecR8Groups_leaves (k := min vw (2 ^ lt / 8 - q * vw)) hp h1.holds (by omega)
    rw [hnext] at hl2
    exact ⟨w2, h2, h1.trans hl2⟩
  have hnone : ∀ i < 2 ^ lt, f i = r8PartV t σ (min (0 * vw) (2 ^ lt / 8)) f i := fun i _ => by
    rw [r8PartV, if_neg (by omega)]
  obtain ⟨w', hw, hl⟩ := forUp_total
    (I := fun q w1 => Leaves vr vi (2 ^ lt) (r8PartV t σ (min (q * vw) (2 ^ lt / 8)) f) w.mem w1.mem)
    ((Leaves.refl hf).congr hnone) hturn
  refine ⟨w', hw, hl.congr fun i hi => ?_⟩
  rw [Nat.min_eq_right (le_ceil_mul hvw _), r8PartV, if_pos (by omega)]

/-- The vector terminal leaves the memory the scalar terminal leaves (R267, R270). -/
theorem vecR8Lanes_eq_r8Kernel {vw lt : Nat} (hp : Pair vr vi (2 ^ lt)) (hf : Holds w.mem vr vi (2 ^ lt) f)
    (hw : w.mem.wf = true) (hvw : 1 ≤ vw) (hlt : r8Min ≤ lt) : ∃ w1 w2, vecR8Lanes t σ vr vi vw lt w = .ok w1
      ∧ r8Kernel t vr vi lt σ w = .ok w2 ∧ w1.mem = w2.mem := by
  obtain ⟨w1, h1, hl1⟩ := vecR8Lanes_leaves (t := t) (σ := σ) hp hf hvw hlt
  obtain ⟨w2, h2, hh2⟩ := r8Kernel_holds (t := t) (σ := σ) hp hf hlt
  have hm := r8Kernel_only (c := { Config.standard with ty := t }) lt σ _ _ h2
  exact ⟨w1, w2, h1, h2, hl1.unique hw (.of_moved hh2 hm)⟩

end terminal

/-! ### The statement -/

/-- Two admitted views that are apart are a pair, and hold what they read. -/
theorem pair_of_apart {m : Mem} {vr vi : View} {n : Nat} (hsr : vr.stride ≠ 0) (hsi : vi.stride ≠ 0) (hap : vr.Apart vi)
    (har : vr.Admitted m) (hai : vi.Admitted m) (hr : vr.count = n) (hi : vi.count = n) :
    Pair vr vi n ∧ Holds m vr vi n (streamOf m vr vi) := by
  subst hr
  exact ⟨⟨hsr, hsi, fun i j h1 h2 => hap i j h1 (h2.trans_eq hi.symm)⟩, .of_admitted har fun i h => hai i (h.trans_eq hi.symm)⟩

/-- Settles O52: each kernel and its scalar rule leave the same streams and change nothing else. -/
theorem vectorGroupIsScalarButterflies : Obligations.VectorGroupIsScalarButterflies := by
  refine ⟨?_, ?_, fun c vw bigN l σ hvw => vecTwiddleGen_eq_lanes c hvw bigN l σ⟩
  · intro t vr vi vw lo h tw w hsr hsi hap har hai hw htw hvw hn hc
    obtain ⟨hp, hf⟩ := pair_of_apart hsr hsi hap har hai rfl hc
    exact vecGroup_eq_butterflies hp hf hw htw hvw hn
  · intro t σ vr vi vw lt w hsr hsi hap har hai hw hvw hlt hr hi
    obtain ⟨hp, hf⟩ := pair_of_apart hsr hsi hap har hai hr hi
    exact vecR8Lanes_eq_r8Kernel hp hf hw hvw hlt

end Sys2Proof.Machine

/-! SUPPORT. Proofs of the scope's statements: the commands of the bit-reversal engine, `BRV`, `DIL` and `ILV`
(R190, R200–R202). -/

namespace Sys2Proof.Machine

/-! ### Positions of a view that are filled -/

/-- From `m` to `m'`, the positions `S` of the view came to hold `g`, and nothing else changed. -/
structure Fills (v : View) (S : Set Nat) (g : Nat → Option Elem) (m m' : Mem) : Prop where
  values : ∀ i ∈ S, m'.atAddr (v.addr i) = g i
  kept : ∀ a, (∀ i ∈ S, v.addr i ≠ a) → m'.atAddr a = m.atAddr a
  keys : m'.keys = m.keys

section fills
variable {u v : View} {S T : Set Nat} {g g' : Nat → Option Elem} {m m1 m2 : Mem}

/-- A memory holds what it holds. -/
theorem Fills.refl (h : ∀ i ∈ S, m.atAddr (v.addr i) = g i) : Fills v S g m m := ⟨h, fun _ _ => rfl, rfl⟩

theorem Fills.congr (h : Fills v S g m m1) (hg : ∀ i ∈ S, g i = g' i) : Fills v S g' m m1 :=
  ⟨fun i hi => (h.values i hi).trans (hg i hi), h.kept, h.keys⟩

/-- Two fillings in turn, with the same values where they meet. -/
theorem Fills.union (h : Fills v S g m m1) (h' : Fills v T g m1 m2) (hs : v.stride ≠ 0) : Fills v (S ∪ T) g m m2 where
  values i hi := by
    by_cases hT : i ∈ T
    · exact h'.values i hT
    · have hout : ∀ j ∈ T, v.addr j ≠ v.addr i := fun j hj he => by
        obtain rfl := View.addr_inj hs he
        exact hT hj
      rw [h'.kept _ hout, h.values i (hi.resolve_right hT)]
  kept a ha := (h'.kept a fun i hi => ha i (.inr hi)).trans (h.kept a fun i hi => ha i (.inl hi))
  keys := h'.keys.trans h.keys

/-- The second of two fillings of the same positions stays. -/
theorem Fills.overwrite (h : Fills v S g m m1) (h' : Fills v S g' m1 m2) : Fills v S g' m m2 :=
  ⟨h'.values, fun a ha => (h'.kept a ha).trans (h.kept a ha), h'.keys.trans h.keys⟩

/-- What is filled in a view whose positions are positions of another is filled in the other. -/
theorem Fills.embed (h : Fills u S g m m1) {e : Nat → Nat} (he : ∀ i, u.addr i = v.addr (e i))
    (hg : ∀ i ∈ S, g i = g' (e i)) : Fills v (e '' S) g' m m1 where
  values := by
    rintro _ ⟨i, hi, rfl⟩
    rw [← he, h.values i hi, hg i hi]
  kept a ha := h.kept a fun i hi => he i ▸ ha (e i) ⟨i, hi, rfl⟩
  keys := h.keys

/-- What was filled decides the whole memory. -/
theorem Fills.unique (hw : m.wf = true) (h1 : Fills v S g m m1) (h2 : Fills v S g m m2) : m1 = m2 := by
  refine Mem.wf_ext_at (Mem.wf_of_keys h1.keys hw) (Mem.wf_of_keys h2.keys hw) fun a => ?_
  by_cases ha : ∃ i ∈ S, v.addr i = a
  · obtain ⟨i, hi, rfl⟩ := ha
    rw [h1.values i hi, h2.values i hi]
  · have hout : ∀ i ∈ S, v.addr i ≠ a := fun i hi he => ha ⟨i, hi, he⟩
    rw [h1.kept a hout, h2.kept a hout]

theorem Fills.of_moved {c : Config} {n : Nat} {f : Nat → Elem} {w w' : Work} (h : HoldsAt w'.mem v n f)
    (hm : Moved c (TouchOne v n) w w') : Fills v (Set.Iio n) (fun i => some (f i)) w.mem w'.mem :=
  ⟨h, fun a ha => hm.outside a fun ⟨i, hi, he⟩ => ha i hi he, hm.keys⟩

end fills

/-- The bit reversal fills its destination, position `i` with what was read at `rev(i, L)` (R190). -/
theorem bitRev_fills {t : Ty} {src dst : View} {l : Nat} {w : Work} (hs : dst.stride ≠ 0) (hsc : src.count = 2 ^ l)
    (hdc : dst.count = 2 ^ l) (hsrc : src.Readable w.mem) (hdst : dst.Admitted w.mem) :
    ∃ m, bitRev t src dst l w = .ok { w with mem := m }
      ∧ Fills dst (Set.Iio (2 ^ l)) (fun i => some (srcValue t w.mem src (rev i l))) w.mem m := by
  obtain ⟨m, hm, hh⟩ := bitRev_holds (t := t) hs (fun i hi => srcRead_readable hsrc (hsc ▸ hi))
    (HoldsAt.of_admitted fun i hi => hdst i (hdc ▸ hi))
  exact ⟨m, hm, .of_moved hh (bitRev_only { Config.standard with ty := t } _ _ _ _ _ hm)⟩

/-- A command whose work fills one view ends, having written that view and nothing else (R86). -/
theorem complete_of_fills {s : State} {r : Except Fault Work} {v : View} {g : Nat → Option Elem} {m : Mem}
    (hr : r = .ok { s.work with mem := m }) (hm : Fills v (Set.Iio v.count) g s.mem m) :
    ∃ t, s.complete ((liftWork r).bind doneOk) = .next t ∧ State.Wrote s t [v] ∧ s.sameDraws t
      ∧ ∀ i, i < v.count → t.mem.atAddr (v.addr i) = g i := by
  refine ⟨s.finish { code := .ok, work := { s.work with mem := m }, result := none, res := none }, by rw [hr]; rfl,
    ⟨rfl, fun a ha => hm.kept a fun i hi he => ha v (by simp) ⟨i, hi, he⟩, Mem.admitted_of_keys hm.keys⟩,
    ⟨rfl, rfl, rfl⟩, hm.values⟩

/-! ### The command `BRV` -/

/-- What a view of two registers reads: `ZERO` where the address register is 0 (R83). -/
theorem some_srcValue_viewOf {t : Ty} {m : Mem} {b st : Word64} {n : Nat} (h : (viewOf b st n).Readable m) {i : Nat}
    (hi : i < n) : some (srcValue t m (viewOf b st n) i)
      = if b = 0 then some t.zero else m.atAddr ((viewOf b st n).addr i) := by
  by_cases hb : b = 0
  · subst hb; rfl
  · have hnull : (viewOf b st n).isNull = false := View.isNull_false fun h => hb (addrOf_eq_zero.1 h)
    have hadm : (viewOf b st n).Admitted m := h.resolve_left (by simp [hnull])
    obtain ⟨x, hx⟩ := Option.isSome_iff_exists.1 (hadm i hi)
    rw [if_neg hb, srcValue, hnull, hx]
    rfl

/-- Settles O35: past its checks `BRV` is the bit reversal, which fills its destination (`bitRev_fills`). -/
theorem brvPermutesByReversal : Obligations.BrvPermutesByReversal := by
  intro l s sb ss db ds hsb hss hdb hds hl hdb0 hds0 hst hap hsrc hdst
  have hstride : (viewOf db ds (2 ^ l)).stride ≠ 0 := fun h => hds0 (strideOf_inj.1 (h.trans rfl))
  obtain ⟨m, hm, hfill⟩ := bitRev_fills (t := s.cfg.ty) (w := s.work) hstride rfl rfl hsrc hdst
  obtain ⟨t, ht, hw, hd, hvals⟩ := complete_of_fills hm hfill
  refine ⟨t, ?_, hw, hd, fun i hi => ?_⟩
  · rw [← ht]
    exact congrArg s.complete (runBrv_checked hsb hss hdb hds hl hdb0 hds0 hap hst)
  · rw [hvals _ (rev_lt i l), rev_rev hi]
    exact some_srcValue_viewOf hsrc hi

/-- The views of `BRV` are those of its four registers (R115, R200). -/
theorem brvArgs_eq_ok {me : Context} {sb ss db ds : Word64} (hsb : me.argSrcRe = some sb) (hss : me.argSsRe = some ss)
    (hdb : me.argDstRe = some db) (hds : me.argDsRe = some ds) :
    brvArgs me = .ok fun n => (viewOf sb ss n, viewOf db ds n) := by
  simp only [brvArgs, hsb, hss, hdb, hds, arg, bind_ok]

/-- The conditions of R200 under which `BRV` is turned away. -/
theorem brvBad_viewOf {l n : Nat} {sb ss db ds : Word64} : brvBad l (viewOf sb ss n) (viewOf db ds n) = true ↔
    31 < l ∨ db = 0 ∨ ds = 0 ∨ (sb ≠ 0 ∧ sb = db ∧ ss ≠ ds) := by
  have hz : strideOf ds = 0 ↔ ds = 0 := strideOf_inj (b := 0)
  simp [brvBad, log2nMax, View.isNull, viewOf, addrOf_eq_zero, addrOf_inj, strideOf_inj, hz, and_assoc, or_assoc]

/-! ### The shuffles -/

/-- The conditions of R201 and R202 under which a shuffle is turned away. -/
theorem dilBad_addrOf {n : Nat} {b : Word64} :
    dilBad n (addrOf b) = true ↔ isPow2 n = false ∨ 2 ^ 30 < n ∨ b = 0 := by
  simp [dilBad, log2nMax, addrOf_eq_zero, or_assoc]

/-- A shuffle whose registers are written: a count of 0 ends, an invalid argument is turned away, and otherwise the region
is shuffled (R201, R202). -/
theorem runShuffle_written {shuffle : Int → Nat → Work → Except Fault Work} {me : Context} {n b : Word64}
    (hn : me.argN = some n) (hb : me.argDstRe = some b) (w : Work) : runShuffle shuffle me w
      = if n.toNat = 0 then doneOk w else if dilBad n.toNat (addrOf b) then .error .invalid
        else (liftWork (shuffle (addrOf b) (Nat.log2 n.toNat) w)).bind doneOk := by
  simp only [runShuffle, hn, hb, arg, bind_ok, invalidIf]
  cases dilBad n.toNat (addrOf b) <;> rfl

/-- Settles O36, from the conditions of each check (`brvBad_viewOf`, `dilBad_addrOf`). -/
theorem permutationsCheckTheirViews : Obligations.PermutationsCheckTheirViews := by
  refine ⟨fun l s sb ss db ds hsb hss hdb hds => ?_, fun s n b hn hb h0 hbad => ?_⟩
  · have hexec : exec (.brv l) s = s.complete (runBrv s.cfg s.me s.work l) := rfl
    simp only [hexec, runBrv, brvArgs_eq_ok hsb hss hdb hds, bind_ok]
    refine ⟨fun hbad => ?_, fun hl hdb0 hds0 hne hshare => ?_⟩
    · rw [brvBad_viewOf.2 hbad]
      rfl
    · have hok : brvBad l (viewOf sb ss (2 ^ l)) (viewOf db ds (2 ^ l)) = false := by
        rw [← Bool.not_eq_true, brvBad_viewOf]
        rintro (h | h | h | ⟨-, h, -⟩)
        · omega
        · exact hdb0 h
        · exact hds0 h
        · exact hne h
      have hviews : viewOf sb ss (2 ^ l) ≠ viewOf db ds (2 ^ l) := fun h => hne (addrOf_inj.1 (congrArg View.base h))
      rw [hok, if_neg hviews, if_pos (View.share_iff.1 hshare)]
      rfl
  · have hturn : ∀ shuffle, s.complete (runShuffle shuffle s.me s.work) = .next s.turnAway := fun shuffle => by
      rw [runShuffle_written hn hb, if_neg (Nat.pos_iff_ne_zero.1 (BitVec.toNat_pos_of_ne_zero h0)),
        if_pos (dilBad_addrOf.2 hbad)]
      rfl
    exact ⟨hturn _, hturn _⟩

/-- On a region of `2·2^L` elements, the shuffle moves the values `f` to `V L f`, and changes nothing else. -/
def Shuffles (shuffle : Int → Nat → Work → Except Fault Work) (V : Nat → (Nat → Elem) → Nat → Elem) : Prop :=
  ∀ (b : Int) (l : Nat) (w : Work) (f : Nat → Elem), 0 < b → HoldsAt w.mem (unitView b (2 * 2 ^ l)) (2 * 2 ^ l) f →
    ∃ m, shuffle b l w = .ok { w with mem := m }
      ∧ Fills (unitView b (2 * 2 ^ l)) (Set.Iio (2 * 2 ^ l)) (fun i => some (V l f i)) w.mem m

theorem deinterleave_shuffles (t : Ty) : Shuffles (deinterleave t) dilV := fun _ _ _ _ hb h => by
  obtain ⟨m, hm, hh⟩ := deinterleave_holds (t := t) hb h
  exact ⟨m, hm, .of_moved hh (deinterleave_only { Config.standard with ty := t } _ _ _ _ _ hm)⟩

theorem interleave_shuffles (t : Ty) : Shuffles (interleave t) ilvV := fun _ _ _ _ hb h => by
  obtain ⟨m, hm, hh⟩ := interleave_holds (t := t) hb h
  exact ⟨m, hm, .of_moved hh (interleave_only { Config.standard with ty := t } _ _ _ _ _ hm)⟩

theorem addrOf_pos {b : Word64} (hb : b ≠ 0) : 0 < addrOf b := by
  have := mt addrOf_eq_zero.1 hb
  simp only [addrOf] at *
  omega

/-- Past its checks, the command of a shuffle ends with the values of its region moved (R201, R202). -/
theorem Shuffles.completes {shuffle : Int → Nat → Work → Except Fault Work} {V : Nat → (Nat → Elem) → Nat → Elem}
    (hsh : Shuffles shuffle V) {s : State} {n b : Word64} (hn : s.me.argN = some n) (hb : s.me.argDstRe = some b)
    (hp : isPow2 n.toNat = true) (hle : n.toNat ≤ 2 ^ 30) (hb0 : b ≠ 0)
    (hadm : (unitView (addrOf b) (2 * n.toNat)).Admitted s.mem) :
    ∃ t l, s.complete (runShuffle shuffle s.me s.work) = .next t ∧ n.toNat = 2 ^ l
      ∧ State.Wrote s t [unitView (addrOf b) (2 * n.toNat)] ∧ s.sameDraws t
      ∧ ∃ f, HoldsAt s.mem (unitView (addrOf b) (2 * 2 ^ l)) (2 * 2 ^ l) f
        ∧ HoldsAt t.mem (unitView (addrOf b) (2 * 2 ^ l)) (2 * 2 ^ l) (V l f) := by
  obtain ⟨h0, hpow⟩ := isPow2_iff.1 hp
  have hok : ¬ dilBad n.toNat (addrOf b) = true := by
    rw [dilBad_addrOf, hp]
    rintro (h | h | h)
    · cases h
    · omega
    · exact hb0 h
  rw [runShuffle_written hn hb, if_neg h0, if_neg hok]
  generalize Nat.log2 n.toNat = l at hpow
  rw [← hpow] at hadm ⊢
  have hold := HoldsAt.of_admitted hadm
  obtain ⟨m, hm, hfill⟩ := hsh (addrOf b) l s.work _ (addrOf_pos hb0) hold
  obtain ⟨t, ht, hw, hd, hvals⟩ := complete_of_fills hm hfill
  exact ⟨t, l, ht, rfl, hw, hd, _, hold, hvals⟩

/-- Settles O37, from what the shuffle of `DIL` moves (`dilV`). -/
theorem dilDeinterleaves : Obligations.DilDeinterleaves := by
  intro s n b hn hb hp hle hb0 hadm
  obtain ⟨t, l, ht, hl, hw, hd, f, hs, ht'⟩ := (deinterleave_shuffles s.cfg.ty).completes hn hb hp hle hb0 hadm
  refine ⟨t, ht, hw, hd, fun k hk => ?_⟩
  rw [hl] at hk ⊢
  have heven := hs (2 * k) (by omega)
  have hodd := hs (2 * k + 1) (by omega)
  have hlow := ht' k (by omega)
  have hhigh := ht' (2 ^ l + k) (by omega)
  simp only [unitView_addr, dilV, hk, if_true, Nat.not_lt.2 (Nat.le_add_right (2 ^ l) k), if_false,
    Nat.add_sub_cancel_left, Nat.cast_add, Nat.cast_mul, Nat.cast_one, Nat.cast_ofNat, ← add_assoc] at heven hodd hlow hhigh
  exact ⟨hlow.trans heven.symm, hhigh.trans hodd.symm⟩

/-- Settles O38, from what the shuffle of `ILV` moves (`ilvV`). -/
theorem ilvReinterleaves : Obligations.IlvReinterleaves := by
  intro s n b hn hb hp hle hb0 hadm
  obtain ⟨t, l, ht, hl, hw, hd, f, hs, ht'⟩ := (interleave_shuffles s.cfg.ty).completes hn hb hp hle hb0 hadm
  refine ⟨t, ht, hw, hd, fun k hk => ?_⟩
  rw [hl] at hk ⊢
  have hlow := hs k (by omega)
  have hhigh := hs (2 ^ l + k) (by omega)
  have heven := ht' (2 * k) (by omega)
  have hodd := ht' (2 * k + 1) (by omega)
  have hhalf : (2 * k + 1) / 2 = k := by omega
  simp only [unitView_addr, ilvV, Nat.mul_mod_right, if_true, Nat.mul_add_mod, Nat.mod_succ, Nat.one_ne_zero, if_false,
    hhalf, Nat.mul_div_cancel_left k Nat.two_pos, Nat.cast_add, Nat.cast_mul, Nat.cast_one, Nat.cast_ofNat, ← add_assoc]
    at hlow hhigh heven hodd
  exact ⟨heven.trans hlow.symm, hodd.trans hhigh.symm⟩

/-- A shuffle's command that ends read its two registers and kept them; it either left memory alone, or shuffled a region
of a valid count (R201, R202). -/
theorem shuffle_next {shuffle : Int → Nat → Work → Except Fault Work} {s t : State}
    (h : s.complete (runShuffle shuffle s.me s.work) = .next t) :
    ∃ n b : Word64, s.me.argN = some n ∧ s.me.argDstRe = some b ∧ t.me.argN = some n ∧ t.me.argDstRe = some b
      ∧ if n.toNat = 0 ∨ dilBad n.toNat (addrOf b) = true then t.mem = s.mem
        else ∃ w, shuffle (addrOf b) (Nat.log2 n.toNat) s.work = .ok w ∧ t.mem = w.mem := by
  obtain ⟨n, b, hn, hb⟩ : ∃ n b, s.me.argN = some n ∧ s.me.argDstRe = some b := by
    cases hn : s.me.argN with
    | none => rw [runShuffle, hn] at h; cases h
    | some n =>
      cases hb : s.me.argDstRe with
      | none => rw [runShuffle, hn, hb] at h; cases h
      | some b => exact ⟨n, b, rfl, rfl⟩
  rw [runShuffle_written hn hb] at h
  refine ⟨n, b, hn, hb, ?_⟩
  split at h
  next h0 =>
    cases h
    exact ⟨hn, hb, by rw [if_pos (.inl h0)]; rfl⟩
  next h0 =>
    split at h
    next hbad =>
      cases h
      exact ⟨hn, hb, by rw [if_pos (.inr hbad)]; rfl⟩
    next hok =>
      rw [if_neg (not_or.2 ⟨h0, hok⟩)]
      cases hw : shuffle (addrOf b) (Nat.log2 n.toNat) s.work with
      | error f => rw [hw] at h; cases h
      | ok w =>
        rw [hw] at h
        cases h
        exact ⟨hn, hb, w, rfl, rfl⟩

/-- The shuffle of `ILV` on what that of `DIL` left restores memory: both end, so every address of the region is admitted,
and its values move there and back (`ilvV_dilV`). -/
theorem interleave_after_deinterleave {t t' : Ty} {b : Int} {l : Nat} {w w1 w' w2 : Work} (hb : 0 < b)
    (hwf : w.mem.wf = true) (h1 : deinterleave t b l w = .ok w1) (hmem : w'.mem = w1.mem)
    (h2 : interleave t' b l w' = .ok w2) : w2.mem = w.mem := by
  have hold := HoldsAt.of_admitted (v := unitView b (2 * 2 ^ l)) fun i hi => by
    rw [unitView_addr]
    exact deinterleave_needs t b hi _ _ h1
  obtain ⟨m1, h1', hfill1⟩ := deinterleave_shuffles t b l w _ hb hold
  obtain rfl := Except.ok.inj (h1.symm.trans h1')
  obtain ⟨m2, h2', hfill2⟩ := interleave_shuffles t' b l w' _ hb (by rw [hmem]; exact hfill1.values)
  obtain rfl := Except.ok.inj (h2.symm.trans h2')
  rw [hmem] at hfill2
  exact ((hfill1.overwrite hfill2).congr fun i hi => congrArg some (ilvV_dilV l _ hi)).unique hwf (.refl hold)

/-- Settles O39: both commands read the same two registers, so both leave memory alone or both shuffle one region. -/
theorem ilvUndoesDil : Obligations.IlvUndoesDil := by
  intro s t u hwf hdil hilv
  obtain ⟨n, b, hn, hb, htn, htb, ht⟩ := shuffle_next hdil
  obtain ⟨n', b', hn', hb', -, -, hu⟩ := shuffle_next hilv
  obtain rfl : n = n' := Option.some_injective _ (htn.symm.trans hn')
  obtain rfl : b = b' := Option.some_injective _ (htb.symm.trans hb')
  by_cases hidle : n.toNat = 0 ∨ dilBad n.toNat (addrOf b) = true
  · rw [if_pos hidle] at ht hu
    exact hu.trans ht
  · rw [if_neg hidle] at ht hu
    obtain ⟨w1, h1, ht⟩ := ht
    obtain ⟨w2, h2, hu⟩ := hu
    have hb0 : b ≠ 0 := fun h => hidle (.inr (dilBad_addrOf.2 (.inr (.inr h))))
    exact hu.trans (interleave_after_deinterleave (addrOf_pos hb0) hwf h1 ht h2)

end Sys2Proof.Machine

/-! SUPPORT. Proofs of the scope's statements: the access regimes of the bit reversal reach its result (R190, R192–R198).
In place, each stage of a regime reverses some positions of the view (`Reverses`), and the stages are put together. Out of
place, each stage fills a part of the destination from a source that no stage writes (`CopyReady`). -/

namespace Sys2Proof.Machine

/-! ### The reversal of an index in fields -/

/-- The two fields of an index change places, each reversed (R196). -/
theorem rev_append (a : Nat) {b k : Nat} (hb : b < 2 ^ k) (n : Nat) :
    rev (a * 2 ^ k + b) (k + n) = rev b k * 2 ^ n + rev a n := by
  induction k generalizing b with
  | zero =>
    obtain rfl : b = 0 := by simpa using hb
    simp [rev]
  | succ k ih =>
    rw [pow_succ] at hb
    have hpow : a * 2 ^ (k + 1) = 2 * (a * 2 ^ k) := by ring
    have hhalf : (a * 2 ^ (k + 1) + b) / 2 = a * 2 ^ k + b / 2 := by omega
    have hbit : (a * 2 ^ (k + 1) + b) % 2 = b % 2 := by omega
    rw [show k + 1 + n = k + n + 1 by omega, rev, rev, hhalf, hbit, ih (by omega)]
    ring

/-- Bits above the index are zeros below its reversal (R193). -/
theorem rev_add_bits {i l : Nat} (hi : i < 2 ^ l) (k : Nat) : rev i (l + k) = rev i l * 2 ^ k := by
  have hzero : rev 0 k = 0 := by
    induction k with
    | zero => rfl
    | succ k ih => simp [rev, ih]
  simpa [hzero] using rev_append 0 hi k

/-- The table with its shift-tail adjustment gives the reversed index (R193). -/
theorem revTiny_eq (c : Config) {i l : Nat} (hl : l ≤ 8) (hi : i < 2 ^ l) : revTiny c i l = rev i l := by
  have h256 : i < 256 := hi.trans_le (Nat.pow_le_pow_right (by omega) hl)
  have hrom : brev8.getD i 0 = rev i 8 := by simp [brev8, brevLen, List.getD_eq_getElem?_getD, h256]
  have htail := rev_add_bits hi (8 - l)
  rw [Nat.add_sub_cancel' hl] at htail
  rw [revTiny, hrom, htail, Nat.mul_div_cancel _ (by positivity), ite_self]

/-! ### Single writes and loops of writes -/

theorem dstWrite_fills {v : View} {i : Nat} {w : Work} (h : (w.mem.atAddr (v.addr i)).isSome = true) (x : Elem) :
    ∃ m, dstWrite v i x w = .ok { w with mem := m } ∧ Fills v {i} (fun _ => some x) w.mem m := by
  obtain ⟨m, hm⟩ := Mem.setAddr_isSome (v := x) h
  refine ⟨m, memWrite_eq_ok.2 ⟨m, hm, rfl⟩, ?_, fun a ha => ?_, Mem.setAddr_keys hm⟩
  · rintro _ rfl
    rw [Mem.setAddr_at hm, if_pos rfl]
  · rw [Mem.setAddr_at hm, if_neg fun he => ha i rfl he.symm]

/-- A loop that writes the value `x k` at position `p k` in each turn fills the positions of `p`. -/
theorem forUp_fills {v : View} {n : Nat} {f : Nat → Work → Except Fault Work} {p : Nat → Nat} {x : Nat → Elem}
    {g : Nat → Option Elem} {w : Work} (hs : v.stride ≠ 0)
    (hadm : ∀ k, k < n → (w.mem.atAddr (v.addr (p k))).isSome = true) (hg : ∀ k, k < n → g (p k) = some (x k))
    (hf : ∀ k, k < n → ∀ m, (∀ a, (∀ j, j < n → v.addr (p j) ≠ a) → m.atAddr a = w.mem.atAddr a) →
      f k { w with mem := m } = dstWrite v (p k) (x k) { w with mem := m }) :
    ∃ m, forUp n f w = .ok { w with mem := m } ∧ Fills v (p '' Set.Iio n) g w.mem m := by
  have hturn : ∀ k, k < n → ∀ m, Fills v (p '' Set.Iio k) g w.mem m →
      ∃ m', f k { w with mem := m } = .ok { w with mem := m' } ∧ Fills v (p '' Set.Iio (k + 1)) g w.mem m' := by
    intro k hk m hm
    have hhere : (m.atAddr (v.addr (p k))).isSome = true := by
      rw [Mem.admitted_of_keys hm.keys]
      exact hadm k hk
    obtain ⟨m', hw', hm'⟩ := dstWrite_fills (w := { w with mem := m }) hhere (x k)
    refine ⟨m', (hf k hk m fun a ha => hm.kept a ?_).trans hw', ?_⟩
    · rintro _ ⟨j, hj, rfl⟩
      exact ha j (Nat.lt_trans hj hk)
    · have hset : p '' Set.Iio (k + 1) = p '' Set.Iio k ∪ {p k} := by
        rw [← Set.image_singleton, ← Set.image_union]
        congr 1
        ext j
        simp
      rw [hset]
      exact hm.union (hm'.congr fun i hi => by obtain rfl := hi; exact (hg k hk).symm) hs
  obtain ⟨_, hw, m, rfl, hm⟩ := forUp_total (n := n) (f := f) (w := w)
    (I := fun k w' => ∃ m, w' = { w with mem := m } ∧ Fills v (p '' Set.Iio k) g w.mem m)
    ⟨w.mem, rfl, .refl (by rintro _ ⟨k, hk, -⟩; exact absurd hk (Nat.not_lt_zero k))⟩
    (by rintro k hk _ ⟨m, rfl, hm⟩
        obtain ⟨m', h, hm'⟩ := hturn k hk m hm
        exact ⟨_, h, m', rfl, hm'⟩)
  exact ⟨m, hw, hm⟩

/-! ### Reversing some positions of a view in place -/

/-- Where the positions of the view are admitted, the operation ends, each position of `S` has come to hold what its
reversed position held, and nothing else changed. -/
def Reverses (v : View) (l : Nat) (S : Set Nat) (op : Work → Except Fault Work) : Prop :=
  ∀ w : Work, (∀ i, i < 2 ^ l → (w.mem.atAddr (v.addr i)).isSome = true) →
    ∃ w', op w = .ok w' ∧ Fills v S (fun i => w.mem.atAddr (v.addr (rev i l))) w.mem w'.mem

/-- Positions that are their own reversal need no access. -/
theorem ok_reverses {v : View} {l : Nat} {S : Set Nat} (h : ∀ i ∈ S, rev i l = i) : Reverses v l S .ok :=
  fun w _ => ⟨w, rfl, .refl fun i hi => by rw [h i hi]⟩

theorem swapAt_reverses {v : View} {l p r : Nat} (hs : v.stride ≠ 0) (hp : p < 2 ^ l) (hr : rev p l = r) :
    Reverses v l {p, r} (swapAt v p r) := by
  subst hr
  intro w hw
  obtain ⟨x, hx⟩ := Option.isSome_iff_exists.1 (hw p hp)
  obtain ⟨y, hy⟩ := Option.isSome_iff_exists.1 (hw _ (rev_lt p l))
  obtain ⟨m1, h1, hm1⟩ := dstWrite_fills (hw p hp) y
  have hadm : (m1.atAddr (v.addr (rev p l))).isSome = true := by
    rw [Mem.admitted_of_keys hm1.keys]
    exact hw _ (rev_lt p l)
  obtain ⟨m2, h2, hm2⟩ := dstWrite_fills (w := { w with mem := m1 }) hadm x
  refine ⟨{ w with mem := m2 }, ?_, ?_⟩
  · rw [swapAt, dstRead, memRead_eq_ok.2 hx, bind_ok, dstRead, memRead_eq_ok.2 hy, bind_ok, h1, bind_ok, h2]
  · refine (hm1.congr ?_).union (hm2.congr ?_) hs
    · rintro _ rfl
      exact hy.symm
    · rintro _ rfl
      rw [rev_rev hp]
      exact hx.symm

section reverses
variable {u v : View} {l l' : Nat} {S T : Set Nat} {op op' : Work → Except Fault Work}

/-- Two stages, of which the first leaves alone what the second moves. -/
theorem Reverses.bind (h : Reverses v l S op) (h' : Reverses v l T op') (hs : v.stride ≠ 0)
    (hd : ∀ i ∈ T, rev i l ∉ S) : Reverses v l (S ∪ T) (fun w => (op w).bind op') := by
  intro w hw
  obtain ⟨w1, h1, hm1⟩ := h w hw
  obtain ⟨w2, h2, hm2⟩ := h' w1 fun i hi => by
    rw [Mem.admitted_of_keys hm1.keys]
    exact hw i hi
  refine ⟨w2, (bind_of_ok h1 _).trans h2, hm1.union (hm2.congr fun i hi => hm1.kept _ fun j hj he => ?_) hs⟩
  obtain rfl := View.addr_inj hs he
  exact hd i hi hj

/-- A loop whose turns move different positions. -/
theorem Reverses.forUp {n : Nat} {f : Nat → Work → Except Fault Work} {S : Nat → Set Nat} (hs : v.stride ≠ 0)
    (h : ∀ k, k < n → Reverses v l (S k) (f k)) (hd : ∀ j k, j < k → k < n → ∀ i ∈ S k, rev i l ∉ S j) :
    Reverses v l {i | ∃ k, k < n ∧ i ∈ S k} (forUp n f) := by
  induction n with
  | zero => exact fun w _ => ⟨w, rfl, .refl fun i hi => by obtain ⟨k, hk, -⟩ := hi; omega⟩
  | succ n ih =>
    have hset : {i | ∃ k, k < n + 1 ∧ i ∈ S k} = {i | ∃ k, k < n ∧ i ∈ S k} ∪ S n := by
      ext i
      simp only [Set.mem_union, Set.mem_ofPred_eq, Nat.lt_succ_iff_lt_or_eq, or_and_right, exists_or, exists_eq_left]
    rw [hset]
    refine (ih (fun k hk => h k (by omega)) fun j k hj hk => hd j k hj (by omega)).bind (h n (by omega)) hs ?_
    rintro i hi ⟨k, hk, hki⟩
    exact hd k n hk (by omega) i hi hki

/-- What is reversed in a part of a view that the reversal keeps is reversed in the view. -/
theorem Reverses.embed (h : Reverses u l S op) {e : Nat → Nat} (he : ∀ i, u.addr i = v.addr (e i))
    (hlt : ∀ i, i < 2 ^ l → e i < 2 ^ l') (hrev : ∀ i ∈ S, rev (e i) l' = e (rev i l)) :
    Reverses v l' (e '' S) op := by
  intro w hw
  obtain ⟨w', hop, hm⟩ := h w fun i hi => by
    rw [he]
    exact hw _ (hlt i hi)
  exact ⟨w', hop, hm.embed he fun i hi => by rw [he, hrev i hi]⟩

end reverses

/-! ### The tiny and the medium regime in place -/

/-- The positions that the in-place procedures move in turn `k`: `k` and its reversal, in the turn of the smaller one. -/
def orbit (l k : Nat) : Set Nat := {i | i < 2 ^ l ∧ min i (rev i l) = k}

theorem rev_mem_orbit {l k i : Nat} (h : i ∈ orbit l k) : rev i l ∈ orbit l k := by
  obtain ⟨hi, hk⟩ := h
  exact ⟨rev_lt i l, by rw [rev_rev hi, min_comm]; exact hk⟩

theorem orbit_disjoint {l j k i : Nat} (hjk : j ≠ k) (h : i ∈ orbit l k) : i ∉ orbit l j :=
  fun h' => hjk (h'.2.symm.trans h.2)

/-- The turn of the smaller of the two moves both. -/
theorem orbit_eq {l k : Nat} (hk : k < 2 ^ l) (h : k ≤ rev k l) : orbit l k = {k, rev k l} := by
  ext i
  constructor
  · rintro ⟨hi, hmin⟩
    rcases min_choice i (rev i l) with h' | h' <;> rw [h'] at hmin
    · exact .inl hmin
    · subst hmin
      exact .inr (rev_rev hi).symm
  · rintro (rfl | rfl)
    · exact ⟨hk, min_eq_left h⟩
    · exact ⟨rev_lt k l, by rw [rev_rev hk]; exact min_eq_right h⟩

/-- The turn of the larger of the two moves nothing. -/
theorem orbit_eq_empty {l k : Nat} (hk : k < 2 ^ l) (h : rev k l < k) : orbit l k = ∅ := by
  ext i
  refine ⟨?_, False.elim⟩
  rintro ⟨hi, hmin⟩
  rcases min_choice i (rev i l) with h' | h' <;> rw [h'] at hmin
  · subst hmin
    omega
  · subst hmin
    rw [rev_rev hi] at h
    omega

theorem tinyIP_reverses {c : Config} {v : View} {l : Nat} (hs : v.stride ≠ 0) (hl : l ≤ 8) :
    Reverses v l (Set.Iio (2 ^ l)) (tinyIP c v l) := by
  have hturns := Reverses.forUp (v := v) (l := l) (n := 2 ^ l) (S := orbit l)
    (f := fun i w => if i < revTiny c i l then swapAt v i (revTiny c i l) w else .ok w) hs (fun k hk => ?_)
    fun j k hjk _ i hi => orbit_disjoint hjk.ne (rev_mem_orbit hi)
  · have hset : {i | ∃ k, k < 2 ^ l ∧ i ∈ orbit l k} = Set.Iio (2 ^ l) := by
      ext i
      exact ⟨fun ⟨_, _, hi⟩ => hi.1, fun hi => ⟨_, (min_le_left _ _).trans_lt hi, hi, rfl⟩⟩
    exact hset ▸ hturns
  · rw [revTiny_eq c hl hk]
    rcases lt_trichotomy k (rev k l) with h | h | h
    · simp only [if_pos h, orbit_eq hk h.le]
      exact swapAt_reverses hs hk rfl
    · rw [orbit_eq hk h.le]
      simp only [if_neg (Nat.not_lt.2 h.ge)]
      refine ok_reverses ?_
      rintro i (rfl | rfl)
      · exact h.symm
      · exact congrArg (rev · l) h.symm
    · simp only [if_neg h.not_gt, orbit_eq_empty hk h]
      exact ok_reverses fun i hi => hi.elim

theorem quarter_addr (v : View) (p l i : Nat) : (quarter v p l).addr i = v.addr (p + 2 * i) := by
  simp only [quarter, View.addr]
  push_cast
  ring

/-- The reversal of a mixed index `0X1` is `1X'0` (R195). -/
theorem rev_mixed {x l : Nat} (hx : x < 2 ^ l) : rev (2 * x + 1) (l + 2) = 2 ^ (l + 1) + 2 * rev x l := by
  rw [rev_two_mul_add x (l + 1) Nat.one_lt_two, rev_add_bits hx 1]
  ring

/-- The reversal of a pure index `0X0` is `0X'0` (R195). -/
theorem rev_pure_zero {x l : Nat} (hx : x < 2 ^ l) : rev (0 + 2 * x) (l + 2) = 0 + 2 * rev x l := by
  rw [zero_add, zero_add, rev_add_bits (l := l + 1) (by rw [pow_succ]; omega) 1]
  have h := rev_two_mul_add x l Nat.two_pos
  rw [add_zero, zero_mul, zero_add] at h
  rw [h, mul_comm, pow_one]

/-- The reversal of a pure index `1X1` is `1X'1` (R195). -/
theorem rev_pure_one {x l : Nat} (hx : x < 2 ^ l) :
    rev (2 ^ (l + 1) + 1 + 2 * x) (l + 2) = 2 ^ (l + 1) + 1 + 2 * rev x l := by
  have hsplit : 2 ^ (l + 1) + 1 + 2 * x = 2 * (x + 2 ^ l * 1) + 1 := by ring
  rw [hsplit, rev_two_mul_add _ (l + 1) Nat.one_lt_two, rev_add_top hx 1]
  ring

/-- The exchange of the mixed quarters (R195). -/
theorem mixed_reverses {v : View} {l : Nat} (hs : v.stride ≠ 0) :
    Reverses v (l + 2) {i | ∃ x, x < 2 ^ l ∧ i ∈ ({2 * x + 1, 2 ^ (l + 1) + 2 * rev x l} : Set Nat)}
      (forUp (2 ^ l) (fun x => swapAt v (2 * x + 1) (2 ^ (l + 1) + 2 * rev x l))) := by
  have hpow : 2 ^ (l + 2) = 2 * (2 * 2 ^ l) := by ring
  refine .forUp hs (fun x hx => swapAt_reverses hs (by omega) (rev_mixed hx)) fun j k hjk hk i hi => ?_
  have hj := rev_mixed (hjk.trans hk)
  have hk' := rev_mixed hk
  have hne : rev j l ≠ rev k l := fun h => hjk.ne (rev_inj (hjk.trans hk) hk h)
  have hone : 2 ^ (l + 1) = 2 * 2 ^ l := by ring
  rcases hi with rfl | rfl
  · rw [hk']
    rintro (h | h)
    · omega
    · have : 2 ^ (l + 1) + 2 * rev k l = 2 ^ (l + 1) + 2 * rev j l := h
      omega
  · rw [← hk', rev_rev (by omega)]
    rintro (h | h)
    · omega
    · have : 2 * k + 1 = 2 ^ (l + 1) + 2 * rev j l := h
      omega

/-- An index is mixed or pure (R195). -/
theorem quarters_union (l : Nat) : ({i | ∃ x, x < 2 ^ l ∧ i ∈ ({2 * x + 1, 2 ^ (l + 1) + 2 * rev x l} : Set Nat)}
    ∪ (fun x => 0 + 2 * x) '' Set.Iio (2 ^ l)) ∪ (fun x => 2 ^ (l + 1) + 1 + 2 * x) '' Set.Iio (2 ^ l)
    = Set.Iio (2 ^ (l + 2)) := by
  have hpow : 2 ^ (l + 2) = 2 * (2 * 2 ^ l) := by ring
  have hone : 2 ^ (l + 1) = 2 * 2 ^ l := by ring
  ext i
  constructor
  · rintro ((⟨x, hx, rfl | rfl⟩ | ⟨x, hx, rfl⟩) | ⟨x, hx, rfl⟩) <;> simp only [Set.mem_Iio] at *
    · omega
    · have := rev_lt x l
      omega
    · omega
    · omega
  · intro hi
    simp only [Set.mem_Iio] at hi
    by_cases htop : i < 2 * 2 ^ l
    · rcases Nat.mod_two_eq_zero_or_one i with h | h
      · exact .inl (.inr ⟨i / 2, by simp only [Set.mem_Iio]; omega, by simp only; omega⟩)
      · exact .inl (.inl ⟨i / 2, by omega, .inl (by omega)⟩)
    · have hx : (i - 2 * 2 ^ l) / 2 < 2 ^ l := by omega
      rcases Nat.mod_two_eq_zero_or_one i with h | h
      · exact .inl (.inl ⟨rev ((i - 2 * 2 ^ l) / 2) l, rev_lt _ l, .inr (show i = _ by rw [rev_rev hx]; omega)⟩)
      · exact .inr ⟨(i - 2 * 2 ^ l) / 2, hx, by simp only [hone]; omega⟩

theorem medIP_reverses {c : Config} {tiny : Nat} (ht : tiny ≤ 8) {v : View} {l : Nat} (hs : v.stride ≠ 0) :
    Reverses v l (Set.Iio (2 ^ l)) (medIP c tiny l v) := by
  induction l using Nat.twoStepInduction generalizing v with
  | zero => exact tinyIP_reverses hs (by omega)
  | one => exact tinyIP_reverses hs (by omega)
  | more l ih _ =>
    by_cases hl : l + 2 ≤ tiny
    · simp only [medIP, if_pos hl]
      exact tinyIP_reverses hs (by omega)
    · have hpow : 2 ^ (l + 2) = 2 * (2 * 2 ^ l) := by ring
      have hone : 2 ^ (l + 1) = 2 * 2 ^ l := by ring
      have hs' : ∀ p, (quarter v p l).stride ≠ 0 := fun _ => mul_ne_zero two_ne_zero hs
      have hzero := (ih (hs' 0)).embed (v := v) (l' := l + 2) (quarter_addr v 0 l) (fun x hx => by omega)
        fun x hx => rev_pure_zero hx
      have htop := (ih (hs' (2 ^ (l + 1) + 1))).embed (v := v) (l' := l + 2) (quarter_addr v _ l) (fun x hx => by omega)
        fun x hx => rev_pure_one hx
      have hall := ((mixed_reverses hs).bind hzero hs ?_).bind htop hs ?_
      · rw [quarters_union] at hall
        simp only [medIP, if_neg hl]
        exact hall
      · rintro _ ⟨x, hx, rfl⟩ ⟨y, hy, h⟩
        rw [rev_pure_zero hx] at h
        have := rev_lt x l
        rcases h with h | h
        · omega
        · have h : 0 + 2 * rev x l = 2 ^ (l + 1) + 2 * rev y l := h
          omega
      · rintro _ ⟨x, hx, rfl⟩ h
        rw [rev_pure_one hx] at h
        rcases h with ⟨y, hy, h | h⟩ | ⟨y, hy, h⟩
        · omega
        · have h : 2 ^ (l + 1) + 1 + 2 * rev x l = 2 ^ (l + 1) + 2 * rev y l := h
          omega
        · simp only at h
          omega

/-! ### The large regime in place -/

/-- The positions whose middle field is `b` (R196). -/
def tile (q m b : Nat) : Set Nat := {i | ∃ a c, a < 2 ^ q ∧ c < 2 ^ q ∧ tilePos q m a b c = i}

theorem tilePos_eq (q m a b c : Nat) : tilePos q m a b c = (a * 2 ^ m + b) * 2 ^ q + c := by
  rw [tilePos]
  ring

theorem tilePos_lt {q m a b c : Nat} (ha : a < 2 ^ q) (hb : b < 2 ^ m) (hc : c < 2 ^ q) :
    tilePos q m a b c < 2 ^ (m + 2 * q) := by
  rw [tilePos_eq]
  calc (a * 2 ^ m + b) * 2 ^ q + c < (a * 2 ^ m + b + 1) * 2 ^ q := by linarith
    _ ≤ ((a + 1) * 2 ^ m) * 2 ^ q := Nat.mul_le_mul_right _ (by linarith)
    _ ≤ (2 ^ q * 2 ^ m) * 2 ^ q := Nat.mul_le_mul_right _ (Nat.mul_le_mul_right _ ha)
    _ = 2 ^ (m + 2 * q) := by ring

/-- The middle field of a position is read back by division (R196). -/
theorem tilePos_middle {q m b c : Nat} (a : Nat) (hb : b < 2 ^ m) (hc : c < 2 ^ q) :
    tilePos q m a b c / 2 ^ q % 2 ^ m = b := by
  rw [tilePos_eq, Nat.add_comm, Nat.add_mul_div_right _ _ (by positivity), Nat.div_eq_of_lt hc, Nat.zero_add, Nat.add_comm,
    Nat.add_mul_mod_self_right, Nat.mod_eq_of_lt hb]

/-- `rev(i, L) = (rev(c, Q), rev(b, M), rev(a, Q))` (R196). -/
theorem rev_tilePos {q m b c : Nat} (a : Nat) (hb : b < 2 ^ m) (hc : c < 2 ^ q) :
    rev (tilePos q m a b c) (m + 2 * q) = tilePos q m (rev c q) (rev b m) (rev a q) := by
  have hlen : m + 2 * q = q + (m + q) := by ring
  rw [tilePos_eq, hlen, rev_append _ hc, rev_append _ hb, tilePos]
  ring

theorem tile_disjoint {q m b b' i : Nat} (hb : b < 2 ^ m) (hb' : b' < 2 ^ m) (hne : b ≠ b') (h : i ∈ tile q m b) :
    i ∉ tile q m b' := by
  rintro ⟨a', c', -, hc', rfl⟩
  obtain ⟨a, c, -, hc, he⟩ := h
  have := congrArg (· / 2 ^ q % 2 ^ m) he
  simp only [tilePos_middle _ hb hc, tilePos_middle _ hb' hc'] at this
  exact hne this

/-- A tile is reversed into the tile of the reversed middle field (R196). -/
theorem rev_mem_tile {q m b i : Nat} (hb : b < 2 ^ m) (h : i ∈ tile q m b) : rev i (m + 2 * q) ∈ tile q m (rev b m) := by
  obtain ⟨a, c, ha, hc, rfl⟩ := h
  exact ⟨_, _, rev_lt c q, rev_lt a q, (rev_tilePos _ hb hc).symm⟩

/-- Every position is in the tile of its middle field (R196). -/
theorem exists_tilePos {q m i : Nat} (hi : i < 2 ^ (m + 2 * q)) : ∃ b, b < 2 ^ m ∧ i ∈ tile q m b := by
  have ha : i / 2 ^ q / 2 ^ m < 2 ^ q := by
    rw [Nat.div_div_eq_div_mul, ← pow_add]
    refine Nat.div_lt_of_lt_mul ?_
    rwa [← pow_add, show q + m + q = m + 2 * q by ring]
  refine ⟨i / 2 ^ q % 2 ^ m, Nat.mod_lt _ (by positivity), i / 2 ^ q / 2 ^ m, i % 2 ^ q, ha,
    Nat.mod_lt _ (by positivity), ?_⟩
  rw [tilePos_eq, Nat.div_add_mod', Nat.div_add_mod']

/-- Entry `k` of a tile's scan is that of the fields `a = k div 2^Q` and `c = k mod 2^Q` (R196). -/
theorem scan_fields {q k : Nat} (hk : k < 2 ^ (2 * q)) : k / 2 ^ q < 2 ^ q ∧ k % 2 ^ q < 2 ^ q := by
  refine ⟨Nat.div_lt_of_lt_mul ?_, Nat.mod_lt _ (by positivity)⟩
  rwa [← pow_add, ← two_mul]

/-- Every pair of fields is scanned. -/
theorem scan_of_fields {q a c : Nat} (ha : a < 2 ^ q) (hc : c < 2 ^ q) :
    ∃ k, k < 2 ^ (2 * q) ∧ k / 2 ^ q = a ∧ k % 2 ^ q = c := by
  refine ⟨a * 2 ^ q + c, ?_, ?_, ?_⟩
  · calc a * 2 ^ q + c < (a + 1) * 2 ^ q := by linarith
      _ ≤ 2 ^ q * 2 ^ q := Nat.mul_le_mul_right _ ha
      _ = 2 ^ (2 * q) := by ring
  · rw [Nat.add_comm, Nat.add_mul_div_right _ _ (by positivity), Nat.div_eq_of_lt hc, Nat.zero_add]
  · rw [Nat.add_comm, Nat.add_mul_mod_self_right, Nat.mod_eq_of_lt hc]

/-- The scan of a tile in order reaches its positions (R196). -/
theorem scan_image (q m b : Nat) :
    (fun k => tilePos q m (k / 2 ^ q) b (k % 2 ^ q)) '' Set.Iio (2 ^ (2 * q)) = tile q m b := by
  ext i
  constructor
  · rintro ⟨k, hk, rfl⟩
    obtain ⟨ha, hc⟩ := scan_fields hk
    exact ⟨_, _, ha, hc, rfl⟩
  · rintro ⟨a, c, ha, hc, rfl⟩
    obtain ⟨k, hk, rfl, rfl⟩ := scan_of_fields ha hc
    exact ⟨k, hk, rfl⟩

/-- The exchanged scan of a tile reaches its positions (R196). -/
theorem exchanged_scan_image (q m b : Nat) :
    (fun k => tilePos q m (rev (k % 2 ^ q) q) b (rev (k / 2 ^ q) q)) '' Set.Iio (2 ^ (2 * q)) = tile q m b := by
  ext i
  constructor
  · rintro ⟨k, hk, rfl⟩
    exact ⟨_, _, rev_lt _ q, rev_lt _ q, rfl⟩
  · rintro ⟨a, c, ha, hc, rfl⟩
    obtain ⟨k, hk, hka, hkc⟩ := scan_of_fields (rev_lt c q) (rev_lt a q)
    exact ⟨k, hk, by simp only [hka, hkc, rev_rev ha, rev_rev hc]⟩

/-- What a view holds at a position. -/
def View.valueAt (v : View) (m : Mem) (i : Nat) : Elem := (m.atAddr (v.addr i)).getD default

theorem View.atAddr_eq_valueAt {v : View} {m : Mem} {i : Nat} (h : (m.atAddr (v.addr i)).isSome = true) :
    m.atAddr (v.addr i) = some (v.valueAt m i) := by
  obtain ⟨x, hx⟩ := Option.isSome_iff_exists.1 h
  rw [View.valueAt, hx]
  rfl

/-- The contents of `TMP`: tile `b`, exchanged (R196). -/
def savedTile (v : View) (q m b : Nat) (mem : Mem) (n : Nat) : List Elem :=
  (List.range n).map fun k => v.valueAt mem (tilePos q m (rev (k % 2 ^ q) q) b (rev (k / 2 ^ q) q))

/-- The loop of `LargeIP` that moves tile `b'` into block `b` (R196). -/
def moveTile (v : View) (q m b b' : Nat) : Work → Except Fault Work :=
  forUp (2 ^ (2 * q)) fun k w => (dstRead v (tilePos q m (k / 2 ^ q) b' (k % 2 ^ q)) w).bind fun x =>
    dstWrite v (tilePos q m (rev (k % 2 ^ q) q) b (rev (k / 2 ^ q) q)) x w

/-- The loop of `LargeIP` that writes `TMP` into block `b'` (R196). -/
def putTmp (v : View) (q m b' : Nat) : Work → Except Fault Work :=
  forUp (2 ^ (2 * q)) fun k w => dstWrite v (tilePos q m (k / 2 ^ q) b' (k % 2 ^ q)) (w.trans.twbRe.getD k default) w

/-- The work with `TMP` filled (R47, R196). -/
def Work.setTmp (w : Work) (l : List Elem) : Work := { w with trans := { w.trans with twbRe := l } }

/-- A turn of `LargeIP` that is not skipped (R196). -/
theorem largeBlock_eq {t : Ty} {v : View} {q m b : Nat} {w : Work} {l : List Elem} (hb : b ≤ rev b m)
    (hsave : saveTile t v q m b w (2 ^ (2 * q)) = .ok l) : largeBlock t v q m b w
      = (if b = rev b m then .ok (w.setTmp l) else moveTile v q m b (rev b m) (w.setTmp l)).bind
        (putTmp v q m (rev b m)) := by
  simp only [largeBlock, if_pos hb, hsave, bind_ok]
  rfl

section block
variable {v : View} {q m b : Nat} {w : Work}

theorem saveTile_eq {t : Ty} (hw : ∀ i, i < 2 ^ (m + 2 * q) → (w.mem.atAddr (v.addr i)).isSome = true) (hb : b < 2 ^ m)
    (n : Nat) : saveTile t v q m b w n = .ok (savedTile v q m b w.mem n) := by
  induction n with
  | zero => rfl
  | succ n ih =>
    have hread := View.atAddr_eq_valueAt (hw _ (tilePos_lt (rev_lt (n % 2 ^ q) q) hb (rev_lt (n / 2 ^ q) q)))
    rw [saveTile, ih, bind_ok, dstRead, memRead_eq_ok.2 hread, bind_ok, savedTile, savedTile, List.range_succ,
      List.map_append]
    rfl

theorem moveTile_fills (hs : v.stride ≠ 0) (hb : b < 2 ^ m) (hne : b ≠ rev b m)
    (hw : ∀ i, i < 2 ^ (m + 2 * q) → (w.mem.atAddr (v.addr i)).isSome = true) :
    ∃ m1, moveTile v q m b (rev b m) w = .ok { w with mem := m1 }
      ∧ Fills v (tile q m b) (fun i => w.mem.atAddr (v.addr (rev i (m + 2 * q)))) w.mem m1 := by
  have hb' := rev_lt b m
  have hread : ∀ k, k < 2 ^ (2 * q) → w.mem.atAddr (v.addr (tilePos q m (k / 2 ^ q) (rev b m) (k % 2 ^ q)))
      = some (v.valueAt w.mem (tilePos q m (k / 2 ^ q) (rev b m) (k % 2 ^ q))) := fun k hk =>
    View.atAddr_eq_valueAt (hw _ (tilePos_lt (scan_fields hk).1 hb' (scan_fields hk).2))
  rw [← exchanged_scan_image]
  refine forUp_fills (x := fun k => v.valueAt w.mem (tilePos q m (k / 2 ^ q) (rev b m) (k % 2 ^ q))) hs
    (fun k _ => hw _ (tilePos_lt (rev_lt _ q) hb (rev_lt _ q))) (fun k hk => ?_) fun k hk m1 hm1 => ?_
  · obtain ⟨ha, hc⟩ := scan_fields hk
    rw [rev_tilePos _ hb (rev_lt _ q), rev_rev ha, rev_rev hc, hread k hk]
  · obtain ⟨ha, hc⟩ := scan_fields hk
    have hkeep : m1.atAddr (v.addr (tilePos q m (k / 2 ^ q) (rev b m) (k % 2 ^ q)))
        = w.mem.atAddr (v.addr (tilePos q m (k / 2 ^ q) (rev b m) (k % 2 ^ q))) := hm1 _ fun j _ he =>
      tile_disjoint hb' hb hne.symm ⟨_, _, ha, hc, rfl⟩ ⟨_, _, rev_lt _ q, rev_lt _ q, View.addr_inj hs he⟩
    rw [dstRead, memRead_eq_ok.2 (hkeep.trans (hread k hk)), bind_ok]

/-- `TMP` was filled from the memory `m0`, where the turn began. -/
theorem putTmp_fills {m0 : Mem} (hs : v.stride ≠ 0) (hb : b < 2 ^ m) (hkeys : w.mem.keys = m0.keys)
    (hw : ∀ i, i < 2 ^ (m + 2 * q) → (m0.atAddr (v.addr i)).isSome = true)
    (htmp : w.trans.twbRe = savedTile v q m b m0 (2 ^ (2 * q))) :
    ∃ m1, putTmp v q m (rev b m) w = .ok { w with mem := m1 }
      ∧ Fills v (tile q m (rev b m)) (fun i => m0.atAddr (v.addr (rev i (m + 2 * q)))) w.mem m1 := by
  have hb' := rev_lt b m
  rw [← scan_image]
  refine forUp_fills (x := fun k => w.trans.twbRe.getD k default) hs (fun k hk => ?_) (fun k hk => ?_) fun _ _ _ _ => rfl
  · rw [Mem.admitted_of_keys hkeys]
    exact hw _ (tilePos_lt (scan_fields hk).1 hb' (scan_fields hk).2)
  · obtain ⟨ha, hc⟩ := scan_fields hk
    rw [rev_tilePos _ hb' hc, rev_rev hb, View.atAddr_eq_valueAt (hw _ (tilePos_lt (rev_lt _ q) hb (rev_lt _ q))), htmp]
    simp [savedTile, List.getD_eq_getElem?_getD, hk]

end block

/-- The positions that `LargeIP` moves in turn `b`: the tiles of its orbit (R196). -/
def tileOrbit (q m b : Nat) : Set Nat := {i | ∃ b1 ∈ orbit m b, i ∈ tile q m b1}

/-- One turn of `LargeIP` moves the tiles of its orbit (R196). -/
theorem largeBlock_reverses {t : Ty} {v : View} {q m b : Nat} (hs : v.stride ≠ 0) (hb : b < 2 ^ m) :
    Reverses v (m + 2 * q) (tileOrbit q m b) (largeBlock t v q m b) := by
  intro w hw
  by_cases hle : b ≤ rev b m
  · obtain ⟨tmp, htmp⟩ : ∃ tmp, tmp = savedTile v q m b w.mem (2 ^ (2 * q)) := ⟨_, rfl⟩
    rw [largeBlock_eq hle (saveTile_eq hw hb _), ← htmp]
    by_cases heq : b = rev b m
    · have hset : tileOrbit q m b = tile q m (rev b m) := by simp [tileOrbit, orbit_eq hb hle, ← heq]
      obtain ⟨m1, h1, hm1⟩ := putTmp_fills (w := w.setTmp tmp) hs hb rfl hw htmp
      rw [if_pos heq, bind_ok, hset]
      exact ⟨_, h1, hm1⟩
    · have hset : tileOrbit q m b = tile q m b ∪ tile q m (rev b m) := by
        ext i
        simp [tileOrbit, orbit_eq hb hle]
      obtain ⟨m1, h1, hm1⟩ := moveTile_fills (w := w.setTmp tmp) hs hb heq hw
      obtain ⟨m2, h2, hm2⟩ := putTmp_fills (w := { w.setTmp tmp with mem := m1 }) hs hb hm1.keys hw htmp
      rw [if_neg heq, h1, bind_ok, hset]
      exact ⟨_, h2, hm1.union hm2 hs⟩
  · refine ⟨w, by simp only [largeBlock, if_neg hle], ?_⟩
    refine .refl fun i hi => ?_
    obtain ⟨b1, hb1, -⟩ := hi
    rw [orbit_eq_empty hb (Nat.lt_of_not_le hle)] at hb1
    exact hb1.elim

theorem largeIP_reverses {c : Config} {v : View} {l : Nat} (hs : v.stride ≠ 0) (hl : 2 * c.q ≤ l) :
    Reverses v l (Set.Iio (2 ^ l)) (largeIP c v l) := by
  obtain ⟨m, rfl⟩ : ∃ m, l = m + 2 * c.q := ⟨l - 2 * c.q, by omega⟩
  have hset : {i | ∃ b, b < 2 ^ m ∧ i ∈ tileOrbit c.q m b} = Set.Iio (2 ^ (m + 2 * c.q)) := by
    ext i
    constructor
    · rintro ⟨b, -, b1, hb1, a, d, ha, hd, rfl⟩
      exact tilePos_lt ha hb1.1 hd
    · intro hi
      obtain ⟨b, hb, h⟩ := exists_tilePos hi
      exact ⟨_, (min_le_left b (rev b m)).trans_lt hb, b, ⟨hb, rfl⟩, h⟩
  have hloop : largeIP c v (m + 2 * c.q) = forUp (2 ^ m) (largeBlock c.ty v c.q m) := by
    funext w
    rw [largeIP, Nat.add_sub_cancel]
  rw [← hset, hloop]
  refine Reverses.forUp hs (fun b hb => largeBlock_reverses hs hb) fun j k hjk _ i hi h => ?_
  obtain ⟨b, hb, hi⟩ := hi
  obtain ⟨b1, hb1, hi1⟩ := h
  have hrev := rev_mem_orbit hb
  have hne : rev b m ≠ b1 := fun he => orbit_disjoint hjk.ne hrev (he ▸ hb1)
  exact tile_disjoint hrev.1 hb1.1 hne (rev_mem_tile hb.1 hi) hi1

/-- The regimes in place reach the reversal, whichever `L` selects (R192). -/
theorem regimeIP_reverses {c : Config} {tiny med : Nat} (ht : tiny ≤ 8) {v : View} {l : Nat} (hs : v.stride ≠ 0) :
    Reverses v l (Set.Iio (2 ^ l)) (regimeIP c tiny med v l) := by
  intro w hw
  rw [regimeIP]
  split
  · exact tinyIP_reverses hs (by omega) w hw
  · split
    · exact medIP_reverses ht hs w hw
    · split
      · exact largeIP_reverses hs (by assumption) w hw
      · exact medIP_reverses ht hs w hw

/-! ### Out of place: a source that no write reaches -/

/-- A copy of `2^L` elements is ready: `dst` is a part of the destination `D`, admitted, and the source gives the values `x`
wherever memory is that of the start, `m`, outside `D`; `now` is memory as it stands. -/
structure CopyReady (t : Ty) (D : View) (m : Mem) (src : Option View) (dst : View) (l : Nat) (x : Nat → Elem)
    (now : Mem) : Prop where
  stride : dst.stride ≠ 0
  count : dst.count = 2 ^ l
  inside : ∀ i, i < 2 ^ l → D.Reaches (dst.addr i)
  admitted : ∀ i, i < 2 ^ l → (now.atAddr (dst.addr i)).isSome = true
  same : SameOutside [D] m now
  source : ∀ i, i < 2 ^ l → ∀ w : Work, SameOutside [D] m w.mem → srcGet t src i w = .ok (x i)

theorem SameOutside.of_fills {D dst : View} {m m1 m2 : Mem} {l : Nat} {S : Set Nat} {g : Nat → Option Elem}
    (h : SameOutside [D] m m1) (hD : ∀ i, i < 2 ^ l → D.Reaches (dst.addr i)) (hS : S ⊆ Set.Iio (2 ^ l))
    (hm : Fills dst S g m1 m2) : SameOutside [D] m m2 := fun a ha =>
  (hm.kept a fun i hi he => ha D (by simp) (he ▸ hD i (hS hi))).trans (h a ha)

theorem srcGet_even (t : Ty) (src : Option View) (i : Nat) (w : Work) :
    srcGet t (src.map View.even) i w = srcGet t src (2 * i) w := by
  cases src with
  | none => rfl
  | some v =>
    have : v.even.addr i = v.addr (2 * i) := by
      simp only [View.even, View.addr]
      push_cast
      ring
    simp only [Option.map_some, srcGet, dstRead, this]

theorem srcGet_odd (t : Ty) (src : Option View) (i : Nat) (w : Work) :
    srcGet t (src.map View.odd) i w = srcGet t src (2 * i + 1) w := by
  cases src with
  | none => rfl
  | some v =>
    have : v.odd.addr i = v.addr (2 * i + 1) := by
      simp only [View.odd, View.addr]
      push_cast
      ring
    simp only [Option.map_some, srcGet, dstRead, this]

/-- The two halves of a view. -/
theorem halves_union (l : Nat) :
    (fun i => i) '' Set.Iio (2 ^ l) ∪ (fun i => 2 ^ l + i) '' Set.Iio (2 ^ l) = Set.Iio (2 ^ (l + 1)) := by
  have hpow : 2 ^ (l + 1) = 2 * 2 ^ l := by ring
  ext i
  constructor
  · rintro (⟨j, hj, rfl⟩ | ⟨j, hj, rfl⟩) <;> simp only [Set.mem_Iio] at * <;> omega
  · intro hi
    simp only [Set.mem_Iio] at hi
    by_cases h : i < 2 ^ l
    · exact .inl ⟨i, h, rfl⟩
    · exact .inr ⟨i - 2 ^ l, by simp only [Set.mem_Iio]; omega, by simp only; omega⟩

/-- What fills the two halves of a view fills the view. -/
theorem Fills.halves {v : View} {l : Nat} {g g1 g2 : Nat → Option Elem} {m m1 m2 : Mem} (hs : v.stride ≠ 0)
    (hc : v.count = 2 ^ (l + 1)) (h1 : Fills v.lo (Set.Iio (2 ^ l)) g1 m m1) (h2 : Fills v.hi (Set.Iio (2 ^ l)) g2 m1 m2)
    (hg1 : ∀ i, i < 2 ^ l → g1 i = g i) (hg2 : ∀ i, i < 2 ^ l → g2 i = g (2 ^ l + i)) :
    Fills v (Set.Iio (2 ^ (l + 1))) g m m2 := by
  have hhalf : v.count / 2 = 2 ^ l := by
    rw [hc, pow_succ]
    omega
  rw [← halves_union]
  exact (h1.embed (lo_addr v) hg1).union (h2.embed (fun i => by rw [hi_addr, hhalf]) hg2) hs

/-- Reversed positions of the lower half come from even positions, those of the upper half from odd ones (R194). -/
theorem rev_lower_half {i l : Nat} (hi : i < 2 ^ l) : rev i (l + 1) = 2 * rev i l := by
  rw [rev_add_bits hi 1, pow_one, mul_comm]

theorem rev_upper_half {i l : Nat} (hi : i < 2 ^ l) : rev (2 ^ l + i) (l + 1) = 2 * rev i l + 1 := by
  have h := rev_add_top hi 1
  rwa [mul_one, add_comm i] at h

section copy
variable {t : Ty} {c : Config} {D dst : View} {m : Mem} {src : Option View} {l tiny med : Nat} {x : Nat → Elem} {w : Work}

theorem CopyReady.lower {now : Mem} (h : CopyReady t D m src dst (l + 1) x now) :
    CopyReady t D m (src.map View.even) dst.lo l (fun i => x (2 * i)) now := by
  have hpow : 2 ^ (l + 1) = 2 * 2 ^ l := by ring
  refine ⟨h.stride, by rw [lo_count, h.count]; omega, fun i hi => h.inside i (by omega),
    fun i hi => h.admitted i (by omega), h.same, fun i hi w hw => ?_⟩
  rw [srcGet_even, h.source (2 * i) (by omega) w hw]

theorem CopyReady.upper {now : Mem} (h : CopyReady t D m src dst (l + 1) x now) :
    CopyReady t D m (src.map View.odd) dst.hi l (fun i => x (2 * i + 1)) now := by
  have hpow : 2 ^ (l + 1) = 2 * 2 ^ l := by ring
  have hhalf : dst.count / 2 = 2 ^ l := by rw [h.count]; omega
  refine ⟨h.stride, by rw [hi_count, hhalf], fun i hi => ?_, fun i hi => ?_, h.same, fun i hi w hw => ?_⟩
  · rw [hi_addr, hhalf]
    exact h.inside _ (by omega)
  · rw [hi_addr, hhalf]
    exact h.admitted _ (by omega)
  · rw [srcGet_odd, h.source (2 * i + 1) (by omega) w hw]

/-- What is written inside the destination leaves the copy of another part of it ready. -/
theorem CopyReady.after {dst' : View} {l' : Nat} {S : Set Nat} {g : Nat → Option Elem} {now now' : Mem}
    (h : CopyReady t D m src dst l x now) (hm : Fills dst' S g now now')
    (hD : ∀ i, i < 2 ^ l' → D.Reaches (dst'.addr i)) (hS : S ⊆ Set.Iio (2 ^ l')) :
    CopyReady t D m src dst l x now' :=
  ⟨h.stride, h.count, h.inside, fun i hi => by rw [Mem.admitted_of_keys hm.keys]; exact h.admitted i hi,
    h.same.of_fills hD hS hm, h.source⟩

/-- A loop that copies element `i` of the source to position `p i` fills the positions of `p`. -/
theorem CopyReady.loop (h : CopyReady t D m src dst l x w.mem) {p : Nat → Nat} {g : Nat → Option Elem}
    (hp : ∀ i, i < 2 ^ l → p i < 2 ^ l) (hg : ∀ i, i < 2 ^ l → g (p i) = some (x i)) :
    ∃ m', forUp (2 ^ l) (fun i w => (srcGet t src i w).bind fun x => dstWrite dst (p i) x w) w = .ok { w with mem := m' }
      ∧ Fills dst (p '' Set.Iio (2 ^ l)) g w.mem m' := by
  refine forUp_fills h.stride (fun i hi => h.admitted _ (hp i hi)) hg fun i hi m1 hm1 => ?_
  have hsame : SameOutside [D] m m1 := fun a ha => (hm1 a fun j hj he =>
    ha D (by simp) (he ▸ h.inside _ (hp j hj))).trans (h.same a ha)
  rw [h.source i hi { w with mem := m1 } hsame, bind_ok]

theorem tinyOOP_fills (h : CopyReady c.ty D m src dst l x w.mem) (hl : l ≤ 8) :
    ∃ w', tinyOOP c src dst l w = .ok w' ∧ Fills dst (Set.Iio (2 ^ l)) (fun i => some (x (rev i l))) w.mem w'.mem := by
  have himage : (fun i => revTiny c i l) '' Set.Iio (2 ^ l) = Set.Iio (2 ^ l) := by
    ext i
    constructor
    · rintro ⟨j, hj, rfl⟩
      simp only [revTiny_eq c hl hj]
      exact rev_lt j l
    · exact fun hi => ⟨rev i l, rev_lt i l, by simp only [revTiny_eq c hl (rev_lt i l), rev_rev hi]⟩
  obtain ⟨m', hm, hf⟩ := h.loop (p := fun i => revTiny c i l) (g := fun i => some (x (rev i l)))
    (fun i hi => by simp only [revTiny_eq c hl hi]; exact rev_lt i l)
    (fun i hi => by simp only [revTiny_eq c hl hi, rev_rev hi])
  exact ⟨_, hm, himage ▸ hf⟩

theorem medOOP_fills (ht : tiny ≤ 8) (h : CopyReady c.ty D m src dst l x w.mem) :
    ∃ w', medOOP c tiny l src dst w = .ok w'
      ∧ Fills dst (Set.Iio (2 ^ l)) (fun i => some (x (rev i l))) w.mem w'.mem := by
  induction l generalizing src dst x w with
  | zero => exact tinyOOP_fills h (by omega)
  | succ l ih =>
    rw [medOOP]
    split
    · exact tinyOOP_fills h (by omega)
    · obtain ⟨w1, h1, hm1⟩ := ih h.lower
      obtain ⟨w2, h2, hm2⟩ := ih (h.upper.after hm1 h.lower.inside subset_rfl)
      refine ⟨w2, (bind_of_ok h1 _).trans h2, Fills.halves h.stride h.count hm1 hm2 (fun i hi => ?_) fun i hi => ?_⟩
      · rw [rev_lower_half hi]
      · rw [rev_upper_half hi]

/-- The deinterleaving pass: even elements to the lower half, odd ones to the upper (R197). -/
theorem largeSplit_fills (h : CopyReady t D m src dst (l + 1) x w.mem) :
    ∃ w', largeSplit t src dst (l + 1) w = .ok w'
      ∧ Fills dst (Set.Iio (2 ^ (l + 1))) (fun i => some (dilV l x i)) w.mem w'.mem := by
  have hpow : 2 ^ (l + 1) = 2 * 2 ^ l := by ring
  have hval : ∀ i, i < 2 ^ (l + 1) → dilV l x (i % 2 * 2 ^ l + i / 2) = x i := fun i hi => by
    rcases Nat.mod_two_eq_zero_or_one i with h2 | h2
    · rw [dilV, h2, if_pos (by omega)]
      congr 1
      omega
    · rw [dilV, h2, if_neg (by omega)]
      congr 1
      omega
  have himage : (fun i => i % 2 * 2 ^ l + i / 2) '' Set.Iio (2 ^ (l + 1)) = Set.Iio (2 ^ (l + 1)) := by
    ext i
    simp only [Set.mem_image, Set.mem_Iio]
    constructor
    · rintro ⟨j, hj, rfl⟩
      rcases Nat.mod_two_eq_zero_or_one j with h2 | h2 <;> rw [h2] <;> omega
    · intro hi
      by_cases hlow : i < 2 ^ l
      · exact ⟨2 * i, by omega, by rw [Nat.mul_mod_right]; omega⟩
      · exact ⟨2 * (i - 2 ^ l) + 1, by omega, by rw [Nat.mul_add_mod, Nat.mod_succ]; omega⟩
  obtain ⟨m', hm, hf⟩ := h.loop (p := fun i => i % 2 * 2 ^ l + i / 2) (g := fun i => some (dilV l x i))
    (fun i hi => himage.subset ⟨i, hi, rfl⟩) fun i hi => congrArg some (hval i hi)
  exact ⟨_, hm, himage ▸ hf⟩

theorem regimeOOP_fills (ht : tiny ≤ 8) (h : CopyReady c.ty D m src dst l x w.mem) :
    ∃ w', regimeOOP c tiny med src dst l w = .ok w'
      ∧ Fills dst (Set.Iio (2 ^ l)) (fun i => some (x (rev i l))) w.mem w'.mem := by
  rw [regimeOOP]
  split
  · exact tinyOOP_fills h (by omega)
  · split
    · exact medOOP_fills ht h
    · obtain ⟨k, rfl⟩ : ∃ k, l = k + 1 := ⟨l - 1, by omega⟩
      have hpow : 2 ^ (k + 1) = 2 * 2 ^ k := by ring
      have hhalf : dst.count / 2 = 2 ^ k := by rw [h.count]; omega
      obtain ⟨w1, h1, hm1⟩ := largeSplit_fills h
      have hready := h.after hm1 h.inside subset_rfl
      obtain ⟨w2, h2, hm2⟩ := regimeIP_reverses (c := c) (med := med) ht (v := dst.lo) (l := k) h.stride w1
        hready.lower.admitted
      obtain ⟨w3, h3, hm3⟩ := regimeIP_reverses (c := c) (med := med) ht (v := dst.hi) (l := k) h.stride w2
        (hready.upper.after hm2 h.lower.inside subset_rfl).admitted
      refine ⟨w3, by rw [h1, bind_ok, Nat.add_sub_cancel, h2, bind_ok, h3],
        hm1.overwrite (Fills.halves h.stride h.count hm2 hm3 (fun i hi => ?_) fun i hi => ?_)⟩
      · have hr := rev_lt i k
        rw [lo_addr, hm1.values _ (by simp only [Set.mem_Iio]; omega), dilV, if_pos hr, rev_lower_half hi]
      · have hr := rev_lt i k
        rw [hi_addr, hhalf, hm2.kept _ fun j hj he => ?_, hm1.values _ (by simp only [Set.mem_Iio]; omega), dilV,
          if_neg (by omega), rev_upper_half hi, Nat.add_sub_cancel_left]
        have := View.addr_inj h.stride he
        simp only [Set.mem_Iio] at hj
        omega

end copy

/-! ### The statements -/

/-- Address 0 is no element address, so an admitted view is not null (R80). -/
theorem View.Admitted.base_ne_zero {m : Mem} {v : View} (h : v.Admitted m) (hc : 0 < v.count) : v.base ≠ 0 := by
  intro hb
  obtain ⟨x, hx⟩ := Option.isSome_iff_exists.1 (h 0 hc)
  have := Mem.atAddr_pos hx
  simp [View.addr, hb] at this

/-- The access procedures end and fill the destination as R190 says, for every `L` (R198). -/
theorem bitRevByRegime_fills (c : Config) {src dst : View} {l : Nat} {w : Work} (hs : dst.stride ≠ 0)
    (hsc : src.count = 2 ^ l) (hdc : dst.count = 2 ^ l) (hap : src = dst ∨ src.isNull = true ∨ src.Apart dst)
    (hsrc : src.Readable w.mem) (hdst : dst.Admitted w.mem) : ∃ w', bitRevByRegime c src dst l w = .ok w'
      ∧ Fills dst (Set.Iio (2 ^ l)) (fun i => some (srcValue c.ty w.mem src (rev i l))) w.mem w'.mem := by
  have hadm : ∀ i, i < 2 ^ l → (w.mem.atAddr (dst.addr i)).isSome = true := fun i hi => hdst i (hdc ▸ hi)
  rw [bitRevByRegime]
  have hval : ∀ i, i < 2 ^ l → src.isNull = false → w.mem.atAddr (src.addr i) = some (srcValue c.ty w.mem src i) :=
    fun i hi hn => by
      have hread := srcRead_readable (t := c.ty) hsrc (hsc ▸ hi)
      rw [srcRead, hn] at hread
      exact memRead_eq_ok.1 hread
  by_cases heq : src = dst
  · subst heq
    have hnull : src.isNull = false := View.isNull_false (hdst.base_ne_zero (by rw [hdc]; positivity))
    obtain ⟨w', h', hm⟩ := regimeIP_reverses (c := c) (med := medLog) (by decide : tinyLog ≤ 8) hs w hadm
    exact ⟨w', by rw [if_pos rfl, h'], hm.congr fun i _ => hval _ (rev_lt i l) hnull⟩
  · rw [if_neg heq]
    refine regimeOOP_fills (D := dst) (m := w.mem) (by decide) ⟨hs, hdc, fun i hi => ⟨i, hdc ▸ hi, rfl⟩, hadm,
      fun _ _ => rfl, fun i hi w' hw' => ?_⟩
    by_cases hnull : src.isNull = true
    · simp only [if_pos hnull, srcGet, srcValue]
    · have hapart : src.Apart dst := (hap.resolve_left heq).resolve_left hnull
      have hout : w'.mem.atAddr (src.addr i) = w.mem.atAddr (src.addr i) := hw' _ fun v hv => by
        obtain rfl := List.mem_singleton.1 hv
        rintro ⟨j, hj, he⟩
        exact hapart i j (hsc ▸ hi) hj he.symm
      rw [if_neg hnull]
      exact memRead_eq_ok.2 (hout.trans (hval i hi (Bool.not_eq_true _ ▸ hnull)))

/-- Below and above 16 bits alike, the access procedure and the bit reversal leave the same memory (R198). -/
theorem regimes_reach_bitRev (c : Config) {src dst : View} {l : Nat} {w : Work} (hs : dst.stride ≠ 0)
    (hsc : src.count = 2 ^ l) (hdc : dst.count = 2 ^ l) (hap : src = dst ∨ src.isNull = true ∨ src.Apart dst)
    (hsrc : src.Readable w.mem) (hdst : dst.Admitted w.mem) (hwf : w.mem.wf = true) :
    ∃ w1 w2, bitRevByRegime c src dst l w = .ok w1 ∧ bitRev c.ty src dst l w = .ok w2 ∧ w1.mem = w2.mem := by
  obtain ⟨w1, h1, hm1⟩ := bitRevByRegime_fills c hs hsc hdc hap hsrc hdst
  obtain ⟨m2, h2, hm2⟩ := bitRev_fills (t := c.ty) hs hsc hdc hsrc hdst
  exact ⟨w1, _, h1, h2, hm1.unique hwf hm2⟩

/-- Settles O40, by `regimes_reach_bitRev`. -/
theorem smallRegimesReachTheReversal : Obligations.SmallRegimesReachTheReversal :=
  fun c _ _ _ _ _ hsc hdc hs hap hsrc hdst hwf => regimes_reach_bitRev c hs hsc hdc hap hsrc hdst hwf

/-- Settles O41, by `regimes_reach_bitRev`: the bound on the tiles that a valid build gives is not needed. -/
theorem largeRegimesReachTheReversal : Obligations.LargeRegimesReachTheReversal :=
  fun c _ _ _ _ _ _ hsc hdc hs hap hsrc hdst hwf => regimes_reach_bitRev c hs hsc hdc hap hsrc hdst hwf

end Sys2Proof.Machine

/-! SUPPORT. Proofs of the scope's statements: the butterfly commands and the final scaling (R220–R232, R240–R244). On a
ready pair an engine that ends is the command (`PairReady.completes`); a pass, and the radix-8 kernel, neither probe nor
draw (`DrawsNothing`). -/

namespace Sys2Proof.Machine

/-! ### Operations that neither probe nor draw -/

/-- `FEAT_CACHE` and the launch's draws are as they were. -/
def Work.SameDraws (w w' : Work) : Prop := w'.featCache = w.featCache ∧ w'.allocs = w.allocs ∧ w'.tick = w.tick

/-- Where the operation ends, it neither probed nor drew anything. -/
def DrawsNothing (op : Work → Except Fault Work) : Prop := ∀ w w', op w = .ok w' → w.SameDraws w'

theorem Work.SameDraws.trans {w1 w2 w3 : Work} (h : w1.SameDraws w2) (h' : w2.SameDraws w3) : w1.SameDraws w3 := by
  obtain ⟨hcache, hallocs, htick⟩ := h
  obtain ⟨hcache', hallocs', htick'⟩ := h'
  exact ⟨hcache'.trans hcache, hallocs'.trans hallocs, htick'.trans htick⟩

theorem DrawsNothing.bind {op op' : Work → Except Fault Work} (h : DrawsNothing op) (h' : DrawsNothing op') :
    DrawsNothing (fun w => (op w).bind op') := fun w w' hw => by
  obtain ⟨w1, h1, h2⟩ := bind_eq_ok.1 hw
  exact (h w w1 h1).trans (h' w1 w' h2)

theorem DrawsNothing.forUp {n : Nat} {f : Nat → Work → Except Fault Work} (h : ∀ k, DrawsNothing (f k)) :
    DrawsNothing (forUp n f) := by
  induction n with
  | zero => intro w w' hw; cases hw; exact ⟨rfl, rfl, rfl⟩
  | succ n ih => exact ih.bind (h n)

theorem dstWrite_drawsNothing (v : View) (i : Nat) (x : Elem) : DrawsNothing (dstWrite v i x) := fun w w' h => by
  obtain ⟨m, -, rfl⟩ := memWrite_eq_ok.1 h
  exact ⟨rfl, rfl, rfl⟩

theorem cxWrite_drawsNothing (vr vi : View) (k : Nat) (z : Cx) : DrawsNothing (cxWrite vr vi k z) :=
  (dstWrite_drawsNothing vr k z.re).bind (dstWrite_drawsNothing vi k z.im)

theorem storeCx_drawsNothing (vr vi : View) (zs : List Cx) (k : Nat) : DrawsNothing (storeCx vr vi zs k) := by
  induction zs generalizing k with
  | nil => intro w w' h; cases h; exact ⟨rfl, rfl, rfl⟩
  | cons z zs ih => exact (cxWrite_drawsNothing vr vi k z).bind (ih (k + 1))

theorem bf_drawsNothing (t : Ty) (vr vi : View) (lo hi : Nat) (tw : Cx) : DrawsNothing (bf t vr vi lo hi tw) :=
  fun w w' h => by
    obtain ⟨x, -, h⟩ := bind_eq_ok.1 h
    obtain ⟨y, -, h⟩ := bind_eq_ok.1 h
    exact (cxWrite_drawsNothing vr vi lo _).bind (cxWrite_drawsNothing vr vi hi _) w w' h

theorem passFlat_drawsNothing (c : Config) (vr vi : View) (lt d : Nat) (σ : Dir) :
    DrawsNothing (passFlat c vr vi lt d σ) := fun w =>
  (DrawsNothing.forUp fun _ => .forUp fun _ w => bf_drawsNothing _ _ _ _ _ _ w) (w.setTwb _)

theorem blockChunk_drawsNothing (c : Config) (vr vi : View) (d b q : Nat) : DrawsNothing (blockChunk c vr vi d b q) :=
  (DrawsNothing.forUp fun _ w => bf_drawsNothing _ _ _ _ _ _ w).bind fun w w' h => by cases h; exact ⟨rfl, rfl, rfl⟩

theorem passBlock_drawsNothing (c : Config) (vr vi : View) (lt d : Nat) (σ : Dir) :
    DrawsNothing (passBlock c vr vi lt d σ) := fun w =>
  (DrawsNothing.forUp fun b w => (DrawsNothing.forUp fun q => blockChunk_drawsNothing c vr vi d b q) (w.setMul _))
    ((w.setTwb _).setStp _)

theorem pass_drawsNothing (c : Config) (vr vi : View) (lt d : Nat) (σ : Dir) : DrawsNothing (pass c vr vi lt d σ) :=
  fun w w' h => by
    rw [pass] at h
    split at h
    · exact passFlat_drawsNothing c vr vi lt d σ w w' h
    · exact passBlock_drawsNothing c vr vi lt d σ w w' h

theorem r8Kernel_drawsNothing (t : Ty) (vr vi : View) (lt : Nat) (σ : Dir) : DrawsNothing (r8Kernel t vr vi lt σ) :=
  .forUp fun _ w w' h =>
    let ⟨zs, _, h⟩ := r8Group_stores h
    storeCx_drawsNothing vr vi zs _ w w' h

/-! ### Completing on a ready pair -/

/-- A command without result registers that succeeds with this work. -/
def State.succeed (s : State) (w : Work) : State := s.finish { code := .ok, work := w, result := none, res := none }

/-- Work that moved the elements of a pair only makes a command that wrote that pair only (R86). -/
theorem succeed_wrote {s : State} {vr vi : View} {n : Nat} {w : Work} (hr : vr.count = n) (hi : vi.count = n)
    (h : Moved s.cfg (Touch vr vi n) s.work w) : State.Wrote s (s.succeed w) [vr, vi] := by
  refine ⟨rfl, fun a ha => h.outside a ?_, Mem.admitted_of_keys h.keys⟩
  rintro ⟨i, hlt, he | he⟩
  · exact ha vr (by simp) ⟨i, by omega, he⟩
  · exact ha vi (by simp) ⟨i, by omega, he⟩

theorem PairReady.holds {m : Mem} {vr vi : View} {n : Nat} (h : PairReady m vr vi) (hr : vr.count = n)
    (hi : vi.count = n) : Holds m vr vi n (streamOf m vr vi) :=
  .of_admitted (fun i hlt => h.hereRe i (by omega)) (fun i hlt => h.hereIm i (by omega))

/-- What memory holds at one position of a pair. -/
theorem Holds.at_eq {m : Mem} {vr vi : View} {n i : Nat} {g : Stream} {z : Cx} (h : Holds m vr vi n g) (hi : i < n)
    (hz : g i = z) : m.atAddr (vr.addr i) = some z.re ∧ m.atAddr (vi.addr i) = some z.im := by
  subst hz
  exact ⟨h.1 i hi, h.2 i hi⟩

/-- An in-place engine that turns the streams of a ready pair, by `F` where `isExact` holds, and moves nothing else, is
what its command does: the command succeeds with the engine's work. -/
theorem PairReady.completes {s : State} {l : Nat} {bad : Bool} {dre dim sre sim : Word64} {vr vi : View}
    {engine : View → View → Work → Except Fault Work} {F : Stream → Stream} {isExact : Prop}
    (hp : PairReady s.mem vr vi) (hpair : s.me.hasPair dre dim sre sim) (hr : vr = viewOf dre sre (2 ^ l))
    (hi : vi = viewOf dim sim (2 ^ l)) (hbad : bad = false)
    (hmove : Only s.cfg (Touch vr vi (2 ^ l)) (engine vr vi))
    (hturn : ∀ f, Holds s.mem vr vi (2 ^ l) f →
      ∃ w' g, engine vr vi s.work = .ok w' ∧ Holds w'.mem vr vi (2 ^ l) g ∧ (isExact → g = F f)) :
    ∃ w', engine vr vi s.work = .ok w' ∧ s.complete (runInPlace s.me s.work l bad engine) = .next (s.succeed w')
      ∧ State.Wrote s (s.succeed w') [vr, vi]
      ∧ (isExact → ∀ f, Holds s.mem vr vi (2 ^ l) f → Holds w'.mem vr vi (2 ^ l) (F f)) := by
  subst hr hi
  obtain ⟨w', -, hw, -, -⟩ := hturn _ (hp.holds rfl rfl)
  refine ⟨w', hw, ?_, succeed_wrote rfl rfl (hmove _ _ hw), fun he f hf => ?_⟩
  · rw [runInPlace_ready hpair hbad hp hw]
    rfl
  · obtain ⟨w'', g, hw'', hg, heq⟩ := hturn f hf
    obtain rfl := Except.ok.inj (hw.symm.trans hw'')
    rw [← heq he]
    exact hg

/-! ### The command `PASS` -/

theorem Config.one_le_lbuf {c : Config} (h : c.valid = true) : 1 ≤ c.lbuf := by
  simp only [Config.valid, Bool.and_eq_true, decide_eq_true_eq] at h
  omega

/-- The lower element of a pair takes the sum (R220). -/
theorem passV_low {c : Config} {d : Nat} {σ : Dir} {f : Stream} {b k : Nat} (hk : k < 2 ^ (d - 1)) :
    passV c d σ f (b * 2 ^ d + k) = cadd c.ty (f (b * 2 ^ d + k))
      (cmul c.ty (f (b * 2 ^ d + k + 2 ^ (d - 1))) (passTwiddle c d σ k)) := by
  have hpow : 2 ^ (d - 1) ≤ 2 ^ d := Nat.pow_le_pow_right Nat.two_pos (Nat.sub_le d 1)
  simp only [passV, (block_div (b := b) (hk.trans_le hpow)).2, if_pos hk]

/-- The upper element of a pair takes the difference (R220). -/
theorem passV_high {c : Config} {d : Nat} {σ : Dir} {f : Stream} {b k : Nat} (h1 : 1 ≤ d) (hk : k < 2 ^ (d - 1)) :
    passV c d σ f (b * 2 ^ d + k + 2 ^ (d - 1)) = csub c.ty (f (b * 2 ^ d + k))
      (cmul c.ty (f (b * 2 ^ d + k + 2 ^ (d - 1))) (passTwiddle c d σ k)) := by
  have hpow : 2 ^ d = 2 * 2 ^ (d - 1) := by rw [← pow_succ', Nat.sub_add_cancel h1]
  have hpos := (block_div (b := b) (show k + 2 ^ (d - 1) < 2 ^ d by omega)).2
  rw [← Nat.add_assoc] at hpos
  simp only [passV, hpos, if_neg (Nat.not_lt.2 (Nat.le_add_left (2 ^ (d - 1)) k)), Nat.add_sub_cancel]

/-- Settles O42: the pass leaves `passV` (`pass_holds`), which on the two elements of a pair is `passV_low` and
`passV_high`. -/
theorem passAppliesItsButterflies : Obligations.PassAppliesItsButterflies := by
  intro dir d l s dre dim sre sim hpair hvalid h1 hd hl hp
  have hrange : passBad d l = false := passBad_eq_false.2 (by omega)
  obtain ⟨w', hw, hnext, hwrote, hvals⟩ := hp.completes (isExact := True)
    (engine := fun vr vi => pass s.cfg vr vi l d dir) (F := passV s.cfg d dir) hpair rfl rfl hrange
    (pass_only dir h1 hd) fun f hf =>
      let ⟨w', hw, hh⟩ := pass_holds (hp.pair rfl rfl) hf (Config.one_le_lbuf hvalid) h1 hd
      ⟨w', _, hw, hh, fun _ => rfl⟩
  refine ⟨s.succeed w', hnext, hwrote, pass_drawsNothing _ _ _ _ _ _ _ _ hw, fun f hf b k hb hk => ?_⟩
  have hpow : 2 ^ d = 2 * 2 ^ (d - 1) := by rw [← pow_succ', Nat.sub_add_cancel h1]
  have hhi : b * 2 ^ d + k + 2 ^ (d - 1) < 2 ^ l := by
    rw [Nat.add_assoc]
    exact block_lt hd hb (by omega)
  have hlo : b * 2 ^ d + k < 2 ^ l := by omega
  obtain ⟨hreLo, himLo⟩ := (hvals trivial f hf).at_eq hlo (passV_low hk)
  obtain ⟨hreHi, himHi⟩ := (hvals trivial f hf).at_eq hhi (passV_high h1 hk)
  exact ⟨hreLo, himLo, hreHi, himHi⟩

/-! ### The command `R8` -/

/-- Position `p` of a group takes entry `p` of the kernel's results (R228). -/
theorem r8V_of_getElem? {t : Ty} {σ : Dir} {f : Stream} {g p : Nat} {z : Cx}
    (h : (r8Values t σ (f (8 * g)) (f (8 * g + 1)) (f (8 * g + 2)) (f (8 * g + 3)) (f (8 * g + 4)) (f (8 * g + 5))
      (f (8 * g + 6)) (f (8 * g + 7)))[p]? = some z) : p < 8 ∧ r8V t σ f (8 * g + p) = z := by
  have hp : p < 8 := by
    rw [← r8Values_length]
    exact (List.getElem?_eq_some_iff.1 h).1
  have hdiv : (8 * g + p) / 8 = g := by omega
  have hmod : (8 * g + p) % 8 = p := by omega
  refine ⟨hp, ?_⟩
  simp only [r8V, hdiv, hmod, List.getD_eq_getElem?_getD, h, Option.getD_some]

/-- Settles O43: the kernel leaves `r8V`, and the values written out in the statement are those of `r8Values`. -/
theorem r8AppliesTheKernel : Obligations.R8AppliesTheKernel := by
  intro dir l s dre dim sre sim hpair h3 hl hp
  have hrange : (decide (l < r8Min) || decide (log2nMax < l)) = false := by
    simp only [Bool.or_eq_false_iff, decide_eq_false_iff_not, r8Min, log2nMax]
    omega
  obtain ⟨w', hw, hnext, hwrote, hvals⟩ := hp.completes (isExact := True)
    (engine := fun vr vi => r8Kernel s.cfg.ty vr vi l dir) (F := r8V s.cfg.ty dir) hpair rfl rfl hrange
    (r8Kernel_only l dir) fun f hf =>
      let ⟨w', hw, hh⟩ := r8Kernel_holds (hp.pair rfl rfl) hf h3
      ⟨w', _, hw, hh, fun _ => rfl⟩
  refine ⟨s.succeed w', hnext, hwrote, r8Kernel_drawsNothing _ _ _ _ _ _ _ hw, fun f hf g hg => ?_⟩
  intro ty plus minus turn a u v c t1 t2 t3 y p z hz
  have hkernel : y = r8Values ty dir (f (8 * g)) (f (8 * g + 1)) (f (8 * g + 2)) (f (8 * g + 3)) (f (8 * g + 4))
      (f (8 * g + 5)) (f (8 * g + 6)) (f (8 * g + 7)) := by
    cases dir <;> rfl
  obtain ⟨hp8, rfl⟩ := r8V_of_getElem? (hkernel ▸ hz)
  exact ⟨rfl, (hvals trivial f hf).at_eq (by omega) rfl⟩

/-! ### The commands `MPS` and `BFY` -/

/-- A command whose engine turns the streams of a ready pair, up to the vector kernels' freedom (R267). -/
theorem Turns.completes {s : State} {l : Nat} {bad : Bool} {dre dim sre sim : Word64} {vr vi : View}
    {engine : View → View → Work → Except Fault Work} {F : Stream → Stream}
    (hturn : Turns s.cfg vr vi (2 ^ l) (engine vr vi) F) (hmove : Only s.cfg (Touch vr vi (2 ^ l)) (engine vr vi))
    (hp : PairReady s.mem vr vi) (hpair : s.me.hasPair dre dim sre sim) (hr : vr = viewOf dre sre (2 ^ l))
    (hi : vi = viewOf dim sim (2 ^ l)) (hbad : bad = false) :
    ∃ t, s.complete (runInPlace s.me s.work l bad engine) = .next t ∧ State.Wrote s t [vr, vi] ∧ t.allocs = s.allocs
      ∧ cacheStep s.cfg s.featCache t.featCache
      ∧ (s.cfg.simdValues = .exact → ∀ f, Holds s.mem vr vi (2 ^ l) f → Holds t.mem vr vi (2 ^ l) (F f)) := by
  obtain ⟨w', hw, hnext, hwrote, hvals⟩ := hp.completes hpair hr hi hbad hmove (hturn s.work)
  have hmoved := hmove _ _ hw
  exact ⟨s.succeed w', hnext, hwrote, hmoved.allocs, hmoved.cache, hvals⟩

/-- Settles O44: the multipass turns the streams by `multipassV` (`multipass_turns`). -/
theorem mpsRunsTheMultipass : Obligations.MpsRunsTheMultipass := by
  intro dir pol l depth s dre dim sre sim hpair hvalid hd hl hp
  exact Turns.completes (engine := fun vr vi => multipass s.cfg vr vi l depth dir pol)
    (multipass_turns dir pol (hp.pair rfl rfl) (Config.one_le_lbuf hvalid) hd) (multipass_only dir pol hd) hp hpair
    rfl rfl (multipassBad_eq_false.2 (by omega))

/-- Settles O45: split or not, the schedule turns the streams by the whole multipass (`dbcF_turns`). -/
theorem bfyRunsTheSchedule : Obligations.BfyRunsTheSchedule := by
  intro dir pol l s dre dim sre sim hpair hvalid hl hp
  exact Turns.completes (engine := fun vr vi => dbcF s.cfg dir pol l vr vi)
    (dbcF_turns dir pol (hp.pair rfl rfl) (Config.one_le_lbuf hvalid) rfl rfl) (dbcF_only dir pol rfl rfl) hp hpair
    rfl rfl (decide_eq_false (Nat.not_lt.2 hl))

/-! ### The command `SCL` -/

/-- With a ready pair and a count in range, `SCL` is the final scaling (R244). -/
theorem runScl_ready {c : Config} {me : Context} {w w' : Work} {n : Word64} {scale : Elem} {dre dim sre sim : Word64}
    (hn : me.argN = some n) (hscale : me.argScale = some scale) (hpair : me.hasPair dre dim sre sim) (h0 : n ≠ 0)
    (hle : n.toNat ≤ 2 ^ 31) (hp : PairReady w.mem (viewOf dre sre n.toNat) (viewOf dim sim n.toNat))
    (hw : scaleViews c.ty (viewOf dre sre n.toNat) (viewOf dim sim n.toNat) n.toNat scale w = .ok w') :
    runScl c me w = doneOk w' := by
  obtain ⟨hdst, hover⟩ := hp.checks
  have hpos : n.toNat ≠ 0 := Nat.pos_iff_ne_zero.1 (BitVec.toNat_pos_of_ne_zero h0)
  have hrange : decide (2 ^ log2nMax < n.toNat) = false := decide_eq_false (Nat.not_lt.2 hle)
  rw [runScl, bind_of_ok (arg_eq_ok.2 hn), bind_of_ok (arg_eq_ok.2 hscale),
    bind_of_ok (dstPair_eq_ok.2 ⟨dre, dim, sre, sim, hpair, rfl⟩)]
  simp only [if_neg hpos, (invalidIf_eq_ok (u := ())).2 hrange, hdst, hover, hw, bind_ok, liftWork]

/-- Settles O46: the final scaling leaves `scaleV`, and makes no access for `ONE` (R232). -/
theorem sclScalesEveryElement : Obligations.SclScalesEveryElement := by
  intro s n scale dre dim sre sim hn hscale hpair h0 hle hp
  have hscaled := fun f => scaleViews_holds (t := s.cfg.ty) (w := s.work) (f := f)
    (hp.pair (n := n.toNat) rfl rfl) scale
  obtain ⟨m, hm, -⟩ := hscaled _ (hp.holds rfl rfl)
  refine ⟨s.succeed { s.work with mem := m }, ?_, succeed_wrote rfl rfl (scaleViews_only scale _ _ hm), ⟨rfl, rfl, rfl⟩,
    fun hone => ?_, fun hone f hf => ?_⟩
  · exact congrArg s.complete (runScl_ready hn hscale hpair h0 hle hp hm)
  · rw [scaleViews, if_pos hone] at hm
    exact (congrArg Work.mem (Except.ok.inj hm)).symm
  · obtain ⟨m', hm', hvals⟩ := hscaled f hf
    obtain rfl : m = m' := congrArg Work.mem (Except.ok.inj (hm.symm.trans hm'))
    exact hvals.congr fun i _ => if_neg (by simp [hone])

end Sys2Proof.Machine

/-! SUPPORT. Proofs of the scope's statements: the SIMD multiplexer's probe, masks and pass counts (R260–R278), and that
the policy never changes a transform (R267, R389). -/

namespace Sys2Proof.Machine

/-! ### The probe -/

/-- Settles O47: the three cases of a probe are `probe_filled`, `probe_empty` and `probe_uncached`. -/
theorem prbReportsTheMask : Obligations.PrbReportsTheMask := by
  intro s
  refine ⟨_, rfl, rfl, fun hen hfull => ?_, fun hen hempty => ?_, fun hoff => ?_⟩
  · exact ⟨congrArg (fun r => r.1.setWidth 64) (probe_filled hen hfull), congrArg Prod.snd (probe_filled hen hfull)⟩
  · have hprobe : probe s.cfg s.featCache = (freshMask s.cfg, (freshMask s.cfg).setWidth 32) := by
      rw [hempty, probe_empty hen]
    exact ⟨congrArg (fun r => r.1.setWidth 64) hprobe, congrArg Prod.snd hprobe⟩
  · exact ⟨congrArg (fun r => r.1.setWidth 64) (probe_uncached hoff s.featCache),
      congrArg Prod.snd (probe_uncached hoff s.featCache)⟩

/-! ### The computed mask, bit by bit -/

/-- A toggle that is off leaves the bits of `k` only. -/
theorem getLsbD_capped (on : Bool) (m k : Mask) (i : Nat) :
    (if on then m else m &&& k).getLsbD i = ((on || k.getLsbD i) && m.getLsbD i) := by
  cases on with
  | true => rfl
  | false => exact (BitVec.getLsbD_and ..).trans (Bool.and_comm ..)

/-- The widths left without AVX, which are those of `neon` (R262, R264). -/
theorem getLsbD_baseWidths (v : Width) : (0x09#6).getLsbD (Width.bit v) = (v == .f4 || v == .d2) := by
  cases v <;> rfl

/-- The widths left without AVX-512 (R264). -/
theorem getLsbD_belowAvx512 (v : Width) : (0x1B#6).getLsbD (Width.bit v) = !(v == .f16 || v == .d8) := by
  cases v <;> rfl

theorem getLsbD_freshMask (c : Config) (v : Width) :
    (freshMask c).getLsbD (Width.bit v) = (c.potSimdEn && (c.avxEn || v == .f4 || v == .d2)
      && (c.avx512En || !(v == .f16 || v == .d8))
      && (match c.probeHook with
        | some h => h.getLsbD (Width.bit v)
        | none => (archMask c).getLsbD (Width.bit v))) := by
  cases hen : c.potSimdEn with
  | false => simp [freshMask, hen]
  | true =>
    simp only [freshMask, hen, if_true, getLsbD_capped, getLsbD_baseWidths, getLsbD_belowAvx512]
    cases c.probeHook <;> simp only [Bool.true_and, Bool.and_assoc, Bool.and_left_comm, Bool.or_assoc]

/-- A word has all the bits of `k`. -/
theorem and_eq_iff_getLsbD {n : Nat} {x k : BitVec n} :
    x &&& k = k ↔ ∀ i, i < n → k.getLsbD i = true → x.getLsbD i = true := by
  constructor
  · intro h i _ hk
    rw [← h, BitVec.getLsbD_and, Bool.and_eq_true] at hk
    exact hk.1
  · refine fun h => BitVec.eq_of_getLsbD_eq fun i hi => ?_
    rw [BitVec.getLsbD_and]
    cases hk : k.getLsbD i with
    | true => rw [h i hi hk]; rfl
    | false => exact Bool.and_false _

/-- The operating system saves the SSE and AVX registers (R263). -/
theorem xcr0_saves_avx {x : Word64} : x &&& 0x6#64 = 0x6#64 ↔ (x.getLsbD 1 && x.getLsbD 2) = true := by
  have hbits : ∀ i < 64, (0x6#64).getLsbD i = true → i = 1 ∨ i = 2 := by decide
  rw [and_eq_iff_getLsbD, Bool.and_eq_true]
  refine ⟨fun h => ⟨h 1 (by decide) rfl, h 2 (by decide) rfl⟩, fun ⟨h1, h2⟩ i hi hk => ?_⟩
  rcases hbits i hi hk with rfl | rfl
  exacts [h1, h2]

/-- The operating system saves the AVX-512 registers besides (R263). -/
theorem xcr0_saves_avx512 {x : Word64} : x &&& 0xE6#64 = 0xE6#64 ↔
    ((x.getLsbD 1 && x.getLsbD 2) && (x.getLsbD 5 && x.getLsbD 6 && x.getLsbD 7)) = true := by
  have hbits : ∀ i < 64, (0xE6#64).getLsbD i = true → i = 1 ∨ i = 2 ∨ i = 5 ∨ i = 6 ∨ i = 7 := by decide
  rw [and_eq_iff_getLsbD]
  simp only [Bool.and_eq_true, and_assoc]
  refine ⟨fun h => ⟨h 1 (by decide) rfl, h 2 (by decide) rfl, h 5 (by decide) rfl, h 6 (by decide) rfl,
    h 7 (by decide) rfl⟩, fun ⟨h1, h2, h5, h6, h7⟩ i hi hk => ?_⟩
  rcases hbits i hi hk with rfl | rfl | rfl | rfl | rfl
  exacts [h1, h2, h5, h6, h7]

/-- The CPU reports SSE2 (R263). -/
def cpuHasSse (h : HostCpu) : Bool := decide (1 ≤ h.leaf0.eax.toNat) && h.leaf1.edx.getLsbD 26

/-- The CPU reports AVX, and the operating system its state (R263). -/
def cpuHasAvx (h : HostCpu) : Bool :=
  decide (1 ≤ h.leaf0.eax.toNat) && (h.leaf1.ecx.getLsbD 27 && h.leaf1.ecx.getLsbD 28)
    && (h.xcr0.getLsbD 1 && h.xcr0.getLsbD 2)

/-- The CPU reports AVX-512F besides, and the operating system its state (R263). -/
def cpuHasAvx512 (h : HostCpu) : Bool :=
  cpuHasAvx h && (decide (7 ≤ h.leaf0.eax.toNat) && h.leaf7.ebx.getLsbD 16
    && (h.xcr0.getLsbD 5 && h.xcr0.getLsbD 6 && h.xcr0.getLsbD 7))

/-- `ProbeX86()` puts together what the three levels add (R263). -/
theorem probeX86_eq (h : HostCpu) : probeX86 h = (if cpuHasSse h then 0x09#6 else 0#6)
    ||| (if cpuHasAvx h then 0x12#6 else 0#6) ||| (if cpuHasAvx512 h then 0x24#6 else 0#6) := by
  simp only [probeX86, HostCpu.cpuid, cpuHasAvx512, cpuHasAvx, cpuHasSse, xcr0_saves_avx, xcr0_saves_avx512]
  by_cases hmax : 1 ≤ h.leaf0.eax.toNat
  · simp only [hmax, decide_true, Bool.true_and, if_true]
    cases h.leaf1.ecx.getLsbD 27 && h.leaf1.ecx.getLsbD 28 with
    | false => simp only [Bool.false_and, Bool.false_eq_true, if_false, BitVec.or_zero]
    | true =>
      cases h.xcr0.getLsbD 1 && h.xcr0.getLsbD 2 with
      | false => simp only [Bool.true_and, Bool.false_and, Bool.false_eq_true, if_true, if_false, BitVec.or_zero]
      | true =>
        simp only [Bool.true_and, if_true, Bool.and_eq_true, decide_eq_true_eq, and_assoc]
        split_ifs
        exacts [rfl, BitVec.or_zero.symm, rfl, BitVec.or_zero.symm]
  · simp only [hmax, decide_false, Bool.false_and, Bool.false_eq_true, if_false, BitVec.or_zero]

/-- The CPU reports a width: SSE2 the narrow ones, AVX and AVX-512F twice and four times as wide (R263). -/
def cpuReports (h : HostCpu) : Width → Bool
  | .f4 | .d2 => cpuHasSse h
  | .f8 | .d4 => cpuHasAvx h
  | .f16 | .d8 => cpuHasAvx512 h

/-- A level the CPU reports adds its bits. -/
theorem getLsbD_added (has : Bool) (m : Mask) (i : Nat) :
    (if has then m else 0#6).getLsbD i = (has && m.getLsbD i) := by
  cases has with
  | true => rfl
  | false => exact BitVec.getLsbD_zero

theorem getLsbD_probeX86 (h : HostCpu) (v : Width) : (probeX86 h).getLsbD (Width.bit v) = cpuReports h v := by
  rw [probeX86_eq, BitVec.getLsbD_or, BitVec.getLsbD_or, getLsbD_added, getLsbD_added, getLsbD_added]
  cases v <;> simp [Width.bit, cpuReports]

/-- Settles O48: the toggles and the hook bit by bit are `getLsbD_freshMask`, the architectures' bits
`getLsbD_baseWidths` and `getLsbD_probeX86`. -/
theorem probedMaskFollowsBuildAndCpu : Obligations.ProbedMaskFollowsBuildAndCpu := by
  refine fun c v => ⟨getLsbD_freshMask c v, fun harch => ?_, fun harch => ?_, fun harch => ?_⟩
  · simp only [archMask, harch, BitVec.getLsbD_zero]
  · simp only [archMask, harch, getLsbD_baseWidths]
  · simp only [archMask, harch]
    refine (getLsbD_probeX86 c.cpu v).trans ?_
    cases v <;> simp only [cpuReports, cpuHasSse, cpuHasAvx, cpuHasAvx512, Bool.and_assoc]

/-! ### The pass count -/

/-- Some width of the mask fits level `d` (R266). -/
theorem widthFits_iff {lbuf : Nat} {m : Mask} {d : Nat} : widthFits lbuf m d = true ↔
    2 ≤ d ∧ ∃ v : Width, m.getLsbD (Width.bit v) = true ∧ Width.lanes v ≤ 2 ^ (d - 2)
      ∧ Width.lanes v ≤ 2 ^ min (d - 1) (lbuf - 1) := by
  have hall : ∀ v : Width, v ∈ allWidths := fun v => by cases v <;> decide
  simp only [widthFits, Bool.and_eq_true, decide_eq_true_eq, List.any_eq_true, hall, true_and, and_assoc]

/-- Every counted level fits. -/
theorem widthFits_of_lt_fitRun {lbuf : Nat} {m : Mask} {d n j : Nat} (hj : j < fitRun lbuf m d n) :
    widthFits lbuf m (d + j) = true := by
  induction n generalizing d j with
  | zero => exact absurd hj (Nat.not_lt_zero j)
  | succ n ih =>
    rw [fitRun] at hj
    split at hj
    case isTrue hfit =>
      cases j with
      | zero => exact hfit
      | succ j => rw [Nat.add_comm j 1, ← Nat.add_assoc]; exact ih (Nat.lt_of_succ_lt_succ hj)
    case isFalse => exact absurd hj (Nat.not_lt_zero j)

/-- The count stops at a level that does not fit. -/
theorem widthFits_fitRun {lbuf : Nat} {m : Mask} {d n : Nat} (hn : fitRun lbuf m d n < n) :
    widthFits lbuf m (d + fitRun lbuf m d n) = false := by
  induction n generalizing d with
  | zero => exact absurd hn (Nat.not_lt_zero _)
  | succ n ih =>
    rw [fitRun] at hn ⊢
    split at hn
    case isTrue hfit =>
      rw [if_pos hfit, Nat.add_comm _ 1, ← Nat.add_assoc]
      exact ih (Nat.lt_of_succ_lt_succ hn)
    case isFalse hfit => rw [if_neg hfit, Nat.add_zero, Bool.eq_false_iff]; exact hfit

theorem selCount_empty (lbuf l depth : Nat) : selCount lbuf l depth 0 = 0 := if_pos rfl

theorem selCount_of_r8First {lbuf l depth : Nat} {m : Mask} (hm : m ≠ 0) (h8 : r8First l depth = true) :
    selCount lbuf l depth m = 3 + fitRun lbuf m 4 (depth - 3) := by
  rw [selCount, if_neg hm, if_pos h8]

theorem selCount_of_not_r8First {lbuf l depth : Nat} {m : Mask} (hm : m ≠ 0) (h8 : ¬ r8First l depth = true) :
    selCount lbuf l depth m = fitRun lbuf m (l - depth + 1) depth := by
  rw [selCount, if_neg hm, if_neg h8]

/-- Settles O50: past the radix-8 step the count is a run of fitting levels, `widthFits_of_lt_fitRun` and
`widthFits_fitRun`. -/
theorem selCountsTheFittingPasses : Obligations.SelCountsTheFittingPasses := by
  intro lbuf l depth m _
  have hr8 : (depth = l ∧ 3 ≤ depth) ↔ r8First l depth = true := r8First_iff.symm
  simp only [← widthFits_iff, hr8]
  refine ⟨fun hm => by rw [hm, selCount_empty], selCount_le _ _ _ _, ?_⟩
  by_cases hm : m = 0
  · rw [hm, selCount_empty, Nat.zero_sub, ite_self]
    exact ⟨fun h => absurd rfl h, fun j hj => absurd hj (Nat.not_lt_zero j), fun h => absurd rfl h⟩
  by_cases h8 : r8First l depth = true
  · simp only [if_pos h8, selCount_of_r8First hm h8, Nat.add_sub_cancel_left]
    exact ⟨fun _ _ => Nat.le_add_right 3 _, fun _ => widthFits_of_lt_fitRun, fun _ hlt =>
      Bool.eq_false_iff.1 (widthFits_fitRun (by omega))⟩
  · simp only [if_neg h8, selCount_of_not_r8First hm h8]
    exact ⟨fun _ h => absurd h h8, fun _ => widthFits_of_lt_fitRun, fun _ hlt =>
      Bool.eq_false_iff.1 (widthFits_fitRun hlt)⟩

/-! ### The effective mask of a command -/

section fresh
variable {c : Config} {p : Policy} {w : Work}

/-- The mask a command evaluates first: what the policy admits of the probed widths of the type (R265). -/
theorem effMask_mask_of_fresh (h : w.em = none) :
    (effMask c p w).1 = polMask p ((probe c w.featCache).1 &&& tyMask c.ty) := by
  cases p <;> simp only [effMask, h, polMask]

/-- The policy `SCALAR` probes nothing, every other probes (R265). -/
theorem effMask_cache_of_fresh (h : w.em = none) :
    (effMask c p w).2.featCache = if p = .scalar then w.featCache else (probe c w.featCache).2 := by
  cases p <;> simp [effMask, h]

end fresh

/-- Evaluating the mask leaves the launch's draws (R265). -/
theorem effMask_draws (c : Config) (p : Policy) (w : Work) :
    (effMask c p w).2.allocs = w.allocs ∧ (effMask c p w).2.tick = w.tick := by
  simp only [effMask]
  split
  case h_1 => exact ⟨rfl, rfl⟩
  case h_2 => split <;> exact ⟨rfl, rfl⟩

/-! ### The command `SEL` -/

section sel
variable {c : Config} {me : Context} {w : Work} {p : Policy} {l depth : Nat} {sre sim : Word64}

/-- `SEL` turns a depth or a size out of range away (R277). -/
theorem runSel_invalid (hre : me.argDsRe = some sre) (him : me.argDsIm = some sim) (hbad : l < depth ∨ 31 < l) :
    runSel c me w p l depth = .error .invalid := by
  have hrange : multipassBad l depth = true := by
    rwa [← Bool.not_eq_false, multipassBad_eq_false, not_not]
  rw [runSel, bind_of_ok (arg_eq_ok.2 hre), bind_of_ok (arg_eq_ok.2 him), hrange]
  rfl

/-- `SEL` in range, by its strides (R277, R273). -/
theorem runSel_inRange (hre : me.argDsRe = some sre) (him : me.argDsIm = some sim) (hd : depth ≤ l) (hl : l ≤ 31) :
    runSel c me w p l depth = if sre = 1 ∧ sim = 1 then
        .ok { code := .ok, work := (effMask c p w).2
              result := some (BitVec.ofNat 64 (selCount c.lbuf l depth (effMask c p w).1)), res := none }
      else .ok { code := .ok, work := w, result := some 0, res := none } := by
  have hrange : invalidIf (multipassBad l depth) = .ok () := invalidIf_eq_ok.2 (multipassBad_eq_false.2 (by omega))
  rw [runSel, bind_of_ok (arg_eq_ok.2 hre), bind_of_ok (arg_eq_ok.2 him), bind_of_ok hrange]
  by_cases h : sre = 1 ∧ sim = 1
  · simp [h]
  · rw [if_neg h, if_pos (by simpa [or_iff_not_imp_left] using h)]

end sel

/-- Settles O49: out of range `runSel_invalid`, in range `runSel_inRange` with the mask and the cache of a command's
first evaluation. -/
theorem selReportsThePassCount : Obligations.SelReportsThePassCount := by
  intro pol l depth s sre sim hre him
  refine ⟨fun hbad => congrArg s.complete (runSel_invalid hre him hbad), fun hd hl => ?_⟩
  have hrun := runSel_inRange (c := s.cfg) (w := s.work) (p := pol) hre him hd hl
  by_cases hunit : sre = 1 ∧ sim = 1
  · rw [if_pos hunit] at hrun
    obtain ⟨hallocs, htick⟩ := effMask_draws s.cfg pol s.work
    refine ⟨_, congrArg s.complete hrun, ?_, fun h => ?_, fun _ _ => ⟨?_, effMask_cache_of_fresh rfl⟩⟩
    · simp only [State.finish, effMask_mem, hallocs, htick, work_mem, work_allocs, work_tick]
      rfl
    · exact h.elim (absurd hunit.1) (absurd hunit.2)
    · rw [finish_result, Option.getD_some, effMask_mask_of_fresh rfl]
      cases pol <;> rfl
  · rw [if_neg hunit] at hrun
    exact ⟨_, congrArg s.complete hrun, rfl, fun _ => ⟨rfl, rfl⟩, fun h1 h2 => absurd ⟨h1, h2⟩ hunit⟩

/-! ### The command `OMP` -/

theorem strideOf_eq_one {a : Word64} : strideOf a = 1 ↔ a = 1 := strideOf_inj (b := 1)

/-- The passes taken of a pair in memory: none where a stride is not 1 (R271, R273). -/
theorem ompCount_viewOf (c : Config) (dre dim sre sim : Word64) (n l depth : Nat) (p : Policy) (w : Work) :
    ompCount c (viewOf dre sre n) (viewOf dim sim n) l depth p w
      = if sre = 1 ∧ sim = 1 then selCount c.lbuf l depth (effMask c p w).1 else 0 := by
  by_cases h : sre = 1 ∧ sim = 1
  · simp [ompCount, viewOf, strideOf_eq_one, h]
  · rw [ompCount, if_neg h, if_pos]
    simpa [viewOf, strideOf_eq_one, or_iff_not_imp_left] using h

/-- An optimized multipass that takes no pass leaves memory (R271). -/
theorem ompRun_mem_of_zero {c : Config} {vr vi : View} {l depth : Nat} {σ : Dir} {p : Policy} {w w' : Work}
    (h : ompRun c vr vi l depth σ p w = .ok (0, w')) : w'.mem = w.mem := by
  have hcount : 0 = ompCount c vr vi l depth p w := ompRun_count h
  rw [ompCount] at hcount
  rw [ompRun] at h
  split at h
  case isTrue => cases h; rfl
  case isFalse hs =>
    rw [if_neg hs] at hcount
    simp only [← hcount, if_true] at h
    cases h
    exact effMask_mem c p w

/-- `OMP` on a ready pair is the optimized multipass (R278). -/
theorem runOmp_ready {c : Config} {me : Context} {w w' : Work} {σ : Dir} {p : Policy} {l depth k : Nat}
    {dre dim sre sim : Word64} (hpair : me.hasPair dre dim sre sim) (hd : depth ≤ l) (hl : l ≤ 31)
    (hp : PairReady w.mem (viewOf dre sre (2 ^ l)) (viewOf dim sim (2 ^ l)))
    (hrun : ompRun c (viewOf dre sre (2 ^ l)) (viewOf dim sim (2 ^ l)) l depth σ p w = .ok (k, w')) :
    runOmp c me w σ p l depth = .ok { code := .ok, work := w', result := some (BitVec.ofNat 64 k), res := none } := by
  obtain ⟨hdst, hover⟩ := hp.checks
  have hrange : invalidIf (multipassBad l depth) = .ok () := invalidIf_eq_ok.2 (multipassBad_eq_false.2 (by omega))
  rw [runOmp, bind_of_ok (dstPair_eq_ok.2 ⟨dre, dim, sre, sim, hpair, rfl⟩)]
  simp only [hrange, hdst, hover, hrun, liftCount, bind_ok]

/-- Settles O51: the optimized multipass ends with its count and the values of its passes (`ompRun_holds`), and moves
nothing but the pair (`ompRun_moved`). -/
theorem ompTakesTheVectorPasses : Obligations.OmpTakesTheVectorPasses := by
  intro dir pol l depth s dre dim sre sim hpair hvalid hd hl hp
  rw [← ompCount_viewOf s.cfg dre dim sre sim (2 ^ l)]
  have hturn := fun f => ompRun_holds (σ := dir) (p := pol) (w := s.work) (f := f) (hp.pair rfl rfl)
    (Config.one_le_lbuf hvalid) hd
  obtain ⟨w', -, hrun, -, -⟩ := hturn _ (hp.holds rfl rfl)
  have hmoved := ompRun_moved hd hrun
  have hwrote := succeed_wrote (s := s) (n := 2 ^ l) rfl rfl hmoved
  refine ⟨_, congrArg s.complete (runOmp_ready hpair hd hl hp hrun), ⟨rfl, hwrote.outside, hwrote.admitted⟩,
    hmoved.allocs, hmoved.cache, fun hk => ?_, fun hexact f hf => ?_⟩
  · rw [hk] at hrun
    exact ompRun_mem_of_zero hrun
  · obtain ⟨w'', g, hrun', hg, hval⟩ := hturn f hf
    obtain rfl : w' = w'' := congrArg Prod.snd (Except.ok.inj (hrun.symm.trans hrun'))
    rw [← hval hexact]
    exact hg

/-! ### The policy and the transforms -/

/-- Two memories that hold the same streams at a pair, and agree elsewhere, are one memory. -/
theorem Mem.eq_of_holds {m m' : Mem} {vr vi : View} {n : Nat} {g : Stream} (hw : m.wf = true) (hw' : m'.wf = true)
    (h : Holds m vr vi n g) (h' : Holds m' vr vi n g) (hout : ∀ a, ¬ Touch vr vi n a → m.atAddr a = m'.atAddr a) :
    m = m' := by
  refine Mem.wf_ext_at hw hw' fun a => ?_
  by_cases ha : Touch vr vi n a
  · obtain ⟨i, hi, rfl | rfl⟩ := ha
    · rw [h.1 i hi, h'.1 i hi]
    · rw [h.2 i hi, h'.2 i hi]
  · exact hout a ha

/-- Under `EXACT` a ready transform leaves the values of its request, and nothing else changed (R267, R304). -/
theorem transform_leaves {c : Config} {v : Views} {n : Nat} {fb : Bool} {σ : Dir} {scale : Elem} {p : Policy} {w : Work}
    (hvalid : c.valid = true) (hexact : c.simdValues = .exact) (hn : 1 ≤ n) (h : RequestReady c w.mem v n fb)
    (hwf : w.mem.wf = true) (hgrant : takesBluestein n fb = true → ∃ b rest, w.allocs = some b :: rest
      ∧ allocLawful c v.list w.mem b (scratchLen (clog2 (2 * n - 1)) n) = true) :
    ∃ w', transform c v n σ scale p fb w = .ok (.ok, w') ∧ w'.mem.wf = true
      ∧ Holds w'.mem v.dr v.di n (requestV c n σ scale fb (inputOf c.ty w.mem v.sr v.si))
      ∧ ∀ a, ¬ Touch v.dr v.di n a → w'.mem.atAddr a = w.mem.atAddr a := by
  obtain ⟨-, -, hdr, hdi⟩ := h.counts
  obtain ⟨b, rest, hdraw⟩ : ∃ b rest, takesBluestein n fb = true → w.allocs = some b :: rest
      ∧ allocLawful c v.list w.mem b (scratchLen (clog2 (2 * n - 1)) n) = true := by
    by_cases ht : takesBluestein n fb = true
    · exact (hgrant ht).imp fun b => .imp fun rest hb _ => hb
    · exact ⟨0, [], fun h => absurd h ht⟩
  obtain ⟨w', g, hrun, hg, hval⟩ := transform_holds (σ := σ) (scale := scale) (p := p) (Config.one_le_lbuf hvalid) hn h
    rfl hdraw
  obtain ⟨hsettled, -⟩ := transform_settled hn hdr hdi hrun
  exact ⟨w', hrun, hsettled.wf hwf, hg.congr (hval hexact), hsettled.outside⟩

/-- What a request's body hands over, whatever the policy: success, no result, and one memory (R389). -/
theorem runXform_policy {s : State} {shape : Context → Except Stop (Nat → Views)} {σ : Dir} {fb : Bool} {r : Request}
    (hr : requestFrom shape fb s.me = some r) (hready : RequestReady s.cfg s.mem r.views r.n r.forceBS)
    (hgrant : s.grants r.views r.n r.forceBS) (hexact : s.cfg.simdValues = .exact) (hvalid : s.cfg.valid = true)
    (hwf : s.mem.wf = true) : ∃ m, ∀ p, ∃ w, w.mem = m
      ∧ runXform s.cfg s.me s.work shape σ p fb = .ok { code := .ok, work := w, result := none, res := none } := by
  by_cases h0 : r.n = 0
  · obtain ⟨n, scale, views, hn, hscale, hshape, rfl⟩ := requestFrom_eq_some hr
    refine ⟨s.mem, fun p => ⟨(s.work.goto .validate).goto .return, rfl, ?_⟩⟩
    simp only [] at h0
    simp only [runXform, hn, hscale, hshape, arg, bind_ok, if_pos h0, doneOk]
  · have hbad : ¬ RequestRejected s.cfg r := by rw [requestRejected_iff, hready.valid]; exact Bool.false_ne_true
    have hover : ¬ RequestOverlaps r := by rw [requestOverlaps_iff, hready.overlap]; exact Bool.false_ne_true
    have hleaves := fun p => transform_leaves (σ := σ) (scale := r.scale) (p := p) (w := s.work.goto .validate) hvalid
      hexact (Nat.pos_of_ne_zero h0) hready hwf hgrant
    obtain ⟨w0, -, hwf0, hholds0, hout0⟩ := hleaves .scalar
    refine ⟨w0.mem, fun p => ?_⟩
    obtain ⟨w, hrun, hwfw, hholds, hout⟩ := hleaves p
    refine ⟨w, Mem.eq_of_holds hwfw hwf0 hholds hholds0 fun a ha => (hout a ha).trans (hout0 a ha).symm, ?_⟩
    rw [runXform_checked hr h0 hbad hover, hrun]
    rfl

/-- A transform command and the same command with another policy differ in the policy of their body only. -/
theorem exec_withPolicy_request {i : Instr} {pol : Policy} {s : State} {r : Request} (h : requestOf i s.me = some r) :
    ∃ shape σ p fb, requestFrom shape fb s.me = some r
      ∧ exec i s = s.complete (runXform s.cfg s.me s.work shape σ p fb)
      ∧ exec (withPolicy pol i) s = s.complete (runXform s.cfg s.me s.work shape σ pol fb) := by
  cases i with
  | xfs σ p | xfi σ p | xft σ p | blu σ p => exact ⟨_, σ, p, _, h, rfl, rfl⟩
  | brv _ | dil | ilv | pass _ _ _ | r8 _ _ | mps _ _ _ _ | bfy _ _ _ | scl | twg _ _ _ | twf _ | cxm _ | cxf | prb
  | sel _ _ _ | omp _ _ _ _ => cases h

/-- Settles O60: both runs succeed with one memory (`runXform_policy`), and a transform writes no result register. -/
theorem policyNeverChangesATransform : Obligations.PolicyNeverChangesATransform := by
  intro i pol s t u r hr hready hgrant hexact hvalid hwf ht hu
  obtain ⟨shape, σ, p, fb, hfrom, hexec, hexec'⟩ := exec_withPolicy_request (pol := pol) hr
  obtain ⟨m, hruns⟩ := runXform_policy (σ := σ) hfrom hready hgrant hexact hvalid hwf
  obtain ⟨w, hw, hrun⟩ := hruns p
  obtain ⟨w', hw', hrun'⟩ := hruns pol
  rw [hexec, hrun] at ht
  rw [hexec', hrun'] at hu
  cases ht
  cases hu
  exact ⟨hw'.trans hw.symm, rfl⟩

end Sys2Proof.Machine

/-! SUPPORT. Proofs of the scope's statements: the word the host places next (R110, R334), and what a command does before
its work: it reads its registers, a count of 0 ends it, and its checks turn it away (R177, R240–R244, R300–R303). -/

namespace Sys2Proof.Machine

/-! ### The placed word -/

theorem contexts_number (s : State) : s.contexts[s.number]? = some s.me := by
  rw [State.contexts, State.number, List.getElem?_append_right le_rfl, Nat.sub_self, List.getElem?_cons_zero]

/-- The context the placed word goes to can move: it is not halted, and writing `CMD` always has a step (R33). -/
theorem withFetchWord_ready (s : State) (nbits w : Nat) : (s.withFetchWord nbits w).ready s.before.length = true :=
  ready_iff.2 ⟨_, contexts_number (s.withFetchWord nbits w), rfl⟩

/-- Making the current context the current one changes nothing. -/
theorem focus_number (s : State) : s.focus s.before.length = s := by
  rw [State.focus, State.contexts, List.drop_left, List.take_left]

/-- Settles O10: the schedule names the current context, which can move and whose host's next step is the word (log 21). -/
theorem stepIssuesThePlacedWord : Obligations.StepIssuesThePlacedWord := by
  intro s nbits w hv
  rw [step_scheduled (s := s.withFetchWord nbits w) hv rfl (withFetchWord_ready s nbits w)]
  exact (congrArg hostStep (focus_number _)).trans (hostStep_cmd rfl)

/-! ### A count of 0 -/

/-- The computation ends with a value that satisfies `P`, unless a register it reads is UNWRITTEN. -/
def ReadsThen {α : Type} (P : α → Prop) (r : Except Stop α) : Prop :=
  r = .error (.fault .unwrittenRegister) ∨ ∃ a, r = .ok a ∧ P a

theorem ReadsThen.ok {α : Type} {P : α → Prop} {a : α} (h : P a) : ReadsThen P (.ok a) := .inr ⟨a, rfl, h⟩

theorem ReadsThen.bind {α β : Type} {P : α → Prop} {Q : β → Prop} {x : Except Stop α} {f : α → Except Stop β}
    (h : ReadsThen P x) (hf : ∀ a, P a → ReadsThen Q (f a)) : ReadsThen Q (x.bind f) := by
  rcases h with rfl | ⟨a, rfl, ha⟩
  · exact .inl rfl
  · exact hf a ha

/-- Reading a register, then the rest. -/
theorem ReadsThen.arg {α β : Type} {Q : β → Prop} {o : Option α} {f : α → Except Stop β}
    (h : ∀ x, ReadsThen Q (f x)) : ReadsThen Q ((arg o).bind f) := by
  cases o with
  | none => exact .inl rfl
  | some x => exact h x

/-- Reading a register that holds `x`, then the rest. -/
theorem ReadsThen.argOf {α β : Type} {Q : β → Prop} {o : Option α} {x : α} {f : α → Except Stop β} (ho : o = some x)
    (h : ReadsThen Q (f x)) : ReadsThen Q ((Machine.arg o).bind f) := by
  rw [ho]
  exact h

theorem dstPair_readsThen (me : Context) : ReadsThen (fun _ => True) (dstPair me) :=
  .arg fun _ => .arg fun _ => .arg fun _ => .arg fun _ => .ok trivial

theorem splitArgs_readsThen (me : Context) : ReadsThen (fun _ => True) (splitArgs me) :=
  .arg fun _ => .arg fun _ => .arg fun _ => .arg fun _ => .ok trivial

theorem interleavedArgs_readsThen (me : Context) : ReadsThen (fun _ => True) (interleavedArgs me) :=
  .arg fun _ => .arg fun _ => .ok trivial

theorem stridedArgs_readsThen (me : Context) : ReadsThen (fun _ => True) (stridedArgs me) :=
  .arg fun _ => .arg fun _ => .arg fun _ => .arg fun _ => .arg fun _ => .arg fun _ => .arg fun _ =>
    .arg fun _ => .ok trivial

/-- A command that hands this over has succeeded and changed nothing else. -/
def LeavesNoWork (s : State) (d : Done) : Prop := s.finish d = s.noWork

section zeroCount
variable {s : State} (h : s.me.argN = some 0)
include h

/-- A transform of no element ends once its registers are read (R300). -/
theorem runXform_zero {shape : Context → Except Stop (Nat → Views)} (hs : ReadsThen (fun _ => True) (shape s.me))
    (σ : Dir) (p : Policy) (fb : Bool) :
    ReadsThen (LeavesNoWork s) (runXform s.cfg s.me s.work shape σ p fb) :=
  .argOf h (.arg fun _ => hs.bind fun _ _ => .ok rfl)

/-- A shuffle of no element ends once its registers are read (R201, R202). -/
theorem runShuffle_zero (shuffle : Int → Nat → Work → Except Fault Work) :
    ReadsThen (LeavesNoWork s) (runShuffle shuffle s.me s.work) :=
  .argOf h (.arg fun _ => .ok rfl)

/-- A scaling of no element ends once its registers are read (R244). -/
theorem runScl_zero : ReadsThen (LeavesNoWork s) (runScl s.cfg s.me s.work) :=
  .argOf h (.arg fun _ => (dstPair_readsThen s.me).bind fun _ _ => .ok rfl)

/-- A table of no twiddle ends once its registers are read (R177). -/
theorem runTwf_zero (σ : Dir) : ReadsThen (LeavesNoWork s) (runTwf s.cfg s.me s.work σ) :=
  .argOf h ((dstPair_readsThen s.me).bind fun _ _ => .ok rfl)

/-- Every command that reads `ARG_N` ends at a count of 0 once its registers are read. -/
theorem commandBody_zero {i : Instr} (hi : .n ∈ argsRead i) :
    ReadsThen (LeavesNoWork s) (commandBody i s.cfg s.me s.work) := by
  cases i with
  | xfs σ p => exact runXform_zero h (splitArgs_readsThen _) σ p false
  | xfi σ p => exact runXform_zero h (interleavedArgs_readsThen _) σ p false
  | xft σ p => exact runXform_zero h (stridedArgs_readsThen _) σ p false
  | blu σ p => exact runXform_zero h (stridedArgs_readsThen _) σ p true
  | dil | ilv => exact runShuffle_zero h _
  | scl => exact runScl_zero h
  | twf σ => exact runTwf_zero h σ
  | brv _ | pass _ _ _ | r8 _ _ | mps _ _ _ _ | bfy _ _ _ | twg _ _ _ | cxm _ | cxf | prb | sel _ _ _ | omp _ _ _ _ =>
    simp [argsRead] at hi

end zeroCount

/-- Settles O23: a count of 0 ends the command once its registers are read (`commandBody_zero`), and none of them is
UNWRITTEN (`unwrittenRegisterFaults`). -/
theorem zeroCountDoesNoWork : Obligations.ZeroCountDoesNoWork := by
  intro i s hi hargs h0
  have hwritten : exec i s ≠ .fault .unwrittenRegister := fun hf => by
    obtain ⟨r, hr, hnone⟩ := (unwrittenRegisterFaults i s).1 hf
    have := hargs r hr
    rw [hnone] at this
    cases this
  rw [exec_eq_complete] at hwritten ⊢
  rcases commandBody_zero h0 hi with hf | ⟨d, hd, hleaves⟩
  · exact absurd (complete_fault.2 hf) hwritten
  · rw [hd]
    exact congrArg Host.Outcome.next hleaves

/-! ### The checks on a destination pair -/

/-- The checks on a pair of destinations, `bad` where the operands are out of range, then the rest (R302, R303). -/
def checkedPair {α : Type} (bad : Bool) (dr di : View) (r : Except Stop α) : Except Stop α :=
  (invalidIf bad).bind fun _ => (checkDst dr di).bind fun _ => (checkOverlap [] dr di).bind fun _ => r

/-- An operand out of range or a failing `CheckDst` turns the command away. -/
theorem checkedPair_invalid {α : Type} {bad : Bool} {dr di : View} (h : bad = true ∨ DstRejected dr di)
    (r : Except Stop α) : checkedPair bad dr di r = .error .invalid := by
  cases bad with
  | true => rfl
  | false =>
    have hdst : dstBad dr di = true := dstRejected_iff.1 (h.resolve_left Bool.false_ne_true)
    rw [checkedPair, checkDst, hdst]
    rfl

/-- Past these checks, destinations that share an address are the overlap of R303. -/
theorem checkedPair_overlap {α : Type} {bad : Bool} {dr di : View} (hb : bad = false) (hd : ¬ DstRejected dr di)
    (hs : dr.Share di) (r : Except Stop α) : checkedPair bad dr di r = .error (.fault .overlap) := by
  have hdst : dstBad dr di = false := by rwa [← Bool.not_eq_true, ← dstRejected_iff]
  have hover : overlapBad [] dr di = true := View.share_iff.1 hs
  rw [checkedPair, hb, checkDst, hdst, checkOverlap, hover]
  rfl

/-- A command on a destination pair is the checks on that pair, then its engine (R176, R177, R240–R244, R278). -/
theorem exec_pairWork {i : Instr} {s : State} {n : Nat} {bad : Prop} {dre dim sre sim : Word64}
    (hw : pairWork i s.cfg.lbuf s.me = some (n, bad)) (h0 : n ≠ 0) (hargs : argsWritten i s.me)
    (hp : s.me.hasPair dre dim sre sim) : ∃ (b : Bool) (r : Except Stop Done), (b = false ↔ ¬ bad)
      ∧ exec i s = s.complete (checkedPair b (viewOf dre sre n) (viewOf dim sim n) r) := by
  have hpair := dstPair_eq_ok.2 ⟨dre, dim, sre, sim, hp, rfl⟩
  cases i with
  | pass σ d l =>
    cases hw
    exact ⟨passBad d l, _, passBad_eq_false, congrArg s.complete (bind_of_ok hpair _)⟩
  | r8 σ l =>
    cases hw
    exact ⟨_, _, by simp [r8Min, log2nMax], congrArg s.complete (bind_of_ok hpair _)⟩
  | mps σ p l depth =>
    cases hw
    exact ⟨multipassBad l depth, _, multipassBad_eq_false, congrArg s.complete (bind_of_ok hpair _)⟩
  | bfy σ p l =>
    cases hw
    exact ⟨_, _, decide_eq_false_iff_not, congrArg s.complete (bind_of_ok hpair _)⟩
  | twg σ bigN l =>
    cases hw
    exact ⟨_, _, by simp, congrArg s.complete (bind_of_ok hpair _)⟩
  | omp σ p l depth =>
    cases hw
    exact ⟨multipassBad l depth, _, multipassBad_eq_false, congrArg s.complete (bind_of_ok hpair _)⟩
  | scl =>
    obtain ⟨m, hm, he⟩ := Option.map_eq_some_iff.1 hw
    cases he
    obtain ⟨scale, hscale⟩ : ∃ scale, s.me.argScale = some scale := by
      simpa [Context.argument, Option.isSome_iff_exists] using hargs .scale (by simp [argsRead])
    exact ⟨_, _, decide_eq_false_iff_not, congrArg s.complete ((bind_of_ok (arg_eq_ok.2 hm) _).trans
      ((bind_of_ok (arg_eq_ok.2 hscale) _).trans ((bind_of_ok hpair _).trans (if_neg h0))))⟩
  | twf σ =>
    obtain ⟨m, hm, he⟩ := Option.map_eq_some_iff.1 hw
    cases he
    have hm0 : m.toNat ≠ 0 := by omega
    exact ⟨_, _, decide_eq_false_iff_not, congrArg s.complete ((bind_of_ok (arg_eq_ok.2 hm) _).trans
      ((bind_of_ok hpair _).trans (if_neg hm0)))⟩
  | xfs _ _ | xfi _ _ | xft _ _ | blu _ _ | brv _ | dil | ilv | cxm _ | cxf | prb | sel _ _ _ => cases hw

/-- Settles O25: the command is the checks on its pair (`exec_pairWork`), in the order of R302 and R303. -/
theorem pairCommandsCheckDestinations : Obligations.PairCommandsCheckDestinations := by
  intro i s n bad dre dim sre sim hw h0 hargs hp
  obtain ⟨b, r, hb, hexec⟩ := exec_pairWork hw h0 hargs hp
  refine ⟨fun hbad => ?_, fun hbad hd hs => ?_⟩
  · rw [hexec, checkedPair_invalid (hbad.imp_left fun h => eq_true_of_ne_false fun hf => hb.1 hf h)]
    rfl
  · rw [hexec, checkedPair_overlap (hb.2 hbad) hd hs]
    rfl

end Sys2Proof.Machine

/-! SUPPORT. Proofs of the scope's statements: the transforms `XFS`, `XFI`, `XFT` and `BLU` (R291, R300–R333). A request in
registers is a `Request` (`requestFrom`), and what holds of one holds whatever its shape. -/

namespace Sys2Proof.Machine

/-! ### The checks of a request -/

section checks
variable {c : Config} {me : Context} {shape : Context → Except Stop (Nat → Views)} {fb : Bool} {r : Request}
  (hr : requestFrom shape fb me = some r) (h0 : r.n ≠ 0)
include hr h0

/-- A request of some element, its registers read: `Validate`, `CheckOverlap`, then its pipeline (R301, R329). -/
theorem runXform_request (w : Work) (σ : Dir) (p : Policy) : runXform c me w shape σ p fb =
    (invalidIf (requestBad c r.views r.n r.forceBS)).bind fun _ =>
    (checkOverlap [r.views.sr, r.views.si] r.views.dr r.views.di).bind fun _ =>
    liftCode (transform c r.views r.n σ r.scale p r.forceBS (w.goto .validate)) := by
  obtain ⟨n, scale, views, hn, hscale, hshape, rfl⟩ := requestFrom_eq_some hr
  rw [runXform, bind_of_ok (arg_eq_ok.2 hn), bind_of_ok (arg_eq_ok.2 hscale), bind_of_ok hshape]
  exact if_neg h0

/-- An item of R302 turns the request away. -/
theorem runXform_rejected (hbad : RequestRejected c r) (w : Work) (σ : Dir) (p : Policy) :
    runXform c me w shape σ p fb = .error .invalid := by
  rw [runXform_request hr h0, requestRejected_iff.1 hbad]
  rfl

/-- Past the items of R302, an overlap that R303 forbids is a fault. -/
theorem runXform_overlaps (hbad : ¬ RequestRejected c r) (hover : RequestOverlaps r) (w : Work) (σ : Dir) (p : Policy) :
    runXform c me w shape σ p fb = .error (.fault .overlap) := by
  rw [requestRejected_iff, Bool.not_eq_true] at hbad
  rw [runXform_request hr h0, hbad, checkOverlap, requestOverlaps_iff.1 hover]
  rfl

end checks

/-- A pipeline that cannot fail but by being stuck hands over no other fault. -/
theorem liftCode_ne_overlap {r : Except Fault (Code × Work)} (h : OnlyStuck r) :
    liftCode r ≠ .error (.fault .overlap) := by
  rcases r with f | x
  · rw [h f rfl]; exact fun he => by cases he
  · exact fun he => by cases he

/-- Settles O57: the checks come in the order of R302 and R303, and past them a pipeline can only be stuck. -/
theorem transformRequestsAreChecked : Obligations.TransformRequestsAreChecked := by
  intro i s r hreq h0
  obtain ⟨shape, σ, p, fb, hr, hexec, -⟩ := exec_request hreq
  rw [hexec, complete_fault]
  by_cases hbad : RequestRejected s.cfg r
  · rw [runXform_rejected hr h0 hbad]
    exact ⟨fun _ => rfl, ⟨fun hf => (by cases hf), fun h => absurd hbad h.1⟩⟩
  · refine ⟨fun h => absurd h hbad, ⟨fun hf => ⟨hbad, ?_⟩, fun h => runXform_overlaps hr h0 hbad h.2 _ _ _⟩⟩
    by_contra hover
    rw [runXform_checked hr h0 hbad hover] at hf
    exact liftCode_ne_overlap (transform_stuck _ _ _ _ _ _ _ _) hf

/-! ### A draw that grants nothing -/

/-- Settles O58: past its checks the request is its pipeline (`runXform_checked`), which a null draw ends and a draw that
breaks the contract leaves stuck. -/
theorem nullAllocationGivesOutOfMemory : Obligations.NullAllocationGivesOutOfMemory := by
  intro i s r hreq h0 hbs hbad hover
  obtain ⟨shape, σ, p, fb, hr, hexec, -⟩ := exec_request hreq
  rw [hexec, runXform_checked hr h0 hbad hover]
  refine ⟨fun rest hdraw => ?_, fun b rest hdraw hlaw => ?_⟩
  · obtain rfl : rest = s.allocs.tail := by rw [hdraw, List.tail_cons]
    rw [transform_null hbs hdraw]
    rfl
  · rw [transform_unlawful hbs hdraw hlaw]
    rfl

/-! ### A request that is ready -/

/-- A request for the Bluestein pipeline uses one draw, and another none (R90, R316). -/
theorem transform_allocs {c : Config} {v : Views} {n : Nat} {σ : Dir} {scale : Elem} {p : Policy} {fb : Bool} {w : Work}
    {r : Code × Work} (hn : 1 ≤ n) (hr : v.dr.count = n) (hi : v.di.count = n)
    (h : transform c v n σ scale p fb w = .ok r) :
    r.2.allocs = if takesBluestein n fb then w.allocs.tail else w.allocs := by
  rw [transform] at h
  split at h
  next hb =>
    rw [if_pos hb]
    obtain ⟨⟨o, w1⟩, halloc, h⟩ := bind_eq_ok.1 h
    cases o with
    | none =>
      obtain rfl := alloc_none halloc
      cases h
      rfl
    | some b =>
      obtain ⟨-, rfl⟩ := alloc_some halloc
      obtain ⟨w2, hcore, h⟩ := bind_eq_ok.1 h
      cases h
      exact (bsCore_only σ scale p hn _ _ hcore).allocs
  next hb =>
    rw [if_neg hb]
    have hp := (takesBluestein_false (Bool.not_eq_true _ ▸ hb)).2
    obtain ⟨w1, hpot, h⟩ := bind_eq_ok.1 h
    cases h
    exact (potPipeline_only σ scale p (hr.trans hp.symm) (hi.trans hp.symm) _ _ hpot).allocs

/-- The draw that grants a request its scratch, where it needs any. -/
theorem State.grants.draw {s : State} {v : Views} {n : Nat} {fb : Bool} (h : s.grants v n fb) :
    ∃ b rest, takesBluestein n fb = true →
      s.allocs = some b :: rest ∧ allocLawful s.cfg v.list s.mem b (scratchLen (clog2 (2 * n - 1)) n) = true := by
  by_cases ht : takesBluestein n fb = true
  · obtain ⟨b, rest, hb⟩ := h ht
    exact ⟨b, rest, fun _ => hb⟩
  · exact ⟨0, [], fun h => absurd h ht⟩

/-- A request that is ready and gets its scratch is transformed, whatever its shape (R304, R306, R329). -/
theorem request_transformed {s : State} {shape : Context → Except Stop (Nat → Views)} {fb : Bool} {n : Word64}
    {scale : Elem} {views : Nat → Views} (hn : s.me.argN = some n) (hscale : s.me.argScale = some scale)
    (hshape : shape s.me = .ok views) (hvalid : s.cfg.valid = true) (h0 : n ≠ 0)
    (hready : RequestReady s.cfg s.mem (views n.toNat) n.toNat fb) (hgrant : s.grants (views n.toNat) n.toNat fb)
    (σ : Dir) (p : Policy) : ∃ t, s.complete (runXform s.cfg s.me s.work shape σ p fb) = .next t
      ∧ s.Transformed t (views n.toNat) n.toNat σ scale fb := by
  have hpos : 1 ≤ n.toNat := BitVec.toNat_pos_of_ne_zero h0
  obtain ⟨-, -, hr, hi⟩ := hready.counts
  obtain ⟨b, rest, hdraw⟩ := hgrant.draw
  obtain ⟨w', g, hrun, hg, hval⟩ := transform_holds (σ := σ) (scale := scale) (p := p) (w := s.work.goto .validate)
    (Config.one_le_lbuf hvalid) hpos hready rfl hdraw
  obtain ⟨hsettled, -⟩ := transform_settled hpos hr hi hrun
  refine ⟨s.succeed w', congrArg s.complete (runXform_ready hn hscale hshape (Nat.pos_iff_ne_zero.1 hpos) hready hrun),
    ⟨rfl, fun a ha => hsettled.outside a ?_, hsettled.admitted⟩, fun hexact => hg.congr (hval hexact), hsettled.cache,
    transform_allocs hpos hr hi hrun⟩
  rintro ⟨k, hk, he | he⟩
  · exact ha (views n.toNat).dr (by simp) ⟨k, by omega, he⟩
  · exact ha (views n.toNat).di (by simp) ⟨k, by omega, he⟩

/-! ### The shapes -/

theorem splitArgs_eq_ok {me : Context} {sre sim dre dim : Word64} (hsre : me.argSrcRe = some sre)
    (hsim : me.argSrcIm = some sim) (hdre : me.argDstRe = some dre) (hdim : me.argDstIm = some dim) :
    splitArgs me = .ok (splitViews sre sim dre dim) := by
  simp only [splitArgs, hsre, hsim, hdre, hdim, arg, bind_ok]

theorem interleavedArgs_eq_ok {me : Context} {src dst : Word64} (hsrc : me.argSrcRe = some src)
    (hdst : me.argDstRe = some dst) : interleavedArgs me = .ok (interleavedViews src dst) := by
  simp only [interleavedArgs, hsrc, hdst, arg, bind_ok]

/-- The views of the strided shape (R291). -/
def stridedViews (sre sim dre dim ssre ssim dsre dsim : Word64) (n : Nat) : Views :=
  { sr := srcView (addrOf sre) (strideOf ssre) n, si := srcView (addrOf sim) (strideOf ssim) n
    dr := viewOf dre dsre n, di := viewOf dim dsim n }

theorem stridedArgs_eq_ok {me : Context} {sre sim dre dim ssre ssim dsre dsim : Word64} (hsre : me.argSrcRe = some sre)
    (hsim : me.argSrcIm = some sim) (hdre : me.argDstRe = some dre) (hdim : me.argDstIm = some dim)
    (hssre : me.argSsRe = some ssre) (hssim : me.argSsIm = some ssim) (hdsre : me.argDsRe = some dsre)
    (hdsim : me.argDsIm = some dsim) : stridedArgs me = .ok (stridedViews sre sim dre dim ssre ssim dsre dsim) := by
  simp only [stridedArgs, hsre, hsim, hdre, hdim, hssre, hssim, hdsre, hdsim, arg, bind_ok]
  rfl

/-- Registers that give strided views give them at every count. -/
theorem Context.hasStrided.shape {me : Context} {v : Views} {n : Nat} (h : me.hasStrided v n) :
    ∃ views, stridedArgs me = .ok views ∧ v = views n := by
  obtain ⟨_, _, _, _, _, _, _, _, hsre, hsim, hdre, hdim, hssre, hssim, hdsre, hdsim, rfl⟩ := h
  exact ⟨_, stridedArgs_eq_ok hsre hsim hdre hdim hssre hssim hdsre hdsim, rfl⟩

/-- Settles O53: the split shape of a request that is ready (`request_transformed`). -/
theorem xfsTransformsSplitArrays : Obligations.XfsTransformsSplitArrays := by
  intro dir pol s n scale sre sim dre dim hn hscale hsre hsim hdre hdim hvalid h0 hready hgrant
  exact request_transformed hn hscale (splitArgs_eq_ok hsre hsim hdre hdim) hvalid h0 hready hgrant dir pol

/-- Settles O54: the interleaved shape of a request that is ready (`request_transformed`). -/
theorem xfiTransformsInterleavedArrays : Obligations.XfiTransformsInterleavedArrays := by
  intro dir pol s n scale src dst hn hscale hsrc hdst hvalid h0 hready hgrant
  exact request_transformed hn hscale (interleavedArgs_eq_ok hsrc hdst) hvalid h0 hready hgrant dir pol

/-- Settles O55: the strided shape of a request that is ready (`request_transformed`). -/
theorem xftTransformsStridedArrays : Obligations.XftTransformsStridedArrays := by
  intro dir pol s n scale v hn hscale hstrided hvalid h0 hready hgrant
  obtain ⟨views, hshape, rfl⟩ := hstrided.shape
  exact request_transformed hn hscale hshape hvalid h0 hready hgrant dir pol

/-- Settles O56: the strided shape of a request that is ready, Bluestein forced (`request_transformed`). -/
theorem bluTransformsByBluestein : Obligations.BluTransformsByBluestein := by
  intro dir pol s n scale v hn hscale hstrided hvalid h0 hready hgrant
  obtain ⟨views, hshape, rfl⟩ := hstrided.shape
  exact request_transformed hn hscale hshape hvalid h0 hready hgrant dir pol

/-- A transform depends on its shape through the views it gives only. -/
theorem runXform_shape_congr {me : Context} {shape shape' : Context → Except Stop (Nat → Views)}
    (h : shape me = shape' me) (c : Config) (w : Work) (σ : Dir) (p : Policy) (fb : Bool) :
    runXform c me w shape σ p fb = runXform c me w shape' σ p fb := by
  simp only [runXform, h]

/-- The split views are the strided ones at unit strides (R291). -/
theorem stridedViews_one (sre sim dre dim : Word64) :
    stridedViews sre sim dre dim 1 1 1 1 = splitViews sre sim dre dim := rfl

/-- The interleaved views are the strided ones at stride 2, each imaginary base the one after the real one (R291). -/
theorem stridedViews_two {sre sim dre dim : Word64} (hs : addrOf sim = imBase (addrOf sre))
    (hd : addrOf dim = imBase (addrOf dre)) : stridedViews sre sim dre dim 2 2 2 2 = interleavedViews sre dre := by
  funext n
  rw [interleavedViews, ← hs, ← hd]
  rfl

/-- Settles O59: the two commands read the same views (`stridedViews_one`, `stridedViews_two`). -/
theorem shapesAreStridedRequests : Obligations.ShapesAreStridedRequests := by
  intro dir pol s sre sim dre dim hsre hsim hdre hdim
  refine ⟨fun hssre hssim hdsre hdsim => ?_, fun hssre hssim hdsre hdsim hs hd => ?_⟩
  · have hshape : splitArgs s.me = stridedArgs s.me := by
      rw [splitArgs_eq_ok hsre hsim hdre hdim, stridedArgs_eq_ok hsre hsim hdre hdim hssre hssim hdsre hdsim,
        stridedViews_one]
    exact congrArg s.complete (runXform_shape_congr hshape _ _ _ _ _)
  · have hshape : interleavedArgs s.me = stridedArgs s.me := by
      rw [interleavedArgs_eq_ok hsre hdre, stridedArgs_eq_ok hsre hsim hdre hdim hssre hssim hdsre hdsim,
        stridedViews_two hs hd]
    exact congrArg s.complete (runXform_shape_congr hshape _ _ _ _ _)

end Sys2Proof.Machine

/-! SUPPORT. Proofs of the scope's statements: the outcomes of a command (R340–R345) and the recorded faults (R344). -/

namespace Sys2Proof.Machine

/-! ### A command that ends -/

/-- A command that ended with -1 or -2 (R343): `STATUS` is its code, and the result registers, memory and `FEAT_CACHE` are
as they were. -/
structure FailedFrom (s t : State) : Prop where
  status : t.me.status = 0xFFFFFFFF ∨ t.me.status = 0xFFFFFFFE
  result : t.me.result = s.me.result
  resRe : t.me.resRe = s.me.resRe
  resIm : t.me.resIm = s.me.resIm
  mem : t.mem = s.mem
  featCache : t.featCache = s.featCache

theorem turnAway_failedFrom (s : State) : FailedFrom s s.turnAway := ⟨.inl rfl, rfl, rfl, rfl, rfl, rfl⟩

theorem FailedFrom.status_ne_zero {s t : State} (h : FailedFrom s t) : t.me.status ≠ 0 := by
  rcases h.status with hs | hs <;> rw [hs] <;> decide

/-- A command that ends with a code succeeds or has failed: the code it hands over itself is 0 or -2, and -2 comes with
nothing written (`Ends`). -/
theorem exec_code {i : Instr} {s t : State} (h : exec i s = .next t) : t.me.status = 0 ∨ FailedFrom s t := by
  rcases exec_next h with ⟨d, hd, rfl⟩ | rfl
  · rcases hd.code with hok | ⟨hcode, hmem, hcache, hresult, hres⟩
    · exact .inl (by rw [finish_status, hok]; rfl)
    · exact .inr
        { status := .inr (by rw [finish_status, hcode]; rfl)
          result := by rw [finish_result, hresult]; rfl
          resRe := by rw [finish_resRe, hres]; rfl
          resIm := by rw [finish_resIm, hres]; rfl
          mem := hmem
          featCache := hcache }
  · exact .inr (turnAway_failedFrom s)

/-- Settles O19, by `exec_code`; the argument registers and the other contexts are in the frame of every command. -/
theorem failedCommandChangesStatusAlone : Obligations.FailedCommandChangesStatusAlone := by
  intro i s t h hstatus
  obtain ⟨hargs, hothers, -⟩ := commandKeepsItsFrame i s t h
  have hfail := (exec_code h).resolve_left hstatus
  exact ⟨hargs, hfail.result, hfail.resRe, hfail.resIm, hothers, hfail.mem, hfail.featCache⟩

/-! ### The outcomes of an issued word -/

theorem argument_of_sameArgs {c d : Context} (h : c.sameArgs d) (r : ArgReg) : d.argument r = c.argument r := by
  obtain ⟨-, hn, hscale, hsre, hsim, hdre, hdim, hssre, hssim, hdsre, hdsim, hp, hq, -, -⟩ := h
  cases r <;> simp only [Context.argument, hn, hscale, hsre, hsim, hdre, hdim, hssre, hssim, hdsre, hdsim, hp, hq]

theorem setCmd_argument (s : State) (w : Word32) (r : ArgReg) : (s.setCmd w).me.argument r = s.me.argument r := by
  cases r <;> rfl

theorem enter_argument (s : State) (f : Footprint) (r : ArgReg) : (s.enter f).me.argument r = s.me.argument r := by
  cases r <;> rfl

/-- What a command that completed with a code leaves (R340, R343): the argument registers, the other contexts and the
record of faults, and where the code is not 0 all that `FailedFrom` names. -/
structure CompletedFrom (s t : State) : Prop where
  cfg : t.cfg = s.cfg
  before : t.before = s.before
  after : t.after = s.after
  args : ∀ r, t.me.argument r = s.me.argument r
  halted : t.me.halted = s.me.halted
  faults : t.faults = s.faults
  code : t.me.status = 0 ∨ FailedFrom s t

theorem exec_completedFrom {i : Instr} {s t : State} (h : exec i s = .next t) : CompletedFrom s t := by
  obtain ⟨hargs, ⟨hcfg, hbefore, hafter, -, -, -, hfaults⟩, -⟩ := commandKeepsItsFrame i s t h
  have hhalted : t.me.halted = s.me.halted := by
    obtain ⟨-, -, -, -, -, -, -, -, -, -, -, -, -, hhalted, -⟩ := hargs
    exact hhalted
  exact ⟨hcfg, hbefore, hafter, argument_of_sameArgs hargs, hhalted, hfaults, exec_code h⟩

theorem turnAway_completedFrom (s : State) : CompletedFrom s s.turnAway :=
  ⟨rfl, rfl, rfl, argument_of_sameArgs (turnAway_sameArgs s), rfl, rfl, .inr (turnAway_failedFrom s)⟩

/-- The log entry of a command touches no register and no fault. -/
theorem CompletedFrom.enter {s t : State} (h : CompletedFrom s t) (f : Footprint) : CompletedFrom s (t.enter f) where
  cfg := h.cfg
  before := h.before
  after := h.after
  args := fun r => (enter_argument t f r).trans (h.args r)
  halted := h.halted
  faults := h.faults
  code := h.code.imp id fun hf => ⟨hf.status, hf.result, hf.resRe, hf.resIm, hf.mem, hf.featCache⟩

/-- Every issued word has an outcome (R340): its command completes, or its context is halted. -/
theorem issue_outcome (w : Word32) (s : State) :
    ∃ t, issue w s = .next t ∧ (CompletedFrom (s.setCmd w) t ∨ HaltedFrom (s.setCmd w) t) := by
  cases hd : decode w with
  | error e => exact ⟨(s.setCmd w).turnAway, by simp only [issue, hd], .inl (turnAway_completedFrom _)⟩
  | ok i =>
    rw [issue_decoded hd]
    rcases recordCommand_exec i (s.setCmd w) with ⟨t, f, he, hu⟩ | ⟨u, hu, hh⟩
    · exact ⟨_, hu, .inl ((exec_completedFrom he).enter f)⟩
    · exact ⟨u, hu, .inr hh⟩

/-! ### A context that is halted -/

theorem not_canMove_of_halted {s : State} {c : Context} {f : Fault} (h : c.halted = some f) : s.canMove c = false := by
  simp only [State.canMove, h, Option.isNone_some, Bool.false_and]

/-- A run with a halted context has no end state (R387). -/
theorem endState_of_halted {s : State} {f : Fault} (h : s.me.halted = some f) : s.endState = none := by
  have hended : s.ended ≠ true := fun he => by
    simp only [State.ended, Bool.and_eq_true, List.all_eq_true] at he
    have hme := (he.1 s.me (mem_contexts.2 (.inr (.inl rfl)))).2
    rw [h] at hme
    cases hme
  exact if_neg hended

theorem HaltedFrom.argument {s u : State} (h : HaltedFrom s u) (r : ArgReg) : u.me.argument r = s.me.argument r := by
  obtain ⟨f, b, th, hme, -⟩ := h.me
  rw [hme]
  cases r <;> rfl

theorem HaltedFrom.results {s u : State} (h : HaltedFrom s u) : u.me.status = s.me.status ∧ u.me.result = s.me.result
    ∧ u.me.resRe = s.me.resRe ∧ u.me.resIm = s.me.resIm := by
  obtain ⟨f, b, th, hme, -⟩ := h.me
  rw [hme]
  exact ⟨rfl, rfl, rfl, rfl⟩

/-! ### Recorded faults -/

theorem issue_faults {w : Word32} {s t : State} (h : issue w s = .next t) : s.faults <:+ t.faults := by
  obtain ⟨u, hu, hout⟩ := issue_outcome w s
  obtain rfl : u = t := Host.Outcome.next.inj (hu.symm.trans h)
  rcases hout with hc | hh
  · rw [hc.faults]
    exact List.suffix_refl _
  · exact hh.grows

/-- Only a command records a fault, and a reset keeps the record (R344). -/
theorem hostAct_faults {a : HostAct} {s t : State} (h : hostAct a s = .next t) : s.faults <:+ t.faults := by
  cases a with
  | mov reg v =>
    simp only [hostAct] at h
    split at h
    · exact issue_faults h
    · cases h; exact List.suffix_refl _
  | cmd w => exact issue_faults h
  | rd reg =>
    simp only [hostAct] at h
    split at h <;> cases h <;> exact List.suffix_refl _
  | place a v =>
    cases h
    split <;> exact List.suffix_refl _
  | post k | await k | reset => cases h; exact List.suffix_refl _

theorem hostStep_faults {s t : State} (h : hostStep s = .next t) : s.faults <:+ t.faults := by
  rcases hostStep_cases h with ⟨p, rfl⟩ | ⟨a, k, -, ha⟩
  · exact List.suffix_refl _
  · exact hostAct_faults (s := s.setProg k) ha

@[simp] theorem focus_faults (s : State) (c : Nat) : (s.focus c).faults = s.faults := by
  unfold State.focus; split <;> rfl

/-- No step takes a recorded fault out (R344). -/
theorem step_faults {s t : State} (h : step s = .next t) : s.faults <:+ t.faults := by
  obtain ⟨sched, rfl | ⟨c, hc⟩⟩ := step_cases h
  · exact List.suffix_refl _
  · simpa only [focus_faults] using hostStep_faults hc

/-! ### The statement -/

/-- Settles O18: an issued word completes or halts its context (`issue_outcome`), and a step keeps the faults
(`step_faults`). -/
theorem commandEndsInOneOfFiveOutcomes : Obligations.CommandEndsInOneOfFiveOutcomes := by
  refine ⟨fun w s => ?_, fun s t => step_faults⟩
  obtain ⟨t, ht, hc | hh⟩ := issue_outcome w s
  · refine ⟨t, ht, hc.before, hc.after, hc.cfg, fun r => (hc.args r).trans (setCmd_argument s w r), ?_⟩
    rcases hc.code with hzero | hf
    · exact .inl ⟨hzero, hc.halted, hc.faults⟩
    · exact .inr (.inl ⟨hf.status, hf.result, hf.resRe, hf.resIm, hf.mem, hf.featCache, hc.halted, hc.faults⟩)
  · refine ⟨t, ht, hh.before, hh.after, hh.cfg, fun r => (hh.argument r).trans (setCmd_argument s w r), .inr (.inr ?_)⟩
    obtain ⟨f, b, th, hme, hrecord⟩ := hh.me
    have hhalted : t.me.halted = some f := by rw [hme]
    have hready : t.ready t.number = false := (ready_number t).trans (not_canMove_of_halted hhalted)
    obtain ⟨hstatus, hresult, hre, him⟩ := hh.results
    refine ⟨hstatus, hresult, hre, him, hready, endState_of_halted hhalted, ?_⟩
    rcases hrecord with ⟨hsame, rfl⟩ | ⟨hmem, hf⟩
    · exact .inr ⟨hhalted, hsame⟩
    · exact .inl ⟨f, hf, hhalted, hmem⟩

end Sys2Proof.Machine

namespace Sys2Proof.Machine

/-! ### The configurations that have an instance -/

theorem Ty.isOpen_iff (t : Ty) : t.isOpen = true ↔ t = .fext ∨ t = .mp ∨ t = .fix := by cases t <;> decide

/-- The bounds of R373, and an open type's record with its element size (log 28). -/
theorem Config.valid_iff (c : Config) :
    c.valid = true ↔ 2 ≤ c.lbuf ∧ c.lbuf ≤ 30 ∧ 1 ≤ c.q ∧ 2 * c.q ≤ c.lbuf
      ∧ (c.ty.isOpen = true → c.openRecord = true ∧ 0 < c.esOpen) ∧ 1 ≤ c.nctx := by
  have hopen : (!c.ty.isOpen || (c.openRecord && decide (0 < c.esOpen))) = true
      ↔ (c.ty.isOpen = true → c.openRecord = true ∧ 0 < c.esOpen) := by
    cases c.ty.isOpen <;> simp
  simp only [Config.valid, Bool.and_eq_true, hopen, decide_eq_true_eq, and_assoc]

/-- An open type breaks R373 without its record, and in the model with an element size of 0 (log 28). -/
theorem Config.open_breaks_iff (c : Config) :
    (c.ty = .fext ∨ c.ty = .mp ∨ c.ty = .fix) ∧ (c.openRecord = false ∨ c.esOpen = 0)
      ↔ ¬ (c.ty.isOpen = true → c.openRecord = true ∧ 0 < c.esOpen) := by
  rw [← Ty.isOpen_iff, Classical.not_imp, not_and_or, Bool.not_eq_true, Nat.pos_iff_ne_zero, not_not]

theorem Config.valid_eq_false_iff (c : Config) :
    c.valid = false ↔ c.lbuf < 2 ∨ 30 < c.lbuf ∨ c.q < 1 ∨ c.lbuf < 2 * c.q ∨ c.nctx < 1
      ∨ ((c.ty = .fext ∨ c.ty = .mp ∨ c.ty = .fix) ∧ (c.openRecord = false ∨ c.esOpen = 0)) := by
  rw [← Bool.not_eq_true, Config.valid_iff, Config.open_breaks_iff]
  simp only [not_and_or, Nat.not_le]
  rw [or_comm (a := c.nctx < 1)]

/-- The default `Q` meets the bounds (R9). -/
theorem defaultQ_bounds {lbuf : Nat} (h : 2 ≤ lbuf) : 1 ≤ defaultQ lbuf ∧ 2 * defaultQ lbuf ≤ lbuf := by
  unfold defaultQ
  omega

/-! ### A valid configuration always steps -/

/-- Every host act has a next state; a command has one by `issue_outcome` (R340). -/
theorem hostAct_next (a : HostAct) (s : State) : ∃ t, hostAct a s = .next t := by
  have hissue (w : Word32) : ∃ t, issue w s = .next t :=
    let ⟨t, ht, _⟩ := issue_outcome w s
    ⟨t, ht⟩
  cases a with
  | mov reg v =>
    by_cases hreg : reg = 0
    · simpa only [hostAct, if_pos hreg] using hissue (BitVec.ofNat 32 v)
    · exact ⟨_, hostAct_mov v hreg⟩
  | cmd w => exact hissue w
  | rd reg =>
    cases hread : readReg s.cfg s.me reg with
    | some x => exact ⟨_, hostAct_rd hread⟩
    | none => exact ⟨s, by simp only [hostAct, hread]⟩
  | place _ _ | post _ | await _ | reset => exact ⟨_, rfl⟩

theorem hostStep_next (s : State) : ∃ t, hostStep s = .next t := by
  cases hprog : s.me.thread.prog with
  | done => exact ⟨s, by simp only [hostStep, hprog]⟩
  | ifRead reg v yes no => exact ⟨_, by simp only [hostStep, hprog]; rfl⟩
  | act a rest => simpa only [hostStep, hprog] using hostAct_next a (s.setProg rest)

/-- A context that moves takes its host step, and where none moves at most the schedule advances (log 17). -/
theorem step_next {s : State} (hv : s.cfg.valid = true) : ∃ t, step s = .next t := by
  cases hs : s.sched with
  | cons c rest =>
    by_cases hr : s.ready c = true
    · exact step_scheduled hv hs hr ▸ hostStep_next _
    · exact ⟨{ s with sched := rest }, by simp only [step, if_pos hv, machineStep, hs, if_neg hr]⟩
  | nil =>
    cases hf : s.firstReady 0 s.contexts.length with
    | some c => exact step_firstReady hv hs hf ▸ hostStep_next _
    | none => exact ⟨s, by simp only [step, if_pos hv, machineStep, hs, hf]⟩

/-- Nothing runs in a configuration that has no instance (R373). -/
theorem step_refused {s : State} (hv : s.cfg.valid = false) : step s = .refused .invalidConfiguration := by
  simp only [step, hv, Bool.false_eq_true, if_false]

/-- Settles O11, by the bounds of `valid` and the next state every host step has. -/
theorem invalidConfigurationsAreRefused : Obligations.InvalidConfigurationsAreRefused :=
  fun s => ⟨Config.valid_eq_false_iff s.cfg, step_refused, step_next, defaultQ_bounds⟩

end Sys2Proof.Machine
